-- ==== Sys2Proof/Word.lean ====
section
/-! DEFINITION. The word types of the block (spec/00_scope.md R6); the arithmetic of R7 is in Machine/Operands.lean. -/

namespace Sys2Proof

/-- Every register and every outbound word is 32 bits wide (R6). -/
abbrev Word := BitVec 32

/-- Eight-bit values: signal ids, multiplexer ids, thermal codes (R5, R6). -/
abbrev Byte := BitVec 8

/-- A level index, u8 (R22); level 0 has the highest frequency (R5). -/
abbrev Level := BitVec 8

end Sys2Proof
end

