-- ==== Sys2Proof/Syntax.lean ====
section
/-! DEFINITION. The commands of the block (spec/30_encoding.md R91, R93; spec/opcode_table.json), one constructor per row. -/

namespace Sys2Proof

/-- A host command with the operands captured from ARG0 and ARG1 when CMD was accepted (R93, R101). -/
inductive Instr where
  /-- POLICY (R123): ask the governor for `desired` Hz. -/
  | policy (desired : Word)
  /-- TRANSITION (R124): ask the Transition Engine itself for `requested` Hz. -/
  | transition (requested : Word)
  /-- SET_BOUNDS (R125): store the QoS bounds. -/
  | setBounds (min max : Word)
  /-- COLD (R126): the external cold-temperature signal, asserted or deasserted. -/
  | cold (asserted : Bool)
  deriving DecidableEq, Repr

end Sys2Proof
end

