-- ==== Sys2Proof/WellFormed.lean ====
section
/-! DEFINITION. Which captured commands are legal (spec/30_encoding.md R92, R102). Every term of `Instr` is
well-formed, since each operand's width stands in its type (R100); the checks are on what the host wrote. The check on
a configuration (R4) is `Config.wf` in Machine/Tables.lean. -/

namespace Sys2Proof

/-- A CMD write as the block captures it (R101, R120): the low four bits, whether any reserved bit is set, and the
two argument registers. -/
structure Cmd where
  op : BitVec 4
  rsvdNz : Bool
  a0 : Word
  a1 : Word
  deriving DecidableEq, Repr

/-- R92: bits [31:4] are zero. -/
def Cmd.reservedClear (c : Cmd) : Bool := !c.rsvdNz

/-- R91: the opcode is one of the four. -/
def Cmd.opKnown (c : Cmd) : Bool := decide (1 ≤ c.op.toNat ∧ c.op.toNat ≤ 4)

/-- R102: a word is legal iff its reserved bits are clear and its opcode is known. -/
def Cmd.wf (c : Cmd) : Bool := c.reservedClear && c.opKnown

end Sys2Proof
end

