-- ==== Sys2Proof/Decode.lean ====
section
/-! DEFINITION. Decoding of command words, total and rejecting by name (spec/30_encoding.md R90 to R93, R101, R102),
and the encoder written from the same tables. -/

namespace Sys2Proof

/-- Why a command word is illegal (R92). An illegal word is no refusal of the model: it completes as IllegalCommand. -/
inductive Illegal where
  /-- Some bit of [31:4] is set. -/
  | reservedBits
  /-- The reserved bits are clear and OP is 0 or 5 to 15. -/
  | unknownOp
  deriving DecidableEq, Repr

/-- R101: what the block keeps of a CMD write and of the argument registers at that instant. -/
def capture (w a0 a1 : Word) : Cmd where
  op := w.extractLsb' 0 4
  rsvdNz := w.extractLsb' 4 28 != 0
  a0 := a0
  a1 := a1

/-- R91, R92, R93: the operation a captured command selects. COLD reads only ARG0[0]. -/
def decodeCmd (c : Cmd) : Except Illegal Instr :=
  if c.rsvdNz then .error .reservedBits
  else match c.op.toNat with
    | 1 => .ok (.policy c.a0)
    | 2 => .ok (.transition c.a0)
    | 3 => .ok (.setBounds c.a0 c.a1)
    | 4 => .ok (.cold (c.a0.getLsbD 0))
    | _ => .error .unknownOp

/-- R102: every word written to CMD, with the argument words beside it, decodes or is illegal. -/
def decode (w a0 a1 : Word) : Except Illegal Instr := decodeCmd (capture w a0 a1)

/-- The words a host writes to CMD, ARG0 and ARG1 for a command (R91, R93, R105); an operand word the command ignores
is written zero. -/
def encode : Instr → Word × Word × Word
  | .policy desired => (0x00000001#32, desired, 0)
  | .transition requested => (0x00000002#32, requested, 0)
  | .setBounds min max => (0x00000003#32, min, max)
  | .cold asserted => (0x00000004#32, if asserted then 1 else 0, 0)

/-- The command of a numbered run of bits: CMD in bits 31..0, then ARG0, then ARG1, and every bit from `nbits` up zero. -/
def captureBits (nbits w : Nat) : Cmd :=
  let v := w % 2 ^ nbits
  capture (BitVec.ofNat 32 v) (BitVec.ofNat 32 (v / 2 ^ 32)) (BitVec.ofNat 32 (v / 2 ^ 64))

/-- The command the decoder reads from a word numbered as spec/opcode_table.json numbers it, with operand words of
zeros above `nbits`; none where the word is illegal. -/
def decodeTableWord (nbits w : Nat) : Option Instr :=
  match decodeCmd (captureBits nbits w) with
  | .ok i => some i
  | .error _ => none

end Sys2Proof
end

