-- ==== Sys2Proof/Machine/HostProgram.lean ====
section
/-! DEFINITION. The text of host programs (spec/30_encoding.md R104, R105): their lines, the pseudo-instructions'
expansions, and where the host is in its program. A comment carries no meaning and is no line. How a line is performed
is in Machine/Ops.lean, and a run of a program in Machine/HostRun.lean. -/

namespace Sys2Proof.Machine

/-- The registers by name (R94). -/
inductive Reg where
  | cmd | arg0 | arg1 | status | result | curLevel | curVolt | ceiling | qosMin | qosMax | lastReq | thermOffset
  | intStatus | intEnable | errInfo | errSnap | dllLock | pllCur | tickRemain
  | chLevel (c : Nat)
  deriving DecidableEq, Repr

/-- R94: the offset of a register. -/
def Reg.offset : Reg → Nat
  | .cmd => 0x00
  | .arg0 => 0x04
  | .arg1 => 0x08
  | .status => 0x0C
  | .result => 0x10
  | .curLevel => 0x14
  | .curVolt => 0x18
  | .ceiling => 0x1C
  | .qosMin => 0x20
  | .qosMax => 0x24
  | .lastReq => 0x28
  | .thermOffset => 0x2C
  | .intStatus => 0x30
  | .intEnable => 0x34
  | .errInfo => 0x38
  | .errSnap => 0x3C
  | .dllLock => 0x40
  | .pllCur => 0x44
  | .tickRemain => 0x48
  | .chLevel c => 0x80 + 4 * c

/-- R104: where a line goes, written by register name or by number. -/
inductive Place where
  | reg (r : Reg)
  | number (off : Nat)
  deriving DecidableEq, Repr

/-- R104: the offset of a place. -/
def Place.offset : Place → Nat
  | .reg r => r.offset
  | .number off => off

/-- R104: the base operations. -/
inductive HostOp where
  /-- One write. -/
  | wr (p : Place) (v : Word)
  /-- One read into the host variable `name`. -/
  | rd (p : Place) (name : String)
  /-- Reads until `(word & mask) = val`. -/
  | pollRd (p : Place) (mask val : Word)
  deriving DecidableEq, Repr

/-- R105: the pseudo-instructions. -/
inductive Pseudo where
  | policy (f : Word)
  | transition (f : Word)
  | setBounds (lo hi : Word)
  | cold (b : Word)
  | waitIdle
  | ack (m : Word)
  deriving DecidableEq, Repr

/-- R105: a pseudo-instruction's expansion. -/
def Pseudo.expand : Pseudo → List HostOp
  | .policy f => [.wr (.reg .arg0) f, .wr (.reg .cmd) 0x1]
  | .transition f => [.wr (.reg .arg0) f, .wr (.reg .cmd) 0x2]
  | .setBounds lo hi => [.wr (.reg .arg0) lo, .wr (.reg .arg1) hi, .wr (.reg .cmd) 0x3]
  | .cold b => [.wr (.reg .arg0) b, .wr (.reg .cmd) 0x4]
  | .waitIdle => [.pollRd (.reg .status) 0x1 0x0]
  | .ack m => [.wr (.reg .intStatus) m]

/-- R104, R105: one line of a program. -/
inductive HostLine where
  | op (o : HostOp)
  | pseudo (p : Pseudo)
  deriving DecidableEq, Repr

/-- The operations a line stands for. -/
def HostLine.ops : HostLine → List HostOp
  | .op o => [o]
  | .pseudo p => p.expand

/-- R104: the host as the block meets it: the operations it still has to do, and its variables, the latest first. -/
structure HostSide where
  todo : List HostOp
  vars : List (String × Word)
  deriving DecidableEq, Repr

/-- R104: the host after a transaction of `op` that was answered `answer`, with `rest` to do after `op`: POLLRD stays
until its word matches. An access outside the window is not answered by this block (log 12): RD is then over with its
variable as it was, and POLLRD reads again. -/
def HostSide.answered (h : HostSide) (op : HostOp) (rest : List HostOp) (answer : Option Word) : HostSide :=
  match op, answer with
  | .wr _ _, _ => { h with todo := rest }
  | .rd _ name, some w => { todo := rest, vars := (name, w) :: h.vars }
  | .rd _ _, none => { h with todo := rest }
  | .pollRd _ mask val, some w => if w &&& mask = val then { h with todo := rest } else h
  | .pollRd _ _ _, none => h

end Sys2Proof.Machine
end

