-- ==== Sys2Proof/Config.lean ====
section
/-! DEFINITION. What an implementation fixes (spec/00_scope.md R5), held as plain data and the free values of the
model. The lookups, the well-formedness check and the spec's example configuration are in Machine/Tables.lean. -/

namespace Sys2Proof

/-- `SWITCH_ORDER` (R5): the order of the multiplexer and divider calls on the simple path. -/
inductive SwitchOrder where
  | muxThenDiv
  | divThenMux
  deriving DecidableEq, Repr, Inhabited

/-- The thermal states, in order of severity (R30, R221). -/
inductive ThermState where
  | normal
  | reduced
  | halfRate
  | quarterRate
  | tripped
  deriving DecidableEq, Repr, Inhabited

/-- One value for each thermal state below Tripped (R221). -/
structure PerState where
  normal : Word
  reduced : Word
  halfRate : Word
  quarterRate : Word
  deriving DecidableEq, Repr, Inhabited

/-- The tables' entries for one operating point (R5). -/
structure Opp where
  /-- `FREQ[i]`, Hz. -/
  freq : Word
  /-- `VOLT[i]`, µV. -/
  volt : Word
  /-- `TP[i][k]`, `TPW` words. -/
  timing : List Word
  /-- `DVFS_OFFSET[i]`, s32 in two's complement. -/
  dvfsOffset : Word
  /-- `PLL_CFG[i]`. -/
  pllCfg : Word
  /-- `PLAN_MUX[i]`: (multiplexer, source) pairs in list order. -/
  planMux : List (Byte × Byte)
  /-- `PLAN_DIV[i]`, Hz. -/
  planDiv : Word
  /-- `SWITCH_ORDER(i, t)` for each target t. -/
  orderTo : List SwitchOrder
  /-- `AREF_VAL[i][s]`, s = 0..3. -/
  aref : PerState
  deriving DecidableEq, Repr, Inhabited

/-- An entry of `DLL_CTRL_WORD` given by a row of its own. -/
structure DllCtrlRow where
  forced : Bool
  lock : Word
  word : Word
  deriving DecidableEq, Repr, Inhabited

/-- `DLL_CTRL_WORD(f, v)` (R5, R103) as data: the listed rows, and for every other argument a word built from a base, a
word of bits set when forced, and the lock value shifted. Every function of f and v is some such table. -/
structure DllCtrl where
  rows : List DllCtrlRow
  base : Word
  forcedBits : Word
  shift : Nat
  deriving DecidableEq, Repr, Inhabited

/-- The parameters of the Thermal Monitor (R5, R220). -/
structure Thermal where
  /-- `MRR_CMD(c, 0)` and `MRR_CMD(c, 1)` for each channel c; the list's length is `NCH`. -/
  mrrCmd : List (Word × Word)
  /-- `CODE_W`. -/
  codeW : Nat
  offMrrCmd : Nat
  offMrrStat : Nat
  mrrDoneMask : Word
  offMrrData : Nat
  /-- `TH[1]` to `TH[4]`: the lowest codes of Reduced, HalfRate, QuarterRate, Tripped. -/
  th1 : Nat
  th2 : Nat
  th3 : Nat
  th4 : Nat
  /-- `HYST`; the spec's default is 0. -/
  hyst : Nat := 0
  /-- `CEIL[0]` to `CEIL[3]`. -/
  ceil : PerState
  /-- `CEIL[4]`; none takes the spec's default, `FREQ[NLEVELS - 1]` (`Config.ceilAt`). -/
  ceilTripped : Option Word := none
  /-- `POLL_MS[0]` to `POLL_MS[3]`. -/
  pollMs : PerState
  deriving DecidableEq, Repr, Inhabited

/-- A configuration (R5). `NLEVELS` is the length of `opps`; `HAS_THERMAL` is 1 iff `thermal` is present. -/
structure Config where
  opps : List Opp
  /-- `TPW`. -/
  tpw : Nat
  safeLevel : Level
  /-- `DLL_FREE_LEVEL`; the spec's default is 0. -/
  dllFreeLevel : Level := 0
  bootLevel : Level
  bootLock : Word
  primaryMux : Byte
  pllId : Byte
  primaryDiv : Byte
  safeSrc : Byte
  pllSrc : Byte
  waitMax : Nat
  waitDelayUs : Nat
  /-- `COLD_OFFSET`, s32 in two's complement. -/
  coldOffset : Word
  lockW : Nat
  offTsel : Nat
  tselBit : Nat
  /-- `OFF_TSET(0, k)` for each k. -/
  offTset0 : List Nat
  /-- `OFF_TSET(1, k)` for each k. -/
  offTset1 : List Nat
  offAref : Nat
  offDllCtrl : Nat
  dllCtrl : DllCtrl
  offDllStat : Nat
  dllLockMask : Word
  lockShift : Nat
  mmioBase : Nat
  thermal : Option Thermal
  deriving DecidableEq, Repr, Inhabited

/-- Which of two ready operations the arbiter starts (R274). -/
inductive Pick where
  | cmd
  | tick
  deriving DecidableEq, Repr, Inhabited

/-- DESIGN CHOICE (log 6): the environment's answer to an outbound read that no script of the state gives (R66, I16):
a free value of the draw's number. Safe: nothing constrains it. -/
opaque Config.freeWord : Nat → Word

/-- DESIGN CHOICE (log 6): the environment's answer to a poll that no script of the state gives (R67, I17). Safe. -/
opaque Config.freeBit : Nat → Bool

/-- DESIGN CHOICE (log 7): the arbiter's choice when no turn of the state says it (R274, I20). Safe. -/
opaque Config.freePick : Nat → Pick

end Sys2Proof
end

