-- ==== Sys2Proof/Machine/Tables.lean ====
section
/-! DEFINITION. Lookups in a configuration (spec/00_scope.md R5), its well-formedness (R4), and the spec's example
configuration CFG-A (spec/95_test_vectors.md section 0). A lookup outside a table, which a well-formed configuration
and a state that keeps the invariant never make, reads a default entry (log 17). -/

namespace Sys2Proof

/-- R30: the number of a thermal state. -/
def ThermState.code : ThermState → Nat
  | .normal => 0
  | .reduced => 1
  | .halfRate => 2
  | .quarterRate => 3
  | .tripped => 4

/-- The entry of a thermal state; Tripped reads the QuarterRate entry, `min(s, 3)` of R173. -/
def PerState.get (p : PerState) : ThermState → Word
  | .normal => p.normal
  | .reduced => p.reduced
  | .halfRate => p.halfRate
  | .quarterRate => p.quarterRate
  | .tripped => p.quarterRate

/-- `NCH` (R5). -/
def Thermal.channels (th : Thermal) : Nat := th.mrrCmd.length

/-- `DLL_CTRL_WORD(f, v)` (R5, R103): the row for (f, v) if there is one, else the word built from the fields. -/
def DllCtrl.word (d : DllCtrl) (forced : Bool) (lock : Word) : Word :=
  match d.rows.find? (fun r => r.forced == forced && r.lock == lock) with
  | some r => r.word
  | none => d.base ||| (if forced then d.forcedBits else 0) ||| (lock <<< d.shift)

/-- `NLEVELS` (R5). -/
def Config.nLevels (c : Config) : Nat := c.opps.length

/-- The operating point of a level (R5). -/
def Config.opp (c : Config) (l : Level) : Opp := c.opps.getD l.toNat default

/-- The lowest level, `NLEVELS - 1` (R9). -/
def Config.lowest (c : Config) : Level := BitVec.ofNat 8 (c.nLevels - 1)

/-- `FREQ[l]`. -/
def Config.freqAt (c : Config) (l : Level) : Word := (c.opp l).freq

/-- `CEIL[s]`, s = 0..4 (R5, R221); `CEIL[4]` is the lowest frequency where the configuration does not give it (D34). -/
def Config.ceilAt (c : Config) (th : Thermal) : ThermState → Word
  | .normal => th.ceil.normal
  | .reduced => th.ceil.reduced
  | .halfRate => th.ceil.halfRate
  | .quarterRate => th.ceil.quarterRate
  | .tripped => th.ceilTripped.getD (c.freqAt c.lowest)

/-- `VOLT[l]`. -/
def Config.voltAt (c : Config) (l : Level) : Word := (c.opp l).volt

/-- `PLL_CFG[l]`. -/
def Config.pllAt (c : Config) (l : Level) : Word := (c.opp l).pllCfg

/-- `SWITCH_ORDER(o, t)`. -/
def Config.switchOrder (c : Config) (o t : Level) : SwitchOrder := (c.opp o).orderTo.getD t.toNat .muxThenDiv

/-- `AREF_VAL[l][min(s, 3)]` (R173). -/
def Config.arefAt (c : Config) (l : Level) (s : ThermState) : Word := (c.opp l).aref.get s

/-- The offsets of timing set 0 or 1, `OFF_TSET(s, 0)` to `OFF_TSET(s, TPW - 1)`. -/
def Config.timingSet (c : Config) (one : Bool) : List Nat := if one then c.offTset1 else c.offTset0

/-- R220: `HAS_THERMAL` = 1. -/
def Config.hasThermal (c : Config) : Bool := c.thermal.isSome

/-- `NCH`, 0 without a monitor. -/
def Config.channels (c : Config) : Nat :=
  match c.thermal with
  | some th => th.channels
  | none => 0

/-- R4.2: the frequencies of adjacent levels fall strictly. -/
def fallsStrictly : List Word → Bool
  | a :: b :: rest => decide (b.toNat < a.toNat) && fallsStrictly (b :: rest)
  | _ => true

/-- The entries do not rise from Normal to QuarterRate (R4.5, R221). -/
def PerState.nonRising (p : PerState) : Bool :=
  decide (p.reduced.toNat ≤ p.normal.toNat) && decide (p.halfRate.toNat ≤ p.reduced.toNat) &&
    decide (p.quarterRate.toNat ≤ p.halfRate.toNat)

/-- R4.1: the number of levels. -/
def Config.wfLevelCount (c : Config) : Bool := decide (1 ≤ c.nLevels ∧ c.nLevels ≤ 256)

/-- R4.2: the frequencies. -/
def Config.wfFreqs (c : Config) : Bool :=
  fallsStrictly (c.opps.map Opp.freq) && decide (1 ≤ (c.freqAt c.lowest).toNat)

/-- R4.3: the named levels exist. -/
def Config.wfNamedLevels (c : Config) : Bool :=
  decide (c.safeLevel.toNat < c.nLevels) && decide (c.dllFreeLevel.toNat < c.nLevels) &&
    decide (c.bootLevel.toNat < c.nLevels)

/-- R4.4: the budget, the profile length, the lock width, the select bit; and the ranges R5 gives `LOCK_SHIFT` and
`BOOT_LOCK`. -/
def Config.wfEngine (c : Config) : Bool :=
  decide (1 ≤ c.waitMax) && decide (1 ≤ c.tpw) && decide (1 ≤ c.lockW ∧ c.lockW ≤ 32) && decide (c.tselBit ≤ 31) &&
    decide (c.lockShift ≤ 31) && decide (c.bootLock.toNat < 2 ^ c.lockW)

/-- R5: every table has the shape its indices give it (log 18). -/
def Config.wfShape (c : Config) : Bool :=
  c.opps.all (fun p => p.timing.length == c.tpw && p.orderTo.length == c.nLevels) &&
    c.offTset0.length == c.tpw && c.offTset1.length == c.tpw

/-- R4.5: channels and code width. -/
def Thermal.wfWidths (th : Thermal) : Bool :=
  decide (1 ≤ th.channels ∧ th.channels ≤ 16) && decide (1 ≤ th.codeW ∧ th.codeW ≤ 8)

/-- R4.5: the thresholds. -/
def Thermal.wfThresholds (th : Thermal) : Bool :=
  decide (th.th1 ≤ th.th2) && decide (th.th2 ≤ th.th3) && decide (th.th3 ≤ th.th4) && decide (th.th4 ≤ 2 ^ th.codeW)

/-- R4.5: the ceilings. -/
def Config.wfCeilings (c : Config) (th : Thermal) : Bool :=
  th.ceil.nonRising && decide ((c.ceilAt th .tripped).toNat ≤ (c.ceilAt th .quarterRate).toNat)

/-- R4.5: the poll intervals. -/
def Thermal.wfPollMs (th : Thermal) : Bool :=
  decide (th.pollMs.normal = 1000) && decide (th.pollMs.quarterRate = 100) && th.pollMs.nonRising

/-- R4.5: the monitor's part, checked iff there is a monitor. -/
def Config.wfThermal (c : Config) : Bool :=
  match c.thermal with
  | none => true
  | some th => th.wfWidths && th.wfThresholds && c.wfCeilings th && th.wfPollMs && c.opps.all (fun p => p.aref.nonRising)

/-- R4: a configuration is well-formed. The model refuses every other one (I14). -/
def Config.wf (c : Config) : Bool :=
  c.wfLevelCount && c.wfFreqs && c.wfNamedLevels && c.wfEngine && c.wfShape && c.wfThermal

/-- CFG-A of spec/95_test_vectors.md section 0, `BOOT_LEVEL` 1: the spec's example, not the hardware's tables.
DESIGN CHOICE (log 2): `State.reset` uses it, since the spec gives no tables. Unsafe for claims about `State.reset` only. -/
def Config.exampleA : Config where
  opps := [
    { freq := 800000000, volt := 1050000, timing := [0x00000A0A, 0x000000A0], dvfsOffset := 0, pllCfg := 0x00000320,
      planMux := [(0, 0)], planDiv := 800000000, orderTo := [.muxThenDiv, .muxThenDiv],
      aref := ⟨0x1000, 0x0800, 0x0400, 0x0200⟩ },
    { freq := 400000000, volt := 950000, timing := [0x00000505, 0x00000050], dvfsOffset := -10, pllCfg := 0x00000320,
      planMux := [(0, 0)], planDiv := 400000000, orderTo := [.muxThenDiv, .muxThenDiv],
      aref := ⟨0x0800, 0x0400, 0x0200, 0x0100⟩ }]
  tpw := 2
  safeLevel := 1
  bootLevel := 1
  bootLock := 0x05A
  primaryMux := 0
  pllId := 0
  primaryDiv := 0
  safeSrc := 1
  pllSrc := 0
  waitMax := 3
  waitDelayUs := 1
  coldOffset := 25000
  lockW := 9
  offTsel := 0x100
  tselBit := 0
  offTset0 := [0x200, 0x204]
  offTset1 := [0x240, 0x244]
  offAref := 0x300
  offDllCtrl := 0x10
  dllCtrl := { rows := [], base := 0, forcedBits := 0x10000, shift := 0 }
  offDllStat := 0x14
  dllLockMask := 0x00000001
  lockShift := 8
  mmioBase := 0
  thermal := some {
    mrrCmd := [(0x00000004, 0x00000014)]
    codeW := 3
    offMrrCmd := 0x400
    offMrrStat := 0x404
    mrrDoneMask := 0x00000001
    offMrrData := 0x408
    th1 := 3, th2 := 4, th3 := 5, th4 := 6
    hyst := 1
    ceil := ⟨800000000, 800000000, 400000000, 400000000⟩
    ceilTripped := some 400000000
    pollMs := ⟨1000, 500, 200, 100⟩ }

end Sys2Proof
end

