-- ==== Sys2Proof/Machine/State.lean ====
section
/-! DEFINITION. The state of the block (spec/10_state.md R20 to R43) as plain data, the reasons a step can stop, and the
state after reset (spec/70_reset_and_hazards.md R320). -/

namespace Sys2Proof.Machine

/-- The sequencer steps (R21); no other value is ever taken. -/
inductive SeqStep where
  | idle | cmdDecode | resolve | dllCapture | voltUp | timingPre | clkSimple | timingPost | dllPost | arefWrite
  | voltDown | coldVolt | done
  | pss1SafeMux | pss2SafeTiming | pss3Wait | pss4Pll | pss5TargetTiming | pss6TargetMux | pss7Wait
  | monSample | monUpdate | monAref | monReeval
  deriving DecidableEq, Repr

/-- Who holds the serialization lock (R42). -/
inductive LockOwner where
  | none | cmd | tick
  deriving DecidableEq, Repr

/-- Who asked for the transition in progress (R43, R150). -/
inductive Origin where
  | cmd | tick
  deriving DecidableEq, Repr

/-- The outbound register windows (R60). -/
inductive Window where
  | drex | phy
  deriving DecidableEq, Repr

/-- The primitive calls (R60, R67). -/
inductive Prim where
  | setVoltage (uV : Word)
  | setPllRate (pll : Byte) (cfg : Word)
  | setMuxParent (mux src : Byte)
  | setDivider (div : Byte) (hz : Word)
  deriving DecidableEq, Repr

/-- The completion signals (R67). -/
inductive Signal where
  | voltDone | pllLocked | divDone
  | muxSettled (mux : Byte)
  | pauseDone | dllLocked | mrrDone
  deriving DecidableEq, Repr

/-- One entry of the outbound trace (R76). -/
inductive Event where
  | wr (w : Window) (off : Nat) (v : Word)
  | rd (w : Window) (off : Nat) (v : Word)
  | call (p : Prim)
  | poll (sig : Signal) (b : Bool)
  | notify (level : Byte) (channel : Nat)
  | shutdown
  deriving DecidableEq, Repr

/-- What a host access does (R61). -/
inductive Direction where
  | read
  | write (v : Word)
  deriving DecidableEq, Repr

/-- A host access on the interconnect: its address, its size in bytes, and its direction (R61, R104). -/
structure Access where
  addr : Nat
  bytes : Nat
  dir : Direction
  deriving DecidableEq, Repr

/-- What comes to the block from outside, in order. Between two sequencer actions come any number of accesses and
strobes, and then the sequencer's turn (R64, R69, R283; log 4). -/
inductive Input where
  /-- A host access (R64). -/
  | access (a : Access)
  /-- The next bus transaction of the host program, if it has one left (R104): like any access, it falls at any point
  (R283, I21; log 22). -/
  | host
  /-- One pulse of the millisecond strobe (R222). -/
  | msTick
  /-- One pulse of the reset input (R320). -/
  | rst
  /-- The sequencer takes its next action; at IDLE with both a command and a tick ready it starts `pick` (R274). -/
  | turn (pick : Pick)
  deriving DecidableEq, Repr

/-- The model's own fields: the coming inputs and answers of the environment, and what was observed. -/
structure Env where
  /-- The coming inputs; when none is left, nothing more comes from outside (log 4). -/
  inputs : List Input
  /-- The coming answers to outbound reads; then free values (R66, log 6). -/
  readAnswers : List Word
  /-- The coming answers to polls; then free values (R67, log 6). -/
  pollAnswers : List Bool
  /-- How many answers and choices were drawn: the argument of the free values. -/
  draws : Nat
  /-- The ownership obligation of R40 and R72 holds (log 8). -/
  owned : Bool
  /-- The word the block last wrote at `OFF_TSEL` since reset (R40). -/
  selWord : Option Word
  /-- The word the block last wrote at `OFF_AREF` since reset (R40). -/
  arefWord : Option Word
  /-- The word the block last wrote at `OFF_DLL_CTRL` since reset (R40). -/
  dllCtrlWord : Option Word
  /-- The outbound trace (R76), oldest first. -/
  trace : List Event
  /-- The words answered to host reads, oldest first (R65, R104). -/
  replies : List Word
  /-- The host program: what is left of it, and its variables (R104; log 22). -/
  host : HostSide
  deriving DecidableEq, Repr

/-- The state of one block. Field names are those of spec/10_state.md. -/
structure State where
  /-- The configuration (R5), which no step writes (R41; log 1). -/
  cfg : Config
  /-- R21. -/
  step : SeqStep
  /-- R42. -/
  lockOwner : LockOwner
  /-- R22. -/
  currentLevel : Level
  /-- R23, µV. -/
  currentVoltage : Word
  /-- R24, s32 µV in two's complement. -/
  thermalOffset : Word
  /-- R25. -/
  dllForced : Bool
  /-- R25. -/
  dllLocked : Bool
  /-- R26, u(LOCK_W). -/
  pendingLock : Word
  /-- R27. -/
  safePllLevel : Level
  /-- R28. -/
  pllCur : Word
  /-- R29. -/
  qosMin : Word
  /-- R29. -/
  qosMax : Word
  /-- R29. -/
  lastRequested : Word
  /-- R30. -/
  thermState : ThermState
  /-- R31: the pair of rank codes of each channel. -/
  rankLevel : List (Byte × Byte)
  /-- R32. -/
  sampled : Bool
  /-- R33, ms. -/
  tickRemaining : Word
  /-- R33. -/
  tickPending : Bool
  /-- R33. -/
  monStopped : Bool
  /-- R35, R101. -/
  slot : Option Cmd
  /-- R35. -/
  cmdActive : Bool
  /-- R36. -/
  arg0 : Word
  /-- R36. -/
  arg1 : Word
  /-- R37, Hz. -/
  result : Word
  /-- R38. -/
  err : BitVec 4
  /-- R38. -/
  errStep : Byte
  /-- R38. -/
  errSig : Byte
  /-- R38. -/
  errArg : Byte
  /-- R38. -/
  errSnap : Word
  /-- R39. -/
  intStatus : BitVec 6
  /-- R39. -/
  intEnable : BitVec 6
  /-- R43, hidden: undefined while IDLE, as the five fields after it (log 9). -/
  old : Level
  /-- R43, hidden. -/
  target : Level
  /-- R43, hidden. -/
  origin : Origin
  /-- R43, hidden. -/
  attempt : Nat
  /-- R43, hidden: the samples of the tick in progress. -/
  sample : List (Byte × Byte)
  /-- R43, hidden. -/
  lastWord : Word
  /-- The model's own fields. -/
  env : Env
  deriving DecidableEq, Repr

/-- Why the machine stops with a fault. -/
inductive Fault where
  /-- Raised by a host access inside the window that is not 4 bytes or not 4-byte aligned (R61, R278): a bus error, a
  fault of the host program. Safe: the spec itself makes the run end there. -/
  | busError (offset bytes : Nat)
  deriving DecidableEq, Repr

/-- Why a step has no meaning. -/
inductive Refusal where
  /-- Raised by exec's arm of an instruction that has no meaning yet. Safe. -/
  | notModelled (mnemonic : String)
  /-- Raised by every step and every command of a state whose configuration breaks R4 (I14, D49). Safe: the spec
  refuses it. -/
  | configIllFormed
  deriving DecidableEq, Repr

/-- Nothing to come and nothing observed, under the launch premises of R324. -/
def Env.fresh : Env where
  inputs := []
  readAnswers := []
  pollAnswers := []
  draws := 0
  owned := true
  selWord := none
  arefWord := none
  dllCtrlWord := none
  trace := []
  replies := []
  host := { todo := [], vars := [] }

/-- R320: every field of the block at its reset value, for a configuration. The hidden fields `old`, `target`,
`origin` and `sample` are unspecified there; the values here are DESIGN CHOICE (log 9), and nothing reads them. The
domain's own state at the release of reset is the launch premise `BootPrecondition` (R324, log 21). -/
def State.resetOf (c : Config) (e : Env) : State where
  cfg := c
  step := .idle
  lockOwner := .none
  currentLevel := c.bootLevel
  currentVoltage := c.voltAt c.bootLevel
  thermalOffset := 0
  dllForced := c.bootLevel != c.dllFreeLevel
  dllLocked := c.bootLevel == c.dllFreeLevel
  pendingLock := c.bootLock
  safePllLevel := c.safeLevel
  pllCur := c.pllAt c.bootLevel
  qosMin := 0
  qosMax := 0xFFFFFFFF
  lastRequested := c.freqAt c.bootLevel
  thermState := .normal
  rankLevel := List.replicate c.channels (0, 0)
  sampled := false
  tickRemaining := 1000
  tickPending := false
  monStopped := !c.hasThermal
  slot := none
  cmdActive := false
  arg0 := 0
  arg1 := 0
  result := 0
  err := 0
  errStep := 0
  errSig := 0
  errArg := 0
  errSnap := 0
  intStatus := 0
  intEnable := 0
  old := c.bootLevel
  target := c.bootLevel
  origin := .cmd
  attempt := 0
  sample := []
  lastWord := 0
  env := e

/-- The block right after reset, with the spec's example configuration (log 2) and nothing to come. -/
def State.reset : State := State.resetOf Config.exampleA Env.fresh

end Sys2Proof.Machine
end

