-- ==== Sys2Proof/Machine/Operands.lean ====
section
/-! DEFINITION. The arithmetic of spec/00_scope.md R7 and the derived functions every command reads its operands
through (R9), the lock arithmetic (spec/41_transition_engine.md R155, R172), the threshold map
(spec/42_thermal_monitor.md R231, R232), and the numbers of steps and signals (spec/10_state.md R21,
spec/20_memory.md R67). -/

namespace Sys2Proof.Machine

/-- The smaller of two words read as unsigned integers (R7). -/
def least (a b : Word) : Word := if a.toNat ≤ b.toNat then a else b

/-- The larger of two words read as unsigned integers (R7). -/
def most (a b : Word) : Word := if a.toNat ≤ b.toNat then b else a

/-- `sat_W` of R7: an unbounded integer narrowed to `[0, 2^width - 1]`, held in a word. -/
def saturate (width : Nat) (x : Int) : Word :=
  BitVec.ofNat 32 (min x.toNat (2 ^ width - 1))

/-- R9 `exact(f)`: some level runs at `f`. -/
def exactFreq (c : Config) (f : Word) : Bool := c.opps.any (fun p => p.freq == f)

/-- R9 `floor_level(v)`: the highest level whose frequency is at most `v`, else the lowest level. -/
def floorLevel (c : Config) (v : Word) : Level :=
  match c.opps.findIdx? (fun p => decide (p.freq.toNat ≤ v.toNat)) with
  | some i => BitVec.ofNat 8 i
  | none => c.lowest

/-- R9, R34 `thermal_ceiling`. -/
def State.thermalCeiling (s : State) : Word :=
  match s.cfg.thermal with
  | some th => s.cfg.ceilAt th s.thermState
  | none => 0xFFFFFFFF

/-- R9: the lower bound of the governor's clamp. -/
def State.clampLow (s : State) : Word := most (s.cfg.freqAt s.cfg.lowest) s.qosMin

/-- R9: the upper bound of the governor's clamp. -/
def State.clampHigh (s : State) : Word := least (least (s.cfg.freqAt 0) s.thermalCeiling) s.qosMax

/-- R9 `clamp(d)`: the upper bound wins where the bounds cross. -/
def State.clamp (s : State) (d : Word) : Word := least (most d s.clampLow) s.clampHigh

/-- R9 `V(t)`: the level's voltage with the cold offset, saturated to 32 bits. -/
def State.voltageFor (s : State) (t : Level) : Word :=
  saturate 32 ((s.cfg.voltAt t).toNat + s.thermalOffset.toInt)

/-- R9 `up(o, t)`. -/
def goesUp (c : Config) (o t : Level) : Bool := decide ((c.freqAt o).toNat < (c.freqAt t).toNat)

/-- R151: the target of a transition body. -/
def State.resolve (s : State) (requested : Word) : Level :=
  floorLevel s.cfg (least (least requested s.thermalCeiling) s.qosMax)

/-- R155: the field `[LOCK_SHIFT + LOCK_W - 1 : LOCK_SHIFT]` of the PHY status word. -/
def lockField (c : Config) (w : Word) : Word := BitVec.ofNat 32 (w.toNat / 2 ^ c.lockShift % 2 ^ c.lockW)

/-- R172: the forced lock value of a level, saturated to `LOCK_W` bits. -/
def State.forcedLock (s : State) (t : Level) : Word :=
  saturate s.cfg.lockW (s.pendingLock.toNat + (s.cfg.opp t).dvfsOffset.toInt)

/-- R226: the code field `[CODE_W - 1 : 0]` of the read-data word. -/
def codeField (th : Thermal) (w : Word) : Byte := BitVec.ofNat 8 (w.toNat % 2 ^ th.codeW)

/-- R231 `raw(x)`: the greatest state whose threshold `x` reaches. -/
def rawState (th : Thermal) (x : Nat) : ThermState :=
  if th.th4 ≤ x then .tripped
  else if th.th3 ≤ x then .quarterRate
  else if th.th2 ≤ x then .halfRate
  else if th.th1 ≤ x then .reduced
  else .normal

/-- R232 `next_state(cur, m)`: rising or equal at once, falling only past the hysteresis margin. -/
def nextThermState (th : Thermal) (cur : ThermState) (m : Nat) : ThermState :=
  if cur.code ≤ (rawState th m).code then rawState th m
  else if cur.code ≤ (rawState th (m + th.hyst)).code then cur
  else rawState th (m + th.hyst)

/-- R31 `ch_level(c)`, of a channel's pair of rank codes. -/
def chLevel (p : Byte × Byte) : Byte := if p.1.toNat ≤ p.2.toNat then p.2 else p.1

/-- R31, R229: the greatest channel level; 0 where there is no channel (log 19). -/
def maxOfLevels : List (Byte × Byte) → Nat
  | [] => 0
  | p :: rest => max (chLevel p).toNat (maxOfLevels rest)

/-- R31 `max_level`. -/
def State.maxLevel (s : State) : Nat := maxOfLevels s.rankLevel

/-- R21: the id of a step. -/
def SeqStep.code : SeqStep → Byte
  | .idle => 0x00
  | .cmdDecode => 0x01
  | .resolve => 0x02
  | .dllCapture => 0x03
  | .voltUp => 0x04
  | .timingPre => 0x05
  | .clkSimple => 0x06
  | .timingPost => 0x07
  | .dllPost => 0x08
  | .arefWrite => 0x09
  | .voltDown => 0x0A
  | .coldVolt => 0x0B
  | .done => 0x0C
  | .pss1SafeMux => 0x11
  | .pss2SafeTiming => 0x12
  | .pss3Wait => 0x13
  | .pss4Pll => 0x14
  | .pss5TargetTiming => 0x15
  | .pss6TargetMux => 0x16
  | .pss7Wait => 0x17
  | .monSample => 0x20
  | .monUpdate => 0x21
  | .monAref => 0x22
  | .monReeval => 0x23

/-- R67: the id of a signal. -/
def Signal.code : Signal → Byte
  | .voltDone => 1
  | .pllLocked => 2
  | .divDone => 3
  | .muxSettled _ => 4
  | .pauseDone => 5
  | .dllLocked => 6
  | .mrrDone => 7

end Sys2Proof.Machine
end

