-- ==== Sys2Proof/Machine/Flags.lean ====
section
/-! DEFINITION. The status words and interrupt bits (spec/30_encoding.md R95 to R99, spec/60_exceptions.md R279, R280). -/

namespace Sys2Proof.Machine

/-- The interrupt bits (R96, R279). -/
inductive IntBit where
  | done | err | trip | tlevel | drop | warn
  deriving DecidableEq, Repr

/-- R96: the bit's place, as a mask. -/
def IntBit.mask : IntBit → BitVec 6
  | .done => 0b000001
  | .err => 0b000010
  | .trip => 0b000100
  | .tlevel => 0b001000
  | .drop => 0b010000
  | .warn => 0b100000

/-- R280: an event sets a bit of INT_STATUS, enabled or not. -/
def State.raiseInt (s : State) (b : IntBit) : State := { s with intStatus := s.intStatus ||| b.mask }

/-- R39, R280: the level-sensitive interrupt output. -/
def State.irq (s : State) : Bool := s.intStatus &&& s.intEnable != 0

/-- R35, R95: BUSY. -/
def State.busy (s : State) : Bool := s.slot.isSome || s.cmdActive

/-- R95: LOCKED. -/
def State.locked (s : State) : Bool := decide (s.step ≠ .idle)

/-- A bit at a place of a word. -/
def bitAt (b : Bool) (place : Nat) : Word := if b then BitVec.ofNat 32 (2 ^ place) else 0

/-- R95: the STATUS word. -/
def State.statusWord (s : State) : Word :=
  bitAt s.busy 0 ||| bitAt s.locked 1 ||| bitAt s.sampled 2 ||| bitAt (decide (s.thermState = .tripped)) 3 |||
    (BitVec.ofNat 32 s.thermState.code <<< 4) ||| bitAt s.dllLocked 7 ||| (s.err.setWidth 32 <<< 8) |||
    bitAt s.dllForced 12 ||| (BitVec.ofNat 32 s.maxLevel <<< 16)

/-- R97: the ERR_INFO word. -/
def State.errInfoWord (s : State) : Word :=
  s.errStep.setWidth 32 ||| (s.errSig.setWidth 32 <<< 8) ||| (s.errArg.setWidth 32 <<< 16)

/-- R99: the CH_LEVEL word of a channel; 0 from `NCH` on, and without a monitor. -/
def State.chLevelWord (s : State) (c : Nat) : Word :=
  if c < s.cfg.channels then
    let p := s.rankLevel.getD c (0, 0)
    p.1.setWidth 32 ||| (p.2.setWidth 32 <<< 8)
  else 0

/-- R94: the DLL_LOCK word, `[LOCK_W - 1 : 0]` of the pending lock value. -/
def State.dllLockWord (s : State) : Word := BitVec.ofNat 32 (s.pendingLock.toNat % 2 ^ s.cfg.lockW)

end Sys2Proof.Machine
end

