-- ==== Sys2Proof/Machine/Ops.lean ====
section
/-! DEFINITION. The named operations on the state: host register accesses (spec/30_encoding.md R94, spec/20_memory.md
R61 to R65), command acceptance (spec/40_commands.md R120), the countdown (spec/42_thermal_monitor.md R222), reset
(spec/70_reset_and_hazards.md R320), outbound accesses (spec/20_memory.md R66, R67), and the block's analogue of an
exception: recording a failure, completing with its code, and the host's acknowledgement (spec/60_exceptions.md R285, R287). -/

namespace Sys2Proof.Machine

/-! ### The fields one at a time -/

/-- R8: `step <- s`. -/
def State.setStep (s : State) (x : SeqStep) : State := { s with step := x }

/-- The state with the model's own fields replaced. -/
def State.withEnv (s : State) (e : Env) : State := { s with env := e }

/-- The coming inputs replaced. -/
def State.withInputs (s : State) (inputs : List Input) : State := s.withEnv { s.env with inputs := inputs }

/-- R76: one more event of the trace. -/
def State.record (s : State) (ev : Event) : State := s.withEnv { s.env with trace := s.env.trace ++ [ev] }

/-! ### Host accesses -/

/-- R94: the word a host read of an offset returns; 0 for CMD and for an unmapped offset (R63). -/
def State.readReg (s : State) (off : Nat) : Word :=
  match off with
  | 0x04 => s.arg0
  | 0x08 => s.arg1
  | 0x0C => s.statusWord
  | 0x10 => s.result
  | 0x14 => s.currentLevel.setWidth 32
  | 0x18 => s.currentVoltage
  | 0x1C => s.thermalCeiling
  | 0x20 => s.qosMin
  | 0x24 => s.qosMax
  | 0x28 => s.lastRequested
  | 0x2C => s.thermalOffset
  | 0x30 => s.intStatus.setWidth 32
  | 0x34 => s.intEnable.setWidth 32
  | 0x38 => s.errInfoWord
  | 0x3C => s.errSnap
  | 0x40 => s.dllLockWord
  | 0x44 => s.pllCur
  | 0x48 => s.tickRemaining
  | _ => if 0x80 ≤ off ∧ off < 0xC0 ∧ off % 4 = 0 then s.chLevelWord ((off - 0x80) / 4) else 0

/-- R120: a word written to CMD is captured if the block is not busy, and else dropped. -/
def State.writeCmd (s : State) (w : Word) : State :=
  if s.busy then s.raiseInt .drop
  else { s with slot := some (capture w s.arg0 s.arg1) }

/-- R280, R287: the host acknowledges by writing ones to INT_STATUS; nothing else is restored. -/
def State.acknowledge (s : State) (m : Word) : State := { s with intStatus := s.intStatus &&& ~~~(m.setWidth 6) }

/-- R65, R94: a host write; ignored at a read-only or unmapped offset (R63). -/
def State.writeReg (s : State) (off : Nat) (v : Word) : State :=
  match off with
  | 0x00 => s.writeCmd v
  | 0x04 => { s with arg0 := v }
  | 0x08 => { s with arg1 := v }
  | 0x30 => s.acknowledge v
  | 0x34 => { s with intEnable := v.setWidth 6 }
  | _ => s

/-- R65, R104: the word of a host read goes back to the host. -/
def State.reply (s : State) (w : Word) : State := s.withEnv { s.env with replies := s.env.replies ++ [w] }

/-- R60, R94: the address lies in the block's 256-byte window. -/
def Access.inWindow (a : Access) (c : Config) : Bool := decide (c.mmioBase ≤ a.addr ∧ a.addr < c.mmioBase + 256)

/-- R61: only a 4-byte access at an offset that is a multiple of 4 is performed. DESIGN CHOICE (log 20): where
`MMIO_BASE` is no multiple of 4, which R5 does not rule out, alignment is that of the offset and not of the address. -/
def Access.performed (a : Access) (c : Config) : Bool := decide (a.bytes = 4 ∧ (a.addr - c.mmioBase) % 4 = 0)

/-- R61, R63, R94, R278: a host access. One outside the window is not this block's (log 12). -/
def State.hostAccess (s : State) (a : Access) : Except Fault State :=
  if a.inWindow s.cfg then
    if a.performed s.cfg then
      match a.dir with
      | .read => .ok (s.reply (s.readReg (a.addr - s.cfg.mmioBase)))
      | .write v => .ok (s.writeReg (a.addr - s.cfg.mmioBase) v)
    else .error (.busError (a.addr - s.cfg.mmioBase) a.bytes)
  else .ok s

/-- The host's place in its program replaced (R104). -/
def State.withHost (s : State) (h : HostSide) : State := s.withEnv { s.env with host := h }

/-- R104: the bus transaction of an operation; for POLLRD, of each of its reads. -/
def HostOp.access (c : Config) : HostOp → Access
  | .wr p v => ⟨c.mmioBase + p.offset, 4, .write v⟩
  | .rd p _ => ⟨c.mmioBase + p.offset, 4, .read⟩
  | .pollRd p _ _ => ⟨c.mmioBase + p.offset, 4, .read⟩

/-- R104: the host's next bus transaction, and where its answer leaves the host. A bus error is a fault of the host
program (R278). A host with nothing left to do makes no access. -/
def State.hostTurn (s : State) : Except Fault State :=
  match s.env.host.todo with
  | [] => .ok s
  | op :: rest =>
    match s.hostAccess (op.access s.cfg) with
    | .ok t => .ok (t.withHost (s.env.host.answered op rest (t.env.replies.drop s.env.replies.length).head?))
    | .error f => .error f

/-! ### The time base and reset -/

/-- R222: one pulse of `ms_tick`. A countdown already at 0, which no run reaches, stays there (log 14). -/
def State.msTick (s : State) : State :=
  if s.monStopped || s.tickPending || s.lockOwner == .tick then s
  else { s with
    tickRemaining := BitVec.ofNat 32 (s.tickRemaining.toNat - 1)
    tickPending := decide (s.tickRemaining.toNat ≤ 1) }

/-- R320, R321, R323: a reset pulse. Every field of the block takes its reset value and no event is made; the words
the block wrote outside are no longer owed back (log 13). That the domain is reset with it is the launch premise
`ResetTogether` of Machine/Launch.lean (log 21). -/
def State.resetNow (s : State) : State :=
  State.resetOf s.cfg { s.env with selWord := none, arefWord := none, dllCtrlWord := none }

/-! ### Outbound accesses -/

/-- R66: the next answer to an outbound read, and the model's fields after it is drawn (log 6). -/
def Env.drawWord (e : Env) : Word × Env :=
  match e.readAnswers with
  | w :: rest => (w, { e with readAnswers := rest, draws := e.draws + 1 })
  | [] => (Config.freeWord e.draws, { e with draws := e.draws + 1 })

/-- R67: the next answer to a poll, and the model's fields after it is drawn (log 6). -/
def Env.drawBit (e : Env) : Bool × Env :=
  match e.pollAnswers with
  | b :: rest => (b, { e with pollAnswers := rest, draws := e.draws + 1 })
  | [] => (Config.freeBit e.draws, { e with draws := e.draws + 1 })

/-- R40: the word a read owes the block under the ownership obligation, if any (log 8). -/
def State.owedWord (s : State) (w : Window) (off : Nat) : Option Word :=
  if s.env.owned then
    if w = .drex ∧ off = s.cfg.offTsel then s.env.selWord
    else if w = .drex ∧ off = s.cfg.offAref then s.env.arefWord
    else if w = .phy ∧ off = s.cfg.offDllCtrl then s.env.dllCtrlWord
    else none
  else none

/-- R66: an outbound read, its answer and the state after it. -/
def State.outRead (s : State) (w : Window) (off : Nat) : Word × State :=
  match s.owedWord w off with
  | some v => (v, s.record (.rd w off v))
  | none => (s.env.drawWord.1, (s.withEnv s.env.drawWord.2).record (.rd w off s.env.drawWord.1))

/-- R40: what the environment owes after a write. -/
def State.noteWrite (s : State) (w : Window) (off : Nat) (v : Word) : State :=
  s.withEnv { s.env with
    selWord := if w = .drex ∧ off = s.cfg.offTsel then some v else s.env.selWord
    arefWord := if w = .drex ∧ off = s.cfg.offAref then some v else s.env.arefWord
    dllCtrlWord := if w = .phy ∧ off = s.cfg.offDllCtrl then some v else s.env.dllCtrlWord }

/-- R66: an outbound write. -/
def State.outWrite (s : State) (w : Window) (off : Nat) (v : Word) : State :=
  (s.noteWrite w off v).record (.wr w off v)

/-- R67: one poll of a signal, its answer and the state after it. -/
def State.outPoll (s : State) (sig : Signal) : Bool × State :=
  (s.env.drawBit.1, (s.withEnv s.env.drawBit.2).record (.poll sig s.env.drawBit.1))

/-! ### Failure and completion: the block's analogue of an exception and of the return from one -/

/-- R153, R285: what a timeout saves. -/
def State.recordTimeout (s : State) (sig : Signal) (arg : Byte) (snap : Word) : State :=
  { s with errStep := s.step.code, errSig := sig.code, errArg := arg, errSnap := snap }

/-- R121: starting a command takes the lock; the slot is empty again. -/
def State.takeCommand (s : State) : State :=
  { s with slot := none, cmdActive := true, lockOwner := .cmd, step := .cmdDecode }

/-- R224: starting a tick takes the lock. -/
def State.takeTick (s : State) : State :=
  { s with tickPending := false, lockOwner := .tick, step := .monSample }

/-- R42: the lock is released. The hidden fields of R43, undefined from here on, keep their values (log 9). -/
def State.releaseLock (s : State) : State := { s with lockOwner := .none, step := .idle }

/-- R122, R279: the interrupt bits of a completion: DONE, and ERR where the code says a failure. -/
def completionBits (code : BitVec 4) : BitVec 6 :=
  if code = 0 then IntBit.done.mask else IntBit.done.mask ||| IntBit.err.mask

/-- R122: a command completes with a code; `res` is what POLICY and TRANSITION answer when the code is 0. A failed
operation ends here with its code (R271, R285), and no state is restored (R176). The step DONE it passes through lasts
no action of its own, so nothing sees it. DESIGN CHOICE (log 9): R43 calls all hidden state undefined while IDLE; the
model keeps `old`, `target`, `origin`, `attempt`, `sample` and `lastWord` at what the operation left in them. -/
def State.completeCmd (s : State) (code : BitVec 4) (res : Option Word) : State :=
  { s with
    err := code
    result := res.getD s.result
    intStatus := s.intStatus ||| completionBits code
    cmdActive := false
    lockOwner := .none
    step := .idle }

end Sys2Proof.Machine
end

