-- ==== Sys2Proof/Machine/Sequencer.lean ====
section
/-! DEFINITION. The sequencer's primitives (spec/00_scope.md R8) as operations in sequence: each is one action, before
which the inputs that fall there are taken in (spec/20_memory.md R64, R69; log 4, 5); and the bounded waits
(spec/41_transition_engine.md R153). -/

namespace Sys2Proof.Machine

/-- Why an operation in progress ends before its last action. -/
inductive Stop where
  /-- `raise HardwareTimeout` (R153, R176); the command or tick that ran the body records it. -/
  | timeout
  /-- The reset input (R320): the operation ends at once. -/
  | reset
  /-- A host access fell there that stops the machine (R278). -/
  | fault (f : Fault)
  deriving DecidableEq, Repr

/-- An operation of the sequencer: from a state to a result, or to a stop, and in either case a state. -/
abbrev Op := EStateM Stop State

/-- Takes in the inputs up to and with the sequencer's turn; `pick` says nothing while an operation runs. -/
def absorb : List Input → State → EStateM.Result Stop State Unit
  | [], s => .ok () (s.withInputs [])
  | .turn _ :: rest, s => .ok () (s.withInputs rest)
  | .msTick :: rest, s => absorb rest s.msTick
  | .rst :: rest, s => .error .reset (s.resetNow.withInputs rest)
  | .access a :: rest, s =>
    match s.hostAccess a with
    | .ok s' => absorb rest s'
    | .error f => .error (.fault f) s
  | .host :: rest, s =>
    match s.hostTurn with
    | .ok s' => absorb rest s'
    | .error f => .error (.fault f) s

/-- R64, R69: waits for the sequencer's turn. -/
def awaitTurn : Op Unit := fun s => absorb s.env.inputs s

/-- One sequencer action that answers nothing. -/
def act (f : State → State) : Op Unit := do
  awaitTurn
  modify f

/-- `MemRead(W, off, 4)` (R66). DESIGN CHOICE (log 23): the read and its answer are one action, so a reset (R321) falls
before the read, which is then not in the trace, or after its answer, and never leaves a read without one. -/
def memRead (w : Window) (off : Nat) : Op Word := do
  awaitTurn
  modifyGet fun s => s.outRead w off

/-- `MemWrite(W, off, 4, v)` (R66). -/
def memWrite (w : Window) (off : Nat) (v : Word) : Op Unit := act fun s => s.outWrite w off v

/-- `Call(p, args…)` (R67). -/
def callPrim (p : Prim) : Op Unit := act fun s => s.record (.call p)

/-- `Poll(sig)` (R67). DESIGN CHOICE (log 23): the poll and its answer are one action, as in `memRead`. -/
def pollSignal (sig : Signal) : Op Bool := do
  awaitTurn
  modifyGet fun s => s.outPoll sig

/-- `Emit(e)` (R68). -/
def emit (ev : Event) : Op Unit := act fun s => s.record ev

/-- `step <- s` (R8). -/
def goTo (x : SeqStep) : Op Unit := modify fun s => s.setStep x

/-- R153: after the last attempt. A critical wait raises HardwareTimeout; any other sets WARN and answers false. -/
def timedOut (sig : Signal) (crit : Bool) (arg : Byte) (snap : Word) : Op Bool := do
  modify fun s => s.recordTimeout sig arg snap
  if crit then throw .timeout
  else
    modify fun s => s.raiseInt .warn
    return false

/-- R153: at most `left` polls, numbered from `k`; true as soon as one answers true. -/
def pollLoop (sig : Signal) (left k : Nat) : Op Bool :=
  match left with
  | 0 => return false
  | n + 1 => do
    modify fun s => { s with attempt := k }
    let b ← pollSignal sig
    if b then return true else pollLoop sig n (k + 1)

/-- R153 `wait_sig`: true if the signal came, false after a logged timeout. -/
def waitSig (sig : Signal) (crit : Bool) (arg : Byte) : Op Bool := do
  let s ← get
  let seen ← pollLoop sig s.cfg.waitMax 1
  if seen then return true else timedOut sig crit arg 0

/-- R153: at most `left` reads, numbered from `k`; true as soon as every bit of `mask` is set. -/
def readLoop (w : Window) (off : Nat) (mask : Word) (left k : Nat) : Op Bool :=
  match left with
  | 0 => return false
  | n + 1 => do
    modify fun s => { s with attempt := k }
    let v ← memRead w off
    modify fun s => { s with lastWord := v }
    if v &&& mask = mask then return true else readLoop w off mask n (k + 1)

/-- R153 `wait_reg`: true if the bits came, false after a logged timeout. -/
def waitReg (w : Window) (off : Nat) (mask : Word) (sig : Signal) (crit : Bool) (arg : Byte) : Op Bool := do
  let s ← get
  let seen ← readLoop w off mask s.cfg.waitMax 1
  if seen then return true
  else
    let s' ← get
    timedOut sig crit arg s'.lastWord

/-- R122, R176: runs a body and answers none where it raised HardwareTimeout; a reset or a fault goes on out. -/
def catchTimeout (body : Op Word) : Op (Option Word) := fun s =>
  match body s with
  | .ok r s' => .ok (some r) s'
  | .error .timeout s' => .ok none s'
  | .error e s' => .error e s'

/-- The outcome of a whole operation: a reset during it leaves the reset state (R320). No operation lets a timeout out
(`catchTimeout`); were there one, the state it left would stand. -/
def outcomeOf : EStateM.Result Stop State Unit → Host.Outcome State Fault Refusal
  | .ok _ s => .next s
  | .error .timeout s => .next s
  | .error .reset s => .next s
  | .error (.fault f) _ => .fault f

/-- Runs a whole operation; a configuration that breaks R4 is refused (I14). -/
def runOp (op : Op Unit) (s : State) : Host.Outcome State Fault Refusal :=
  if s.cfg.wf then outcomeOf (op s) else .refused .configIllFormed

end Sys2Proof.Machine
end

