-- ==== Sys2Proof/Machine/Engine.lean ====
section
/-! DEFINITION. The Transition Engine (spec/41_transition_engine.md R150 to R176). -/

namespace Sys2Proof.Machine

/-! ### What each action of the body changes, as it is issued (R176: each field keeps what its last operation gave it) -/

/-- R154: `Call(set_voltage, v)`. -/
def State.issueVoltage (s : State) (v : Word) : State :=
  { s with currentVoltage := v, env := (s.record (.call (.setVoltage v))).env }

/-- R155, R172: the control word that forces the DLL at the lock value `v`. -/
def State.forceDll (s : State) (v : Word) : State :=
  { s with
    dllForced := true
    dllLocked := false
    env := (s.outWrite .phy s.cfg.offDllCtrl (s.cfg.dllCtrl.word true v)).env }

/-- R172: the control word that lets the DLL run free. -/
def State.freeDll (s : State) : State :=
  { s with
    dllForced := false
    dllLocked := false
    env := (s.outWrite .phy s.cfg.offDllCtrl (s.cfg.dllCtrl.word false s.pendingLock)).env }

/-- R172: the lock-detect bits were seen. -/
def State.markLocked (s : State) : State := { s with dllLocked := true }

/-- R155: the lock value is taken from the PHY status word `w`. -/
def State.keepLock (s : State) (w : Word) : State := { s with pendingLock := lockField s.cfg w }

/-- R164: a clock call of the simple path; the first one commands the target level. -/
def State.issueClock (s : State) (first : Bool) (t : Level) (p : Prim) : State :=
  { s with currentLevel := if first then t else s.currentLevel, env := (s.record (.call p)).env }

/-- R165: the primary multiplexer to the safe source. -/
def State.issueSafeMux (s : State) : State :=
  { s with
    currentLevel := s.cfg.safeLevel
    env := (s.record (.call (.setMuxParent s.cfg.primaryMux s.cfg.safeSrc))).env }

/-- R168: the PLL to the target's setting. -/
def State.issuePll (s : State) (t : Level) : State :=
  { s with
    pllCur := s.cfg.pllAt t
    env := (s.record (.call (.setPllRate s.cfg.pllId (s.cfg.pllAt t)))).env }

/-- R170: the primary multiplexer back to the PLL. -/
def State.issueTargetMux (s : State) (t : Level) : State :=
  { s with
    currentLevel := t
    env := (s.record (.call (.setMuxParent s.cfg.primaryMux s.cfg.pllSrc))).env }

/-- R173: the refresh word of the level and thermal state in force. -/
def State.writeAref (s : State) : State :=
  s.outWrite .drex s.cfg.offAref (s.cfg.arefAt s.currentLevel s.thermState)

/-- R150: the transition's context. -/
def State.beginBody (s : State) (t : Level) (origin : Origin) : State :=
  { s with old := s.currentLevel, target := t, origin := origin }

/-! ### The procedures of the body -/

/-- R154 `set_volt(v)`: the caller has set the step. -/
def setVolt (v : Word) : Op Unit := do
  act fun s => s.issueVoltage v
  let _ ← waitSig .voltDone true 0

/-- R173 `aref_write()`. -/
def arefWrite : Op Unit := do
  goTo .arefWrite
  act State.writeAref

/-- R155 `dll_capture()`. -/
def dllCapture : Op Unit := do
  goTo .dllCapture
  let s ← get
  let w ← memRead .phy s.cfg.offDllStat
  modify fun s => s.keepLock w
  act fun s => s.forceDll s.pendingLock

/-- R158: the words of a timing profile, each at its offset of the inactive set. -/
def writeWords : List Nat → List Word → Op Unit
  | off :: offs, v :: vs => do
    memWrite .drex off v
    writeWords offs vs
  | _, _ => return ()

/-- R158 `write_timing(l)`. -/
def writeTiming (l : Level) : Op Unit := do
  let s ← get
  let w ← memRead .drex s.cfg.offTsel
  writeWords (s.cfg.timingSet (!w.getLsbD s.cfg.tselBit)) (s.cfg.opp l).timing
  memWrite .drex s.cfg.offTsel (w ^^^ BitVec.ofNat 32 (2 ^ s.cfg.tselBit))

/-- R164: the first clock call of the simple path commands the target level. -/
def clockCall (first : Bool) (t : Level) (p : Prim) : Op Unit :=
  act fun s => s.issueClock first t p

/-- R162 `repoint(m, src)`: critical only for the primary multiplexer. -/
def repoint (first : Bool) (t : Level) (m src : Byte) : Op Unit := do
  clockCall first t (.setMuxParent m src)
  let s ← get
  let _ ← waitSig (.muxSettled m) (m == s.cfg.primaryMux) m

/-- R163 `set_div(t)`. -/
def setDiv (first : Bool) (t : Level) : Op Unit := do
  let s ← get
  clockCall first t (.setDivider s.cfg.primaryDiv (s.cfg.opp t).planDiv)
  let _ ← waitSig .divDone true 0

/-- R161 `repoint_all(t)`, over the pairs still to come. -/
def repointAll (first : Bool) (t : Level) : List (Byte × Byte) → Op Unit
  | [] => return ()
  | p :: rest => do
    repoint first t p.1 p.2
    repointAll false t rest

/-- R161 `clock_change(o, t)`. -/
def clockChange (o t : Level) : Op Unit := do
  let s ← get
  let plan := (s.cfg.opp t).planMux
  match s.cfg.switchOrder o t with
  | .muxThenDiv =>
    repointAll true t plan
    setDiv plan.isEmpty t
  | .divThenMux =>
    setDiv true t
    repointAll false t plan

/-- R160 `simple_path(o, t, u)`. -/
def simplePath (o t : Level) (u : Bool) : Op Unit := do
  if u then
    goTo .timingPre
    writeTiming t
  goTo .clkSimple
  clockChange o t
  if !u then
    goTo .timingPost
    writeTiming t

/-- R165: PSS step 1. -/
def pssSafeMux : Op Unit := do
  goTo .pss1SafeMux
  act State.issueSafeMux

/-- R166: PSS step 2. -/
def pssSafeTiming : Op Unit := do
  goTo .pss2SafeTiming
  let s ← get
  writeTiming s.cfg.safeLevel

/-- R167, R171: PSS steps 3 and 7. -/
def pssWait (x : SeqStep) : Op Unit := do
  goTo x
  let _ ← waitSig .pauseDone true 0

/-- R168: PSS step 4. -/
def pssReprogram (t : Level) : Op Unit := do
  goTo .pss4Pll
  act fun s => s.issuePll t
  let _ ← waitSig .pllLocked true 0

/-- R169: PSS step 5. -/
def pssTargetTiming (t : Level) : Op Unit := do
  goTo .pss5TargetTiming
  writeTiming t

/-- R170: PSS step 6. -/
def pssTargetMux (t : Level) : Op Unit := do
  goTo .pss6TargetMux
  act fun s => s.issueTargetMux t

/-- R165 to R171: the seven steps in sequence. -/
def pllSafeSwitch (t : Level) : Op Unit := do
  pssSafeMux
  pssSafeTiming
  pssWait .pss3Wait
  pssReprogram t
  pssTargetTiming t
  pssTargetMux t
  pssWait .pss7Wait

/-- R172 `dll_post(t)`. -/
def dllPost (t : Level) : Op Unit := do
  goTo .dllPost
  let s ← get
  if t = s.cfg.dllFreeLevel then
    act State.freeDll
    let _ ← waitReg .phy s.cfg.offDllStat s.cfg.dllLockMask .dllLocked true 0
    modify State.markLocked
  else
    act fun s => s.forceDll (s.forcedLock t)

/-- R157: the PLL-safe-switch is used for this target. -/
def State.needsPll (s : State) (t : Level) : Bool := t != s.cfg.safeLevel && s.cfg.pllAt t != s.pllCur

/-- R155: the DLL is captured for this target. -/
def State.needsCapture (s : State) (t : Level) : Bool := !s.dllForced && t != s.cfg.dllFreeLevel

/-- R157: the clock change by the path the target needs. -/
def clockPath (o t : Level) (u : Bool) : Op Unit := do
  let s ← get
  if s.needsPll t then pllSafeSwitch t else simplePath o t u

/-- R156, R174: the target's voltage, at the step given. -/
def voltageStep (x : SeqStep) (t : Level) : Op Unit := do
  goTo x
  let s ← get
  setVolt (s.voltageFor t)

/-- R150: the part of the body that changes the level from `o` to `t`. -/
def changeLevel (o t : Level) : Op Unit := do
  let s ← get
  let u := goesUp s.cfg o t
  if s.needsCapture t then dllCapture
  if u then voltageStep .voltUp t
  clockPath o t u
  dllPost t
  arefWrite
  if !u then voltageStep .voltDown t

/-- R150, R151: the target is resolved and the transition's context set. -/
def resolveTarget (requested : Word) (origin : Origin) : Op Level := do
  goTo .resolve
  let s ← get
  let t := s.resolve requested
  modify fun s => s.beginBody t origin
  return t

/-- R150, R152: the body for the target `t`: the refresh word only, where it is the level in force. -/
def moveTo (t : Level) : Op Unit := do
  let s ← get
  if t = s.currentLevel then arefWrite else changeLevel s.currentLevel t

/-- R150 `transition_body(requested, origin)`; it answers the target's frequency (R175) or raises HardwareTimeout. -/
def transitionBody (requested : Word) (origin : Origin) : Op Word := do
  let t ← resolveTarget requested origin
  moveTo t
  let s ← get
  return s.cfg.freqAt t

end Sys2Proof.Machine
end

