-- ==== Sys2Proof/Machine/Commands.lean ====
section
/-! DEFINITION. The meanings of the four commands and of an illegal word (spec/40_commands.md R122 to R127). -/

namespace Sys2Proof.Machine

/-- R123, R124: the request is noted. -/
def State.setRequest (s : State) (f : Word) : State := { s with lastRequested := f }

/-- R125: the bounds are stored as given. -/
def State.setBounds (s : State) (min max : Word) : State := { s with qosMin := min, qosMax := max }

/-- R126: the cold offset is put in force, or taken away. -/
def State.setCold (s : State) (asserted : Bool) : State :=
  { s with thermalOffset := if asserted then s.cfg.coldOffset else 0 }

/-- R122 `complete_cmd(code, res)`, an action of its own (R283; log 5). -/
def completeWith (code : BitVec 4) (res : Option Word) : Op Unit := act fun s => s.completeCmd code res

/-- R123, R124: the command completes with what its transition answered. -/
def completeTransition (r : Option Word) : Op Unit :=
  match r with
  | some f => completeWith 0 (some f)
  | none => completeWith 2 none

/-- R123: POLICY once `desired` is known to be a level's frequency. -/
def policyKnown (desired : Word) : Op Unit := do
  modify fun s => s.setRequest desired
  let s ← get
  let r ← catchTimeout (transitionBody (s.cfg.freqAt (floorLevel s.cfg (s.clamp desired))) .cmd)
  completeTransition r

/-- R123, R272: POLICY. -/
def policyOp (desired : Word) : Op Unit := do
  let s ← get
  if exactFreq s.cfg desired then policyKnown desired else completeWith 1 none

/-- R124: TRANSITION once `requested` is known to be a level's frequency. -/
def transitionKnown (requested : Word) : Op Unit := do
  modify fun s => s.setRequest requested
  let r ← catchTimeout (transitionBody requested .cmd)
  completeTransition r

/-- R124, R272: TRANSITION. -/
def transitionOp (requested : Word) : Op Unit := do
  let s ← get
  if exactFreq s.cfg requested then transitionKnown requested else completeWith 1 none

/-- R125: SET_BOUNDS. -/
def setBoundsOp (min max : Word) : Op Unit := do
  modify fun s => s.setBounds min max
  completeWith 0 none

/-- R126: the voltage of the current level, written again; it answers that voltage. -/
def coldVoltage : Op Word := do
  goTo .coldVolt
  let s ← get
  setVolt (s.voltageFor s.currentLevel)
  return s.voltageFor s.currentLevel

/-- R126: COLD. -/
def coldOp (asserted : Bool) : Op Unit := do
  modify fun s => s.setCold asserted
  let r ← catchTimeout coldVoltage
  completeWith (if r.isSome then 0 else 2) none

/-- POLICY (R123), from the state in which the command has been started (R121). -/
def execPolicy (desired : Word) (s : State) : Host.Outcome State Fault Refusal := runOp (policyOp desired) s

/-- TRANSITION (R124). -/
def execTransition (requested : Word) (s : State) : Host.Outcome State Fault Refusal := runOp (transitionOp requested) s

/-- SET_BOUNDS (R125). -/
def execSetBounds (min max : Word) (s : State) : Host.Outcome State Fault Refusal := runOp (setBoundsOp min max) s

/-- COLD (R126). -/
def execCold (asserted : Bool) (s : State) : Host.Outcome State Fault Refusal := runOp (coldOp asserted) s

/-- An illegal word (R127, R276). -/
def execIllegal (s : State) : Host.Outcome State Fault Refusal := runOp (completeWith 4 none) s

end Sys2Proof.Machine
end

