-- ==== Sys2Proof/Machine/Dispatch.lean ====
section
/-! DEFINITION. One arm per command (spec/30_encoding.md R91, spec/40_commands.md R121). -/

namespace Sys2Proof.Machine

def exec (i : Instr) (s : State) : Host.Outcome State Fault Refusal :=
  match i with
  | .policy desired => Sys2Proof.Machine.execPolicy desired s
  | .transition requested => Sys2Proof.Machine.execTransition requested s
  | .setBounds min max => Sys2Proof.Machine.execSetBounds min max s
  | .cold asserted => Sys2Proof.Machine.execCold asserted s

end Sys2Proof.Machine
end

