-- ==== Sys2Proof/Machine/Monitor.lean ====
section
/-! DEFINITION. The Thermal Monitor's tick (spec/42_thermal_monitor.md R224 to R236). -/

namespace Sys2Proof.Machine

/-- R225: `S.sample[c][r] <- code`. -/
def State.setSample (s : State) (c : Nat) (second : Bool) (code : Byte) : State :=
  { s with sample := s.sample.modify c fun p => if second then (p.1, code) else (code, p.2) }

/-- R225: a fresh table of samples. -/
def State.clearSamples (s : State) (th : Thermal) : State := { s with sample := List.replicate th.channels (0, 0) }

/-- R226 `mrr_sample(c, r)`, with its code stored (R225); false where the wait timed out (R227). -/
def sampleRank (th : Thermal) (c : Nat) (second : Bool) (cmd : Word) : Op Bool := do
  memWrite .drex th.offMrrCmd cmd
  let ok ← waitReg .drex th.offMrrStat th.mrrDoneMask .mrrDone false (BitVec.ofNat 8 (2 * c + if second then 1 else 0))
  if ok then
    let w ← memRead .drex th.offMrrData
    modify fun s => s.setSample c second (codeField th w)
    return true
  else return false

/-- R225, R226: the channels from `c` on, each rank 0 then rank 1; false as soon as a wait times out. -/
def sampleFrom (th : Thermal) (c : Nat) : List (Word × Word) → Op Bool
  | [] => return true
  | p :: rest => do
    if ← sampleRank th c false p.1 then
      if ← sampleRank th c true p.2 then
        sampleFrom th (c + 1) rest
      else return false
    else return false

/-- R225: every rank is sampled, into a fresh table of samples. -/
def sampleAll (th : Thermal) : Op Bool := do
  goTo .monSample
  modify fun s => s.clearSamples th
  sampleFrom th 0 th.mrrCmd

/-- R230: one notification for each channel whose level changed, in order; true if any was emitted. -/
def notifyFrom (c : Nat) : List Byte → List Byte → Op Bool
  | new :: news, prev :: prevs => do
    if new = prev then notifyFrom (c + 1) news prevs
    else
      emit (.notify new c)
      let _ ← notifyFrom (c + 1) news prevs
      return true
  | _, _ => return false

/-- R230 `notify_changes(prev)`. -/
def notifyChanges (prev : List Byte) : Op Unit := do
  let s ← get
  let any ← notifyFrom 0 (s.rankLevel.map chLevel) prev
  if any then modify fun s => s.raiseInt .tlevel

/-- R235: a transition of a tick ends; STATUS.ERR takes its code, and INT_STATUS.ERR is set on a failure (D53). -/
def State.recordTickResult (s : State) : Option Word → State
  | some _ => { s with err := 0 }
  | none => { s with err := 2, intStatus := s.intStatus ||| IntBit.err.mask }

/-- R235 `reeval()`. -/
def reeval : Op Unit := do
  goTo .monReeval
  let s ← get
  let c := s.clamp s.lastRequested
  if c ≠ s.cfg.freqAt s.currentLevel then
    let r ← catchTimeout (transitionBody (s.cfg.freqAt (floorLevel s.cfg c)) .tick)
    modify fun s => s.recordTickResult r

/-- R233, R235: the ceiling is re-evaluated if it changed. -/
def reevalIfChanged (oldCeiling : Word) : Op Unit := do
  let s ← get
  if s.thermalCeiling ≠ oldCeiling then reeval

/-- R233: the shutdown request; no further tick will fall due. -/
def State.shutDown (s : State) : State :=
  { s with
    intStatus := s.intStatus ||| IntBit.trip.mask
    monStopped := true
    env := (s.record .shutdown).env }

/-- R233 `trip(old_ceiling)`. -/
def trip (oldCeiling : Word) : Op Unit := do
  act State.shutDown
  reevalIfChanged oldCeiling
  act State.releaseLock

/-- R236: the countdown starts again and the lock is released. The hidden fields keep their values (R43, log 9). -/
def State.finishTick (s : State) (th : Thermal) : State :=
  { s with lockOwner := .none, step := .idle, tickRemaining := th.pollMs.get s.thermState }

/-- R236 `finish_tick()`. -/
def finishTick (th : Thermal) : Op Unit := act fun s => s.finishTick th

/-- R228: the samples become the levels. -/
def State.takeSamples (s : State) : State := { s with rankLevel := s.sample, sampled := true }

/-- R231, R232: the thermal state follows the greatest channel level. -/
def State.moveThermState (s : State) (th : Thermal) : State :=
  { s with thermState := nextThermState th s.thermState s.maxLevel }

/-- R234: the refresh write of a tick. -/
def monAref : Op Unit := do
  goTo .monAref
  act State.writeAref

/-- R225: a tick whose every read succeeded. -/
def updateTick (th : Thermal) : Op Unit := do
  goTo .monUpdate
  let s ← get
  modify State.takeSamples
  notifyChanges (s.rankLevel.map chLevel)
  let s ← get
  let oldCeiling := s.thermalCeiling
  modify fun s => s.moveThermState th
  let s ← get
  if s.thermState = .tripped then trip oldCeiling
  else
    monAref
    reevalIfChanged oldCeiling
    finishTick th

/-- R225 `tick()`. -/
def tick (th : Thermal) : Op Unit := do
  let ok ← sampleAll th
  if ok then updateTick th else finishTick th

/-- R224, R225: the tick is started and run to its end. -/
def runTick (th : Thermal) (s : State) : Host.Outcome State Fault Refusal := runOp (tick th) s.takeTick

end Sys2Proof.Machine
end

