-- ==== Sys2Proof/Machine/Scheduler.lean ====
section
/-! DEFINITION. What the block does next: it takes in an input, or starts a ready command or tick
(spec/40_commands.md R121, spec/42_thermal_monitor.md R223, spec/60_exceptions.md R274). -/

namespace Sys2Proof.Machine

/-- R121: a command is in the slot and the lock is free. -/
def State.cmdReady (s : State) : Bool := decide (s.step = .idle) && s.slot.isSome

/-- R220, R223: a tick is pending, the lock is free, and there is a monitor. -/
def State.tickReady (s : State) : Bool := decide (s.step = .idle) && s.tickPending && s.cfg.hasThermal

/-- R121: the command of the slot is started, decoded and run. -/
def startCommand (c : Cmd) (s : State) : Host.Outcome State Fault Refusal :=
  match decodeCmd c with
  | .ok i => exec i s.takeCommand
  | .error _ => execIllegal s.takeCommand

/-- R121: starts the slot's command, if there is one. -/
def startSlot (s : State) : Host.Outcome State Fault Refusal :=
  match s.slot with
  | some c => startCommand c s
  | none => .next s

/-- R224: starts the tick, if there is a monitor. -/
def startTick (s : State) : Host.Outcome State Fault Refusal :=
  match s.cfg.thermal with
  | some th => runTick th s
  | none => .next s

/-- R274: starts what is ready, the picked one where both are; R296: the block is idle where neither is. -/
def startReady (pick : Pick) (s : State) : Host.Outcome State Fault Refusal :=
  match s.cmdReady, s.tickReady with
  | true, true =>
    match pick with
    | .cmd => startSlot s
    | .tick => startTick s
  | true, false => startSlot s
  | false, true => startTick s
  | false, false => .next s

/-- R274: the arbiter's own choice, drawn only where there is one to make (log 7). -/
def arbitrate (s : State) : Host.Outcome State Fault Refusal :=
  if s.cmdReady && s.tickReady then
    startReady (Config.freePick s.env.draws) (s.withEnv { s.env with draws := s.env.draws + 1 })
  else startReady .cmd s

/-- One step of a block whose configuration is well-formed: the next input, or what is ready. -/
def nextAction (s : State) : Host.Outcome State Fault Refusal :=
  match s.env.inputs with
  | [] => arbitrate s
  | .turn pick :: rest => startReady pick (s.withInputs rest)
  | .msTick :: rest => .next (s.msTick.withInputs rest)
  | .rst :: rest => .next (s.resetNow.withInputs rest)
  | .access a :: rest =>
    match s.hostAccess a with
    | .ok s' => .next (s'.withInputs rest)
    | .error f => .fault f
  | .host :: rest =>
    match s.hostTurn with
    | .ok s' => .next (s'.withInputs rest)
    | .error f => .fault f

/-- One step (I14: an ill-formed configuration is refused). -/
def stepBlock (s : State) : Host.Outcome State Fault Refusal :=
  if s.cfg.wf then nextAction s else .refused .configIllFormed

/-- The state with a command in the slot and the sequencer's turn next, as after the host's accepted CMD write (log 15). -/
def State.placeCommand (s : State) (c : Cmd) : State :=
  ({ s with slot := some c, step := .idle, lockOwner := .none, cmdActive := false }).withInputs (.turn .cmd :: s.env.inputs)

end Sys2Proof.Machine
end

