-- ==== Sys2Proof/Machine/Step.lean ====
section
/-! DEFINITION. One step of the machine, and the placing of its next command. -/

namespace Sys2Proof.Machine

/-- One step: the next input, or a whole command or tick (R72; log 4). -/
def step (s : State) : Host.Outcome State Fault Refusal := stepBlock s

/-- The state with the command of `nbits` bits `w`, and operand words of zeros, where the next step starts it (log 15). -/
def State.withFetchWord (s : State) (nbits w : Nat) : State := s.placeCommand (captureBits nbits w)

end Sys2Proof.Machine
end

