-- ==== Sys2Proof/Machine/HostRun.lean ====
section
/-! DEFINITION. Runs of host programs on the block (spec/30_encoding.md R104, spec/70_reset_and_hazards.md R326). The
schedule says where each bus transaction of the host, each strobe, each reset pulse and each access of another master
falls, among the actions of an operation or between two of them (spec/20_memory.md R64, spec/60_exceptions.md R283; log 22). -/

namespace Sys2Proof.Machine

/-- R104: a host program, with the environment answers it assumes for the run and the order of what comes to the block:
`Input.host` is the host's next bus transaction, `Input.msTick` brings ticks closer to falling due. -/
structure HostProgram where
  lines : List HostLine
  reads : List Word
  polls : List Bool
  schedule : List Input
  deriving DecidableEq, Repr

/-- R104: the block in state `s`, with the program before its first bus operation. -/
def HostProgram.start (p : HostProgram) (s : State) : State := s.withEnv { s.env with
  inputs := p.schedule
  readAnswers := p.reads
  pollAnswers := p.polls
  host := { todo := p.lines.flatMap HostLine.ops, vars := [] } }

/-- R104: the first `n` steps of a run. -/
def HostProgram.run (p : HostProgram) (s : State) (n : Nat) : Host.Outcome State Fault Refusal :=
  Sys2Proof.core.run n (p.start s)

/-- R326: the last bus operation has completed, no command is pending or running, and no operation holds the lock. It
does not say whether a tick is pending. -/
structure RunEnded (s : State) : Prop where
  done : s.env.host.todo = []
  free : s.busy = false
  idle : s.step = .idle

/-- R326: the run of `p` from `s` ends, without a fault, in the state `t`: the first at which all of R326 holds. -/
def HostProgram.EndsIn (p : HostProgram) (s t : State) : Prop :=
  ∃ n, p.run s n = .next t ∧ RunEnded t ∧ ∀ m u, m < n → p.run s m = .next u → ¬ RunEnded u

end Sys2Proof.Machine
end

