-- ==== Sys2Proof/Machine/Launch.lean ====
section
/-! DEFINITION. The launch premises of a run from reset, by name (spec/70_reset_and_hazards.md R323, R324): what the
platform guarantees of the domain outside the block when reset is released. The domain's own state is no state of the
block; it stands here as data that the premises speak of (log 21). -/

namespace Sys2Proof.Machine

/-- The clock domain and its surroundings at the release of reset. -/
structure Domain where
  /-- The frequency the domain runs at, Hz. -/
  freq : Word
  /-- The source each multiplexer selects. -/
  muxes : List (Byte × Byte)
  /-- The word the PLL is programmed with. -/
  pll : Word
  /-- The rail's voltage, µV. -/
  rail : Word
  /-- A cold offset is in force. -/
  cold : Bool
  dllForced : Bool
  dllLocked : Bool
  /-- The lock value the DLL is forced at. -/
  dllLock : Word
  /-- The words of the live timing set. -/
  liveTiming : List Word
  /-- `OFF_TSEL` is readable. -/
  selReadable : Bool
  /-- The `ms_tick` strobe runs. -/
  strobeRuns : Bool
  deriving DecidableEq, Repr

/-- The source a list of (multiplexer, source) pairs leaves a multiplexer at, if it sets it. -/
def sourceOf (pairs : List (Byte × Byte)) (mux : Byte) : Option Byte :=
  ((pairs.filter fun p => p.1 == mux).getLast?).map Prod.snd

/-- R324.2: the frequency, the multiplexers and the PLL. -/
structure ClockAtBoot (c : Config) (d : Domain) : Prop where
  freq : d.freq = c.freqAt c.bootLevel
  muxes : ∀ m src, sourceOf (c.opp c.bootLevel).planMux m = some src → sourceOf d.muxes m = some src
  pll : d.pll = c.pllAt c.bootLevel

/-- R324.3: the rail, with no cold offset in force. -/
structure VoltageAtBoot (c : Config) (d : Domain) : Prop where
  rail : d.rail = c.voltAt c.bootLevel
  cold : d.cold = false

/-- R324.4: the DLL free-runs locked at the free-running level, and is held at `BOOT_LOCK` elsewhere. -/
structure DllAtBoot (c : Config) (d : Domain) : Prop where
  free : c.bootLevel = c.dllFreeLevel → d.dllForced = false ∧ d.dllLocked = true
  forced : c.bootLevel ≠ c.dllFreeLevel → d.dllForced = true ∧ d.dllLock = c.bootLock

/-- R324.5: the live timing set, and the select word. -/
structure TimingAtBoot (c : Config) (d : Domain) : Prop where
  live : d.liveTiming = (c.opp c.bootLevel).timing
  readable : d.selReadable = true

/-- R324: the boot precondition, each of its seven launch premises by name. -/
structure BootPrecondition (c : Config) (e : Env) (d : Domain) : Prop where
  /-- R324.1: every step checks it (`stepBlock`). -/
  configuration : c.wf = true
  /-- R324.2. -/
  clock : ClockAtBoot c d
  /-- R324.3. -/
  voltage : VoltageAtBoot c d
  /-- R324.4. -/
  dll : DllAtBoot c d
  /-- R324.5. -/
  timing : TimingAtBoot c d
  /-- R324.6: the block's reads rest on it (`State.owedWord`, log 8). -/
  ownership : e.owned = true
  /-- R324.7. -/
  timeBase : d.strobeRuns = true

/-- R323: the platform asserts the block's reset only together with a reset of the domain that re-establishes the
boot precondition: the premise of a reset pulse in state `s` that finds the domain as `d`. -/
def ResetTogether (s : State) (d : Domain) : Prop := BootPrecondition s.cfg s.resetNow.env d

/-- The block's registers agree with the domain's real state (R323). -/
structure AgreesWith (s : State) (d : Domain) : Prop where
  freq : d.freq = s.cfg.freqAt s.currentLevel
  pll : d.pll = s.pllCur
  rail : d.rail = s.currentVoltage
  cold : d.cold = false → s.thermalOffset = 0
  forced : d.dllForced = s.dllForced
  locked : s.dllLocked = true → d.dllLocked = true
  lockValue : s.dllForced = true → d.dllLock = s.pendingLock
  timing : d.liveTiming = (s.cfg.opp s.currentLevel).timing

end Sys2Proof.Machine
end

