-- ==== Sys2Proof/Safety.lean ====
section
/-! DEFINITION. The terms in which claims about the block are made: the invariant of its states, the order of voltage
and clock in a trace (spec/41_transition_engine.md R180), the events of a level change in order (R150 to R174), the wait
that ends a failed operation (spec/60_exceptions.md R271, R286), the outbound offsets the block may use
(spec/20_memory.md R75), and the lengths of its operations (spec/70_reset_and_hazards.md R341). -/

namespace Sys2Proof.Machine

/-- Nothing comes from outside while the operation runs: no host access, no strobe, no reset. -/
abbrev State.quiet (s : State) : Prop := s.env.inputs = []

/-- No reset pulse is to come. -/
abbrev State.noReset (s : State) : Prop := Input.rst ∉ s.env.inputs

/-- R42: no operation holds the lock. -/
structure AtRest (s : State) : Prop where
  step : s.step = .idle
  owner : s.lockOwner = .none
  active : s.cmdActive = false

/-- The codes of a pair of ranks fit their width (R31). -/
def codesFit (c : Config) (p : Byte × Byte) : Prop :=
  ∀ th, c.thermal = some th → p.1.toNat < 2 ^ th.codeW ∧ p.2.toNat < 2 ^ th.codeW

/-- R178: away from the safe level, the PLL is set as the current level's entry says. -/
def PllMatches (s : State) : Prop :=
  s.currentLevel ≠ s.cfg.safeLevel → s.pllCur = s.cfg.pllAt s.currentLevel

/-- What holds of the block's registers at every action, with an operation in progress or not. -/
structure Coherent (s : State) : Prop where
  /-- R4, R324.1. -/
  cfgWf : s.cfg.wf = true
  /-- R22. -/
  level : s.currentLevel.toNat < s.cfg.nLevels
  /-- R27. -/
  safeLevel : s.safePllLevel = s.cfg.safeLevel
  /-- R25. -/
  dll : s.dllLocked = true → s.dllForced = false
  /-- R26. -/
  lockValue : s.pendingLock.toNat < 2 ^ s.cfg.lockW
  /-- R178. -/
  pll : PllMatches s
  /-- R270: STATUS.ERR never holds 3 nor a reserved code (I23). -/
  errCode : s.err = 0 ∨ s.err = 1 ∨ s.err = 2 ∨ s.err = 4
  /-- R31. -/
  rankCount : s.rankLevel.length = s.cfg.channels
  /-- R31. -/
  rankCodes : ∀ p ∈ s.rankLevel, codesFit s.cfg p
  /-- R43. -/
  sampleCodes : ∀ p ∈ s.sample, codesFit s.cfg p
  /-- R33, R292. -/
  countMax : s.tickRemaining.toNat ≤ 1000
  /-- R222: the count is above 0 while it runs. -/
  counting : s.monStopped = false → s.tickPending = false → s.lockOwner ≠ .tick → 1 ≤ s.tickRemaining.toNat
  /-- R35, R42: a command runs under the lock only. -/
  active : s.cmdActive = true → s.lockOwner = .cmd
  /-- R222, R224: no tick falls due while one runs. -/
  ticking : s.lockOwner = .tick → s.tickPending = false
  /-- R33, R223: a stopped monitor has no tick pending. -/
  stopped : s.monStopped = true → s.tickPending = false
  /-- R233: in Tripped the monitor has stopped, but for the tick that trips. -/
  tripped : s.thermState = .tripped → s.monStopped = true ∨ s.lockOwner = .tick
  /-- R220. -/
  noMonitor : s.cfg.thermal = none → s.thermState = .normal ∧ s.monStopped = true

/-- The invariant of the block between operations. -/
structure Inv (s : State) : Prop where
  rest : AtRest s
  coherent : Coherent s

/-- R221, R233: the terminal state: tripped, with no tick to come. -/
structure TrippedForGood (s : State) : Prop where
  state : s.thermState = .tripped
  stopped : s.monStopped = true
  noTick : s.tickPending = false

/-- R180: the calls that program a clock. -/
def Prim.isClock : Prim → Bool
  | .setVoltage _ => false
  | .setPllRate _ _ => true
  | .setMuxParent _ _ => true
  | .setDivider _ _ => true

/-- R180: the call of a trace event that programs a clock. -/
def Event.isClockCall : Event → Bool
  | .call p => p.isClock
  | _ => false

/-- R180, the up case: the voltage call and a true VOLT_DONE poll stand before every clock call. -/
def VoltageFirst (v : Word) (evs : List Event) : Prop :=
  ∀ pre e post, evs = pre ++ e :: post → e.isClockCall = true →
    Event.call (.setVoltage v) ∈ pre ∧ Event.poll .voltDone true ∈ pre

/-- R180, the down case: after a voltage call there is no clock call, and it is for the voltage `v`. -/
def VoltageLast (v : Word) (evs : List Event) : Prop :=
  ∀ pre w post, evs = pre ++ Event.call (.setVoltage w) :: post → w = v ∧ ∀ e ∈ post, e.isClockCall = false

/-- The primitive calls of a list of events, in order. -/
def callsOf (evs : List Event) : List Prim :=
  evs.filterMap fun e => match e with
    | .call p => some p
    | _ => none

/-- R160, R161, R163: the calls of the simple path's clock change. -/
def simpleCalls (c : Config) (o t : Level) : List Prim :=
  match c.switchOrder o t with
  | .muxThenDiv => (c.opp t).planMux.map (fun p => .setMuxParent p.1 p.2) ++ [.setDivider c.primaryDiv (c.opp t).planDiv]
  | .divThenMux => .setDivider c.primaryDiv (c.opp t).planDiv :: (c.opp t).planMux.map (fun p => .setMuxParent p.1 p.2)

/-- R165, R168, R170: the calls of the PLL-safe-switch. -/
def pssCalls (c : Config) (t : Level) : List Prim :=
  [.setMuxParent c.primaryMux c.safeSrc, .setPllRate c.pllId (c.pllAt t), .setMuxParent c.primaryMux c.pllSrc]

/-- R75: an outbound access is at a configured offset. -/
def Event.configured (c : Config) : Event → Prop
  | .wr .drex off _ => off = c.offTsel ∨ off = c.offAref ∨ off ∈ c.offTset0 ∨ off ∈ c.offTset1 ∨
      ∃ th, c.thermal = some th ∧ off = th.offMrrCmd
  | .wr .phy off _ => off = c.offDllCtrl
  | .rd .drex off _ => off = c.offTsel ∨ ∃ th, c.thermal = some th ∧ (off = th.offMrrStat ∨ off = th.offMrrData)
  | .rd .phy off _ => off = c.offDllStat
  | .call _ => True
  | .poll _ _ => True
  | .notify _ _ => True
  | .shutdown => True

/-- R158: the writes of a timing profile into a set. -/
def timingWrites (offs : List Nat) (words : List Word) : List Event :=
  (offs.zip words).map fun p => .wr .drex p.1 p.2

/-! ### The events of an operation, in order -/

/-- The list is one list for each description, one after the other. -/
def InOrder : List (List Event → Prop) → List Event → Prop
  | [], evs => evs = []
  | p :: ps, evs => ∃ a b, evs = a ++ b ∧ p a ∧ InOrder ps b

/-- These events and no others. -/
def Just (evs : List Event) : List Event → Prop := fun l => l = evs

/-- R153: a signal wait that ended with the signal seen, within its budget. -/
def SignalSeen (c : Config) (sig : Signal) : List Event → Prop := fun l =>
  ∃ k, k < c.waitMax ∧ l = List.replicate k (.poll sig false) ++ [.poll sig true]

/-- R153: a signal wait that used up its budget. -/
def signalMissed (c : Config) (sig : Signal) : List Event := List.replicate c.waitMax (.poll sig false)

/-- R158: the double-buffer protocol for a level, with whatever the select word was. -/
def TimingWritten (c : Config) (l : Level) : List Event → Prop := fun evs =>
  ∃ w : Word, evs = .rd .drex c.offTsel w ::
    (timingWrites (c.timingSet (!w.getLsbD c.tselBit)) (c.opp l).timing ++
      [.wr .drex c.offTsel (w ^^^ BitVec.ofNat 32 (2 ^ c.tselBit))])

/-- R155: the DLL captured at the lock value `lock`. -/
def DllCaptured (c : Config) (lock : Word) : List Event → Prop := fun evs =>
  ∃ w, lock = lockField c w ∧
    evs = [.rd .phy c.offDllStat w, .wr .phy c.offDllCtrl (c.dllCtrl.word true lock)]

/-- The reads of the DLL status word, of these answers. -/
def statusReads (c : Config) (ws : List Word) : List Event := ws.map fun w => .rd .phy c.offDllStat w

/-- No answer has every lock-detect bit set. -/
def NoneLocked (c : Config) (ws : List Word) : Prop := ∀ w ∈ ws, w &&& c.dllLockMask ≠ c.dllLockMask

/-- R172: the DLL freed at the lock value `lock`, and its lock-detect bits seen within the budget. -/
def DllRelocked (c : Config) (lock : Word) : List Event → Prop := fun evs =>
  ∃ ws w, ws.length < c.waitMax ∧ NoneLocked c ws ∧ w &&& c.dllLockMask = c.dllLockMask ∧
    evs = .wr .phy c.offDllCtrl (c.dllCtrl.word false lock) :: statusReads c (ws ++ [w])

/-- R154: a voltage written, and seen. -/
def voltageParts (c : Config) (v : Word) : List (List Event → Prop) :=
  [Just [.call (.setVoltage v)], SignalSeen c .voltDone]

/-- R161, R162: the multiplexer calls of a plan, each with its wait; a wait that timed out where `settled` says false. -/
def muxParts (c : Config) : List (Byte × Byte) → List Bool → List (List Event → Prop)
  | p :: plan, b :: settled =>
    Just [.call (.setMuxParent p.1 p.2)] ::
      (if b then SignalSeen c (.muxSettled p.1) else Just (signalMissed c (.muxSettled p.1))) :: muxParts c plan settled
  | _, _ => []

/-- R163: the divider call with its wait. -/
def dividerParts (c : Config) (t : Level) : List (List Event → Prop) :=
  [Just [.call (.setDivider c.primaryDiv (c.opp t).planDiv)], SignalSeen c .divDone]

/-- R161: the clock change of the simple path. -/
def clockParts (c : Config) (o t : Level) (settled : List Bool) : List (List Event → Prop) :=
  match c.switchOrder o t with
  | .muxThenDiv => muxParts c (c.opp t).planMux settled ++ dividerParts c t
  | .divThenMux => dividerParts c t ++ muxParts c (c.opp t).planMux settled

/-- R160: the timing before the clock on the way up, after it on the way down. -/
def simpleParts (c : Config) (o t : Level) (settled : List Bool) : List (List Event → Prop) :=
  if goesUp c o t then TimingWritten c t :: clockParts c o t settled else clockParts c o t settled ++ [TimingWritten c t]

/-- R165 to R171: the seven steps of the PLL-safe-switch. -/
def pssParts (c : Config) (t : Level) : List (List Event → Prop) :=
  [Just [.call (.setMuxParent c.primaryMux c.safeSrc)], TimingWritten c c.safeLevel, SignalSeen c .pauseDone,
    Just [.call (.setPllRate c.pllId (c.pllAt t))], SignalSeen c .pllLocked, TimingWritten c t,
    Just [.call (.setMuxParent c.primaryMux c.pllSrc)], SignalSeen c .pauseDone]

/-- R172: the DLL in the mode the target needs, from the lock value `lock`. -/
def dllParts (c : Config) (t : Level) (lock : Word) : List (List Event → Prop) :=
  if t = c.dllFreeLevel then [DllRelocked c lock]
  else [Just [.wr .phy c.offDllCtrl
    (c.dllCtrl.word true (saturate c.lockW (lock.toNat + (c.opp t).dvfsOffset.toInt)))]]

/-- R150: the events of a body that changes the level of `s` to `t` and reaches its end, in order: `lock` is the lock
value after it, and `settled` says which multiplexer waits saw their signal. -/
def levelChangeParts (s : State) (t : Level) (lock : Word) (settled : List Bool) : List (List Event → Prop) :=
  let c := s.cfg
  let up := goesUp c s.currentLevel t
  (if s.needsCapture t then [DllCaptured c lock] else []) ++
  (if up then voltageParts c (s.voltageFor t) else []) ++
  (if s.needsPll t then pssParts c t else simpleParts c s.currentLevel t settled) ++
  dllParts c t lock ++
  [Just [.wr .drex c.offAref (c.arefAt t s.thermState)]] ++
  (if up then [] else voltageParts c (s.voltageFor t))

/-- R162, R275: the last multiplexer of a plan whose wait timed out. -/
def lastUnsettled : List (Byte × Byte) → List Bool → Option Byte
  | p :: plan, b :: settled =>
    match lastUnsettled plan settled with
    | some m => some m
    | none => if b then none else some p.1
  | _, _ => none

/-- An event by which the block commands something: a write or a call. -/
def Event.isCommand : Event → Bool
  | .wr _ _ _ => true
  | .call _ => true
  | _ => false

/-- R153, R271, R286: the events of a wait that used up its budget, and the word it leaves in ERR_SNAP: 0 for a signal,
the last word read for the DLL's lock-detect bits. -/
def Exhausted (c : Config) (sig : Signal) (evs : List Event) (snap : Word) : Prop :=
  if sig = .dllLocked then
    ∃ ws, ws.length = c.waitMax ∧ NoneLocked c ws ∧ ws.getLast? = some snap ∧ evs = statusReads c ws
  else evs = signalMissed c sig ∧ snap = 0

/-- R271: the argument a critical wait reports: the primary multiplexer's id where it is the one waited for, else 0. -/
def criticalArg (c : Config) : Signal → Byte
  | .muxSettled _ => c.primaryMux
  | _ => 0

/-- R40: every read of the select word in the list answers the word last written there before it: `known`, or the last
one the list itself wrote; before any write it answers what it will. -/
def SelectReadsBack (c : Config) : Option Word → List Event → Prop
  | _, [] => True
  | known, .rd .drex off v :: evs => (off = c.offTsel → known = none ∨ known = some v) ∧ SelectReadsBack c known evs
  | known, .wr .drex off v :: evs => SelectReadsBack c (if off = c.offTsel then some v else known) evs
  | known, _ :: evs => SelectReadsBack c known evs

/-- The word last written at `OFF_TSEL` after a list of events, from the one before it. -/
def lastSelect (c : Config) : Option Word → List Event → Option Word
  | known, [] => known
  | known, .wr .drex off v :: evs => lastSelect c (if off = c.offTsel then some v else known) evs
  | known, _ :: evs => lastSelect c known evs

/-- R158, R159: every timing word goes to the set that the select word last seen does not name, and every select word
written is that word with its select bit flipped. So the set written after one select word and the set written after the
next are different ones. -/
def TimingAlternates (c : Config) : Option Word → List Event → Prop
  | _, [] => True
  | seen, .rd .drex off v :: evs => TimingAlternates c (if off = c.offTsel then some v else seen) evs
  | seen, .wr .drex off v :: evs =>
    if off = c.offTsel then
      (∃ w, seen = some w ∧ v = w ^^^ BitVec.ofNat 32 (2 ^ c.tselBit)) ∧ TimingAlternates c (some v) evs
    else
      (off ∈ c.offTset0 ∨ off ∈ c.offTset1 →
        ∃ w, seen = some w ∧ off ∈ c.timingSet (!w.getLsbD c.tselBit)) ∧ TimingAlternates c seen evs
  | seen, _ :: evs => TimingAlternates c seen evs

/-- The select word and the timing sets have offsets of their own: no other write of the block is at one of them. -/
structure SelectApart (c : Config) : Prop where
  sets : c.offTsel ∉ c.offTset0 ∧ c.offTsel ∉ c.offTset1
  aref : c.offAref ≠ c.offTsel ∧ c.offAref ∉ c.offTset0 ∧ c.offAref ∉ c.offTset1
  mrr : ∀ th, c.thermal = some th → th.offMrrCmd ≠ c.offTsel ∧ th.offMrrCmd ∉ c.offTset0 ∧ th.offMrrCmd ∉ c.offTset1

/-- R226: the events of one mode-register read: its command, the status reads of which only the last is done, within the
budget, and the read of the data word. -/
def RankSampled (c : Config) (th : Thermal) (cmd data : Word) : List Event → Prop := fun evs =>
  ∃ ws w, ws.length < c.waitMax ∧ (∀ x ∈ ws, x &&& th.mrrDoneMask ≠ th.mrrDoneMask) ∧
    w &&& th.mrrDoneMask = th.mrrDoneMask ∧
    evs = .wr .drex th.offMrrCmd cmd :: (ws ++ [w]).map (.rd .drex th.offMrrStat) ++ [.rd .drex th.offMrrData data]

/-- R225, R226, R228: the sampling of a tick from `s` left `u`, every rank read, channel by channel and rank 0 before
rank 1: the sample of channel c and rank r is the low `CODE_W` bits of the data word read for them. Nothing but the
model's own fields and the hidden ones changes. -/
def Sampled (th : Thermal) (s u : State) : Prop :=
  ∃ (data : List (Word × Word)) (evs : List Event) (attempt : Nat) (last : Word) (e : Env),
    data.length = th.channels ∧
    InOrder ((th.mrrCmd.zip data).flatMap fun p => [RankSampled s.cfg th p.1.1 p.2.1, RankSampled s.cfg th p.1.2 p.2.2])
      evs ∧
    e.trace = s.env.trace ++ evs ∧ e.replies = s.env.replies ∧ e.host = s.env.host ∧
    u = { s.takeTick with
      sample := data.map fun d =>
        (BitVec.ofNat 8 (d.1.toNat % 2 ^ th.codeW), BitVec.ofNat 8 (d.2.toNat % 2 ^ th.codeW))
      attempt := attempt, lastWord := last, env := e }

/-- R104: the outcome of an operation or step from `s` in which the host's line `op` was to fall, beside the outcome of
the same with the line's own access `a` in its place: the line was performed as that access, and its answer left the host
where it should be; or it is still to come, as the access is. -/
def LineIsItsAccess (s : State) (op : HostOp) (rest : List HostOp) (a : Access) :
    Host.Outcome State Fault Refusal → Host.Outcome State Fault Refusal → Prop
  | .next t, .next t' =>
    t'.env.inputs = t.env.inputs.map (fun i => if i = .host then .access a else i) ∧
    t = if Input.host ∈ t.env.inputs then t'.withInputs t.env.inputs
      else t'.withHost (s.env.host.answered op rest (t'.env.replies.drop s.env.replies.length).head?)
  | .fault f, .fault f' => f = f'
  | .refused x, .refused x' => x = x'
  | _, _ => False

/-- R226: the mode-register commands of a tick, in the order of its ranks: rank r of channel c is number 2c + r. -/
def mrrCommands (th : Thermal) : List Word := th.mrrCmd.flatMap fun p => [p.1, p.2]

/-- The words written in a list of events, each with its offset. -/
def writesOf (evs : List Event) : List (Nat × Word) :=
  evs.filterMap fun e => match e with
    | .wr _ off v => some (off, v)
    | _ => none

/-- The state of a tick once it has updated its state and, unless it trips, written the refresh word, as the ceiling is
re-evaluated (R225, R233, R234): from the state `u` its samples left. `notified` are its notifications. -/
def reevalState (u : State) (st : ThermState) (notified : List Event) : State :=
  let v : State := { u with
    rankLevel := u.sample, sampled := true, thermState := st, step := .monUpdate
    intStatus := if notified = [] then u.intStatus else u.intStatus ||| 0b001000
    env := { u.env with trace := u.env.trace ++ notified } }
  if st = .tripped then v.shutDown.setStep .monReeval else v.writeAref.setStep .monReeval

/-- R233, R236: how a tick ends: the lock is free, and, unless it tripped, the count starts again. -/
def endTick (th : Thermal) (st : ThermState) (v : State) : State :=
  { v with
    lockOwner := .none, step := .idle
    tickRemaining := if st = .tripped then v.tickRemaining else th.pollMs.get st }

/-- R230: the notifications of the channels from `c` on whose level changed, in order. -/
def notifications (c : Nat) : List Byte → List Byte → List Event
  | new :: news, old :: olds => (if new = old then [] else [.notify new c]) ++ notifications (c + 1) news olds
  | _, _ => []

/-- R180, of an operation from `s` to `u` whose target is the level `t`. -/
def VoltageSafe (s u : State) (t : Level) : Prop :=
  ∃ evs, u.env.trace = s.env.trace ++ evs ∧
    (goesUp s.cfg s.currentLevel t = true → VoltageFirst (s.voltageFor t) evs) ∧
    (goesUp s.cfg s.currentLevel t = false → VoltageLast (s.voltageFor t) evs)

/-- R320, R321: a reset ended an operation from `s` after its first `n` outbound operations, which are those of the
undisturbed operation from `s` to `t`; the inputs `rest` are still to come. -/
def ResetAfter (s t : State) (n : Nat) (rest : List Input) (o : Host.Outcome State Fault Refusal) : Prop :=
  ∃ e : Env, o = .next (State.resetOf s.cfg e) ∧ e.inputs = rest ∧
    e.trace = t.env.trace.take (s.env.trace.length + n) ∧ e.replies = s.env.replies ∧
    e.selWord = none ∧ e.arefWord = none ∧ e.dllCtrlWord = none

/-- R341: the longest `PLAN_MUX`. -/
def longestPlan (c : Config) : Nat := (c.opps.map fun p => p.planMux.length).foldr max 0

/-- R341: a bound on the events of a transition body. -/
def bodyBound (c : Config) : Nat :=
  2 + (1 + c.waitMax) +
    max ((c.tpw + 2) + (longestPlan c + 1) * (1 + c.waitMax)) (2 * c.tpw + 7 + 3 * c.waitMax) +
    (1 + c.waitMax) + 1

/-- R341: a bound on the events of a tick. -/
def tickBound (c : Config) : Nat :=
  2 * c.channels * (c.waitMax + 2) + c.channels + 1 + 1 + bodyBound c

/-- The answer the environment will give to the poll that follows `k` others with no outbound read between (R67). -/
def State.pollAnswer (s : State) (k : Nat) : Bool := (s.env.pollAnswers[k]?).getD (Config.freeBit (s.env.draws + k))

/-- The environment's script favours a transition into `t`: enough polls, all true, and enough reads, each with the
lock-detect bits set. -/
structure Favourable (s : State) (t : Level) : Prop where
  quiet : s.quiet
  polls : 4 + (s.cfg.opp t).planMux.length ≤ s.env.pollAnswers.length
  pollsTrue : ∀ b ∈ s.env.pollAnswers, b = true
  reads : 4 ≤ s.env.readAnswers.length
  readsLocked : ∀ w ∈ s.env.readAnswers, w &&& s.cfg.dllLockMask = s.cfg.dllLockMask
  statusApart : s.cfg.offDllStat ≠ s.cfg.offDllCtrl

end Sys2Proof.Machine
end

