-- ==== Sys2Proof/Certificates/Slice0/Obligations.lean ====
section
/-! DEFINITION. The statements about the block, one per obligation of OBLIGATIONS.json. Each docstring names the rules
of spec/ it formalises. `quiet` means that nothing comes from outside while the operation runs; statements without it
hold for every host access, strobe and reset that falls among the operation's actions. Where `MMIO_BASE` is no multiple
of 4, an access is aligned as its offset is, which is the model's choice (log 20). Where a statement gives or compares
whole states at IDLE, the hidden fields of R43, undefined there, stand in it as the model keeps them (log 9). -/

open Sys2Proof Sys2Proof.Machine

/-! ### Encoding -/

/-- R91, R93: the four command words and the operands each takes; each word is matched in every bit. -/
def Obligations.CommandWordsDecode : Prop :=
  ∀ a0 a1 : Word,
    decode 0x00000001#32 a0 a1 = .ok (.policy a0) ∧
    decode 0x00000002#32 a0 a1 = .ok (.transition a0) ∧
    decode 0x00000003#32 a0 a1 = .ok (.setBounds a0 a1) ∧
    decode 0x00000004#32 a0 a1 = .ok (.cold (a0.getLsbD 0)) ∧
    ∀ (w : Word) (i : Instr), decode w a0 a1 = .ok i →
      match i with
      | .policy _ => w = 0x00000001#32
      | .transition _ => w = 0x00000002#32
      | .setBounds _ _ => w = 0x00000003#32
      | .cold _ => w = 0x00000004#32

/-- R92, R102: every word decodes to one of the four operations or is illegal, and which of the two its bits say. -/
def Obligations.DecodingIsTotal : Prop :=
  ∀ w a0 a1 : Word,
    ((∃ i, decode w a0 a1 = .ok i) ↔
      w.extractLsb' 4 28 = 0 ∧ (w.extractLsb' 0 4 = 1 ∨ w.extractLsb' 0 4 = 2 ∨ w.extractLsb' 0 4 = 3 ∨ w.extractLsb' 0 4 = 4)) ∧
    ((∃ i, decode w a0 a1 = .ok i) ↔ w = 1 ∨ w = 2 ∨ w = 3 ∨ w = 4) ∧
    (w.extractLsb' 4 28 ≠ 0 → decode w a0 a1 = .error .reservedBits)

/-- R91, R93, R101: decoding an encoded command gives it back, and a decoded word is its command's encoding, with every
operand bit that the command reads. -/
def Obligations.DecodeAndEncodeAgree : Prop :=
  (∀ i : Instr, decode (encode i).1 (encode i).2.1 (encode i).2.2 = .ok i) ∧
  ∀ (w a0 a1 : Word) (i : Instr), decode w a0 a1 = .ok i →
    (encode i).1 = w ∧
    match i with
    | .policy desired => desired = a0 ∧ (encode i).2.1 = a0
    | .transition requested => requested = a0 ∧ (encode i).2.1 = a0
    | .setBounds min max => min = a0 ∧ max = a1 ∧ (encode i).2 = (a0, a1)
    | .cold asserted => asserted = a0.getLsbD 0 ∧ (encode i).2.1 = a0 &&& 1

/-! ### The host's window -/

/-- R120, R101: a CMD write is captured with the argument registers, or dropped with DROP set and nothing else changed. -/
def Obligations.CmdWriteCapturedOrDropped : Prop :=
  ∀ (s : State) (w : Word) (rest : List Input), s.cfg.wf = true →
    s.env.inputs = .access ⟨s.cfg.mmioBase, 4, .write w⟩ :: rest →
    (s.slot ≠ none ∨ s.cmdActive = true →
      step s = .next ({ s with intStatus := s.intStatus ||| 0b010000 }.withInputs rest)) ∧
    (s.slot = none → s.cmdActive = false →
      ∃ t, step s = .next (t.withInputs rest) ∧ t.statusWord.getLsbD 0 = true ∧
        t = { s with slot := some ⟨w.extractLsb' 0 4, w.extractLsb' 4 28 != 0, s.arg0, s.arg1⟩ })

/-- R94, R98, R65: what a host read of each register answers; the read changes nothing of the block. -/
def Obligations.HostReadsRegisters : Prop :=
  ∀ (s : State) (r : Reg) (rest : List Input), s.cfg.wf = true → (∀ c, r = .chLevel c → c < 16) →
    s.env.inputs = .access ⟨s.cfg.mmioBase + r.offset, 4, .read⟩ :: rest →
    step s = .next (s.withEnv { s.env with inputs := rest, replies := s.env.replies ++ [
      match r with
      | .cmd => 0
      | .arg0 => s.arg0
      | .arg1 => s.arg1
      | .status => s.statusWord
      | .result => s.result
      | .curLevel => BitVec.ofNat 32 s.currentLevel.toNat
      | .curVolt => s.currentVoltage
      | .ceiling => s.thermalCeiling
      | .qosMin => s.qosMin
      | .qosMax => s.qosMax
      | .lastReq => s.lastRequested
      | .thermOffset => s.thermalOffset
      | .intStatus => BitVec.ofNat 32 s.intStatus.toNat
      | .intEnable => BitVec.ofNat 32 s.intEnable.toNat
      | .errInfo => s.errInfoWord
      | .errSnap => s.errSnap
      | .dllLock => BitVec.ofNat 32 (s.pendingLock.toNat % 2 ^ s.cfg.lockW)
      | .pllCur => s.pllCur
      | .tickRemain => s.tickRemaining
      | .chLevel c =>
        if c < s.cfg.channels then
          BitVec.ofNat 32 ((s.rankLevel.getD c (0, 0)).1.toNat + 256 * (s.rankLevel.getD c (0, 0)).2.toNat)
        else 0] })

/-- R95: every field of STATUS, that a read of its offset answers it and a write does nothing, and its value at reset. -/
def Obligations.StatusLayout : Prop :=
  (∀ s : State,
    s.statusWord.getLsbD 0 = (s.slot.isSome || s.cmdActive) ∧
    s.statusWord.getLsbD 1 = decide (s.step ≠ .idle) ∧
    s.statusWord.getLsbD 2 = s.sampled ∧
    s.statusWord.getLsbD 3 = decide (s.thermState = .tripped) ∧
    (s.statusWord.extractLsb' 4 3).toNat = s.thermState.code ∧
    s.statusWord.getLsbD 7 = s.dllLocked ∧
    s.statusWord.extractLsb' 8 4 = s.err ∧
    s.statusWord.getLsbD 12 = s.dllForced ∧
    s.statusWord.extractLsb' 13 3 = 0 ∧
    (s.statusWord.extractLsb' 16 8).toNat = s.maxLevel ∧
    s.statusWord.extractLsb' 24 8 = 0 ∧
    s.readReg 0x0C = s.statusWord ∧ ∀ v, s.writeReg 0x0C v = s) ∧
  ∀ (c : Config) (e : Env),
    (State.resetOf c e).statusWord = if c.bootLevel = c.dllFreeLevel then 0x00000080 else 0x00001000

/-- R97, R99, R94, 93 I25: the reserved bits of ERR_INFO, CH_LEVEL, DLL_LOCK, CUR_LEVEL, INT_STATUS and INT_ENABLE read
0, and the fields of ERR_INFO and CH_LEVEL stand where the layout puts them. -/
def Obligations.ReservedBitsReadZero : Prop :=
  ∀ s : State,
    s.errInfoWord.extractLsb' 0 8 = s.errStep ∧ s.errInfoWord.extractLsb' 8 8 = s.errSig ∧
    s.errInfoWord.extractLsb' 16 8 = s.errArg ∧ s.errInfoWord.extractLsb' 24 8 = 0 ∧
    (∀ c, (s.chLevelWord c).extractLsb' 16 16 = 0 ∧
      (c < s.cfg.channels → (s.chLevelWord c).extractLsb' 0 8 = (s.rankLevel.getD c (0, 0)).1 ∧
        (s.chLevelWord c).extractLsb' 8 8 = (s.rankLevel.getD c (0, 0)).2)) ∧
    (∀ i, s.cfg.lockW ≤ i → s.dllLockWord.getLsbD i = false) ∧
    (∀ i, i < s.cfg.lockW → s.dllLockWord.getLsbD i = s.pendingLock.getLsbD i) ∧
    (s.readReg 0x14).extractLsb' 8 24 = 0 ∧
    (s.readReg 0x30).extractLsb' 6 26 = 0 ∧ (s.readReg 0x34).extractLsb' 6 26 = 0

/-- R63: an undefined offset reads 0; a write to it, or to a read-only register, changes nothing. -/
def Obligations.UnmappedAndReadOnlyIgnored : Prop :=
  ∀ (s : State) (off : Nat) (v : Word) (rest : List Input), s.cfg.wf = true → off < 256 → off % 4 = 0 →
    ((0x4C ≤ off ∧ off < 0x80 ∨ 0xC0 ≤ off) →
      s.env.inputs = .access ⟨s.cfg.mmioBase + off, 4, .read⟩ :: rest →
      step s = .next (s.withEnv { s.env with inputs := rest, replies := s.env.replies ++ [0] })) ∧
    ((0x0C ≤ off ∧ off < 0x30 ∨ 0x38 ≤ off) →
      s.env.inputs = .access ⟨s.cfg.mmioBase + off, 4, .write v⟩ :: rest →
      step s = .next (s.withInputs rest))

/-- R278, R61: an access inside the window that is not 4 bytes or not aligned is a bus error; every other one is
performed. Where `MMIO_BASE` is no multiple of 4, alignment is the offset's: the model's choice (log 20). -/
def Obligations.BusErrorExactlyWhenMisaligned : Prop :=
  ∀ (s : State) (off bytes : Nat) (dir : Direction) (rest : List Input), s.cfg.wf = true → off < 256 →
    s.env.inputs = .access ⟨s.cfg.mmioBase + off, bytes, dir⟩ :: rest →
    (bytes ≠ 4 ∨ off % 4 ≠ 0 → step s = .fault (.busError off bytes)) ∧
    (bytes = 4 → off % 4 = 0 → ∃ t, step s = .next t)

/-- R280, R39: `irq` is the OR of the enabled pending bits; a write of ones to INT_STATUS clears exactly those bits, and
a write to INT_ENABLE changes no pending bit. -/
def Obligations.InterruptEnablePendingClear : Prop :=
  ∀ (s : State) (m : Word) (rest : List Input), s.cfg.wf = true →
    (s.irq = true ↔ ∃ i, i < 6 ∧ s.intStatus.getLsbD i = true ∧ s.intEnable.getLsbD i = true) ∧
    (s.env.inputs = .access ⟨s.cfg.mmioBase + 0x30, 4, .write m⟩ :: rest →
      ∃ b : BitVec 6, step s = .next ({ s with intStatus := b }.withInputs rest) ∧
        ∀ i, i < 6 → b.getLsbD i = (s.intStatus.getLsbD i && !m.getLsbD i)) ∧
    (s.env.inputs = .access ⟨s.cfg.mmioBase + 0x34, 4, .write m⟩ :: rest →
      ∃ b : BitVec 6, step s = .next ({ s with intEnable := b }.withInputs rest) ∧
        ∀ i, i < 6 → b.getLsbD i = m.getLsbD i)

/-- R104, R105, R101: on a free port, the bus writes of each command pseudo-instruction put its command in the slot. And
what one line of a host program does: WR writes, RD reads into its variable, and POLLRD reads until its word matches, at
any aligned offset of the window; WAITIDLE waits for BUSY to read 0. R64, R283: wherever a line falls, among the actions of
a command or a tick or between two steps, it is performed as its bus access would be there. That the host stands in the
state, and that the coming inputs say where its lines fall, is the model's form (log 22). -/
def Obligations.PseudoInstructionPlacesCommand : Prop :=
  (∀ (s : State) (p : Pseudo) (rest : List Input), s.cfg.wf = true → s.slot = none → s.cmdActive = false →
    s.env.inputs = p.expand.map (fun l => Input.access (l.access s.cfg)) ++ rest →
    match p with
    | .policy f => core.run 2 s = .next ({ s with arg0 := f, slot := some ⟨1, false, f, s.arg1⟩ }.withInputs rest)
    | .transition f => core.run 2 s = .next ({ s with arg0 := f, slot := some ⟨2, false, f, s.arg1⟩ }.withInputs rest)
    | .setBounds lo hi =>
      core.run 3 s = .next ({ s with arg0 := lo, arg1 := hi, slot := some ⟨3, false, lo, hi⟩ }.withInputs rest)
    | .cold b => core.run 2 s = .next ({ s with arg0 := b, slot := some ⟨4, false, b, s.arg1⟩ }.withInputs rest)
    | .waitIdle => core.run 1 s = .next (s.withEnv { s.env with inputs := rest, replies := s.env.replies ++ [s.statusWord] })
    | .ack m => core.run 1 s = .next ({ s with intStatus := s.intStatus &&& ~~~(m.setWidth 6) }.withInputs rest)) ∧
  (∀ (s : State) (more : List HostOp) (p : Place) (rest : List Input),
    s.cfg.wf = true → p.offset < 256 → p.offset % 4 = 0 → s.env.inputs = .host :: rest →
    (∀ v, s.env.host.todo = .wr p v :: more →
      step s = .next ((s.writeReg p.offset v).withEnv { s.env with inputs := rest, host := ⟨more, s.env.host.vars⟩ })) ∧
    (∀ name, s.env.host.todo = .rd p name :: more →
      step s = .next (s.withEnv { s.env with
        inputs := rest, replies := s.env.replies ++ [s.readReg p.offset]
        host := ⟨more, (name, s.readReg p.offset) :: s.env.host.vars⟩ })) ∧
    ∀ mask val, s.env.host.todo = .pollRd p mask val :: more →
      step s = .next (s.withEnv { s.env with
        inputs := rest, replies := s.env.replies ++ [s.readReg p.offset]
        host := ⟨if s.readReg p.offset &&& mask = val then more else .pollRd p mask val :: more, s.env.host.vars⟩ })) ∧
  (∀ s : State, s.readReg (Place.reg .status).offset &&& 0x1 = 0x0 ↔ s.busy = false) ∧
  ∀ (s : State) (op : HostOp) (more : List HostOp) (before after : List Input)
    (run : State → Host.Outcome State Fault Refusal), s.cfg.wf = true → s.env.host.todo = op :: more →
    ((op.access s.cfg).inWindow s.cfg && (op.access s.cfg).performed s.cfg) = true →
    (∀ i ∈ before, i ≠ .host ∧ ∀ a, i ≠ .access a) → Input.host ∉ after →
    run = step ∨ (∃ i, run = exec i) ∨ run = execIllegal ∨ (∃ th, s.cfg.thermal = some th ∧ run = runTick th) →
    LineIsItsAccess s op more (op.access s.cfg) (run (s.withInputs (before ++ .host :: after)))
      (run (s.withInputs (before ++ .access (op.access s.cfg) :: after)))

/-! ### Steps -/

/-- R121: with the lock free and the turn a command's, the step takes the slot's command and the lock, decodes the
captured word and runs the command, or completes it as illegal. That the whole command is one step, and that a `turn`
stands for the arbiter's choice, is the model's form (log 4, 7). -/
def Obligations.StepRunsTheDecodedCommand : Prop :=
  ∀ (s : State) (c : Cmd), s.cfg.wf = true → s.step = .idle → s.slot = some c →
    (∀ p rest, s.env.inputs = .turn p :: rest → s.tickReady = false ∨ p = .cmd →
      (∀ i, decodeCmd c = .ok i →
        step s = exec i { s.withInputs rest with slot := none, cmdActive := true, lockOwner := .cmd, step := .cmdDecode }) ∧
      (∀ e, decodeCmd c = .error e →
        step s = execIllegal { s.withInputs rest with slot := none, cmdActive := true, lockOwner := .cmd, step := .cmdDecode })) ∧
    (s.env.inputs = [] → s.tickReady = false → ∀ i, decodeCmd c = .ok i →
      step s = exec i { s with slot := none, cmdActive := true, lockOwner := .cmd, step := .cmdDecode })

/-- R274: with a command and a tick both ready, either may start; what is not started is ready again in the next state,
unless a reset falls in between. That the choice is read from the next `turn` is the model's form (log 7). -/
def Obligations.EitherReadyOperationMayStart : Prop :=
  ∀ (s : State) (c : Cmd) (th : Thermal) (rest : List Input), s.cfg.wf = true → s.step = .idle → s.slot = some c →
    s.tickPending = true → s.cfg.thermal = some th →
    (s.env.inputs = .turn .cmd :: rest →
      step s = startCommand c (s.withInputs rest) ∧ (s.withInputs rest).takeCommand.tickPending = true ∧
      ∀ t, step s = .next t → Input.rst ∉ rest → t.tickReady = true) ∧
    (s.env.inputs = .turn .tick :: rest →
      step s = runTick th (s.withInputs rest) ∧ (s.withInputs rest).takeTick.slot = some c ∧
      ∀ t, step s = .next t → Input.rst ∉ rest → t.slot = some c ∧ t.cmdReady = true)

/-- R4, R5, 93 I14: a configuration that breaks R4, or the shapes and ranges R5 gives its tables, which the model checks
with it (log 18), is refused, by every step and every command. -/
def Obligations.IllFormedConfigurationRefused : Prop :=
  ∀ (s : State) (i : Instr), s.cfg.wf = false →
    step s = .refused .configIllFormed ∧ exec i s = .refused .configIllFormed

/-- R222: one pulse of the strobe, for a count that is not 0 (log 14 covers 0). -/
def Obligations.StrobeCountsDown : Prop :=
  ∀ (s : State) (rest : List Input), s.cfg.wf = true → s.env.inputs = .msTick :: rest →
    (s.monStopped = true ∨ s.tickPending = true ∨ s.lockOwner = .tick → step s = .next (s.withInputs rest)) ∧
    (s.monStopped = false → s.tickPending = false → s.lockOwner ≠ .tick → 1 ≤ s.tickRemaining.toNat →
      step s = .next ({ s with tickRemaining := s.tickRemaining - 1, tickPending := s.tickRemaining - 1 == 0 }.withInputs rest))

/-- R222, R223, R322: after exactly as many pulses as the count says the tick is pending, and not before. R222, R284:
pulses after any number of a command's actions count down in the same way, and the command goes on as without them, a tick
falling due or not; pulses after any number of a tick's actions do nothing. Where the turns fall is the model's choice
(log 5). -/
def Obligations.TickFallsDueAfterItsInterval : Prop :=
  (∀ (s : State) (k : Nat), Inv s → s.monStopped = false → s.tickPending = false →
    k ≤ s.tickRemaining.toNat → s.env.inputs = List.replicate k .msTick →
    ∃ t, core.run k s = .next t ∧ t.tickRemaining.toNat = s.tickRemaining.toNat - k ∧
      t.tickPending = decide (k = s.tickRemaining.toNat) ∧ t.env.trace = s.env.trace) ∧
  (∀ (s : State) (run : State → Host.Outcome State Fault Refusal) (n k : Nat),
    s.cfg.wf = true → s.quiet → s.lockOwner ≠ .tick → (∃ i, run = exec i) ∨ run = execIllegal →
    ∃ t, run s = .next t ∧ (s.env.trace.length + n ≤ t.env.trace.length →
      (s.monStopped = true ∨ s.tickPending = true →
        run (s.withInputs (List.replicate n (.turn .cmd) ++ List.replicate k .msTick)) = .next t) ∧
      (s.monStopped = false → s.tickPending = false → 1 ≤ s.tickRemaining.toNat → k ≤ s.tickRemaining.toNat →
        run (s.withInputs (List.replicate n (.turn .cmd) ++ List.replicate k .msTick)) = .next { t with
          tickRemaining := s.tickRemaining - BitVec.ofNat 32 k, tickPending := decide (k = s.tickRemaining.toNat) }))) ∧
  ∀ (s : State) (th : Thermal) (n k : Nat), s.cfg.wf = true → s.cfg.thermal = some th → s.quiet →
    ∃ t, runTick th s = .next t ∧ (s.env.trace.length + n ≤ t.env.trace.length →
      runTick th (s.withInputs (List.replicate n (.turn .cmd) ++ List.replicate k .msTick)) = .next t)

/-! ### Reset -/

/-- R320, R321: what a reset pulse leaves in every field the spec gives a reset value, with no outbound event. That the
level of `rst` is modelled as pulses is the model's choice (log 13). -/
def Obligations.ResetValues : Prop :=
  ∀ (s : State) (rest : List Input), s.cfg.wf = true → s.env.inputs = .rst :: rest →
    ∃ t, step s = .next t ∧ t.cfg = s.cfg ∧ t.step = .idle ∧ t.lockOwner = .none ∧
      t.currentLevel = s.cfg.bootLevel ∧ t.currentVoltage = s.cfg.voltAt s.cfg.bootLevel ∧ t.thermalOffset = 0 ∧
      t.dllForced = decide (s.cfg.bootLevel ≠ s.cfg.dllFreeLevel) ∧
      t.dllLocked = decide (s.cfg.bootLevel = s.cfg.dllFreeLevel) ∧
      t.pendingLock = s.cfg.bootLock ∧ t.safePllLevel = s.cfg.safeLevel ∧ t.pllCur = s.cfg.pllAt s.cfg.bootLevel ∧
      t.qosMin = 0 ∧ t.qosMax = 0xFFFFFFFF ∧ t.lastRequested = s.cfg.freqAt s.cfg.bootLevel ∧
      t.thermState = .normal ∧ t.rankLevel.length = s.cfg.channels ∧ (∀ p ∈ t.rankLevel, p = (0, 0)) ∧
      t.sampled = false ∧ t.tickRemaining = 1000 ∧ t.tickPending = false ∧
      t.monStopped = decide (s.cfg.thermal = none) ∧ t.slot = none ∧ t.cmdActive = false ∧ t.arg0 = 0 ∧ t.arg1 = 0 ∧
      t.result = 0 ∧ t.err = 0 ∧ t.errStep = 0 ∧ t.errSig = 0 ∧ t.errArg = 0 ∧ t.errSnap = 0 ∧
      t.intStatus = 0 ∧ t.intEnable = 0 ∧ t.irq = false ∧ t.attempt = 0 ∧ t.lastWord = 0 ∧
      t.env.trace = s.env.trace

/-- R320, R321: a reset pulse at the first turn of any command or tick ends it at once, with no outbound event and the
same state as a reset of an idle block; and a pulse after any number of its actions ends it there, with the outbound
operations made so far and no other. That the level of `rst` is modelled as pulses, that a read or poll is never abandoned
unanswered, and the hidden fields' values after reset are the model's choices (log 13, 23, 9). -/
def Obligations.ResetEndsAnOperation : Prop :=
  (∀ (s : State) (rest : List Input), s.cfg.wf = true → s.env.inputs = .rst :: rest →
    (∀ i, exec i s = .next (s.resetNow.withInputs rest)) ∧
    (∀ th, s.cfg.thermal = some th → runTick th s = .next (s.resetNow.withInputs rest)) ∧
    step s = .next (s.resetNow.withInputs rest)) ∧
  ∀ (s t : State) (run : State → Host.Outcome State Fault Refusal) (n : Nat) (rest : List Input),
    s.cfg.wf = true → s.quiet →
    (∃ i, run = exec i) ∨ run = execIllegal ∨ (∃ th, s.cfg.thermal = some th ∧ run = runTick th) →
    run s = .next t → s.env.trace.length + n ≤ t.env.trace.length →
    ResetAfter s t n rest (run (s.withInputs (List.replicate n (.turn .cmd) ++ .rst :: rest)))

/-- R320, R323, R324: the invariant holds after reset, for every well-formed configuration; and under the boot
precondition, at the first reset and at every reset pulse, the block's registers agree with the domain's real state. That
the domain stands as data beside the block is the model's form (log 21). -/
def Obligations.InvariantAtReset : Prop :=
  (∀ (c : Config) (e : Env), c.wf = true → Inv (State.resetOf c e)) ∧
  (∀ (c : Config) (e : Env) (d : Domain), BootPrecondition c e d → AgreesWith (State.resetOf c e) d) ∧
  ∀ (s : State) (d : Domain), ResetTogether s d → AgreesWith s.resetNow d

/-! ### Commands -/

/-- R122: every command of a quiet block completes: with a code, DONE set (and ERR with a failure), the lock released
and the port free; RESULT is written only on code 0. -/
def Obligations.EveryCommandCompletes : Prop :=
  ∀ (s : State) (i : Instr), s.cfg.wf = true → s.quiet →
    ∃ t, exec i s = .next t ∧ AtRest t ∧ (t.err = 0 ∨ t.err = 1 ∨ t.err = 2) ∧
      t.intStatus.getLsbD 0 = true ∧ (t.err ≠ 0 → t.intStatus.getLsbD 1 = true ∧ t.result = s.result) ∧ t.slot = s.slot

/-- R125: SET_BOUNDS. That the hidden fields, undefined at IDLE, are kept there is the model's choice (log 9). -/
def Obligations.SetBoundsStoresBounds : Prop :=
  ∀ (s : State) (min max : Word), s.cfg.wf = true → s.quiet →
    exec (.setBounds min max) s = .next { s with
      qosMin := min, qosMax := max, err := 0, intStatus := s.intStatus ||| 0b000001
      cmdActive := false, lockOwner := .none, step := .idle }

/-- R127, R276: an illegal word completes with code 4 and no outbound operation. That the hidden fields, undefined at
IDLE, are kept there is the model's choice (log 9). -/
def Obligations.IllegalWordCompletesWithCodeFour : Prop :=
  ∀ (s : State) (c : Cmd) (e : Illegal), s.cfg.wf = true → s.step = .idle → s.slot = some c → s.tickReady = false →
    s.quiet → decodeCmd c = .error e →
    step s = .next { s with
      slot := none, err := 4, intStatus := s.intStatus ||| 0b000011
      cmdActive := false, lockOwner := .none, step := .idle }

/-- R272: a frequency of no level ends POLICY and TRANSITION with code 1, and nothing else changes. That the hidden
fields, undefined at IDLE, are kept there is the model's choice (log 9). -/
def Obligations.UnknownFrequencyChangesNothingElse : Prop :=
  ∀ (s : State) (f : Word), s.cfg.wf = true → s.quiet → (∀ p ∈ s.cfg.opps, p.freq ≠ f) →
    exec (.policy f) s = .next { s with
      err := 1, intStatus := s.intStatus ||| 0b000011, cmdActive := false, lockOwner := .none, step := .idle } ∧
    exec (.transition f) s = .next { s with
      err := 1, intStatus := s.intStatus ||| 0b000011, cmdActive := false, lockOwner := .none, step := .idle }

/-- R126, R153: COLD with VOLT_DONE seen at attempt `k + 1`: the offset, the voltage of the current level under it, one
call and `k + 1` polls; no clock, timing, DLL or AREF operation. The attempt count at IDLE is the model's (log 9). -/
def Obligations.ColdRewritesTheVoltage : Prop :=
  ∀ (s : State) (asserted : Bool) (k : Nat), s.cfg.wf = true → s.quiet → k < s.cfg.waitMax →
    s.pollAnswer k = true → (∀ j, j < k → s.pollAnswer j = false) →
    ∀ off v, off = (if asserted then s.cfg.coldOffset else 0) →
      v = { s with thermalOffset := off }.voltageFor s.currentLevel →
    exec (.cold asserted) s = .next { s with
      thermalOffset := off, currentVoltage := v, err := 0, intStatus := s.intStatus ||| 0b000001
      cmdActive := false, lockOwner := .none, step := .idle, attempt := k + 1
      env := { s.env with
        pollAnswers := s.env.pollAnswers.drop (k + 1), draws := s.env.draws + (k + 1)
        trace := s.env.trace ++ .call (.setVoltage v) :: List.replicate k (.poll .voltDone false) ++ [.poll .voltDone true] } }

/-- R126, R271, R285, R286: COLD whose VOLT_DONE never comes: code 2 after exactly `WAIT_MAX` polls, ERR_INFO naming
the step and the signal, and the new offset and voltage kept. The attempt count at IDLE is the model's (log 9). -/
def Obligations.ColdTimesOutWithoutRollback : Prop :=
  ∀ (s : State) (asserted : Bool), s.cfg.wf = true → s.quiet → (∀ j, j < s.cfg.waitMax → s.pollAnswer j = false) →
    ∀ off v, off = (if asserted then s.cfg.coldOffset else 0) →
      v = { s with thermalOffset := off }.voltageFor s.currentLevel →
    exec (.cold asserted) s = .next { s with
      thermalOffset := off, currentVoltage := v, err := 2, intStatus := s.intStatus ||| 0b000011
      errStep := 0x0B, errSig := 1, errArg := 0, errSnap := 0
      cmdActive := false, lockOwner := .none, step := .idle, attempt := s.cfg.waitMax
      env := { s.env with
        pollAnswers := s.env.pollAnswers.drop s.cfg.waitMax, draws := s.env.draws + s.cfg.waitMax
        trace := s.env.trace ++ .call (.setVoltage v) :: List.replicate s.cfg.waitMax (.poll .voltDone false) } }

/-- R124, R152, R181: TRANSITION to the level already in force: one AREF write, and nothing else goes out. The values of
the hidden `old`, `target` and `origin` at IDLE are the model's choice (log 9). -/
def Obligations.TransitionToTheCurrentLevel : Prop :=
  ∀ (s : State) (f : Word), s.cfg.wf = true → s.quiet → (∃ p ∈ s.cfg.opps, p.freq = f) →
    s.resolve f = s.currentLevel →
    exec (.transition f) s = .next { s with
      lastRequested := f, old := s.currentLevel, target := s.currentLevel, origin := .cmd
      result := s.cfg.freqAt s.currentLevel, err := 0, intStatus := s.intStatus ||| 0b000001
      cmdActive := false, lockOwner := .none, step := .idle
      env := (s.outWrite .drex s.cfg.offAref (s.cfg.arefAt s.currentLevel s.thermState)).env }

/-- R123, R152, R181: POLICY whose clamped request resolves to the level already in force. The values of the hidden
`old`, `target` and `origin` at IDLE are the model's choice (log 9). -/
def Obligations.PolicyToTheCurrentLevel : Prop :=
  ∀ (s : State) (f : Word), s.cfg.wf = true → s.quiet → (∃ p ∈ s.cfg.opps, p.freq = f) →
    s.resolve (s.cfg.freqAt (floorLevel s.cfg (s.clamp f))) = s.currentLevel →
    exec (.policy f) s = .next { s with
      lastRequested := f, old := s.currentLevel, target := s.currentLevel, origin := .cmd
      result := s.cfg.freqAt s.currentLevel, err := 0, intStatus := s.intStatus ||| 0b000001
      cmdActive := false, lockOwner := .none, step := .idle
      env := (s.outWrite .drex s.cfg.offAref (s.cfg.arefAt s.currentLevel s.thermState)).env }

/-- R123, R124: POLICY of a level's frequency is TRANSITION of the highest level at or below the clamped request, but
for LAST_REQ, which keeps the request. That the hidden fields, undefined at IDLE, agree too is the model's choice
(log 9). -/
def Obligations.PolicyIsTheClampedTransition : Prop :=
  ∀ (s : State) (f : Word), s.cfg.wf = true → s.quiet → (∃ p ∈ s.cfg.opps, p.freq = f) →
    ∃ t, exec (.transition (s.cfg.freqAt (floorLevel s.cfg (s.clamp f)))) s = .next t ∧
      exec (.policy f) s = .next { t with lastRequested := f }

/-- R124, R150, R175: a TRANSITION that changes the level, with the answers it waits for: it completes with code 0 at
the target, with the target's voltage, the DLL mode the target needs, and RESULT the target's frequency. And R162, R275:
a multiplexer other than the primary one whose wait times out is logged, with its id, and its call completes all the same. -/
def Obligations.TransitionReachesItsTarget : Prop :=
  (∀ (s : State) (f : Word) (t : Level), s.cfg.wf = true → (∃ p ∈ s.cfg.opps, p.freq = f) → t = s.resolve f →
    t ≠ s.currentLevel → Favourable s t →
    ∃ u, exec (.transition f) s = .next u ∧ u.err = 0 ∧ u.result = s.cfg.freqAt t ∧ u.currentLevel = t ∧
      u.currentVoltage = s.voltageFor t ∧ u.lastRequested = f ∧
      u.dllForced = decide (t ≠ s.cfg.dllFreeLevel) ∧ u.dllLocked = decide (t = s.cfg.dllFreeLevel) ∧
      u.pllCur = (if t = s.cfg.safeLevel then s.pllCur else s.cfg.pllAt t) ∧
      u.intStatus = s.intStatus ||| 0b000001 ∧ AtRest u) ∧
  ∀ (s : State) (first : Bool) (t : Level) (m src : Byte), s.cfg.wf = true → s.quiet → m ≠ s.cfg.primaryMux →
    (∀ j, j < s.cfg.waitMax → s.pollAnswer j = false) →
    repoint first t m src s = .ok () { s with
      currentLevel := if first then t else s.currentLevel
      errStep := s.step.code, errSig := 4, errArg := m, errSnap := 0, intStatus := s.intStatus ||| 0b100000
      attempt := s.cfg.waitMax
      env := { s.env with
        pollAnswers := s.env.pollAnswers.drop s.cfg.waitMax, draws := s.env.draws + s.cfg.waitMax
        trace := s.env.trace ++ .call (.setMuxParent m src) :: signalMissed s.cfg (.muxSettled m) } }

/-- R123, R150, R175: the same of a POLICY. -/
def Obligations.PolicyReachesItsTarget : Prop :=
  ∀ (s : State) (f : Word) (t : Level), s.cfg.wf = true → (∃ p ∈ s.cfg.opps, p.freq = f) →
    t = s.resolve (s.cfg.freqAt (floorLevel s.cfg (s.clamp f))) → t ≠ s.currentLevel → Favourable s t →
    ∃ u, exec (.policy f) s = .next u ∧ u.err = 0 ∧ u.result = s.cfg.freqAt t ∧ u.currentLevel = t ∧
      u.currentVoltage = s.voltageFor t ∧ u.lastRequested = f ∧
      u.dllForced = decide (t ≠ s.cfg.dllFreeLevel) ∧ u.dllLocked = decide (t = s.cfg.dllFreeLevel) ∧
      u.pllCur = (if t = s.cfg.safeLevel then s.pllCur else s.cfg.pllAt t) ∧
      u.intStatus = s.intStatus ||| 0b000001 ∧ AtRest u

/-- R271, R286, R176, R177, R289: what a failed transition reports, and where it leaves the domain, by the wait that
failed; its trace ends with the command that wait follows and exactly `WAIT_MAX` failing polls, and nothing is rolled
back. -/
def Obligations.FailedTransitionKeepsWhatItIssued : Prop :=
  ∀ (s u : State) (f : Word) (t : Level) (pll : Word), s.cfg.wf = true → s.quiet → t = s.resolve f →
    exec (.transition f) s = .next u → u.err = 2 → pll = (if s.needsPll t then s.cfg.pllAt t else s.pllCur) →
    (∃ sig pre command fails, u.env.trace = s.env.trace ++ pre ++ command :: fails ∧ command.isCommand = true ∧
      Exhausted s.cfg sig fails u.errSnap ∧ u.errSig = sig.code ∧ u.errArg = criticalArg s.cfg sig ∧
      (u.errStep = 0x04 ∧ sig = .voltDone ∧ u.currentLevel = s.currentLevel ∧ u.currentVoltage = s.voltageFor t ∧
          u.pllCur = s.pllCur ∨
        u.errStep = 0x13 ∧ sig = .pauseDone ∧ u.currentLevel = s.cfg.safeLevel ∧ u.pllCur = s.pllCur ∨
        u.errStep = 0x14 ∧ sig = .pllLocked ∧ u.currentLevel = s.cfg.safeLevel ∧ u.pllCur = s.cfg.pllAt t ∨
        u.errStep = 0x17 ∧ sig = .pauseDone ∧ u.currentLevel = t ∧ u.pllCur = s.cfg.pllAt t ∨
        u.errStep = 0x06 ∧ (sig = .muxSettled s.cfg.primaryMux ∨ sig = .divDone) ∧ u.currentLevel = t ∧
          u.pllCur = s.pllCur ∨
        u.errStep = 0x08 ∧ sig = .dllLocked ∧ u.currentLevel = t ∧ u.pllCur = pll ∨
        u.errStep = 0x0A ∧ sig = .voltDone ∧ u.currentLevel = t ∧ u.currentVoltage = s.voltageFor t ∧ u.pllCur = pll)) ∧
    (goesUp s.cfg s.currentLevel t = true → u.currentVoltage = s.voltageFor t) ∧
    (goesUp s.cfg s.currentLevel t = false → u.errStep ≠ 0x0A → u.currentVoltage = s.currentVoltage)

/-- R123, R124, R150: what POLICY and TRANSITION leave unchanged, whatever the environment answers. That the hidden
`sample`, undefined at IDLE, is kept there is the model's choice (log 9) and follows from no rule. -/
def Obligations.TransitionFrame : Prop :=
  ∀ (s u : State) (f : Word), s.quiet → exec (.transition f) s = .next u ∨ exec (.policy f) s = .next u →
    u.cfg = s.cfg ∧ u.thermalOffset = s.thermalOffset ∧ u.safePllLevel = s.safePllLevel ∧
    u.qosMin = s.qosMin ∧ u.qosMax = s.qosMax ∧ u.thermState = s.thermState ∧ u.rankLevel = s.rankLevel ∧
    u.sampled = s.sampled ∧ u.tickRemaining = s.tickRemaining ∧ u.tickPending = s.tickPending ∧
    u.monStopped = s.monStopped ∧ u.slot = s.slot ∧ u.arg0 = s.arg0 ∧ u.arg1 = s.arg1 ∧
    u.intEnable = s.intEnable ∧ u.sample = s.sample ∧
    (∀ i, s.intStatus.getLsbD i = true → u.intStatus.getLsbD i = true) ∧
    (∀ i, u.intStatus.getLsbD i = true → s.intStatus.getLsbD i = true ∨ i = 0 ∨ i = 1 ∨ i = 5) ∧
    (u.lastRequested = f ∨ u.lastRequested = s.lastRequested ∧ u.err = 1) ∧
    (u.err ≠ 0 → u.result = s.result) ∧ u.env.replies = s.env.replies

/-- R126: what COLD leaves unchanged, whatever the environment answers. That the hidden fields but `attempt`, undefined at
IDLE, are kept there is the model's choice (log 9). -/
def Obligations.ColdFrame : Prop :=
  ∀ (s u : State) (asserted : Bool), s.quiet → exec (.cold asserted) s = .next u →
    ∃ vol err info1 info2 info3 info4 ints att e,
      u = { s with
        thermalOffset := if asserted then s.cfg.coldOffset else 0
        currentVoltage := vol, err := err, errStep := info1, errSig := info2, errArg := info3, errSnap := info4
        intStatus := ints, attempt := att, cmdActive := false, lockOwner := .none, step := .idle, env := e } ∧
      (∀ w off v, Event.wr w off v ∈ e.trace → Event.wr w off v ∈ s.env.trace) ∧
      e.selWord = s.env.selWord ∧ e.arefWord = s.env.arefWord ∧ e.dllCtrlWord = s.env.dllCtrlWord ∧
      (∀ i, s.intStatus.getLsbD i = true → ints.getLsbD i = true) ∧
      (∀ i, ints.getLsbD i = true → s.intStatus.getLsbD i = true ∨ i = 0 ∨ i = 1)

/-! ### The Transition Engine -/

/-- R9, R151: `floor_level` gives the highest level whose frequency is at most the bound, else the lowest level. -/
def Obligations.FloorLevelIsTheHighestThatFits : Prop :=
  ∀ (c : Config) (v : Word), c.wf = true →
    (floorLevel c v).toNat < c.nLevels ∧
    (∀ i : Level, i.toNat < (floorLevel c v).toNat → v.toNat < (c.freqAt i).toNat) ∧
    ((c.freqAt (floorLevel c v)).toNat ≤ v.toNat ∨
      (floorLevel c v).toNat = c.nLevels - 1 ∧ ∀ i : Level, i.toNat < c.nLevels → v.toNat < (c.freqAt i).toNat)

/-- R9: the governor's clamp is the integer formula of the spec, and the upper bound wins where the bounds cross. -/
def Obligations.ClampUpperBoundWins : Prop :=
  ∀ (s : State) (d : Word),
    (s.clamp d).toNat = min (max d.toNat (max (s.cfg.freqAt s.cfg.lowest).toNat s.qosMin.toNat))
      (min (min (s.cfg.freqAt 0).toNat s.thermalCeiling.toNat) s.qosMax.toNat) ∧
    (s.clampHigh.toNat < s.clampLow.toNat → s.clamp d = s.clampHigh) ∧
    (s.clamp d).toNat ≤ s.thermalCeiling.toNat

/-- R9, R7, R24: `V(t)` is the level's voltage plus the signed offset, saturated to 32 bits. -/
def Obligations.VoltageSaturates : Prop :=
  ∀ (s : State) (t : Level),
    ((s.voltageFor t).toNat : Int) = min (max ((s.cfg.voltAt t).toNat + s.thermalOffset.toInt) 0) (2 ^ 32 - 1)

/-- R156, R174, R180: voltage safety in the trace of every body that changes the level, whoever asked for it, completed,
failed or cut short, with any host accesses, strobes and resets among its actions; and of every TRANSITION. -/
def Obligations.VoltageSafety : Prop :=
  ∀ (s : State) (f : Word) (t : Level), t = s.resolve f → t ≠ s.currentLevel →
    (∀ u, exec (.transition f) s = .next u → VoltageSafe s u t) ∧
    ∀ origin, (∀ r u, transitionBody f origin s = .ok r u → VoltageSafe s u t) ∧
      ∀ stop u, transitionBody f origin s = .error stop u → VoltageSafe s u t

/-- R156, R157, R160 to R163, R165 to R171, R174: the primitive calls of a level change that completes, in order; and
R150, R155, R158, R160 to R174, of every body: all its events, in order, with the timing before the clock on the way up and
after it on the way down, and the voltage of a down transition after everything else. R162, R275: a multiplexer whose wait
timed out is no primary one, and ERR_INFO, ERR_SNAP and WARN tell of the last such. -/
def Obligations.CallsOfALevelChange : Prop :=
  (∀ (s u : State) (f : Word) (t : Level), s.cfg.wf = true → s.quiet → (∃ p ∈ s.cfg.opps, p.freq = f) →
    t = s.resolve f → t ≠ s.currentLevel → exec (.transition f) s = .next u → u.err = 0 →
    ∃ evs, u.env.trace = s.env.trace ++ evs ∧
      callsOf evs =
        (if goesUp s.cfg s.currentLevel t then [.setVoltage (s.voltageFor t)] else []) ++
        (if t ≠ s.cfg.safeLevel ∧ s.cfg.pllAt t ≠ s.pllCur then pssCalls s.cfg t else simpleCalls s.cfg s.currentLevel t) ++
        (if goesUp s.cfg s.currentLevel t then [] else [.setVoltage (s.voltageFor t)])) ∧
  ∀ (s u : State) (f r : Word) (origin : Origin) (t : Level), s.cfg.wf = true → s.quiet →
    t = s.resolve f → t ≠ s.currentLevel → transitionBody f origin s = .ok r u →
    r = s.cfg.freqAt t ∧ u.err = s.err ∧ (s.needsCapture t = false → u.pendingLock = s.pendingLock) ∧
    ∃ settled evs, u.env.trace = s.env.trace ++ evs ∧
      settled.length = (if s.needsPll t then 0 else (s.cfg.opp t).planMux.length) ∧
      (∀ p ∈ (s.cfg.opp t).planMux.zip settled, p.2 = false → p.1.1 ≠ s.cfg.primaryMux) ∧
      InOrder (levelChangeParts s t u.pendingLock settled) evs ∧
      match lastUnsettled (s.cfg.opp t).planMux settled with
      | none => u.errStep = s.errStep ∧ u.errSig = s.errSig ∧ u.errArg = s.errArg ∧ u.errSnap = s.errSnap ∧
          u.intStatus = s.intStatus
      | some m => u.errStep = 0x06 ∧ u.errSig = 4 ∧ u.errArg = m ∧ u.errSnap = 0 ∧
          u.intStatus = s.intStatus ||| 0b100000

/-- R158: the double-buffer protocol: the select word is read, the profile goes word by word into the set that is not
live, and the select word goes back with only its select bit changed. -/
def Obligations.TimingGoesToTheInactiveSet : Prop :=
  ∀ (s : State) (l : Level) (w : Word), s.quiet → w = (s.outRead .drex s.cfg.offTsel).1 →
    ∃ u, writeTiming l s = .ok () u ∧
      u.env.trace = s.env.trace ++ .rd .drex s.cfg.offTsel w ::
        (timingWrites (if w.getLsbD s.cfg.tselBit then s.cfg.offTset0 else s.cfg.offTset1) (s.cfg.opp l).timing ++
          [.wr .drex s.cfg.offTsel (w ^^^ BitVec.ofNat 32 (2 ^ s.cfg.tselBit))]) ∧
      (s.cfg.tselBit ≤ 31 → ∀ i, i < 32 →
        (w ^^^ BitVec.ofNat 32 (2 ^ s.cfg.tselBit)).getLsbD i = if i = s.cfg.tselBit then !w.getLsbD i else w.getLsbD i)

/-- R159, R40: under the ownership obligation, two consecutive timing writes go to different sets. And of every step,
whatever it runs and whatever comes from outside but a reset: each read of the select word answers the word last written
there, in this step or an earlier one; and, where no other write of the block is at their offsets, each timing word goes
to the set that word does not name, and each select word written flips it: so timing writes alternate through the steps
of a transition, and from one transition to the next. The flag `owned` is the model's form of the obligation (log 8). -/
def Obligations.TimingSetsAlternate : Prop :=
  (∀ (s : State) (l l' : Level), s.quiet → s.env.owned = true → s.cfg.tselBit ≤ 31 →
    ∃ (u u' : State) (w w' : Word) (b : Bool), writeTiming l s = .ok () u ∧ writeTiming l' u = .ok () u' ∧
      u.env.trace = s.env.trace ++ .rd .drex s.cfg.offTsel w ::
        (timingWrites (s.cfg.timingSet b) (s.cfg.opp l).timing ++ [.wr .drex s.cfg.offTsel w']) ∧
      u'.env.trace = u.env.trace ++ .rd .drex s.cfg.offTsel w' ::
        (timingWrites (s.cfg.timingSet (!b)) (s.cfg.opp l').timing ++ [.wr .drex s.cfg.offTsel w])) ∧
  ∀ s t : State, s.env.owned = true → s.noReset → step s = .next t →
    t.env.owned = true ∧ t.noReset ∧
    ∃ evs, t.env.trace = s.env.trace ++ evs ∧ SelectReadsBack s.cfg s.env.selWord evs ∧
      t.env.selWord = lastSelect s.cfg s.env.selWord evs ∧
      (SelectApart s.cfg → TimingAlternates s.cfg s.env.selWord evs)

/-- R155: the capture keeps the lock value's field of the word read, writes it forced, and leaves the DLL forced. -/
def Obligations.DllCaptureKeepsTheLockField : Prop :=
  ∀ (s : State) (w : Word), s.quiet → s.cfg.lockW ≤ 32 → w = (s.outRead .phy s.cfg.offDllStat).1 →
    ∃ u, dllCapture s = .ok () u ∧ u.dllForced = true ∧ u.dllLocked = false ∧
      (∀ i, i < 32 → u.pendingLock.getLsbD i = (decide (i < s.cfg.lockW) && w.getLsbD (s.cfg.lockShift + i))) ∧
      u.env.trace = s.env.trace ++
        [.rd .phy s.cfg.offDllStat w, .wr .phy s.cfg.offDllCtrl (s.cfg.dllCtrl.word true u.pendingLock)]

/-- R172, R7: away from the free-running level the DLL is forced at the pending lock value plus the level's signed
offset, saturated to the lock width. -/
def Obligations.ForcedLockIsSaturated : Prop :=
  ∀ (s : State) (t : Level), s.quiet → s.cfg.lockW ≤ 32 → t ≠ s.cfg.dllFreeLevel →
    ∃ (u : State) (v : Word), dllPost t s = .ok () u ∧ u.dllForced = true ∧ u.dllLocked = false ∧
      u.env.trace = s.env.trace ++ [.wr .phy s.cfg.offDllCtrl (s.cfg.dllCtrl.word true v)] ∧
      (v.toNat : Int) = min (max (s.pendingLock.toNat + (s.cfg.opp t).dvfsOffset.toInt) 0) (2 ^ s.cfg.lockW - 1)

/-- R172, R336: back at the free-running level the DLL is freed at its pending lock value, and locked only if the
lock-detect bits were all seen within `WAIT_MAX` reads; else the operation fails with the DLL free and unlocked. -/
def Obligations.DllLockedOnlyIfSeen : Prop :=
  ∀ (s : State) (t : Level), s.quiet → t = s.cfg.dllFreeLevel →
    (∃ u ws w, dllPost t s = .ok () u ∧ u.dllForced = false ∧ u.dllLocked = true ∧ u.pendingLock = s.pendingLock ∧
      u.lastWord = w ∧ ws.length < s.cfg.waitMax ∧ NoneLocked s.cfg ws ∧ w &&& s.cfg.dllLockMask = s.cfg.dllLockMask ∧
      u.env.trace = s.env.trace ++
        .wr .phy s.cfg.offDllCtrl (s.cfg.dllCtrl.word false s.pendingLock) :: statusReads s.cfg (ws ++ [w])) ∨
    (∃ u ws, dllPost t s = .error .timeout u ∧ u.dllForced = false ∧ u.dllLocked = false ∧ u.pendingLock = s.pendingLock ∧
      u.errStep = 0x08 ∧ u.errSig = 6 ∧ u.errArg = 0 ∧ u.errSnap = u.lastWord ∧
      ws.length = s.cfg.waitMax ∧ NoneLocked s.cfg ws ∧ (1 ≤ s.cfg.waitMax → ws.getLast? = some u.lastWord) ∧
      u.env.trace = s.env.trace ++
        .wr .phy s.cfg.offDllCtrl (s.cfg.dllCtrl.word false s.pendingLock) :: statusReads s.cfg ws)

/-! ### The Thermal Monitor -/

/-- R231, R232: the threshold map, which does not fall as the code rises; and what the next state is: rising or equal at
once; falling, between the raw state and the old one, and never Tripped; and the raw state itself where the margin is 0. -/
def Obligations.HysteresisBounds : Prop :=
  ∀ (th : Thermal) (cur : ThermState) (m : Nat), th.wfThresholds = true →
    (∀ x, (rawState th x).code =
      if th.th4 ≤ x then 4 else if th.th3 ≤ x then 3 else if th.th2 ≤ x then 2 else if th.th1 ≤ x then 1 else 0) ∧
    (∀ x y, x ≤ y → (rawState th x).code ≤ (rawState th y).code) ∧
    (cur.code ≤ (rawState th m).code → nextThermState th cur m = rawState th m) ∧
    ((rawState th m).code < cur.code →
      (nextThermState th cur m).code = min cur.code (rawState th (m + th.hyst)).code ∧
      (rawState th m).code ≤ (nextThermState th cur m).code ∧ (nextThermState th cur m).code ≤ cur.code ∧
      (cur ≠ .tripped → nextThermState th cur m ≠ .tripped)) ∧
    (th.hyst = 0 → nextThermState th cur m = rawState th m)

/-- R237: over two successive samples, the state does not fall and the ceiling does not rise as the maximum rises, and
the other way round as it falls. -/
def Obligations.MonotonicCeiling : Prop :=
  ∀ (c : Config) (th : Thermal) (s0 : ThermState) (m1 m2 : Nat), th.wfThresholds = true → c.wfCeilings th = true →
    ∀ s1 s2, s1 = nextThermState th s0 m1 → s2 = nextThermState th s1 m2 →
      (m1 < m2 → s1.code ≤ s2.code ∧ (c.ceilAt th s2).toNat ≤ (c.ceilAt th s1).toNat) ∧
      (m2 < m1 → s2.code ≤ s1.code ∧ (c.ceilAt th s1).toNat ≤ (c.ceilAt th s2).toNat)

/-- R227, R275, R236: a tick whose sampling timed out changes no level, state or error code, notifies nobody, sets WARN,
and counts again from the interval of its state. ERR_INFO names the rank, number `k` = 2c + r in the tick's order: its
command was the last one written, and the trace ends with the `WAIT_MAX` reads that failed it. -/
def Obligations.MrrTimeoutIsNoChange : Prop :=
  ∀ (s u : State) (th : Thermal), s.cfg.wf = true → s.cfg.thermal = some th → s.quiet →
    sampleAll th s.takeTick = .ok false u →
    ∃ t, runTick th s = .next t ∧ t.lockOwner = .none ∧ t.step = .idle ∧ t.tickPending = false ∧
      t.rankLevel = s.rankLevel ∧ t.sampled = s.sampled ∧ t.thermState = s.thermState ∧ t.err = s.err ∧
      t.currentLevel = s.currentLevel ∧ t.currentVoltage = s.currentVoltage ∧
      t.intStatus = s.intStatus ||| 0b100000 ∧ t.errStep = 0x20 ∧ t.errSig = 7 ∧ t.errSnap = u.lastWord ∧
      t.tickRemaining = th.pollMs.get s.thermState ∧
      ∃ evs, t.env.trace = s.env.trace ++ evs ∧
        (∀ e ∈ evs, (∃ v, e = .wr .drex th.offMrrCmd v) ∨ (∃ v, e = .rd .drex th.offMrrStat v) ∨
          ∃ v, e = .rd .drex th.offMrrData v) ∧
        ∃ (k : Nat) (pre : List Event) (v : Word) (ws : List Word), k < 2 * th.channels ∧ t.errArg = BitVec.ofNat 8 k ∧
          writesOf evs = ((mrrCommands th).take (k + 1)).map (fun v => (th.offMrrCmd, v)) ∧
          evs = pre ++ .wr .drex th.offMrrCmd v :: ws.map (.rd .drex th.offMrrStat) ∧ ws.length = s.cfg.waitMax ∧
          (∀ w ∈ ws, w &&& th.mrrDoneMask ≠ th.mrrDoneMask) ∧ ws.getLast? = some t.errSnap

/-- R225 to R236: a tick whose every read succeeded, that neither trips nor changes the ceiling: what was read, rank by
rank (`Sampled`), levels, state, one refresh write, and the count of the new state's interval. -/
def Obligations.SteadyTick : Prop :=
  ∀ (s u : State) (th : Thermal) (st : ThermState), s.cfg.wf = true → s.cfg.thermal = some th → s.quiet →
    sampleAll th s.takeTick = .ok true u → st = nextThermState th s.thermState (maxOfLevels u.sample) →
    st ≠ .tripped → s.cfg.ceilAt th st = s.cfg.ceilAt th s.thermState →
    Sampled th s u ∧ ∃ t, runTick th s = .next t ∧ t.rankLevel = u.sample ∧ t.sampled = true ∧ t.thermState = st ∧
      t.tickRemaining = th.pollMs.get st ∧ t.tickPending = false ∧ t.lockOwner = .none ∧ t.step = .idle ∧
      t.err = s.err ∧ t.currentLevel = s.currentLevel ∧ t.currentVoltage = s.currentVoltage ∧
      ∃ evs, t.env.trace = u.env.trace ++ evs ++ [.wr .drex s.cfg.offAref (s.cfg.arefAt s.currentLevel st)] ∧
        t.intStatus = (if evs = [] then s.intStatus else s.intStatus ||| 0b001000) ∧
        (∀ e ∈ evs, ∃ new c old, e = .notify new c ∧ (u.sample.map chLevel)[c]? = some new ∧
          (s.rankLevel.map chLevel)[c]? = some old ∧ new ≠ old) ∧
        ∀ new c old, (u.sample.map chLevel)[c]? = some new → (s.rankLevel.map chLevel)[c]? = some old → new ≠ old →
          Event.notify new c ∈ evs

/-- R225, R226, R228, R230, R233, R273: a tick that reaches the highest threshold: it has read every rank (`Sampled`)
and takes the levels, notifies, emits SHUTDOWN once, sets TRIP, and no further tick will fall due; the state is Tripped.
Where the ceiling stays as it was, that is all it does: no refresh word is written and STATUS.ERR is kept. The hidden fields at IDLE are as the model keeps them (log 9). -/
def Obligations.TripIsForGood : Prop :=
  ∀ (s u : State) (th : Thermal) (notified : List Event), s.cfg.wf = true → s.cfg.thermal = some th → s.quiet →
    sampleAll th s.takeTick = .ok true u → th.th4 ≤ maxOfLevels u.sample →
    notified = notifications 0 (u.sample.map chLevel) (s.rankLevel.map chLevel) →
    Sampled th s u ∧
    ∃ t evs, runTick th s = .next t ∧ TrippedForGood t ∧ t.thermalCeiling = s.cfg.ceilAt th .tripped ∧
      t.rankLevel = u.sample ∧ t.sampled = true ∧ t.tickRemaining = s.tickRemaining ∧
      t.intStatus.getLsbD 2 = true ∧ t.intStatus.getLsbD 3 = (s.intStatus.getLsbD 3 || decide (notified ≠ [])) ∧
      t.lockOwner = .none ∧ t.step = .idle ∧
      t.env.trace = u.env.trace ++ notified ++ .shutdown :: evs ∧
      (∀ e ∈ evs, e ≠ .shutdown ∧ ∀ l c, e ≠ .notify l c) ∧
      (s.cfg.ceilAt th .tripped = s.cfg.ceilAt th s.thermState →
        evs = [] ∧ t = endTick th .tripped (reevalState u .tripped notified) ∧ t.err = s.err ∧
        t.intStatus = s.intStatus ||| (if notified = [] then 0b000100 else 0b001100) ∧
        t.currentLevel = s.currentLevel ∧ t.currentVoltage = s.currentVoltage)

/-- R224, R236, R341: every tick of a quiet block ends with the lock released. -/
def Obligations.EveryTickEnds : Prop :=
  ∀ (s : State) (th : Thermal), s.cfg.wf = true → s.cfg.thermal = some th → s.quiet →
    ∃ t, runTick th s = .next t ∧ t.lockOwner = .none ∧ t.step = .idle ∧ t.tickPending = false

/-- R235, R238: a tick, with any transition it starts, touches neither the command port, RESULT, DONE, the bounds, the
request nor the cold offset. -/
def Obligations.TickLeavesTheCommandPort : Prop :=
  ∀ (s t : State) (th : Thermal), s.quiet → runTick th s = .next t →
    t.slot = s.slot ∧ t.cmdActive = s.cmdActive ∧ t.result = s.result ∧ t.qosMin = s.qosMin ∧ t.qosMax = s.qosMax ∧
    t.lastRequested = s.lastRequested ∧ t.thermalOffset = s.thermalOffset ∧ t.arg0 = s.arg0 ∧ t.arg1 = s.arg1 ∧
    t.intEnable = s.intEnable ∧ t.intStatus.getLsbD 0 = s.intStatus.getLsbD 0 ∧ t.safePllLevel = s.safePllLevel ∧
    (t.err = s.err ∨ t.err = 0 ∨ t.err = 2)

/-! ### The whole machine -/

/-- R21, R22, R25, R26, R27, R31, R33, R42, R222, R270: every step keeps the invariant, whatever comes from outside. -/
def Obligations.InvariantKept : Prop :=
  ∀ s t : State, Inv s → step s = .next t → Inv t

/-- R178: every step keeps the PLL invariant, and it holds after reset. -/
def Obligations.PllInvariant : Prop :=
  (∀ s t : State, PllMatches s → step s = .next t → PllMatches t) ∧
  ∀ (c : Config) (e : Env), PllMatches (State.resetOf c e)

/-- R221, R273, R337: only reset leaves Tripped. -/
def Obligations.TrippedIsTerminal : Prop :=
  ∀ s t : State, TrippedForGood s → s.noReset → step s = .next t → TrippedForGood t ∧ t.noReset

/-- R41, R73: no step writes the configuration. -/
def Obligations.ConfigurationNeverWritten : Prop :=
  ∀ s t : State, step s = .next t → t.cfg = s.cfg

/-- R69, R75, R76: a step only adds to the trace, and every outbound access it makes is at a configured offset. -/
def Obligations.OnlyConfiguredOffsets : Prop :=
  ∀ s t : State, step s = .next t → ∃ evs, t.env.trace = s.env.trace ++ evs ∧ ∀ e ∈ evs, e.configured s.cfg

/-- R341: how many events a command or a tick can add to the trace. -/
def Obligations.OperationsAreBounded : Prop :=
  ∀ s t : State, s.cfg.wf = true →
    (∀ f, exec (.policy f) s = .next t ∨ exec (.transition f) s = .next t →
      t.env.trace.length ≤ s.env.trace.length + bodyBound s.cfg) ∧
    (∀ b, exec (.cold b) s = .next t → t.env.trace.length ≤ s.env.trace.length + (1 + s.cfg.waitMax)) ∧
    (∀ lo hi, exec (.setBounds lo hi) s = .next t → t.env.trace = s.env.trace) ∧
    (execIllegal s = .next t → t.env.trace = s.env.trace) ∧
    (∀ th, s.cfg.thermal = some th → runTick th s = .next t →
      t.env.trace.length ≤ s.env.trace.length + tickBound s.cfg)

/-- R22, R24, R29, R37: without a reset, RESULT, the bounds, the cold offset and the request change only in a step that
runs a command that writes them. -/
def Obligations.EachRegisterHasItsWriters : Prop :=
  ∀ s t : State, s.noReset → step s = .next t →
    (t.thermalOffset ≠ s.thermalOffset → ∃ c b, s.slot = some c ∧ decodeCmd c = .ok (.cold b)) ∧
    (t.qosMin ≠ s.qosMin ∨ t.qosMax ≠ s.qosMax → ∃ c lo hi, s.slot = some c ∧ decodeCmd c = .ok (.setBounds lo hi)) ∧
    (t.result ≠ s.result ∨ t.lastRequested ≠ s.lastRequested →
      ∃ c f, s.slot = some c ∧ (decodeCmd c = .ok (.policy f) ∨ decodeCmd c = .ok (.transition f))) ∧
    (t.thermState ≠ s.thermState ∨ t.rankLevel ≠ s.rankLevel → s.tickPending = true)

/-- R283, R277: a CMD write before any action of a running command, an illegal one too, is dropped: DROP is set and
everything else is as without it. A command's actions are its outbound operations and its completion; a write that comes
after them is still to come when the command ends. That a turn falls before each action and before `complete_cmd` is the
model's choice (log 5). -/
def Obligations.CmdWriteDuringACommandIsDropped : Prop :=
  ∀ (s : State) (run : State → Host.Outcome State Fault Refusal) (n : Nat) (w : Word),
    s.cfg.wf = true → s.cmdActive = true → s.quiet → (∃ i, run = exec i) ∨ run = execIllegal →
    ∃ t, run s = .next t ∧
      run (s.withInputs (List.replicate n (.turn .cmd) ++ [.access ⟨s.cfg.mmioBase, 4, .write w⟩])) =
        .next (if s.env.trace.length + n ≤ t.env.trace.length then { t with intStatus := t.intStatus ||| 0b010000 }
          else t.withInputs (List.replicate (s.env.trace.length + n - (t.env.trace.length + 1)) (.turn .cmd) ++
            [.access ⟨s.cfg.mmioBase, 4, .write w⟩]))

/-- R40: under the ownership obligation a read of the select word answers what the block last wrote there, and draws
nothing; without it, or before the first write, the answer is the environment's. `owned` and the script of answers are
the model's form of the obligation (log 6, 8). -/
def Obligations.SelectWordReadsBack : Prop :=
  ∀ (s : State) (v : Word),
    (s.env.owned = true → ((s.outWrite .drex s.cfg.offTsel v).outRead .drex s.cfg.offTsel).1 = v) ∧
    (s.env.owned = false ∨ s.env.selWord = none → ∀ w rest, s.env.readAnswers = w :: rest →
      (s.outRead .drex s.cfg.offTsel).1 = w)

/-! ### The throttling tick -/

/-- R225, R226, R233, R235: a tick whose every read succeeded, as `Sampled` says, and that changes the ceiling, tripping
or not. The levels, the
state, the notifications and, unless it trips, the refresh write come first (`reevalState`); then, if the clamped request
under the new ceiling is not the frequency in force, the body runs for the highest level at or below it, and STATUS.ERR is
0 after it, or 2 with INT_STATUS.ERR if it timed out; then the tick ends. The hidden fields at IDLE are as the model keeps
them (log 9). -/
def Obligations.CeilingChangeIsReevaluated : Prop :=
  ∀ (s u v : State) (th : Thermal) (st : ThermState) (asked f : Word), s.cfg.wf = true → s.cfg.thermal = some th →
    s.quiet → sampleAll th s.takeTick = .ok true u → st = nextThermState th s.thermState (maxOfLevels u.sample) →
    s.cfg.ceilAt th st ≠ s.cfg.ceilAt th s.thermState →
    v = reevalState u st (notifications 0 (u.sample.map chLevel) (s.rankLevel.map chLevel)) →
    asked = v.clamp s.lastRequested → f = s.cfg.freqAt (floorLevel s.cfg asked) →
    Sampled th s u ∧ v.thermalCeiling = s.cfg.ceilAt th st ∧ v.currentLevel = s.currentLevel ∧
    (asked = s.cfg.freqAt s.currentLevel → runTick th s = .next (endTick th st v)) ∧
    (asked ≠ s.cfg.freqAt s.currentLevel →
      (∃ r w, transitionBody f .tick v = .ok r w ∧ runTick th s = .next (endTick th st { w with err := 0 })) ∨
      ∃ w, transitionBody f .tick v = .error .timeout w ∧
        runTick th s = .next (endTick th st { w with err := 2, intStatus := w.intStatus ||| 0b000010 }))
end

