-- ==== Sys2Proof/Laws/State.lean ====
section
/-! SUPPORT. One lemma per field per named update of the state, each true by rfl, so that no proof unfolds a record
update; and the updates of the model's own fields as `withEnv`. -/

namespace Sys2Proof.Machine

@[simp] theorem State.setStep_cfg (s : State) (x : SeqStep) : (s.setStep x).cfg = s.cfg := rfl
@[simp] theorem State.setStep_step (s : State) (x : SeqStep) : (s.setStep x).step = x := rfl
@[simp] theorem State.setStep_lockOwner (s : State) (x : SeqStep) : (s.setStep x).lockOwner = s.lockOwner := rfl
@[simp] theorem State.setStep_currentLevel (s : State) (x : SeqStep) : (s.setStep x).currentLevel = s.currentLevel := rfl
@[simp] theorem State.setStep_currentVoltage (s : State) (x : SeqStep) : (s.setStep x).currentVoltage = s.currentVoltage := rfl
@[simp] theorem State.setStep_thermalOffset (s : State) (x : SeqStep) : (s.setStep x).thermalOffset = s.thermalOffset := rfl
@[simp] theorem State.setStep_dllForced (s : State) (x : SeqStep) : (s.setStep x).dllForced = s.dllForced := rfl
@[simp] theorem State.setStep_dllLocked (s : State) (x : SeqStep) : (s.setStep x).dllLocked = s.dllLocked := rfl
@[simp] theorem State.setStep_pendingLock (s : State) (x : SeqStep) : (s.setStep x).pendingLock = s.pendingLock := rfl
@[simp] theorem State.setStep_safePllLevel (s : State) (x : SeqStep) : (s.setStep x).safePllLevel = s.safePllLevel := rfl
@[simp] theorem State.setStep_pllCur (s : State) (x : SeqStep) : (s.setStep x).pllCur = s.pllCur := rfl
@[simp] theorem State.setStep_qosMin (s : State) (x : SeqStep) : (s.setStep x).qosMin = s.qosMin := rfl
@[simp] theorem State.setStep_qosMax (s : State) (x : SeqStep) : (s.setStep x).qosMax = s.qosMax := rfl
@[simp] theorem State.setStep_lastRequested (s : State) (x : SeqStep) : (s.setStep x).lastRequested = s.lastRequested := rfl
@[simp] theorem State.setStep_thermState (s : State) (x : SeqStep) : (s.setStep x).thermState = s.thermState := rfl
@[simp] theorem State.setStep_rankLevel (s : State) (x : SeqStep) : (s.setStep x).rankLevel = s.rankLevel := rfl
@[simp] theorem State.setStep_sampled (s : State) (x : SeqStep) : (s.setStep x).sampled = s.sampled := rfl
@[simp] theorem State.setStep_tickRemaining (s : State) (x : SeqStep) : (s.setStep x).tickRemaining = s.tickRemaining := rfl
@[simp] theorem State.setStep_tickPending (s : State) (x : SeqStep) : (s.setStep x).tickPending = s.tickPending := rfl
@[simp] theorem State.setStep_monStopped (s : State) (x : SeqStep) : (s.setStep x).monStopped = s.monStopped := rfl
@[simp] theorem State.setStep_slot (s : State) (x : SeqStep) : (s.setStep x).slot = s.slot := rfl
@[simp] theorem State.setStep_cmdActive (s : State) (x : SeqStep) : (s.setStep x).cmdActive = s.cmdActive := rfl
@[simp] theorem State.setStep_arg0 (s : State) (x : SeqStep) : (s.setStep x).arg0 = s.arg0 := rfl
@[simp] theorem State.setStep_arg1 (s : State) (x : SeqStep) : (s.setStep x).arg1 = s.arg1 := rfl
@[simp] theorem State.setStep_result (s : State) (x : SeqStep) : (s.setStep x).result = s.result := rfl
@[simp] theorem State.setStep_err (s : State) (x : SeqStep) : (s.setStep x).err = s.err := rfl
@[simp] theorem State.setStep_errStep (s : State) (x : SeqStep) : (s.setStep x).errStep = s.errStep := rfl
@[simp] theorem State.setStep_errSig (s : State) (x : SeqStep) : (s.setStep x).errSig = s.errSig := rfl
@[simp] theorem State.setStep_errArg (s : State) (x : SeqStep) : (s.setStep x).errArg = s.errArg := rfl
@[simp] theorem State.setStep_errSnap (s : State) (x : SeqStep) : (s.setStep x).errSnap = s.errSnap := rfl
@[simp] theorem State.setStep_intStatus (s : State) (x : SeqStep) : (s.setStep x).intStatus = s.intStatus := rfl
@[simp] theorem State.setStep_intEnable (s : State) (x : SeqStep) : (s.setStep x).intEnable = s.intEnable := rfl
@[simp] theorem State.setStep_old (s : State) (x : SeqStep) : (s.setStep x).old = s.old := rfl
@[simp] theorem State.setStep_target (s : State) (x : SeqStep) : (s.setStep x).target = s.target := rfl
@[simp] theorem State.setStep_origin (s : State) (x : SeqStep) : (s.setStep x).origin = s.origin := rfl
@[simp] theorem State.setStep_attempt (s : State) (x : SeqStep) : (s.setStep x).attempt = s.attempt := rfl
@[simp] theorem State.setStep_sample (s : State) (x : SeqStep) : (s.setStep x).sample = s.sample := rfl
@[simp] theorem State.setStep_lastWord (s : State) (x : SeqStep) : (s.setStep x).lastWord = s.lastWord := rfl
@[simp] theorem State.setStep_env (s : State) (x : SeqStep) : (s.setStep x).env = s.env := rfl

@[simp] theorem State.withEnv_cfg (s : State) (e : Env) : (s.withEnv e).cfg = s.cfg := rfl
@[simp] theorem State.withEnv_step (s : State) (e : Env) : (s.withEnv e).step = s.step := rfl
@[simp] theorem State.withEnv_lockOwner (s : State) (e : Env) : (s.withEnv e).lockOwner = s.lockOwner := rfl
@[simp] theorem State.withEnv_currentLevel (s : State) (e : Env) : (s.withEnv e).currentLevel = s.currentLevel := rfl
@[simp] theorem State.withEnv_currentVoltage (s : State) (e : Env) : (s.withEnv e).currentVoltage = s.currentVoltage := rfl
@[simp] theorem State.withEnv_thermalOffset (s : State) (e : Env) : (s.withEnv e).thermalOffset = s.thermalOffset := rfl
@[simp] theorem State.withEnv_dllForced (s : State) (e : Env) : (s.withEnv e).dllForced = s.dllForced := rfl
@[simp] theorem State.withEnv_dllLocked (s : State) (e : Env) : (s.withEnv e).dllLocked = s.dllLocked := rfl
@[simp] theorem State.withEnv_pendingLock (s : State) (e : Env) : (s.withEnv e).pendingLock = s.pendingLock := rfl
@[simp] theorem State.withEnv_safePllLevel (s : State) (e : Env) : (s.withEnv e).safePllLevel = s.safePllLevel := rfl
@[simp] theorem State.withEnv_pllCur (s : State) (e : Env) : (s.withEnv e).pllCur = s.pllCur := rfl
@[simp] theorem State.withEnv_qosMin (s : State) (e : Env) : (s.withEnv e).qosMin = s.qosMin := rfl
@[simp] theorem State.withEnv_qosMax (s : State) (e : Env) : (s.withEnv e).qosMax = s.qosMax := rfl
@[simp] theorem State.withEnv_lastRequested (s : State) (e : Env) : (s.withEnv e).lastRequested = s.lastRequested := rfl
@[simp] theorem State.withEnv_thermState (s : State) (e : Env) : (s.withEnv e).thermState = s.thermState := rfl
@[simp] theorem State.withEnv_rankLevel (s : State) (e : Env) : (s.withEnv e).rankLevel = s.rankLevel := rfl
@[simp] theorem State.withEnv_sampled (s : State) (e : Env) : (s.withEnv e).sampled = s.sampled := rfl
@[simp] theorem State.withEnv_tickRemaining (s : State) (e : Env) : (s.withEnv e).tickRemaining = s.tickRemaining := rfl
@[simp] theorem State.withEnv_tickPending (s : State) (e : Env) : (s.withEnv e).tickPending = s.tickPending := rfl
@[simp] theorem State.withEnv_monStopped (s : State) (e : Env) : (s.withEnv e).monStopped = s.monStopped := rfl
@[simp] theorem State.withEnv_slot (s : State) (e : Env) : (s.withEnv e).slot = s.slot := rfl
@[simp] theorem State.withEnv_cmdActive (s : State) (e : Env) : (s.withEnv e).cmdActive = s.cmdActive := rfl
@[simp] theorem State.withEnv_arg0 (s : State) (e : Env) : (s.withEnv e).arg0 = s.arg0 := rfl
@[simp] theorem State.withEnv_arg1 (s : State) (e : Env) : (s.withEnv e).arg1 = s.arg1 := rfl
@[simp] theorem State.withEnv_result (s : State) (e : Env) : (s.withEnv e).result = s.result := rfl
@[simp] theorem State.withEnv_err (s : State) (e : Env) : (s.withEnv e).err = s.err := rfl
@[simp] theorem State.withEnv_errStep (s : State) (e : Env) : (s.withEnv e).errStep = s.errStep := rfl
@[simp] theorem State.withEnv_errSig (s : State) (e : Env) : (s.withEnv e).errSig = s.errSig := rfl
@[simp] theorem State.withEnv_errArg (s : State) (e : Env) : (s.withEnv e).errArg = s.errArg := rfl
@[simp] theorem State.withEnv_errSnap (s : State) (e : Env) : (s.withEnv e).errSnap = s.errSnap := rfl
@[simp] theorem State.withEnv_intStatus (s : State) (e : Env) : (s.withEnv e).intStatus = s.intStatus := rfl
@[simp] theorem State.withEnv_intEnable (s : State) (e : Env) : (s.withEnv e).intEnable = s.intEnable := rfl
@[simp] theorem State.withEnv_old (s : State) (e : Env) : (s.withEnv e).old = s.old := rfl
@[simp] theorem State.withEnv_target (s : State) (e : Env) : (s.withEnv e).target = s.target := rfl
@[simp] theorem State.withEnv_origin (s : State) (e : Env) : (s.withEnv e).origin = s.origin := rfl
@[simp] theorem State.withEnv_attempt (s : State) (e : Env) : (s.withEnv e).attempt = s.attempt := rfl
@[simp] theorem State.withEnv_sample (s : State) (e : Env) : (s.withEnv e).sample = s.sample := rfl
@[simp] theorem State.withEnv_lastWord (s : State) (e : Env) : (s.withEnv e).lastWord = s.lastWord := rfl
@[simp] theorem State.withEnv_env (s : State) (e : Env) : (s.withEnv e).env = e := rfl

@[simp] theorem State.raiseInt_cfg (s : State) (b : IntBit) : (s.raiseInt b).cfg = s.cfg := rfl
@[simp] theorem State.raiseInt_step (s : State) (b : IntBit) : (s.raiseInt b).step = s.step := rfl
@[simp] theorem State.raiseInt_lockOwner (s : State) (b : IntBit) : (s.raiseInt b).lockOwner = s.lockOwner := rfl
@[simp] theorem State.raiseInt_currentLevel (s : State) (b : IntBit) : (s.raiseInt b).currentLevel = s.currentLevel := rfl
@[simp] theorem State.raiseInt_currentVoltage (s : State) (b : IntBit) : (s.raiseInt b).currentVoltage = s.currentVoltage := rfl
@[simp] theorem State.raiseInt_thermalOffset (s : State) (b : IntBit) : (s.raiseInt b).thermalOffset = s.thermalOffset := rfl
@[simp] theorem State.raiseInt_dllForced (s : State) (b : IntBit) : (s.raiseInt b).dllForced = s.dllForced := rfl
@[simp] theorem State.raiseInt_dllLocked (s : State) (b : IntBit) : (s.raiseInt b).dllLocked = s.dllLocked := rfl
@[simp] theorem State.raiseInt_pendingLock (s : State) (b : IntBit) : (s.raiseInt b).pendingLock = s.pendingLock := rfl
@[simp] theorem State.raiseInt_safePllLevel (s : State) (b : IntBit) : (s.raiseInt b).safePllLevel = s.safePllLevel := rfl
@[simp] theorem State.raiseInt_pllCur (s : State) (b : IntBit) : (s.raiseInt b).pllCur = s.pllCur := rfl
@[simp] theorem State.raiseInt_qosMin (s : State) (b : IntBit) : (s.raiseInt b).qosMin = s.qosMin := rfl
@[simp] theorem State.raiseInt_qosMax (s : State) (b : IntBit) : (s.raiseInt b).qosMax = s.qosMax := rfl
@[simp] theorem State.raiseInt_lastRequested (s : State) (b : IntBit) : (s.raiseInt b).lastRequested = s.lastRequested := rfl
@[simp] theorem State.raiseInt_thermState (s : State) (b : IntBit) : (s.raiseInt b).thermState = s.thermState := rfl
@[simp] theorem State.raiseInt_rankLevel (s : State) (b : IntBit) : (s.raiseInt b).rankLevel = s.rankLevel := rfl
@[simp] theorem State.raiseInt_sampled (s : State) (b : IntBit) : (s.raiseInt b).sampled = s.sampled := rfl
@[simp] theorem State.raiseInt_tickRemaining (s : State) (b : IntBit) : (s.raiseInt b).tickRemaining = s.tickRemaining := rfl
@[simp] theorem State.raiseInt_tickPending (s : State) (b : IntBit) : (s.raiseInt b).tickPending = s.tickPending := rfl
@[simp] theorem State.raiseInt_monStopped (s : State) (b : IntBit) : (s.raiseInt b).monStopped = s.monStopped := rfl
@[simp] theorem State.raiseInt_slot (s : State) (b : IntBit) : (s.raiseInt b).slot = s.slot := rfl
@[simp] theorem State.raiseInt_cmdActive (s : State) (b : IntBit) : (s.raiseInt b).cmdActive = s.cmdActive := rfl
@[simp] theorem State.raiseInt_arg0 (s : State) (b : IntBit) : (s.raiseInt b).arg0 = s.arg0 := rfl
@[simp] theorem State.raiseInt_arg1 (s : State) (b : IntBit) : (s.raiseInt b).arg1 = s.arg1 := rfl
@[simp] theorem State.raiseInt_result (s : State) (b : IntBit) : (s.raiseInt b).result = s.result := rfl
@[simp] theorem State.raiseInt_err (s : State) (b : IntBit) : (s.raiseInt b).err = s.err := rfl
@[simp] theorem State.raiseInt_errStep (s : State) (b : IntBit) : (s.raiseInt b).errStep = s.errStep := rfl
@[simp] theorem State.raiseInt_errSig (s : State) (b : IntBit) : (s.raiseInt b).errSig = s.errSig := rfl
@[simp] theorem State.raiseInt_errArg (s : State) (b : IntBit) : (s.raiseInt b).errArg = s.errArg := rfl
@[simp] theorem State.raiseInt_errSnap (s : State) (b : IntBit) : (s.raiseInt b).errSnap = s.errSnap := rfl
@[simp] theorem State.raiseInt_intStatus (s : State) (b : IntBit) : (s.raiseInt b).intStatus = s.intStatus ||| b.mask := rfl
@[simp] theorem State.raiseInt_intEnable (s : State) (b : IntBit) : (s.raiseInt b).intEnable = s.intEnable := rfl
@[simp] theorem State.raiseInt_old (s : State) (b : IntBit) : (s.raiseInt b).old = s.old := rfl
@[simp] theorem State.raiseInt_target (s : State) (b : IntBit) : (s.raiseInt b).target = s.target := rfl
@[simp] theorem State.raiseInt_origin (s : State) (b : IntBit) : (s.raiseInt b).origin = s.origin := rfl
@[simp] theorem State.raiseInt_attempt (s : State) (b : IntBit) : (s.raiseInt b).attempt = s.attempt := rfl
@[simp] theorem State.raiseInt_sample (s : State) (b : IntBit) : (s.raiseInt b).sample = s.sample := rfl
@[simp] theorem State.raiseInt_lastWord (s : State) (b : IntBit) : (s.raiseInt b).lastWord = s.lastWord := rfl
@[simp] theorem State.raiseInt_env (s : State) (b : IntBit) : (s.raiseInt b).env = s.env := rfl

@[simp] theorem State.recordTimeout_cfg (s : State) (sig : Signal) (arg : Byte) (snap : Word) : (s.recordTimeout sig arg snap).cfg = s.cfg := rfl
@[simp] theorem State.recordTimeout_step (s : State) (sig : Signal) (arg : Byte) (snap : Word) : (s.recordTimeout sig arg snap).step = s.step := rfl
@[simp] theorem State.recordTimeout_lockOwner (s : State) (sig : Signal) (arg : Byte) (snap : Word) : (s.recordTimeout sig arg snap).lockOwner = s.lockOwner := rfl
@[simp] theorem State.recordTimeout_currentLevel (s : State) (sig : Signal) (arg : Byte) (snap : Word) : (s.recordTimeout sig arg snap).currentLevel = s.currentLevel := rfl
@[simp] theorem State.recordTimeout_currentVoltage (s : State) (sig : Signal) (arg : Byte) (snap : Word) : (s.recordTimeout sig arg snap).currentVoltage = s.currentVoltage := rfl
@[simp] theorem State.recordTimeout_thermalOffset (s : State) (sig : Signal) (arg : Byte) (snap : Word) : (s.recordTimeout sig arg snap).thermalOffset = s.thermalOffset := rfl
@[simp] theorem State.recordTimeout_dllForced (s : State) (sig : Signal) (arg : Byte) (snap : Word) : (s.recordTimeout sig arg snap).dllForced = s.dllForced := rfl
@[simp] theorem State.recordTimeout_dllLocked (s : State) (sig : Signal) (arg : Byte) (snap : Word) : (s.recordTimeout sig arg snap).dllLocked = s.dllLocked := rfl
@[simp] theorem State.recordTimeout_pendingLock (s : State) (sig : Signal) (arg : Byte) (snap : Word) : (s.recordTimeout sig arg snap).pendingLock = s.pendingLock := rfl
@[simp] theorem State.recordTimeout_safePllLevel (s : State) (sig : Signal) (arg : Byte) (snap : Word) : (s.recordTimeout sig arg snap).safePllLevel = s.safePllLevel := rfl
@[simp] theorem State.recordTimeout_pllCur (s : State) (sig : Signal) (arg : Byte) (snap : Word) : (s.recordTimeout sig arg snap).pllCur = s.pllCur := rfl
@[simp] theorem State.recordTimeout_qosMin (s : State) (sig : Signal) (arg : Byte) (snap : Word) : (s.recordTimeout sig arg snap).qosMin = s.qosMin := rfl
@[simp] theorem State.recordTimeout_qosMax (s : State) (sig : Signal) (arg : Byte) (snap : Word) : (s.recordTimeout sig arg snap).qosMax = s.qosMax := rfl
@[simp] theorem State.recordTimeout_lastRequested (s : State) (sig : Signal) (arg : Byte) (snap : Word) : (s.recordTimeout sig arg snap).lastRequested = s.lastRequested := rfl
@[simp] theorem State.recordTimeout_thermState (s : State) (sig : Signal) (arg : Byte) (snap : Word) : (s.recordTimeout sig arg snap).thermState = s.thermState := rfl
@[simp] theorem State.recordTimeout_rankLevel (s : State) (sig : Signal) (arg : Byte) (snap : Word) : (s.recordTimeout sig arg snap).rankLevel = s.rankLevel := rfl
@[simp] theorem State.recordTimeout_sampled (s : State) (sig : Signal) (arg : Byte) (snap : Word) : (s.recordTimeout sig arg snap).sampled = s.sampled := rfl
@[simp] theorem State.recordTimeout_tickRemaining (s : State) (sig : Signal) (arg : Byte) (snap : Word) : (s.recordTimeout sig arg snap).tickRemaining = s.tickRemaining := rfl
@[simp] theorem State.recordTimeout_tickPending (s : State) (sig : Signal) (arg : Byte) (snap : Word) : (s.recordTimeout sig arg snap).tickPending = s.tickPending := rfl
@[simp] theorem State.recordTimeout_monStopped (s : State) (sig : Signal) (arg : Byte) (snap : Word) : (s.recordTimeout sig arg snap).monStopped = s.monStopped := rfl
@[simp] theorem State.recordTimeout_slot (s : State) (sig : Signal) (arg : Byte) (snap : Word) : (s.recordTimeout sig arg snap).slot = s.slot := rfl
@[simp] theorem State.recordTimeout_cmdActive (s : State) (sig : Signal) (arg : Byte) (snap : Word) : (s.recordTimeout sig arg snap).cmdActive = s.cmdActive := rfl
@[simp] theorem State.recordTimeout_arg0 (s : State) (sig : Signal) (arg : Byte) (snap : Word) : (s.recordTimeout sig arg snap).arg0 = s.arg0 := rfl
@[simp] theorem State.recordTimeout_arg1 (s : State) (sig : Signal) (arg : Byte) (snap : Word) : (s.recordTimeout sig arg snap).arg1 = s.arg1 := rfl
@[simp] theorem State.recordTimeout_result (s : State) (sig : Signal) (arg : Byte) (snap : Word) : (s.recordTimeout sig arg snap).result = s.result := rfl
@[simp] theorem State.recordTimeout_err (s : State) (sig : Signal) (arg : Byte) (snap : Word) : (s.recordTimeout sig arg snap).err = s.err := rfl
@[simp] theorem State.recordTimeout_errStep (s : State) (sig : Signal) (arg : Byte) (snap : Word) : (s.recordTimeout sig arg snap).errStep = s.step.code := rfl
@[simp] theorem State.recordTimeout_errSig (s : State) (sig : Signal) (arg : Byte) (snap : Word) : (s.recordTimeout sig arg snap).errSig = sig.code := rfl
@[simp] theorem State.recordTimeout_errArg (s : State) (sig : Signal) (arg : Byte) (snap : Word) : (s.recordTimeout sig arg snap).errArg = arg := rfl
@[simp] theorem State.recordTimeout_errSnap (s : State) (sig : Signal) (arg : Byte) (snap : Word) : (s.recordTimeout sig arg snap).errSnap = snap := rfl
@[simp] theorem State.recordTimeout_intStatus (s : State) (sig : Signal) (arg : Byte) (snap : Word) : (s.recordTimeout sig arg snap).intStatus = s.intStatus := rfl
@[simp] theorem State.recordTimeout_intEnable (s : State) (sig : Signal) (arg : Byte) (snap : Word) : (s.recordTimeout sig arg snap).intEnable = s.intEnable := rfl
@[simp] theorem State.recordTimeout_old (s : State) (sig : Signal) (arg : Byte) (snap : Word) : (s.recordTimeout sig arg snap).old = s.old := rfl
@[simp] theorem State.recordTimeout_target (s : State) (sig : Signal) (arg : Byte) (snap : Word) : (s.recordTimeout sig arg snap).target = s.target := rfl
@[simp] theorem State.recordTimeout_origin (s : State) (sig : Signal) (arg : Byte) (snap : Word) : (s.recordTimeout sig arg snap).origin = s.origin := rfl
@[simp] theorem State.recordTimeout_attempt (s : State) (sig : Signal) (arg : Byte) (snap : Word) : (s.recordTimeout sig arg snap).attempt = s.attempt := rfl
@[simp] theorem State.recordTimeout_sample (s : State) (sig : Signal) (arg : Byte) (snap : Word) : (s.recordTimeout sig arg snap).sample = s.sample := rfl
@[simp] theorem State.recordTimeout_lastWord (s : State) (sig : Signal) (arg : Byte) (snap : Word) : (s.recordTimeout sig arg snap).lastWord = s.lastWord := rfl
@[simp] theorem State.recordTimeout_env (s : State) (sig : Signal) (arg : Byte) (snap : Word) : (s.recordTimeout sig arg snap).env = s.env := rfl

@[simp] theorem State.releaseLock_cfg (s : State) : (s.releaseLock).cfg = s.cfg := rfl
@[simp] theorem State.releaseLock_step (s : State) : (s.releaseLock).step = .idle := rfl
@[simp] theorem State.releaseLock_lockOwner (s : State) : (s.releaseLock).lockOwner = .none := rfl
@[simp] theorem State.releaseLock_currentLevel (s : State) : (s.releaseLock).currentLevel = s.currentLevel := rfl
@[simp] theorem State.releaseLock_currentVoltage (s : State) : (s.releaseLock).currentVoltage = s.currentVoltage := rfl
@[simp] theorem State.releaseLock_thermalOffset (s : State) : (s.releaseLock).thermalOffset = s.thermalOffset := rfl
@[simp] theorem State.releaseLock_dllForced (s : State) : (s.releaseLock).dllForced = s.dllForced := rfl
@[simp] theorem State.releaseLock_dllLocked (s : State) : (s.releaseLock).dllLocked = s.dllLocked := rfl
@[simp] theorem State.releaseLock_pendingLock (s : State) : (s.releaseLock).pendingLock = s.pendingLock := rfl
@[simp] theorem State.releaseLock_safePllLevel (s : State) : (s.releaseLock).safePllLevel = s.safePllLevel := rfl
@[simp] theorem State.releaseLock_pllCur (s : State) : (s.releaseLock).pllCur = s.pllCur := rfl
@[simp] theorem State.releaseLock_qosMin (s : State) : (s.releaseLock).qosMin = s.qosMin := rfl
@[simp] theorem State.releaseLock_qosMax (s : State) : (s.releaseLock).qosMax = s.qosMax := rfl
@[simp] theorem State.releaseLock_lastRequested (s : State) : (s.releaseLock).lastRequested = s.lastRequested := rfl
@[simp] theorem State.releaseLock_thermState (s : State) : (s.releaseLock).thermState = s.thermState := rfl
@[simp] theorem State.releaseLock_rankLevel (s : State) : (s.releaseLock).rankLevel = s.rankLevel := rfl
@[simp] theorem State.releaseLock_sampled (s : State) : (s.releaseLock).sampled = s.sampled := rfl
@[simp] theorem State.releaseLock_tickRemaining (s : State) : (s.releaseLock).tickRemaining = s.tickRemaining := rfl
@[simp] theorem State.releaseLock_tickPending (s : State) : (s.releaseLock).tickPending = s.tickPending := rfl
@[simp] theorem State.releaseLock_monStopped (s : State) : (s.releaseLock).monStopped = s.monStopped := rfl
@[simp] theorem State.releaseLock_slot (s : State) : (s.releaseLock).slot = s.slot := rfl
@[simp] theorem State.releaseLock_cmdActive (s : State) : (s.releaseLock).cmdActive = s.cmdActive := rfl
@[simp] theorem State.releaseLock_arg0 (s : State) : (s.releaseLock).arg0 = s.arg0 := rfl
@[simp] theorem State.releaseLock_arg1 (s : State) : (s.releaseLock).arg1 = s.arg1 := rfl
@[simp] theorem State.releaseLock_result (s : State) : (s.releaseLock).result = s.result := rfl
@[simp] theorem State.releaseLock_err (s : State) : (s.releaseLock).err = s.err := rfl
@[simp] theorem State.releaseLock_errStep (s : State) : (s.releaseLock).errStep = s.errStep := rfl
@[simp] theorem State.releaseLock_errSig (s : State) : (s.releaseLock).errSig = s.errSig := rfl
@[simp] theorem State.releaseLock_errArg (s : State) : (s.releaseLock).errArg = s.errArg := rfl
@[simp] theorem State.releaseLock_errSnap (s : State) : (s.releaseLock).errSnap = s.errSnap := rfl
@[simp] theorem State.releaseLock_intStatus (s : State) : (s.releaseLock).intStatus = s.intStatus := rfl
@[simp] theorem State.releaseLock_intEnable (s : State) : (s.releaseLock).intEnable = s.intEnable := rfl
@[simp] theorem State.releaseLock_old (s : State) : (s.releaseLock).old = s.old := rfl
@[simp] theorem State.releaseLock_target (s : State) : (s.releaseLock).target = s.target := rfl
@[simp] theorem State.releaseLock_origin (s : State) : (s.releaseLock).origin = s.origin := rfl
@[simp] theorem State.releaseLock_attempt (s : State) : (s.releaseLock).attempt = s.attempt := rfl
@[simp] theorem State.releaseLock_sample (s : State) : (s.releaseLock).sample = s.sample := rfl
@[simp] theorem State.releaseLock_lastWord (s : State) : (s.releaseLock).lastWord = s.lastWord := rfl
@[simp] theorem State.releaseLock_env (s : State) : (s.releaseLock).env = s.env := rfl

@[simp] theorem State.takeSamples_cfg (s : State) : (s.takeSamples).cfg = s.cfg := rfl
@[simp] theorem State.takeSamples_step (s : State) : (s.takeSamples).step = s.step := rfl
@[simp] theorem State.takeSamples_lockOwner (s : State) : (s.takeSamples).lockOwner = s.lockOwner := rfl
@[simp] theorem State.takeSamples_currentLevel (s : State) : (s.takeSamples).currentLevel = s.currentLevel := rfl
@[simp] theorem State.takeSamples_currentVoltage (s : State) : (s.takeSamples).currentVoltage = s.currentVoltage := rfl
@[simp] theorem State.takeSamples_thermalOffset (s : State) : (s.takeSamples).thermalOffset = s.thermalOffset := rfl
@[simp] theorem State.takeSamples_dllForced (s : State) : (s.takeSamples).dllForced = s.dllForced := rfl
@[simp] theorem State.takeSamples_dllLocked (s : State) : (s.takeSamples).dllLocked = s.dllLocked := rfl
@[simp] theorem State.takeSamples_pendingLock (s : State) : (s.takeSamples).pendingLock = s.pendingLock := rfl
@[simp] theorem State.takeSamples_safePllLevel (s : State) : (s.takeSamples).safePllLevel = s.safePllLevel := rfl
@[simp] theorem State.takeSamples_pllCur (s : State) : (s.takeSamples).pllCur = s.pllCur := rfl
@[simp] theorem State.takeSamples_qosMin (s : State) : (s.takeSamples).qosMin = s.qosMin := rfl
@[simp] theorem State.takeSamples_qosMax (s : State) : (s.takeSamples).qosMax = s.qosMax := rfl
@[simp] theorem State.takeSamples_lastRequested (s : State) : (s.takeSamples).lastRequested = s.lastRequested := rfl
@[simp] theorem State.takeSamples_thermState (s : State) : (s.takeSamples).thermState = s.thermState := rfl
@[simp] theorem State.takeSamples_rankLevel (s : State) : (s.takeSamples).rankLevel = s.sample := rfl
@[simp] theorem State.takeSamples_sampled (s : State) : (s.takeSamples).sampled = true := rfl
@[simp] theorem State.takeSamples_tickRemaining (s : State) : (s.takeSamples).tickRemaining = s.tickRemaining := rfl
@[simp] theorem State.takeSamples_tickPending (s : State) : (s.takeSamples).tickPending = s.tickPending := rfl
@[simp] theorem State.takeSamples_monStopped (s : State) : (s.takeSamples).monStopped = s.monStopped := rfl
@[simp] theorem State.takeSamples_slot (s : State) : (s.takeSamples).slot = s.slot := rfl
@[simp] theorem State.takeSamples_cmdActive (s : State) : (s.takeSamples).cmdActive = s.cmdActive := rfl
@[simp] theorem State.takeSamples_arg0 (s : State) : (s.takeSamples).arg0 = s.arg0 := rfl
@[simp] theorem State.takeSamples_arg1 (s : State) : (s.takeSamples).arg1 = s.arg1 := rfl
@[simp] theorem State.takeSamples_result (s : State) : (s.takeSamples).result = s.result := rfl
@[simp] theorem State.takeSamples_err (s : State) : (s.takeSamples).err = s.err := rfl
@[simp] theorem State.takeSamples_errStep (s : State) : (s.takeSamples).errStep = s.errStep := rfl
@[simp] theorem State.takeSamples_errSig (s : State) : (s.takeSamples).errSig = s.errSig := rfl
@[simp] theorem State.takeSamples_errArg (s : State) : (s.takeSamples).errArg = s.errArg := rfl
@[simp] theorem State.takeSamples_errSnap (s : State) : (s.takeSamples).errSnap = s.errSnap := rfl
@[simp] theorem State.takeSamples_intStatus (s : State) : (s.takeSamples).intStatus = s.intStatus := rfl
@[simp] theorem State.takeSamples_intEnable (s : State) : (s.takeSamples).intEnable = s.intEnable := rfl
@[simp] theorem State.takeSamples_old (s : State) : (s.takeSamples).old = s.old := rfl
@[simp] theorem State.takeSamples_target (s : State) : (s.takeSamples).target = s.target := rfl
@[simp] theorem State.takeSamples_origin (s : State) : (s.takeSamples).origin = s.origin := rfl
@[simp] theorem State.takeSamples_attempt (s : State) : (s.takeSamples).attempt = s.attempt := rfl
@[simp] theorem State.takeSamples_sample (s : State) : (s.takeSamples).sample = s.sample := rfl
@[simp] theorem State.takeSamples_lastWord (s : State) : (s.takeSamples).lastWord = s.lastWord := rfl
@[simp] theorem State.takeSamples_env (s : State) : (s.takeSamples).env = s.env := rfl

@[simp] theorem State.issueVoltage_cfg (s : State) (v : Word) : (s.issueVoltage v).cfg = s.cfg := rfl
@[simp] theorem State.issueVoltage_step (s : State) (v : Word) : (s.issueVoltage v).step = s.step := rfl
@[simp] theorem State.issueVoltage_lockOwner (s : State) (v : Word) : (s.issueVoltage v).lockOwner = s.lockOwner := rfl
@[simp] theorem State.issueVoltage_currentLevel (s : State) (v : Word) : (s.issueVoltage v).currentLevel = s.currentLevel := rfl
@[simp] theorem State.issueVoltage_currentVoltage (s : State) (v : Word) : (s.issueVoltage v).currentVoltage = v := rfl
@[simp] theorem State.issueVoltage_thermalOffset (s : State) (v : Word) : (s.issueVoltage v).thermalOffset = s.thermalOffset := rfl
@[simp] theorem State.issueVoltage_dllForced (s : State) (v : Word) : (s.issueVoltage v).dllForced = s.dllForced := rfl
@[simp] theorem State.issueVoltage_dllLocked (s : State) (v : Word) : (s.issueVoltage v).dllLocked = s.dllLocked := rfl
@[simp] theorem State.issueVoltage_pendingLock (s : State) (v : Word) : (s.issueVoltage v).pendingLock = s.pendingLock := rfl
@[simp] theorem State.issueVoltage_safePllLevel (s : State) (v : Word) : (s.issueVoltage v).safePllLevel = s.safePllLevel := rfl
@[simp] theorem State.issueVoltage_pllCur (s : State) (v : Word) : (s.issueVoltage v).pllCur = s.pllCur := rfl
@[simp] theorem State.issueVoltage_qosMin (s : State) (v : Word) : (s.issueVoltage v).qosMin = s.qosMin := rfl
@[simp] theorem State.issueVoltage_qosMax (s : State) (v : Word) : (s.issueVoltage v).qosMax = s.qosMax := rfl
@[simp] theorem State.issueVoltage_lastRequested (s : State) (v : Word) : (s.issueVoltage v).lastRequested = s.lastRequested := rfl
@[simp] theorem State.issueVoltage_thermState (s : State) (v : Word) : (s.issueVoltage v).thermState = s.thermState := rfl
@[simp] theorem State.issueVoltage_rankLevel (s : State) (v : Word) : (s.issueVoltage v).rankLevel = s.rankLevel := rfl
@[simp] theorem State.issueVoltage_sampled (s : State) (v : Word) : (s.issueVoltage v).sampled = s.sampled := rfl
@[simp] theorem State.issueVoltage_tickRemaining (s : State) (v : Word) : (s.issueVoltage v).tickRemaining = s.tickRemaining := rfl
@[simp] theorem State.issueVoltage_tickPending (s : State) (v : Word) : (s.issueVoltage v).tickPending = s.tickPending := rfl
@[simp] theorem State.issueVoltage_monStopped (s : State) (v : Word) : (s.issueVoltage v).monStopped = s.monStopped := rfl
@[simp] theorem State.issueVoltage_slot (s : State) (v : Word) : (s.issueVoltage v).slot = s.slot := rfl
@[simp] theorem State.issueVoltage_cmdActive (s : State) (v : Word) : (s.issueVoltage v).cmdActive = s.cmdActive := rfl
@[simp] theorem State.issueVoltage_arg0 (s : State) (v : Word) : (s.issueVoltage v).arg0 = s.arg0 := rfl
@[simp] theorem State.issueVoltage_arg1 (s : State) (v : Word) : (s.issueVoltage v).arg1 = s.arg1 := rfl
@[simp] theorem State.issueVoltage_result (s : State) (v : Word) : (s.issueVoltage v).result = s.result := rfl
@[simp] theorem State.issueVoltage_err (s : State) (v : Word) : (s.issueVoltage v).err = s.err := rfl
@[simp] theorem State.issueVoltage_errStep (s : State) (v : Word) : (s.issueVoltage v).errStep = s.errStep := rfl
@[simp] theorem State.issueVoltage_errSig (s : State) (v : Word) : (s.issueVoltage v).errSig = s.errSig := rfl
@[simp] theorem State.issueVoltage_errArg (s : State) (v : Word) : (s.issueVoltage v).errArg = s.errArg := rfl
@[simp] theorem State.issueVoltage_errSnap (s : State) (v : Word) : (s.issueVoltage v).errSnap = s.errSnap := rfl
@[simp] theorem State.issueVoltage_intStatus (s : State) (v : Word) : (s.issueVoltage v).intStatus = s.intStatus := rfl
@[simp] theorem State.issueVoltage_intEnable (s : State) (v : Word) : (s.issueVoltage v).intEnable = s.intEnable := rfl
@[simp] theorem State.issueVoltage_old (s : State) (v : Word) : (s.issueVoltage v).old = s.old := rfl
@[simp] theorem State.issueVoltage_target (s : State) (v : Word) : (s.issueVoltage v).target = s.target := rfl
@[simp] theorem State.issueVoltage_origin (s : State) (v : Word) : (s.issueVoltage v).origin = s.origin := rfl
@[simp] theorem State.issueVoltage_attempt (s : State) (v : Word) : (s.issueVoltage v).attempt = s.attempt := rfl
@[simp] theorem State.issueVoltage_sample (s : State) (v : Word) : (s.issueVoltage v).sample = s.sample := rfl
@[simp] theorem State.issueVoltage_lastWord (s : State) (v : Word) : (s.issueVoltage v).lastWord = s.lastWord := rfl
@[simp] theorem State.issueVoltage_env (s : State) (v : Word) : (s.issueVoltage v).env = (s.record (.call (.setVoltage v))).env := rfl

@[simp] theorem State.outWrite_cfg (s : State) (w : Window) (off : Nat) (v : Word) : (s.outWrite w off v).cfg = s.cfg := rfl
@[simp] theorem State.outWrite_step (s : State) (w : Window) (off : Nat) (v : Word) : (s.outWrite w off v).step = s.step := rfl
@[simp] theorem State.outWrite_lockOwner (s : State) (w : Window) (off : Nat) (v : Word) : (s.outWrite w off v).lockOwner = s.lockOwner := rfl
@[simp] theorem State.outWrite_currentLevel (s : State) (w : Window) (off : Nat) (v : Word) : (s.outWrite w off v).currentLevel = s.currentLevel := rfl
@[simp] theorem State.outWrite_currentVoltage (s : State) (w : Window) (off : Nat) (v : Word) : (s.outWrite w off v).currentVoltage = s.currentVoltage := rfl
@[simp] theorem State.outWrite_thermalOffset (s : State) (w : Window) (off : Nat) (v : Word) : (s.outWrite w off v).thermalOffset = s.thermalOffset := rfl
@[simp] theorem State.outWrite_dllForced (s : State) (w : Window) (off : Nat) (v : Word) : (s.outWrite w off v).dllForced = s.dllForced := rfl
@[simp] theorem State.outWrite_dllLocked (s : State) (w : Window) (off : Nat) (v : Word) : (s.outWrite w off v).dllLocked = s.dllLocked := rfl
@[simp] theorem State.outWrite_pendingLock (s : State) (w : Window) (off : Nat) (v : Word) : (s.outWrite w off v).pendingLock = s.pendingLock := rfl
@[simp] theorem State.outWrite_safePllLevel (s : State) (w : Window) (off : Nat) (v : Word) : (s.outWrite w off v).safePllLevel = s.safePllLevel := rfl
@[simp] theorem State.outWrite_pllCur (s : State) (w : Window) (off : Nat) (v : Word) : (s.outWrite w off v).pllCur = s.pllCur := rfl
@[simp] theorem State.outWrite_qosMin (s : State) (w : Window) (off : Nat) (v : Word) : (s.outWrite w off v).qosMin = s.qosMin := rfl
@[simp] theorem State.outWrite_qosMax (s : State) (w : Window) (off : Nat) (v : Word) : (s.outWrite w off v).qosMax = s.qosMax := rfl
@[simp] theorem State.outWrite_lastRequested (s : State) (w : Window) (off : Nat) (v : Word) : (s.outWrite w off v).lastRequested = s.lastRequested := rfl
@[simp] theorem State.outWrite_thermState (s : State) (w : Window) (off : Nat) (v : Word) : (s.outWrite w off v).thermState = s.thermState := rfl
@[simp] theorem State.outWrite_rankLevel (s : State) (w : Window) (off : Nat) (v : Word) : (s.outWrite w off v).rankLevel = s.rankLevel := rfl
@[simp] theorem State.outWrite_sampled (s : State) (w : Window) (off : Nat) (v : Word) : (s.outWrite w off v).sampled = s.sampled := rfl
@[simp] theorem State.outWrite_tickRemaining (s : State) (w : Window) (off : Nat) (v : Word) : (s.outWrite w off v).tickRemaining = s.tickRemaining := rfl
@[simp] theorem State.outWrite_tickPending (s : State) (w : Window) (off : Nat) (v : Word) : (s.outWrite w off v).tickPending = s.tickPending := rfl
@[simp] theorem State.outWrite_monStopped (s : State) (w : Window) (off : Nat) (v : Word) : (s.outWrite w off v).monStopped = s.monStopped := rfl
@[simp] theorem State.outWrite_slot (s : State) (w : Window) (off : Nat) (v : Word) : (s.outWrite w off v).slot = s.slot := rfl
@[simp] theorem State.outWrite_cmdActive (s : State) (w : Window) (off : Nat) (v : Word) : (s.outWrite w off v).cmdActive = s.cmdActive := rfl
@[simp] theorem State.outWrite_arg0 (s : State) (w : Window) (off : Nat) (v : Word) : (s.outWrite w off v).arg0 = s.arg0 := rfl
@[simp] theorem State.outWrite_arg1 (s : State) (w : Window) (off : Nat) (v : Word) : (s.outWrite w off v).arg1 = s.arg1 := rfl
@[simp] theorem State.outWrite_result (s : State) (w : Window) (off : Nat) (v : Word) : (s.outWrite w off v).result = s.result := rfl
@[simp] theorem State.outWrite_err (s : State) (w : Window) (off : Nat) (v : Word) : (s.outWrite w off v).err = s.err := rfl
@[simp] theorem State.outWrite_errStep (s : State) (w : Window) (off : Nat) (v : Word) : (s.outWrite w off v).errStep = s.errStep := rfl
@[simp] theorem State.outWrite_errSig (s : State) (w : Window) (off : Nat) (v : Word) : (s.outWrite w off v).errSig = s.errSig := rfl
@[simp] theorem State.outWrite_errArg (s : State) (w : Window) (off : Nat) (v : Word) : (s.outWrite w off v).errArg = s.errArg := rfl
@[simp] theorem State.outWrite_errSnap (s : State) (w : Window) (off : Nat) (v : Word) : (s.outWrite w off v).errSnap = s.errSnap := rfl
@[simp] theorem State.outWrite_intStatus (s : State) (w : Window) (off : Nat) (v : Word) : (s.outWrite w off v).intStatus = s.intStatus := rfl
@[simp] theorem State.outWrite_intEnable (s : State) (w : Window) (off : Nat) (v : Word) : (s.outWrite w off v).intEnable = s.intEnable := rfl
@[simp] theorem State.outWrite_old (s : State) (w : Window) (off : Nat) (v : Word) : (s.outWrite w off v).old = s.old := rfl
@[simp] theorem State.outWrite_target (s : State) (w : Window) (off : Nat) (v : Word) : (s.outWrite w off v).target = s.target := rfl
@[simp] theorem State.outWrite_origin (s : State) (w : Window) (off : Nat) (v : Word) : (s.outWrite w off v).origin = s.origin := rfl
@[simp] theorem State.outWrite_attempt (s : State) (w : Window) (off : Nat) (v : Word) : (s.outWrite w off v).attempt = s.attempt := rfl
@[simp] theorem State.outWrite_sample (s : State) (w : Window) (off : Nat) (v : Word) : (s.outWrite w off v).sample = s.sample := rfl
@[simp] theorem State.outWrite_lastWord (s : State) (w : Window) (off : Nat) (v : Word) : (s.outWrite w off v).lastWord = s.lastWord := rfl

@[simp] theorem State.forceDll_cfg (s : State) (v : Word) : (s.forceDll v).cfg = s.cfg := rfl
@[simp] theorem State.forceDll_step (s : State) (v : Word) : (s.forceDll v).step = s.step := rfl
@[simp] theorem State.forceDll_lockOwner (s : State) (v : Word) : (s.forceDll v).lockOwner = s.lockOwner := rfl
@[simp] theorem State.forceDll_currentLevel (s : State) (v : Word) : (s.forceDll v).currentLevel = s.currentLevel := rfl
@[simp] theorem State.forceDll_currentVoltage (s : State) (v : Word) : (s.forceDll v).currentVoltage = s.currentVoltage := rfl
@[simp] theorem State.forceDll_thermalOffset (s : State) (v : Word) : (s.forceDll v).thermalOffset = s.thermalOffset := rfl
@[simp] theorem State.forceDll_dllForced (s : State) (v : Word) : (s.forceDll v).dllForced = true := rfl
@[simp] theorem State.forceDll_dllLocked (s : State) (v : Word) : (s.forceDll v).dllLocked = false := rfl
@[simp] theorem State.forceDll_pendingLock (s : State) (v : Word) : (s.forceDll v).pendingLock = s.pendingLock := rfl
@[simp] theorem State.forceDll_safePllLevel (s : State) (v : Word) : (s.forceDll v).safePllLevel = s.safePllLevel := rfl
@[simp] theorem State.forceDll_pllCur (s : State) (v : Word) : (s.forceDll v).pllCur = s.pllCur := rfl
@[simp] theorem State.forceDll_qosMin (s : State) (v : Word) : (s.forceDll v).qosMin = s.qosMin := rfl
@[simp] theorem State.forceDll_qosMax (s : State) (v : Word) : (s.forceDll v).qosMax = s.qosMax := rfl
@[simp] theorem State.forceDll_lastRequested (s : State) (v : Word) : (s.forceDll v).lastRequested = s.lastRequested := rfl
@[simp] theorem State.forceDll_thermState (s : State) (v : Word) : (s.forceDll v).thermState = s.thermState := rfl
@[simp] theorem State.forceDll_rankLevel (s : State) (v : Word) : (s.forceDll v).rankLevel = s.rankLevel := rfl
@[simp] theorem State.forceDll_sampled (s : State) (v : Word) : (s.forceDll v).sampled = s.sampled := rfl
@[simp] theorem State.forceDll_tickRemaining (s : State) (v : Word) : (s.forceDll v).tickRemaining = s.tickRemaining := rfl
@[simp] theorem State.forceDll_tickPending (s : State) (v : Word) : (s.forceDll v).tickPending = s.tickPending := rfl
@[simp] theorem State.forceDll_monStopped (s : State) (v : Word) : (s.forceDll v).monStopped = s.monStopped := rfl
@[simp] theorem State.forceDll_slot (s : State) (v : Word) : (s.forceDll v).slot = s.slot := rfl
@[simp] theorem State.forceDll_cmdActive (s : State) (v : Word) : (s.forceDll v).cmdActive = s.cmdActive := rfl
@[simp] theorem State.forceDll_arg0 (s : State) (v : Word) : (s.forceDll v).arg0 = s.arg0 := rfl
@[simp] theorem State.forceDll_arg1 (s : State) (v : Word) : (s.forceDll v).arg1 = s.arg1 := rfl
@[simp] theorem State.forceDll_result (s : State) (v : Word) : (s.forceDll v).result = s.result := rfl
@[simp] theorem State.forceDll_err (s : State) (v : Word) : (s.forceDll v).err = s.err := rfl
@[simp] theorem State.forceDll_errStep (s : State) (v : Word) : (s.forceDll v).errStep = s.errStep := rfl
@[simp] theorem State.forceDll_errSig (s : State) (v : Word) : (s.forceDll v).errSig = s.errSig := rfl
@[simp] theorem State.forceDll_errArg (s : State) (v : Word) : (s.forceDll v).errArg = s.errArg := rfl
@[simp] theorem State.forceDll_errSnap (s : State) (v : Word) : (s.forceDll v).errSnap = s.errSnap := rfl
@[simp] theorem State.forceDll_intStatus (s : State) (v : Word) : (s.forceDll v).intStatus = s.intStatus := rfl
@[simp] theorem State.forceDll_intEnable (s : State) (v : Word) : (s.forceDll v).intEnable = s.intEnable := rfl
@[simp] theorem State.forceDll_old (s : State) (v : Word) : (s.forceDll v).old = s.old := rfl
@[simp] theorem State.forceDll_target (s : State) (v : Word) : (s.forceDll v).target = s.target := rfl
@[simp] theorem State.forceDll_origin (s : State) (v : Word) : (s.forceDll v).origin = s.origin := rfl
@[simp] theorem State.forceDll_attempt (s : State) (v : Word) : (s.forceDll v).attempt = s.attempt := rfl
@[simp] theorem State.forceDll_sample (s : State) (v : Word) : (s.forceDll v).sample = s.sample := rfl
@[simp] theorem State.forceDll_lastWord (s : State) (v : Word) : (s.forceDll v).lastWord = s.lastWord := rfl
@[simp] theorem State.forceDll_env (s : State) (v : Word) : (s.forceDll v).env = (s.outWrite .phy s.cfg.offDllCtrl (s.cfg.dllCtrl.word true v)).env := rfl

@[simp] theorem State.freeDll_cfg (s : State) : (s.freeDll).cfg = s.cfg := rfl
@[simp] theorem State.freeDll_step (s : State) : (s.freeDll).step = s.step := rfl
@[simp] theorem State.freeDll_lockOwner (s : State) : (s.freeDll).lockOwner = s.lockOwner := rfl
@[simp] theorem State.freeDll_currentLevel (s : State) : (s.freeDll).currentLevel = s.currentLevel := rfl
@[simp] theorem State.freeDll_currentVoltage (s : State) : (s.freeDll).currentVoltage = s.currentVoltage := rfl
@[simp] theorem State.freeDll_thermalOffset (s : State) : (s.freeDll).thermalOffset = s.thermalOffset := rfl
@[simp] theorem State.freeDll_dllForced (s : State) : (s.freeDll).dllForced = false := rfl
@[simp] theorem State.freeDll_dllLocked (s : State) : (s.freeDll).dllLocked = false := rfl
@[simp] theorem State.freeDll_pendingLock (s : State) : (s.freeDll).pendingLock = s.pendingLock := rfl
@[simp] theorem State.freeDll_safePllLevel (s : State) : (s.freeDll).safePllLevel = s.safePllLevel := rfl
@[simp] theorem State.freeDll_pllCur (s : State) : (s.freeDll).pllCur = s.pllCur := rfl
@[simp] theorem State.freeDll_qosMin (s : State) : (s.freeDll).qosMin = s.qosMin := rfl
@[simp] theorem State.freeDll_qosMax (s : State) : (s.freeDll).qosMax = s.qosMax := rfl
@[simp] theorem State.freeDll_lastRequested (s : State) : (s.freeDll).lastRequested = s.lastRequested := rfl
@[simp] theorem State.freeDll_thermState (s : State) : (s.freeDll).thermState = s.thermState := rfl
@[simp] theorem State.freeDll_rankLevel (s : State) : (s.freeDll).rankLevel = s.rankLevel := rfl
@[simp] theorem State.freeDll_sampled (s : State) : (s.freeDll).sampled = s.sampled := rfl
@[simp] theorem State.freeDll_tickRemaining (s : State) : (s.freeDll).tickRemaining = s.tickRemaining := rfl
@[simp] theorem State.freeDll_tickPending (s : State) : (s.freeDll).tickPending = s.tickPending := rfl
@[simp] theorem State.freeDll_monStopped (s : State) : (s.freeDll).monStopped = s.monStopped := rfl
@[simp] theorem State.freeDll_slot (s : State) : (s.freeDll).slot = s.slot := rfl
@[simp] theorem State.freeDll_cmdActive (s : State) : (s.freeDll).cmdActive = s.cmdActive := rfl
@[simp] theorem State.freeDll_arg0 (s : State) : (s.freeDll).arg0 = s.arg0 := rfl
@[simp] theorem State.freeDll_arg1 (s : State) : (s.freeDll).arg1 = s.arg1 := rfl
@[simp] theorem State.freeDll_result (s : State) : (s.freeDll).result = s.result := rfl
@[simp] theorem State.freeDll_err (s : State) : (s.freeDll).err = s.err := rfl
@[simp] theorem State.freeDll_errStep (s : State) : (s.freeDll).errStep = s.errStep := rfl
@[simp] theorem State.freeDll_errSig (s : State) : (s.freeDll).errSig = s.errSig := rfl
@[simp] theorem State.freeDll_errArg (s : State) : (s.freeDll).errArg = s.errArg := rfl
@[simp] theorem State.freeDll_errSnap (s : State) : (s.freeDll).errSnap = s.errSnap := rfl
@[simp] theorem State.freeDll_intStatus (s : State) : (s.freeDll).intStatus = s.intStatus := rfl
@[simp] theorem State.freeDll_intEnable (s : State) : (s.freeDll).intEnable = s.intEnable := rfl
@[simp] theorem State.freeDll_old (s : State) : (s.freeDll).old = s.old := rfl
@[simp] theorem State.freeDll_target (s : State) : (s.freeDll).target = s.target := rfl
@[simp] theorem State.freeDll_origin (s : State) : (s.freeDll).origin = s.origin := rfl
@[simp] theorem State.freeDll_attempt (s : State) : (s.freeDll).attempt = s.attempt := rfl
@[simp] theorem State.freeDll_sample (s : State) : (s.freeDll).sample = s.sample := rfl
@[simp] theorem State.freeDll_lastWord (s : State) : (s.freeDll).lastWord = s.lastWord := rfl
@[simp] theorem State.freeDll_env (s : State) : (s.freeDll).env = (s.outWrite .phy s.cfg.offDllCtrl (s.cfg.dllCtrl.word false s.pendingLock)).env := rfl

@[simp] theorem State.markLocked_cfg (s : State) : (s.markLocked).cfg = s.cfg := rfl
@[simp] theorem State.markLocked_step (s : State) : (s.markLocked).step = s.step := rfl
@[simp] theorem State.markLocked_lockOwner (s : State) : (s.markLocked).lockOwner = s.lockOwner := rfl
@[simp] theorem State.markLocked_currentLevel (s : State) : (s.markLocked).currentLevel = s.currentLevel := rfl
@[simp] theorem State.markLocked_currentVoltage (s : State) : (s.markLocked).currentVoltage = s.currentVoltage := rfl
@[simp] theorem State.markLocked_thermalOffset (s : State) : (s.markLocked).thermalOffset = s.thermalOffset := rfl
@[simp] theorem State.markLocked_dllForced (s : State) : (s.markLocked).dllForced = s.dllForced := rfl
@[simp] theorem State.markLocked_dllLocked (s : State) : (s.markLocked).dllLocked = true := rfl
@[simp] theorem State.markLocked_pendingLock (s : State) : (s.markLocked).pendingLock = s.pendingLock := rfl
@[simp] theorem State.markLocked_safePllLevel (s : State) : (s.markLocked).safePllLevel = s.safePllLevel := rfl
@[simp] theorem State.markLocked_pllCur (s : State) : (s.markLocked).pllCur = s.pllCur := rfl
@[simp] theorem State.markLocked_qosMin (s : State) : (s.markLocked).qosMin = s.qosMin := rfl
@[simp] theorem State.markLocked_qosMax (s : State) : (s.markLocked).qosMax = s.qosMax := rfl
@[simp] theorem State.markLocked_lastRequested (s : State) : (s.markLocked).lastRequested = s.lastRequested := rfl
@[simp] theorem State.markLocked_thermState (s : State) : (s.markLocked).thermState = s.thermState := rfl
@[simp] theorem State.markLocked_rankLevel (s : State) : (s.markLocked).rankLevel = s.rankLevel := rfl
@[simp] theorem State.markLocked_sampled (s : State) : (s.markLocked).sampled = s.sampled := rfl
@[simp] theorem State.markLocked_tickRemaining (s : State) : (s.markLocked).tickRemaining = s.tickRemaining := rfl
@[simp] theorem State.markLocked_tickPending (s : State) : (s.markLocked).tickPending = s.tickPending := rfl
@[simp] theorem State.markLocked_monStopped (s : State) : (s.markLocked).monStopped = s.monStopped := rfl
@[simp] theorem State.markLocked_slot (s : State) : (s.markLocked).slot = s.slot := rfl
@[simp] theorem State.markLocked_cmdActive (s : State) : (s.markLocked).cmdActive = s.cmdActive := rfl
@[simp] theorem State.markLocked_arg0 (s : State) : (s.markLocked).arg0 = s.arg0 := rfl
@[simp] theorem State.markLocked_arg1 (s : State) : (s.markLocked).arg1 = s.arg1 := rfl
@[simp] theorem State.markLocked_result (s : State) : (s.markLocked).result = s.result := rfl
@[simp] theorem State.markLocked_err (s : State) : (s.markLocked).err = s.err := rfl
@[simp] theorem State.markLocked_errStep (s : State) : (s.markLocked).errStep = s.errStep := rfl
@[simp] theorem State.markLocked_errSig (s : State) : (s.markLocked).errSig = s.errSig := rfl
@[simp] theorem State.markLocked_errArg (s : State) : (s.markLocked).errArg = s.errArg := rfl
@[simp] theorem State.markLocked_errSnap (s : State) : (s.markLocked).errSnap = s.errSnap := rfl
@[simp] theorem State.markLocked_intStatus (s : State) : (s.markLocked).intStatus = s.intStatus := rfl
@[simp] theorem State.markLocked_intEnable (s : State) : (s.markLocked).intEnable = s.intEnable := rfl
@[simp] theorem State.markLocked_old (s : State) : (s.markLocked).old = s.old := rfl
@[simp] theorem State.markLocked_target (s : State) : (s.markLocked).target = s.target := rfl
@[simp] theorem State.markLocked_origin (s : State) : (s.markLocked).origin = s.origin := rfl
@[simp] theorem State.markLocked_attempt (s : State) : (s.markLocked).attempt = s.attempt := rfl
@[simp] theorem State.markLocked_sample (s : State) : (s.markLocked).sample = s.sample := rfl
@[simp] theorem State.markLocked_lastWord (s : State) : (s.markLocked).lastWord = s.lastWord := rfl
@[simp] theorem State.markLocked_env (s : State) : (s.markLocked).env = s.env := rfl

@[simp] theorem State.keepLock_cfg (s : State) (w : Word) : (s.keepLock w).cfg = s.cfg := rfl
@[simp] theorem State.keepLock_step (s : State) (w : Word) : (s.keepLock w).step = s.step := rfl
@[simp] theorem State.keepLock_lockOwner (s : State) (w : Word) : (s.keepLock w).lockOwner = s.lockOwner := rfl
@[simp] theorem State.keepLock_currentLevel (s : State) (w : Word) : (s.keepLock w).currentLevel = s.currentLevel := rfl
@[simp] theorem State.keepLock_currentVoltage (s : State) (w : Word) : (s.keepLock w).currentVoltage = s.currentVoltage := rfl
@[simp] theorem State.keepLock_thermalOffset (s : State) (w : Word) : (s.keepLock w).thermalOffset = s.thermalOffset := rfl
@[simp] theorem State.keepLock_dllForced (s : State) (w : Word) : (s.keepLock w).dllForced = s.dllForced := rfl
@[simp] theorem State.keepLock_dllLocked (s : State) (w : Word) : (s.keepLock w).dllLocked = s.dllLocked := rfl
@[simp] theorem State.keepLock_pendingLock (s : State) (w : Word) : (s.keepLock w).pendingLock = lockField s.cfg w := rfl
@[simp] theorem State.keepLock_safePllLevel (s : State) (w : Word) : (s.keepLock w).safePllLevel = s.safePllLevel := rfl
@[simp] theorem State.keepLock_pllCur (s : State) (w : Word) : (s.keepLock w).pllCur = s.pllCur := rfl
@[simp] theorem State.keepLock_qosMin (s : State) (w : Word) : (s.keepLock w).qosMin = s.qosMin := rfl
@[simp] theorem State.keepLock_qosMax (s : State) (w : Word) : (s.keepLock w).qosMax = s.qosMax := rfl
@[simp] theorem State.keepLock_lastRequested (s : State) (w : Word) : (s.keepLock w).lastRequested = s.lastRequested := rfl
@[simp] theorem State.keepLock_thermState (s : State) (w : Word) : (s.keepLock w).thermState = s.thermState := rfl
@[simp] theorem State.keepLock_rankLevel (s : State) (w : Word) : (s.keepLock w).rankLevel = s.rankLevel := rfl
@[simp] theorem State.keepLock_sampled (s : State) (w : Word) : (s.keepLock w).sampled = s.sampled := rfl
@[simp] theorem State.keepLock_tickRemaining (s : State) (w : Word) : (s.keepLock w).tickRemaining = s.tickRemaining := rfl
@[simp] theorem State.keepLock_tickPending (s : State) (w : Word) : (s.keepLock w).tickPending = s.tickPending := rfl
@[simp] theorem State.keepLock_monStopped (s : State) (w : Word) : (s.keepLock w).monStopped = s.monStopped := rfl
@[simp] theorem State.keepLock_slot (s : State) (w : Word) : (s.keepLock w).slot = s.slot := rfl
@[simp] theorem State.keepLock_cmdActive (s : State) (w : Word) : (s.keepLock w).cmdActive = s.cmdActive := rfl
@[simp] theorem State.keepLock_arg0 (s : State) (w : Word) : (s.keepLock w).arg0 = s.arg0 := rfl
@[simp] theorem State.keepLock_arg1 (s : State) (w : Word) : (s.keepLock w).arg1 = s.arg1 := rfl
@[simp] theorem State.keepLock_result (s : State) (w : Word) : (s.keepLock w).result = s.result := rfl
@[simp] theorem State.keepLock_err (s : State) (w : Word) : (s.keepLock w).err = s.err := rfl
@[simp] theorem State.keepLock_errStep (s : State) (w : Word) : (s.keepLock w).errStep = s.errStep := rfl
@[simp] theorem State.keepLock_errSig (s : State) (w : Word) : (s.keepLock w).errSig = s.errSig := rfl
@[simp] theorem State.keepLock_errArg (s : State) (w : Word) : (s.keepLock w).errArg = s.errArg := rfl
@[simp] theorem State.keepLock_errSnap (s : State) (w : Word) : (s.keepLock w).errSnap = s.errSnap := rfl
@[simp] theorem State.keepLock_intStatus (s : State) (w : Word) : (s.keepLock w).intStatus = s.intStatus := rfl
@[simp] theorem State.keepLock_intEnable (s : State) (w : Word) : (s.keepLock w).intEnable = s.intEnable := rfl
@[simp] theorem State.keepLock_old (s : State) (w : Word) : (s.keepLock w).old = s.old := rfl
@[simp] theorem State.keepLock_target (s : State) (w : Word) : (s.keepLock w).target = s.target := rfl
@[simp] theorem State.keepLock_origin (s : State) (w : Word) : (s.keepLock w).origin = s.origin := rfl
@[simp] theorem State.keepLock_attempt (s : State) (w : Word) : (s.keepLock w).attempt = s.attempt := rfl
@[simp] theorem State.keepLock_sample (s : State) (w : Word) : (s.keepLock w).sample = s.sample := rfl
@[simp] theorem State.keepLock_lastWord (s : State) (w : Word) : (s.keepLock w).lastWord = s.lastWord := rfl
@[simp] theorem State.keepLock_env (s : State) (w : Word) : (s.keepLock w).env = s.env := rfl

@[simp] theorem State.issueClock_cfg (s : State) (first : Bool) (t : Level) (p : Prim) : (s.issueClock first t p).cfg = s.cfg := rfl
@[simp] theorem State.issueClock_step (s : State) (first : Bool) (t : Level) (p : Prim) : (s.issueClock first t p).step = s.step := rfl
@[simp] theorem State.issueClock_lockOwner (s : State) (first : Bool) (t : Level) (p : Prim) : (s.issueClock first t p).lockOwner = s.lockOwner := rfl
@[simp] theorem State.issueClock_currentLevel (s : State) (first : Bool) (t : Level) (p : Prim) : (s.issueClock first t p).currentLevel = if first then t else s.currentLevel := rfl
@[simp] theorem State.issueClock_currentVoltage (s : State) (first : Bool) (t : Level) (p : Prim) : (s.issueClock first t p).currentVoltage = s.currentVoltage := rfl
@[simp] theorem State.issueClock_thermalOffset (s : State) (first : Bool) (t : Level) (p : Prim) : (s.issueClock first t p).thermalOffset = s.thermalOffset := rfl
@[simp] theorem State.issueClock_dllForced (s : State) (first : Bool) (t : Level) (p : Prim) : (s.issueClock first t p).dllForced = s.dllForced := rfl
@[simp] theorem State.issueClock_dllLocked (s : State) (first : Bool) (t : Level) (p : Prim) : (s.issueClock first t p).dllLocked = s.dllLocked := rfl
@[simp] theorem State.issueClock_pendingLock (s : State) (first : Bool) (t : Level) (p : Prim) : (s.issueClock first t p).pendingLock = s.pendingLock := rfl
@[simp] theorem State.issueClock_safePllLevel (s : State) (first : Bool) (t : Level) (p : Prim) : (s.issueClock first t p).safePllLevel = s.safePllLevel := rfl
@[simp] theorem State.issueClock_pllCur (s : State) (first : Bool) (t : Level) (p : Prim) : (s.issueClock first t p).pllCur = s.pllCur := rfl
@[simp] theorem State.issueClock_qosMin (s : State) (first : Bool) (t : Level) (p : Prim) : (s.issueClock first t p).qosMin = s.qosMin := rfl
@[simp] theorem State.issueClock_qosMax (s : State) (first : Bool) (t : Level) (p : Prim) : (s.issueClock first t p).qosMax = s.qosMax := rfl
@[simp] theorem State.issueClock_lastRequested (s : State) (first : Bool) (t : Level) (p : Prim) : (s.issueClock first t p).lastRequested = s.lastRequested := rfl
@[simp] theorem State.issueClock_thermState (s : State) (first : Bool) (t : Level) (p : Prim) : (s.issueClock first t p).thermState = s.thermState := rfl
@[simp] theorem State.issueClock_rankLevel (s : State) (first : Bool) (t : Level) (p : Prim) : (s.issueClock first t p).rankLevel = s.rankLevel := rfl
@[simp] theorem State.issueClock_sampled (s : State) (first : Bool) (t : Level) (p : Prim) : (s.issueClock first t p).sampled = s.sampled := rfl
@[simp] theorem State.issueClock_tickRemaining (s : State) (first : Bool) (t : Level) (p : Prim) : (s.issueClock first t p).tickRemaining = s.tickRemaining := rfl
@[simp] theorem State.issueClock_tickPending (s : State) (first : Bool) (t : Level) (p : Prim) : (s.issueClock first t p).tickPending = s.tickPending := rfl
@[simp] theorem State.issueClock_monStopped (s : State) (first : Bool) (t : Level) (p : Prim) : (s.issueClock first t p).monStopped = s.monStopped := rfl
@[simp] theorem State.issueClock_slot (s : State) (first : Bool) (t : Level) (p : Prim) : (s.issueClock first t p).slot = s.slot := rfl
@[simp] theorem State.issueClock_cmdActive (s : State) (first : Bool) (t : Level) (p : Prim) : (s.issueClock first t p).cmdActive = s.cmdActive := rfl
@[simp] theorem State.issueClock_arg0 (s : State) (first : Bool) (t : Level) (p : Prim) : (s.issueClock first t p).arg0 = s.arg0 := rfl
@[simp] theorem State.issueClock_arg1 (s : State) (first : Bool) (t : Level) (p : Prim) : (s.issueClock first t p).arg1 = s.arg1 := rfl
@[simp] theorem State.issueClock_result (s : State) (first : Bool) (t : Level) (p : Prim) : (s.issueClock first t p).result = s.result := rfl
@[simp] theorem State.issueClock_err (s : State) (first : Bool) (t : Level) (p : Prim) : (s.issueClock first t p).err = s.err := rfl
@[simp] theorem State.issueClock_errStep (s : State) (first : Bool) (t : Level) (p : Prim) : (s.issueClock first t p).errStep = s.errStep := rfl
@[simp] theorem State.issueClock_errSig (s : State) (first : Bool) (t : Level) (p : Prim) : (s.issueClock first t p).errSig = s.errSig := rfl
@[simp] theorem State.issueClock_errArg (s : State) (first : Bool) (t : Level) (p : Prim) : (s.issueClock first t p).errArg = s.errArg := rfl
@[simp] theorem State.issueClock_errSnap (s : State) (first : Bool) (t : Level) (p : Prim) : (s.issueClock first t p).errSnap = s.errSnap := rfl
@[simp] theorem State.issueClock_intStatus (s : State) (first : Bool) (t : Level) (p : Prim) : (s.issueClock first t p).intStatus = s.intStatus := rfl
@[simp] theorem State.issueClock_intEnable (s : State) (first : Bool) (t : Level) (p : Prim) : (s.issueClock first t p).intEnable = s.intEnable := rfl
@[simp] theorem State.issueClock_old (s : State) (first : Bool) (t : Level) (p : Prim) : (s.issueClock first t p).old = s.old := rfl
@[simp] theorem State.issueClock_target (s : State) (first : Bool) (t : Level) (p : Prim) : (s.issueClock first t p).target = s.target := rfl
@[simp] theorem State.issueClock_origin (s : State) (first : Bool) (t : Level) (p : Prim) : (s.issueClock first t p).origin = s.origin := rfl
@[simp] theorem State.issueClock_attempt (s : State) (first : Bool) (t : Level) (p : Prim) : (s.issueClock first t p).attempt = s.attempt := rfl
@[simp] theorem State.issueClock_sample (s : State) (first : Bool) (t : Level) (p : Prim) : (s.issueClock first t p).sample = s.sample := rfl
@[simp] theorem State.issueClock_lastWord (s : State) (first : Bool) (t : Level) (p : Prim) : (s.issueClock first t p).lastWord = s.lastWord := rfl
@[simp] theorem State.issueClock_env (s : State) (first : Bool) (t : Level) (p : Prim) : (s.issueClock first t p).env = (s.record (.call p)).env := rfl

@[simp] theorem State.issueSafeMux_cfg (s : State) : (s.issueSafeMux).cfg = s.cfg := rfl
@[simp] theorem State.issueSafeMux_step (s : State) : (s.issueSafeMux).step = s.step := rfl
@[simp] theorem State.issueSafeMux_lockOwner (s : State) : (s.issueSafeMux).lockOwner = s.lockOwner := rfl
@[simp] theorem State.issueSafeMux_currentLevel (s : State) : (s.issueSafeMux).currentLevel = s.cfg.safeLevel := rfl
@[simp] theorem State.issueSafeMux_currentVoltage (s : State) : (s.issueSafeMux).currentVoltage = s.currentVoltage := rfl
@[simp] theorem State.issueSafeMux_thermalOffset (s : State) : (s.issueSafeMux).thermalOffset = s.thermalOffset := rfl
@[simp] theorem State.issueSafeMux_dllForced (s : State) : (s.issueSafeMux).dllForced = s.dllForced := rfl
@[simp] theorem State.issueSafeMux_dllLocked (s : State) : (s.issueSafeMux).dllLocked = s.dllLocked := rfl
@[simp] theorem State.issueSafeMux_pendingLock (s : State) : (s.issueSafeMux).pendingLock = s.pendingLock := rfl
@[simp] theorem State.issueSafeMux_safePllLevel (s : State) : (s.issueSafeMux).safePllLevel = s.safePllLevel := rfl
@[simp] theorem State.issueSafeMux_pllCur (s : State) : (s.issueSafeMux).pllCur = s.pllCur := rfl
@[simp] theorem State.issueSafeMux_qosMin (s : State) : (s.issueSafeMux).qosMin = s.qosMin := rfl
@[simp] theorem State.issueSafeMux_qosMax (s : State) : (s.issueSafeMux).qosMax = s.qosMax := rfl
@[simp] theorem State.issueSafeMux_lastRequested (s : State) : (s.issueSafeMux).lastRequested = s.lastRequested := rfl
@[simp] theorem State.issueSafeMux_thermState (s : State) : (s.issueSafeMux).thermState = s.thermState := rfl
@[simp] theorem State.issueSafeMux_rankLevel (s : State) : (s.issueSafeMux).rankLevel = s.rankLevel := rfl
@[simp] theorem State.issueSafeMux_sampled (s : State) : (s.issueSafeMux).sampled = s.sampled := rfl
@[simp] theorem State.issueSafeMux_tickRemaining (s : State) : (s.issueSafeMux).tickRemaining = s.tickRemaining := rfl
@[simp] theorem State.issueSafeMux_tickPending (s : State) : (s.issueSafeMux).tickPending = s.tickPending := rfl
@[simp] theorem State.issueSafeMux_monStopped (s : State) : (s.issueSafeMux).monStopped = s.monStopped := rfl
@[simp] theorem State.issueSafeMux_slot (s : State) : (s.issueSafeMux).slot = s.slot := rfl
@[simp] theorem State.issueSafeMux_cmdActive (s : State) : (s.issueSafeMux).cmdActive = s.cmdActive := rfl
@[simp] theorem State.issueSafeMux_arg0 (s : State) : (s.issueSafeMux).arg0 = s.arg0 := rfl
@[simp] theorem State.issueSafeMux_arg1 (s : State) : (s.issueSafeMux).arg1 = s.arg1 := rfl
@[simp] theorem State.issueSafeMux_result (s : State) : (s.issueSafeMux).result = s.result := rfl
@[simp] theorem State.issueSafeMux_err (s : State) : (s.issueSafeMux).err = s.err := rfl
@[simp] theorem State.issueSafeMux_errStep (s : State) : (s.issueSafeMux).errStep = s.errStep := rfl
@[simp] theorem State.issueSafeMux_errSig (s : State) : (s.issueSafeMux).errSig = s.errSig := rfl
@[simp] theorem State.issueSafeMux_errArg (s : State) : (s.issueSafeMux).errArg = s.errArg := rfl
@[simp] theorem State.issueSafeMux_errSnap (s : State) : (s.issueSafeMux).errSnap = s.errSnap := rfl
@[simp] theorem State.issueSafeMux_intStatus (s : State) : (s.issueSafeMux).intStatus = s.intStatus := rfl
@[simp] theorem State.issueSafeMux_intEnable (s : State) : (s.issueSafeMux).intEnable = s.intEnable := rfl
@[simp] theorem State.issueSafeMux_old (s : State) : (s.issueSafeMux).old = s.old := rfl
@[simp] theorem State.issueSafeMux_target (s : State) : (s.issueSafeMux).target = s.target := rfl
@[simp] theorem State.issueSafeMux_origin (s : State) : (s.issueSafeMux).origin = s.origin := rfl
@[simp] theorem State.issueSafeMux_attempt (s : State) : (s.issueSafeMux).attempt = s.attempt := rfl
@[simp] theorem State.issueSafeMux_sample (s : State) : (s.issueSafeMux).sample = s.sample := rfl
@[simp] theorem State.issueSafeMux_lastWord (s : State) : (s.issueSafeMux).lastWord = s.lastWord := rfl
@[simp] theorem State.issueSafeMux_env (s : State) : (s.issueSafeMux).env = (s.record (.call (.setMuxParent s.cfg.primaryMux s.cfg.safeSrc))).env := rfl

@[simp] theorem State.issuePll_cfg (s : State) (t : Level) : (s.issuePll t).cfg = s.cfg := rfl
@[simp] theorem State.issuePll_step (s : State) (t : Level) : (s.issuePll t).step = s.step := rfl
@[simp] theorem State.issuePll_lockOwner (s : State) (t : Level) : (s.issuePll t).lockOwner = s.lockOwner := rfl
@[simp] theorem State.issuePll_currentLevel (s : State) (t : Level) : (s.issuePll t).currentLevel = s.currentLevel := rfl
@[simp] theorem State.issuePll_currentVoltage (s : State) (t : Level) : (s.issuePll t).currentVoltage = s.currentVoltage := rfl
@[simp] theorem State.issuePll_thermalOffset (s : State) (t : Level) : (s.issuePll t).thermalOffset = s.thermalOffset := rfl
@[simp] theorem State.issuePll_dllForced (s : State) (t : Level) : (s.issuePll t).dllForced = s.dllForced := rfl
@[simp] theorem State.issuePll_dllLocked (s : State) (t : Level) : (s.issuePll t).dllLocked = s.dllLocked := rfl
@[simp] theorem State.issuePll_pendingLock (s : State) (t : Level) : (s.issuePll t).pendingLock = s.pendingLock := rfl
@[simp] theorem State.issuePll_safePllLevel (s : State) (t : Level) : (s.issuePll t).safePllLevel = s.safePllLevel := rfl
@[simp] theorem State.issuePll_pllCur (s : State) (t : Level) : (s.issuePll t).pllCur = s.cfg.pllAt t := rfl
@[simp] theorem State.issuePll_qosMin (s : State) (t : Level) : (s.issuePll t).qosMin = s.qosMin := rfl
@[simp] theorem State.issuePll_qosMax (s : State) (t : Level) : (s.issuePll t).qosMax = s.qosMax := rfl
@[simp] theorem State.issuePll_lastRequested (s : State) (t : Level) : (s.issuePll t).lastRequested = s.lastRequested := rfl
@[simp] theorem State.issuePll_thermState (s : State) (t : Level) : (s.issuePll t).thermState = s.thermState := rfl
@[simp] theorem State.issuePll_rankLevel (s : State) (t : Level) : (s.issuePll t).rankLevel = s.rankLevel := rfl
@[simp] theorem State.issuePll_sampled (s : State) (t : Level) : (s.issuePll t).sampled = s.sampled := rfl
@[simp] theorem State.issuePll_tickRemaining (s : State) (t : Level) : (s.issuePll t).tickRemaining = s.tickRemaining := rfl
@[simp] theorem State.issuePll_tickPending (s : State) (t : Level) : (s.issuePll t).tickPending = s.tickPending := rfl
@[simp] theorem State.issuePll_monStopped (s : State) (t : Level) : (s.issuePll t).monStopped = s.monStopped := rfl
@[simp] theorem State.issuePll_slot (s : State) (t : Level) : (s.issuePll t).slot = s.slot := rfl
@[simp] theorem State.issuePll_cmdActive (s : State) (t : Level) : (s.issuePll t).cmdActive = s.cmdActive := rfl
@[simp] theorem State.issuePll_arg0 (s : State) (t : Level) : (s.issuePll t).arg0 = s.arg0 := rfl
@[simp] theorem State.issuePll_arg1 (s : State) (t : Level) : (s.issuePll t).arg1 = s.arg1 := rfl
@[simp] theorem State.issuePll_result (s : State) (t : Level) : (s.issuePll t).result = s.result := rfl
@[simp] theorem State.issuePll_err (s : State) (t : Level) : (s.issuePll t).err = s.err := rfl
@[simp] theorem State.issuePll_errStep (s : State) (t : Level) : (s.issuePll t).errStep = s.errStep := rfl
@[simp] theorem State.issuePll_errSig (s : State) (t : Level) : (s.issuePll t).errSig = s.errSig := rfl
@[simp] theorem State.issuePll_errArg (s : State) (t : Level) : (s.issuePll t).errArg = s.errArg := rfl
@[simp] theorem State.issuePll_errSnap (s : State) (t : Level) : (s.issuePll t).errSnap = s.errSnap := rfl
@[simp] theorem State.issuePll_intStatus (s : State) (t : Level) : (s.issuePll t).intStatus = s.intStatus := rfl
@[simp] theorem State.issuePll_intEnable (s : State) (t : Level) : (s.issuePll t).intEnable = s.intEnable := rfl
@[simp] theorem State.issuePll_old (s : State) (t : Level) : (s.issuePll t).old = s.old := rfl
@[simp] theorem State.issuePll_target (s : State) (t : Level) : (s.issuePll t).target = s.target := rfl
@[simp] theorem State.issuePll_origin (s : State) (t : Level) : (s.issuePll t).origin = s.origin := rfl
@[simp] theorem State.issuePll_attempt (s : State) (t : Level) : (s.issuePll t).attempt = s.attempt := rfl
@[simp] theorem State.issuePll_sample (s : State) (t : Level) : (s.issuePll t).sample = s.sample := rfl
@[simp] theorem State.issuePll_lastWord (s : State) (t : Level) : (s.issuePll t).lastWord = s.lastWord := rfl
@[simp] theorem State.issuePll_env (s : State) (t : Level) : (s.issuePll t).env = (s.record (.call (.setPllRate s.cfg.pllId (s.cfg.pllAt t)))).env := rfl

@[simp] theorem State.issueTargetMux_cfg (s : State) (t : Level) : (s.issueTargetMux t).cfg = s.cfg := rfl
@[simp] theorem State.issueTargetMux_step (s : State) (t : Level) : (s.issueTargetMux t).step = s.step := rfl
@[simp] theorem State.issueTargetMux_lockOwner (s : State) (t : Level) : (s.issueTargetMux t).lockOwner = s.lockOwner := rfl
@[simp] theorem State.issueTargetMux_currentLevel (s : State) (t : Level) : (s.issueTargetMux t).currentLevel = t := rfl
@[simp] theorem State.issueTargetMux_currentVoltage (s : State) (t : Level) : (s.issueTargetMux t).currentVoltage = s.currentVoltage := rfl
@[simp] theorem State.issueTargetMux_thermalOffset (s : State) (t : Level) : (s.issueTargetMux t).thermalOffset = s.thermalOffset := rfl
@[simp] theorem State.issueTargetMux_dllForced (s : State) (t : Level) : (s.issueTargetMux t).dllForced = s.dllForced := rfl
@[simp] theorem State.issueTargetMux_dllLocked (s : State) (t : Level) : (s.issueTargetMux t).dllLocked = s.dllLocked := rfl
@[simp] theorem State.issueTargetMux_pendingLock (s : State) (t : Level) : (s.issueTargetMux t).pendingLock = s.pendingLock := rfl
@[simp] theorem State.issueTargetMux_safePllLevel (s : State) (t : Level) : (s.issueTargetMux t).safePllLevel = s.safePllLevel := rfl
@[simp] theorem State.issueTargetMux_pllCur (s : State) (t : Level) : (s.issueTargetMux t).pllCur = s.pllCur := rfl
@[simp] theorem State.issueTargetMux_qosMin (s : State) (t : Level) : (s.issueTargetMux t).qosMin = s.qosMin := rfl
@[simp] theorem State.issueTargetMux_qosMax (s : State) (t : Level) : (s.issueTargetMux t).qosMax = s.qosMax := rfl
@[simp] theorem State.issueTargetMux_lastRequested (s : State) (t : Level) : (s.issueTargetMux t).lastRequested = s.lastRequested := rfl
@[simp] theorem State.issueTargetMux_thermState (s : State) (t : Level) : (s.issueTargetMux t).thermState = s.thermState := rfl
@[simp] theorem State.issueTargetMux_rankLevel (s : State) (t : Level) : (s.issueTargetMux t).rankLevel = s.rankLevel := rfl
@[simp] theorem State.issueTargetMux_sampled (s : State) (t : Level) : (s.issueTargetMux t).sampled = s.sampled := rfl
@[simp] theorem State.issueTargetMux_tickRemaining (s : State) (t : Level) : (s.issueTargetMux t).tickRemaining = s.tickRemaining := rfl
@[simp] theorem State.issueTargetMux_tickPending (s : State) (t : Level) : (s.issueTargetMux t).tickPending = s.tickPending := rfl
@[simp] theorem State.issueTargetMux_monStopped (s : State) (t : Level) : (s.issueTargetMux t).monStopped = s.monStopped := rfl
@[simp] theorem State.issueTargetMux_slot (s : State) (t : Level) : (s.issueTargetMux t).slot = s.slot := rfl
@[simp] theorem State.issueTargetMux_cmdActive (s : State) (t : Level) : (s.issueTargetMux t).cmdActive = s.cmdActive := rfl
@[simp] theorem State.issueTargetMux_arg0 (s : State) (t : Level) : (s.issueTargetMux t).arg0 = s.arg0 := rfl
@[simp] theorem State.issueTargetMux_arg1 (s : State) (t : Level) : (s.issueTargetMux t).arg1 = s.arg1 := rfl
@[simp] theorem State.issueTargetMux_result (s : State) (t : Level) : (s.issueTargetMux t).result = s.result := rfl
@[simp] theorem State.issueTargetMux_err (s : State) (t : Level) : (s.issueTargetMux t).err = s.err := rfl
@[simp] theorem State.issueTargetMux_errStep (s : State) (t : Level) : (s.issueTargetMux t).errStep = s.errStep := rfl
@[simp] theorem State.issueTargetMux_errSig (s : State) (t : Level) : (s.issueTargetMux t).errSig = s.errSig := rfl
@[simp] theorem State.issueTargetMux_errArg (s : State) (t : Level) : (s.issueTargetMux t).errArg = s.errArg := rfl
@[simp] theorem State.issueTargetMux_errSnap (s : State) (t : Level) : (s.issueTargetMux t).errSnap = s.errSnap := rfl
@[simp] theorem State.issueTargetMux_intStatus (s : State) (t : Level) : (s.issueTargetMux t).intStatus = s.intStatus := rfl
@[simp] theorem State.issueTargetMux_intEnable (s : State) (t : Level) : (s.issueTargetMux t).intEnable = s.intEnable := rfl
@[simp] theorem State.issueTargetMux_old (s : State) (t : Level) : (s.issueTargetMux t).old = s.old := rfl
@[simp] theorem State.issueTargetMux_target (s : State) (t : Level) : (s.issueTargetMux t).target = s.target := rfl
@[simp] theorem State.issueTargetMux_origin (s : State) (t : Level) : (s.issueTargetMux t).origin = s.origin := rfl
@[simp] theorem State.issueTargetMux_attempt (s : State) (t : Level) : (s.issueTargetMux t).attempt = s.attempt := rfl
@[simp] theorem State.issueTargetMux_sample (s : State) (t : Level) : (s.issueTargetMux t).sample = s.sample := rfl
@[simp] theorem State.issueTargetMux_lastWord (s : State) (t : Level) : (s.issueTargetMux t).lastWord = s.lastWord := rfl
@[simp] theorem State.issueTargetMux_env (s : State) (t : Level) : (s.issueTargetMux t).env = (s.record (.call (.setMuxParent s.cfg.primaryMux s.cfg.pllSrc))).env := rfl

@[simp] theorem State.writeAref_cfg (s : State) : (s.writeAref).cfg = s.cfg := rfl
@[simp] theorem State.writeAref_step (s : State) : (s.writeAref).step = s.step := rfl
@[simp] theorem State.writeAref_lockOwner (s : State) : (s.writeAref).lockOwner = s.lockOwner := rfl
@[simp] theorem State.writeAref_currentLevel (s : State) : (s.writeAref).currentLevel = s.currentLevel := rfl
@[simp] theorem State.writeAref_currentVoltage (s : State) : (s.writeAref).currentVoltage = s.currentVoltage := rfl
@[simp] theorem State.writeAref_thermalOffset (s : State) : (s.writeAref).thermalOffset = s.thermalOffset := rfl
@[simp] theorem State.writeAref_dllForced (s : State) : (s.writeAref).dllForced = s.dllForced := rfl
@[simp] theorem State.writeAref_dllLocked (s : State) : (s.writeAref).dllLocked = s.dllLocked := rfl
@[simp] theorem State.writeAref_pendingLock (s : State) : (s.writeAref).pendingLock = s.pendingLock := rfl
@[simp] theorem State.writeAref_safePllLevel (s : State) : (s.writeAref).safePllLevel = s.safePllLevel := rfl
@[simp] theorem State.writeAref_pllCur (s : State) : (s.writeAref).pllCur = s.pllCur := rfl
@[simp] theorem State.writeAref_qosMin (s : State) : (s.writeAref).qosMin = s.qosMin := rfl
@[simp] theorem State.writeAref_qosMax (s : State) : (s.writeAref).qosMax = s.qosMax := rfl
@[simp] theorem State.writeAref_lastRequested (s : State) : (s.writeAref).lastRequested = s.lastRequested := rfl
@[simp] theorem State.writeAref_thermState (s : State) : (s.writeAref).thermState = s.thermState := rfl
@[simp] theorem State.writeAref_rankLevel (s : State) : (s.writeAref).rankLevel = s.rankLevel := rfl
@[simp] theorem State.writeAref_sampled (s : State) : (s.writeAref).sampled = s.sampled := rfl
@[simp] theorem State.writeAref_tickRemaining (s : State) : (s.writeAref).tickRemaining = s.tickRemaining := rfl
@[simp] theorem State.writeAref_tickPending (s : State) : (s.writeAref).tickPending = s.tickPending := rfl
@[simp] theorem State.writeAref_monStopped (s : State) : (s.writeAref).monStopped = s.monStopped := rfl
@[simp] theorem State.writeAref_slot (s : State) : (s.writeAref).slot = s.slot := rfl
@[simp] theorem State.writeAref_cmdActive (s : State) : (s.writeAref).cmdActive = s.cmdActive := rfl
@[simp] theorem State.writeAref_arg0 (s : State) : (s.writeAref).arg0 = s.arg0 := rfl
@[simp] theorem State.writeAref_arg1 (s : State) : (s.writeAref).arg1 = s.arg1 := rfl
@[simp] theorem State.writeAref_result (s : State) : (s.writeAref).result = s.result := rfl
@[simp] theorem State.writeAref_err (s : State) : (s.writeAref).err = s.err := rfl
@[simp] theorem State.writeAref_errStep (s : State) : (s.writeAref).errStep = s.errStep := rfl
@[simp] theorem State.writeAref_errSig (s : State) : (s.writeAref).errSig = s.errSig := rfl
@[simp] theorem State.writeAref_errArg (s : State) : (s.writeAref).errArg = s.errArg := rfl
@[simp] theorem State.writeAref_errSnap (s : State) : (s.writeAref).errSnap = s.errSnap := rfl
@[simp] theorem State.writeAref_intStatus (s : State) : (s.writeAref).intStatus = s.intStatus := rfl
@[simp] theorem State.writeAref_intEnable (s : State) : (s.writeAref).intEnable = s.intEnable := rfl
@[simp] theorem State.writeAref_old (s : State) : (s.writeAref).old = s.old := rfl
@[simp] theorem State.writeAref_target (s : State) : (s.writeAref).target = s.target := rfl
@[simp] theorem State.writeAref_origin (s : State) : (s.writeAref).origin = s.origin := rfl
@[simp] theorem State.writeAref_attempt (s : State) : (s.writeAref).attempt = s.attempt := rfl
@[simp] theorem State.writeAref_sample (s : State) : (s.writeAref).sample = s.sample := rfl
@[simp] theorem State.writeAref_lastWord (s : State) : (s.writeAref).lastWord = s.lastWord := rfl
@[simp] theorem State.writeAref_env (s : State) : (s.writeAref).env = (s.outWrite .drex s.cfg.offAref (s.cfg.arefAt s.currentLevel s.thermState)).env := rfl

@[simp] theorem State.beginBody_cfg (s : State) (t : Level) (o : Origin) : (s.beginBody t o).cfg = s.cfg := rfl
@[simp] theorem State.beginBody_step (s : State) (t : Level) (o : Origin) : (s.beginBody t o).step = s.step := rfl
@[simp] theorem State.beginBody_lockOwner (s : State) (t : Level) (o : Origin) : (s.beginBody t o).lockOwner = s.lockOwner := rfl
@[simp] theorem State.beginBody_currentLevel (s : State) (t : Level) (o : Origin) : (s.beginBody t o).currentLevel = s.currentLevel := rfl
@[simp] theorem State.beginBody_currentVoltage (s : State) (t : Level) (o : Origin) : (s.beginBody t o).currentVoltage = s.currentVoltage := rfl
@[simp] theorem State.beginBody_thermalOffset (s : State) (t : Level) (o : Origin) : (s.beginBody t o).thermalOffset = s.thermalOffset := rfl
@[simp] theorem State.beginBody_dllForced (s : State) (t : Level) (o : Origin) : (s.beginBody t o).dllForced = s.dllForced := rfl
@[simp] theorem State.beginBody_dllLocked (s : State) (t : Level) (o : Origin) : (s.beginBody t o).dllLocked = s.dllLocked := rfl
@[simp] theorem State.beginBody_pendingLock (s : State) (t : Level) (o : Origin) : (s.beginBody t o).pendingLock = s.pendingLock := rfl
@[simp] theorem State.beginBody_safePllLevel (s : State) (t : Level) (o : Origin) : (s.beginBody t o).safePllLevel = s.safePllLevel := rfl
@[simp] theorem State.beginBody_pllCur (s : State) (t : Level) (o : Origin) : (s.beginBody t o).pllCur = s.pllCur := rfl
@[simp] theorem State.beginBody_qosMin (s : State) (t : Level) (o : Origin) : (s.beginBody t o).qosMin = s.qosMin := rfl
@[simp] theorem State.beginBody_qosMax (s : State) (t : Level) (o : Origin) : (s.beginBody t o).qosMax = s.qosMax := rfl
@[simp] theorem State.beginBody_lastRequested (s : State) (t : Level) (o : Origin) : (s.beginBody t o).lastRequested = s.lastRequested := rfl
@[simp] theorem State.beginBody_thermState (s : State) (t : Level) (o : Origin) : (s.beginBody t o).thermState = s.thermState := rfl
@[simp] theorem State.beginBody_rankLevel (s : State) (t : Level) (o : Origin) : (s.beginBody t o).rankLevel = s.rankLevel := rfl
@[simp] theorem State.beginBody_sampled (s : State) (t : Level) (o : Origin) : (s.beginBody t o).sampled = s.sampled := rfl
@[simp] theorem State.beginBody_tickRemaining (s : State) (t : Level) (o : Origin) : (s.beginBody t o).tickRemaining = s.tickRemaining := rfl
@[simp] theorem State.beginBody_tickPending (s : State) (t : Level) (o : Origin) : (s.beginBody t o).tickPending = s.tickPending := rfl
@[simp] theorem State.beginBody_monStopped (s : State) (t : Level) (o : Origin) : (s.beginBody t o).monStopped = s.monStopped := rfl
@[simp] theorem State.beginBody_slot (s : State) (t : Level) (o : Origin) : (s.beginBody t o).slot = s.slot := rfl
@[simp] theorem State.beginBody_cmdActive (s : State) (t : Level) (o : Origin) : (s.beginBody t o).cmdActive = s.cmdActive := rfl
@[simp] theorem State.beginBody_arg0 (s : State) (t : Level) (o : Origin) : (s.beginBody t o).arg0 = s.arg0 := rfl
@[simp] theorem State.beginBody_arg1 (s : State) (t : Level) (o : Origin) : (s.beginBody t o).arg1 = s.arg1 := rfl
@[simp] theorem State.beginBody_result (s : State) (t : Level) (o : Origin) : (s.beginBody t o).result = s.result := rfl
@[simp] theorem State.beginBody_err (s : State) (t : Level) (o : Origin) : (s.beginBody t o).err = s.err := rfl
@[simp] theorem State.beginBody_errStep (s : State) (t : Level) (o : Origin) : (s.beginBody t o).errStep = s.errStep := rfl
@[simp] theorem State.beginBody_errSig (s : State) (t : Level) (o : Origin) : (s.beginBody t o).errSig = s.errSig := rfl
@[simp] theorem State.beginBody_errArg (s : State) (t : Level) (o : Origin) : (s.beginBody t o).errArg = s.errArg := rfl
@[simp] theorem State.beginBody_errSnap (s : State) (t : Level) (o : Origin) : (s.beginBody t o).errSnap = s.errSnap := rfl
@[simp] theorem State.beginBody_intStatus (s : State) (t : Level) (o : Origin) : (s.beginBody t o).intStatus = s.intStatus := rfl
@[simp] theorem State.beginBody_intEnable (s : State) (t : Level) (o : Origin) : (s.beginBody t o).intEnable = s.intEnable := rfl
@[simp] theorem State.beginBody_old (s : State) (t : Level) (o : Origin) : (s.beginBody t o).old = s.currentLevel := rfl
@[simp] theorem State.beginBody_target (s : State) (t : Level) (o : Origin) : (s.beginBody t o).target = t := rfl
@[simp] theorem State.beginBody_origin (s : State) (t : Level) (o : Origin) : (s.beginBody t o).origin = o := rfl
@[simp] theorem State.beginBody_attempt (s : State) (t : Level) (o : Origin) : (s.beginBody t o).attempt = s.attempt := rfl
@[simp] theorem State.beginBody_sample (s : State) (t : Level) (o : Origin) : (s.beginBody t o).sample = s.sample := rfl
@[simp] theorem State.beginBody_lastWord (s : State) (t : Level) (o : Origin) : (s.beginBody t o).lastWord = s.lastWord := rfl
@[simp] theorem State.beginBody_env (s : State) (t : Level) (o : Origin) : (s.beginBody t o).env = s.env := rfl

@[simp] theorem State.takeCommand_cfg (s : State) : (s.takeCommand).cfg = s.cfg := rfl
@[simp] theorem State.takeCommand_step (s : State) : (s.takeCommand).step = .cmdDecode := rfl
@[simp] theorem State.takeCommand_lockOwner (s : State) : (s.takeCommand).lockOwner = .cmd := rfl
@[simp] theorem State.takeCommand_currentLevel (s : State) : (s.takeCommand).currentLevel = s.currentLevel := rfl
@[simp] theorem State.takeCommand_currentVoltage (s : State) : (s.takeCommand).currentVoltage = s.currentVoltage := rfl
@[simp] theorem State.takeCommand_thermalOffset (s : State) : (s.takeCommand).thermalOffset = s.thermalOffset := rfl
@[simp] theorem State.takeCommand_dllForced (s : State) : (s.takeCommand).dllForced = s.dllForced := rfl
@[simp] theorem State.takeCommand_dllLocked (s : State) : (s.takeCommand).dllLocked = s.dllLocked := rfl
@[simp] theorem State.takeCommand_pendingLock (s : State) : (s.takeCommand).pendingLock = s.pendingLock := rfl
@[simp] theorem State.takeCommand_safePllLevel (s : State) : (s.takeCommand).safePllLevel = s.safePllLevel := rfl
@[simp] theorem State.takeCommand_pllCur (s : State) : (s.takeCommand).pllCur = s.pllCur := rfl
@[simp] theorem State.takeCommand_qosMin (s : State) : (s.takeCommand).qosMin = s.qosMin := rfl
@[simp] theorem State.takeCommand_qosMax (s : State) : (s.takeCommand).qosMax = s.qosMax := rfl
@[simp] theorem State.takeCommand_lastRequested (s : State) : (s.takeCommand).lastRequested = s.lastRequested := rfl
@[simp] theorem State.takeCommand_thermState (s : State) : (s.takeCommand).thermState = s.thermState := rfl
@[simp] theorem State.takeCommand_rankLevel (s : State) : (s.takeCommand).rankLevel = s.rankLevel := rfl
@[simp] theorem State.takeCommand_sampled (s : State) : (s.takeCommand).sampled = s.sampled := rfl
@[simp] theorem State.takeCommand_tickRemaining (s : State) : (s.takeCommand).tickRemaining = s.tickRemaining := rfl
@[simp] theorem State.takeCommand_tickPending (s : State) : (s.takeCommand).tickPending = s.tickPending := rfl
@[simp] theorem State.takeCommand_monStopped (s : State) : (s.takeCommand).monStopped = s.monStopped := rfl
@[simp] theorem State.takeCommand_slot (s : State) : (s.takeCommand).slot = none := rfl
@[simp] theorem State.takeCommand_cmdActive (s : State) : (s.takeCommand).cmdActive = true := rfl
@[simp] theorem State.takeCommand_arg0 (s : State) : (s.takeCommand).arg0 = s.arg0 := rfl
@[simp] theorem State.takeCommand_arg1 (s : State) : (s.takeCommand).arg1 = s.arg1 := rfl
@[simp] theorem State.takeCommand_result (s : State) : (s.takeCommand).result = s.result := rfl
@[simp] theorem State.takeCommand_err (s : State) : (s.takeCommand).err = s.err := rfl
@[simp] theorem State.takeCommand_errStep (s : State) : (s.takeCommand).errStep = s.errStep := rfl
@[simp] theorem State.takeCommand_errSig (s : State) : (s.takeCommand).errSig = s.errSig := rfl
@[simp] theorem State.takeCommand_errArg (s : State) : (s.takeCommand).errArg = s.errArg := rfl
@[simp] theorem State.takeCommand_errSnap (s : State) : (s.takeCommand).errSnap = s.errSnap := rfl
@[simp] theorem State.takeCommand_intStatus (s : State) : (s.takeCommand).intStatus = s.intStatus := rfl
@[simp] theorem State.takeCommand_intEnable (s : State) : (s.takeCommand).intEnable = s.intEnable := rfl
@[simp] theorem State.takeCommand_old (s : State) : (s.takeCommand).old = s.old := rfl
@[simp] theorem State.takeCommand_target (s : State) : (s.takeCommand).target = s.target := rfl
@[simp] theorem State.takeCommand_origin (s : State) : (s.takeCommand).origin = s.origin := rfl
@[simp] theorem State.takeCommand_attempt (s : State) : (s.takeCommand).attempt = s.attempt := rfl
@[simp] theorem State.takeCommand_sample (s : State) : (s.takeCommand).sample = s.sample := rfl
@[simp] theorem State.takeCommand_lastWord (s : State) : (s.takeCommand).lastWord = s.lastWord := rfl
@[simp] theorem State.takeCommand_env (s : State) : (s.takeCommand).env = s.env := rfl

@[simp] theorem State.takeTick_cfg (s : State) : (s.takeTick).cfg = s.cfg := rfl
@[simp] theorem State.takeTick_step (s : State) : (s.takeTick).step = .monSample := rfl
@[simp] theorem State.takeTick_lockOwner (s : State) : (s.takeTick).lockOwner = .tick := rfl
@[simp] theorem State.takeTick_currentLevel (s : State) : (s.takeTick).currentLevel = s.currentLevel := rfl
@[simp] theorem State.takeTick_currentVoltage (s : State) : (s.takeTick).currentVoltage = s.currentVoltage := rfl
@[simp] theorem State.takeTick_thermalOffset (s : State) : (s.takeTick).thermalOffset = s.thermalOffset := rfl
@[simp] theorem State.takeTick_dllForced (s : State) : (s.takeTick).dllForced = s.dllForced := rfl
@[simp] theorem State.takeTick_dllLocked (s : State) : (s.takeTick).dllLocked = s.dllLocked := rfl
@[simp] theorem State.takeTick_pendingLock (s : State) : (s.takeTick).pendingLock = s.pendingLock := rfl
@[simp] theorem State.takeTick_safePllLevel (s : State) : (s.takeTick).safePllLevel = s.safePllLevel := rfl
@[simp] theorem State.takeTick_pllCur (s : State) : (s.takeTick).pllCur = s.pllCur := rfl
@[simp] theorem State.takeTick_qosMin (s : State) : (s.takeTick).qosMin = s.qosMin := rfl
@[simp] theorem State.takeTick_qosMax (s : State) : (s.takeTick).qosMax = s.qosMax := rfl
@[simp] theorem State.takeTick_lastRequested (s : State) : (s.takeTick).lastRequested = s.lastRequested := rfl
@[simp] theorem State.takeTick_thermState (s : State) : (s.takeTick).thermState = s.thermState := rfl
@[simp] theorem State.takeTick_rankLevel (s : State) : (s.takeTick).rankLevel = s.rankLevel := rfl
@[simp] theorem State.takeTick_sampled (s : State) : (s.takeTick).sampled = s.sampled := rfl
@[simp] theorem State.takeTick_tickRemaining (s : State) : (s.takeTick).tickRemaining = s.tickRemaining := rfl
@[simp] theorem State.takeTick_tickPending (s : State) : (s.takeTick).tickPending = false := rfl
@[simp] theorem State.takeTick_monStopped (s : State) : (s.takeTick).monStopped = s.monStopped := rfl
@[simp] theorem State.takeTick_slot (s : State) : (s.takeTick).slot = s.slot := rfl
@[simp] theorem State.takeTick_cmdActive (s : State) : (s.takeTick).cmdActive = s.cmdActive := rfl
@[simp] theorem State.takeTick_arg0 (s : State) : (s.takeTick).arg0 = s.arg0 := rfl
@[simp] theorem State.takeTick_arg1 (s : State) : (s.takeTick).arg1 = s.arg1 := rfl
@[simp] theorem State.takeTick_result (s : State) : (s.takeTick).result = s.result := rfl
@[simp] theorem State.takeTick_err (s : State) : (s.takeTick).err = s.err := rfl
@[simp] theorem State.takeTick_errStep (s : State) : (s.takeTick).errStep = s.errStep := rfl
@[simp] theorem State.takeTick_errSig (s : State) : (s.takeTick).errSig = s.errSig := rfl
@[simp] theorem State.takeTick_errArg (s : State) : (s.takeTick).errArg = s.errArg := rfl
@[simp] theorem State.takeTick_errSnap (s : State) : (s.takeTick).errSnap = s.errSnap := rfl
@[simp] theorem State.takeTick_intStatus (s : State) : (s.takeTick).intStatus = s.intStatus := rfl
@[simp] theorem State.takeTick_intEnable (s : State) : (s.takeTick).intEnable = s.intEnable := rfl
@[simp] theorem State.takeTick_old (s : State) : (s.takeTick).old = s.old := rfl
@[simp] theorem State.takeTick_target (s : State) : (s.takeTick).target = s.target := rfl
@[simp] theorem State.takeTick_origin (s : State) : (s.takeTick).origin = s.origin := rfl
@[simp] theorem State.takeTick_attempt (s : State) : (s.takeTick).attempt = s.attempt := rfl
@[simp] theorem State.takeTick_sample (s : State) : (s.takeTick).sample = s.sample := rfl
@[simp] theorem State.takeTick_lastWord (s : State) : (s.takeTick).lastWord = s.lastWord := rfl
@[simp] theorem State.takeTick_env (s : State) : (s.takeTick).env = s.env := rfl

@[simp] theorem State.clearSamples_cfg (s : State) (th : Thermal) : (s.clearSamples th).cfg = s.cfg := rfl
@[simp] theorem State.clearSamples_step (s : State) (th : Thermal) : (s.clearSamples th).step = s.step := rfl
@[simp] theorem State.clearSamples_lockOwner (s : State) (th : Thermal) : (s.clearSamples th).lockOwner = s.lockOwner := rfl
@[simp] theorem State.clearSamples_currentLevel (s : State) (th : Thermal) : (s.clearSamples th).currentLevel = s.currentLevel := rfl
@[simp] theorem State.clearSamples_currentVoltage (s : State) (th : Thermal) : (s.clearSamples th).currentVoltage = s.currentVoltage := rfl
@[simp] theorem State.clearSamples_thermalOffset (s : State) (th : Thermal) : (s.clearSamples th).thermalOffset = s.thermalOffset := rfl
@[simp] theorem State.clearSamples_dllForced (s : State) (th : Thermal) : (s.clearSamples th).dllForced = s.dllForced := rfl
@[simp] theorem State.clearSamples_dllLocked (s : State) (th : Thermal) : (s.clearSamples th).dllLocked = s.dllLocked := rfl
@[simp] theorem State.clearSamples_pendingLock (s : State) (th : Thermal) : (s.clearSamples th).pendingLock = s.pendingLock := rfl
@[simp] theorem State.clearSamples_safePllLevel (s : State) (th : Thermal) : (s.clearSamples th).safePllLevel = s.safePllLevel := rfl
@[simp] theorem State.clearSamples_pllCur (s : State) (th : Thermal) : (s.clearSamples th).pllCur = s.pllCur := rfl
@[simp] theorem State.clearSamples_qosMin (s : State) (th : Thermal) : (s.clearSamples th).qosMin = s.qosMin := rfl
@[simp] theorem State.clearSamples_qosMax (s : State) (th : Thermal) : (s.clearSamples th).qosMax = s.qosMax := rfl
@[simp] theorem State.clearSamples_lastRequested (s : State) (th : Thermal) : (s.clearSamples th).lastRequested = s.lastRequested := rfl
@[simp] theorem State.clearSamples_thermState (s : State) (th : Thermal) : (s.clearSamples th).thermState = s.thermState := rfl
@[simp] theorem State.clearSamples_rankLevel (s : State) (th : Thermal) : (s.clearSamples th).rankLevel = s.rankLevel := rfl
@[simp] theorem State.clearSamples_sampled (s : State) (th : Thermal) : (s.clearSamples th).sampled = s.sampled := rfl
@[simp] theorem State.clearSamples_tickRemaining (s : State) (th : Thermal) : (s.clearSamples th).tickRemaining = s.tickRemaining := rfl
@[simp] theorem State.clearSamples_tickPending (s : State) (th : Thermal) : (s.clearSamples th).tickPending = s.tickPending := rfl
@[simp] theorem State.clearSamples_monStopped (s : State) (th : Thermal) : (s.clearSamples th).monStopped = s.monStopped := rfl
@[simp] theorem State.clearSamples_slot (s : State) (th : Thermal) : (s.clearSamples th).slot = s.slot := rfl
@[simp] theorem State.clearSamples_cmdActive (s : State) (th : Thermal) : (s.clearSamples th).cmdActive = s.cmdActive := rfl
@[simp] theorem State.clearSamples_arg0 (s : State) (th : Thermal) : (s.clearSamples th).arg0 = s.arg0 := rfl
@[simp] theorem State.clearSamples_arg1 (s : State) (th : Thermal) : (s.clearSamples th).arg1 = s.arg1 := rfl
@[simp] theorem State.clearSamples_result (s : State) (th : Thermal) : (s.clearSamples th).result = s.result := rfl
@[simp] theorem State.clearSamples_err (s : State) (th : Thermal) : (s.clearSamples th).err = s.err := rfl
@[simp] theorem State.clearSamples_errStep (s : State) (th : Thermal) : (s.clearSamples th).errStep = s.errStep := rfl
@[simp] theorem State.clearSamples_errSig (s : State) (th : Thermal) : (s.clearSamples th).errSig = s.errSig := rfl
@[simp] theorem State.clearSamples_errArg (s : State) (th : Thermal) : (s.clearSamples th).errArg = s.errArg := rfl
@[simp] theorem State.clearSamples_errSnap (s : State) (th : Thermal) : (s.clearSamples th).errSnap = s.errSnap := rfl
@[simp] theorem State.clearSamples_intStatus (s : State) (th : Thermal) : (s.clearSamples th).intStatus = s.intStatus := rfl
@[simp] theorem State.clearSamples_intEnable (s : State) (th : Thermal) : (s.clearSamples th).intEnable = s.intEnable := rfl
@[simp] theorem State.clearSamples_old (s : State) (th : Thermal) : (s.clearSamples th).old = s.old := rfl
@[simp] theorem State.clearSamples_target (s : State) (th : Thermal) : (s.clearSamples th).target = s.target := rfl
@[simp] theorem State.clearSamples_origin (s : State) (th : Thermal) : (s.clearSamples th).origin = s.origin := rfl
@[simp] theorem State.clearSamples_attempt (s : State) (th : Thermal) : (s.clearSamples th).attempt = s.attempt := rfl
@[simp] theorem State.clearSamples_sample (s : State) (th : Thermal) : (s.clearSamples th).sample = List.replicate th.channels (0, 0) := rfl
@[simp] theorem State.clearSamples_lastWord (s : State) (th : Thermal) : (s.clearSamples th).lastWord = s.lastWord := rfl
@[simp] theorem State.clearSamples_env (s : State) (th : Thermal) : (s.clearSamples th).env = s.env := rfl

@[simp] theorem State.setSample_cfg (s : State) (c : Nat) (r : Bool) (code : Byte) : (s.setSample c r code).cfg = s.cfg := rfl
@[simp] theorem State.setSample_step (s : State) (c : Nat) (r : Bool) (code : Byte) : (s.setSample c r code).step = s.step := rfl
@[simp] theorem State.setSample_lockOwner (s : State) (c : Nat) (r : Bool) (code : Byte) : (s.setSample c r code).lockOwner = s.lockOwner := rfl
@[simp] theorem State.setSample_currentLevel (s : State) (c : Nat) (r : Bool) (code : Byte) : (s.setSample c r code).currentLevel = s.currentLevel := rfl
@[simp] theorem State.setSample_currentVoltage (s : State) (c : Nat) (r : Bool) (code : Byte) : (s.setSample c r code).currentVoltage = s.currentVoltage := rfl
@[simp] theorem State.setSample_thermalOffset (s : State) (c : Nat) (r : Bool) (code : Byte) : (s.setSample c r code).thermalOffset = s.thermalOffset := rfl
@[simp] theorem State.setSample_dllForced (s : State) (c : Nat) (r : Bool) (code : Byte) : (s.setSample c r code).dllForced = s.dllForced := rfl
@[simp] theorem State.setSample_dllLocked (s : State) (c : Nat) (r : Bool) (code : Byte) : (s.setSample c r code).dllLocked = s.dllLocked := rfl
@[simp] theorem State.setSample_pendingLock (s : State) (c : Nat) (r : Bool) (code : Byte) : (s.setSample c r code).pendingLock = s.pendingLock := rfl
@[simp] theorem State.setSample_safePllLevel (s : State) (c : Nat) (r : Bool) (code : Byte) : (s.setSample c r code).safePllLevel = s.safePllLevel := rfl
@[simp] theorem State.setSample_pllCur (s : State) (c : Nat) (r : Bool) (code : Byte) : (s.setSample c r code).pllCur = s.pllCur := rfl
@[simp] theorem State.setSample_qosMin (s : State) (c : Nat) (r : Bool) (code : Byte) : (s.setSample c r code).qosMin = s.qosMin := rfl
@[simp] theorem State.setSample_qosMax (s : State) (c : Nat) (r : Bool) (code : Byte) : (s.setSample c r code).qosMax = s.qosMax := rfl
@[simp] theorem State.setSample_lastRequested (s : State) (c : Nat) (r : Bool) (code : Byte) : (s.setSample c r code).lastRequested = s.lastRequested := rfl
@[simp] theorem State.setSample_thermState (s : State) (c : Nat) (r : Bool) (code : Byte) : (s.setSample c r code).thermState = s.thermState := rfl
@[simp] theorem State.setSample_rankLevel (s : State) (c : Nat) (r : Bool) (code : Byte) : (s.setSample c r code).rankLevel = s.rankLevel := rfl
@[simp] theorem State.setSample_sampled (s : State) (c : Nat) (r : Bool) (code : Byte) : (s.setSample c r code).sampled = s.sampled := rfl
@[simp] theorem State.setSample_tickRemaining (s : State) (c : Nat) (r : Bool) (code : Byte) : (s.setSample c r code).tickRemaining = s.tickRemaining := rfl
@[simp] theorem State.setSample_tickPending (s : State) (c : Nat) (r : Bool) (code : Byte) : (s.setSample c r code).tickPending = s.tickPending := rfl
@[simp] theorem State.setSample_monStopped (s : State) (c : Nat) (r : Bool) (code : Byte) : (s.setSample c r code).monStopped = s.monStopped := rfl
@[simp] theorem State.setSample_slot (s : State) (c : Nat) (r : Bool) (code : Byte) : (s.setSample c r code).slot = s.slot := rfl
@[simp] theorem State.setSample_cmdActive (s : State) (c : Nat) (r : Bool) (code : Byte) : (s.setSample c r code).cmdActive = s.cmdActive := rfl
@[simp] theorem State.setSample_arg0 (s : State) (c : Nat) (r : Bool) (code : Byte) : (s.setSample c r code).arg0 = s.arg0 := rfl
@[simp] theorem State.setSample_arg1 (s : State) (c : Nat) (r : Bool) (code : Byte) : (s.setSample c r code).arg1 = s.arg1 := rfl
@[simp] theorem State.setSample_result (s : State) (c : Nat) (r : Bool) (code : Byte) : (s.setSample c r code).result = s.result := rfl
@[simp] theorem State.setSample_err (s : State) (c : Nat) (r : Bool) (code : Byte) : (s.setSample c r code).err = s.err := rfl
@[simp] theorem State.setSample_errStep (s : State) (c : Nat) (r : Bool) (code : Byte) : (s.setSample c r code).errStep = s.errStep := rfl
@[simp] theorem State.setSample_errSig (s : State) (c : Nat) (r : Bool) (code : Byte) : (s.setSample c r code).errSig = s.errSig := rfl
@[simp] theorem State.setSample_errArg (s : State) (c : Nat) (r : Bool) (code : Byte) : (s.setSample c r code).errArg = s.errArg := rfl
@[simp] theorem State.setSample_errSnap (s : State) (c : Nat) (r : Bool) (code : Byte) : (s.setSample c r code).errSnap = s.errSnap := rfl
@[simp] theorem State.setSample_intStatus (s : State) (c : Nat) (r : Bool) (code : Byte) : (s.setSample c r code).intStatus = s.intStatus := rfl
@[simp] theorem State.setSample_intEnable (s : State) (c : Nat) (r : Bool) (code : Byte) : (s.setSample c r code).intEnable = s.intEnable := rfl
@[simp] theorem State.setSample_old (s : State) (c : Nat) (r : Bool) (code : Byte) : (s.setSample c r code).old = s.old := rfl
@[simp] theorem State.setSample_target (s : State) (c : Nat) (r : Bool) (code : Byte) : (s.setSample c r code).target = s.target := rfl
@[simp] theorem State.setSample_origin (s : State) (c : Nat) (r : Bool) (code : Byte) : (s.setSample c r code).origin = s.origin := rfl
@[simp] theorem State.setSample_attempt (s : State) (c : Nat) (r : Bool) (code : Byte) : (s.setSample c r code).attempt = s.attempt := rfl
@[simp] theorem State.setSample_sample (s : State) (c : Nat) (r : Bool) (code : Byte) : (s.setSample c r code).sample = s.sample.modify c fun p => if r then (p.1, code) else (code, p.2) := rfl
@[simp] theorem State.setSample_lastWord (s : State) (c : Nat) (r : Bool) (code : Byte) : (s.setSample c r code).lastWord = s.lastWord := rfl
@[simp] theorem State.setSample_env (s : State) (c : Nat) (r : Bool) (code : Byte) : (s.setSample c r code).env = s.env := rfl

@[simp] theorem State.moveThermState_cfg (s : State) (th : Thermal) : (s.moveThermState th).cfg = s.cfg := rfl
@[simp] theorem State.moveThermState_step (s : State) (th : Thermal) : (s.moveThermState th).step = s.step := rfl
@[simp] theorem State.moveThermState_lockOwner (s : State) (th : Thermal) : (s.moveThermState th).lockOwner = s.lockOwner := rfl
@[simp] theorem State.moveThermState_currentLevel (s : State) (th : Thermal) : (s.moveThermState th).currentLevel = s.currentLevel := rfl
@[simp] theorem State.moveThermState_currentVoltage (s : State) (th : Thermal) : (s.moveThermState th).currentVoltage = s.currentVoltage := rfl
@[simp] theorem State.moveThermState_thermalOffset (s : State) (th : Thermal) : (s.moveThermState th).thermalOffset = s.thermalOffset := rfl
@[simp] theorem State.moveThermState_dllForced (s : State) (th : Thermal) : (s.moveThermState th).dllForced = s.dllForced := rfl
@[simp] theorem State.moveThermState_dllLocked (s : State) (th : Thermal) : (s.moveThermState th).dllLocked = s.dllLocked := rfl
@[simp] theorem State.moveThermState_pendingLock (s : State) (th : Thermal) : (s.moveThermState th).pendingLock = s.pendingLock := rfl
@[simp] theorem State.moveThermState_safePllLevel (s : State) (th : Thermal) : (s.moveThermState th).safePllLevel = s.safePllLevel := rfl
@[simp] theorem State.moveThermState_pllCur (s : State) (th : Thermal) : (s.moveThermState th).pllCur = s.pllCur := rfl
@[simp] theorem State.moveThermState_qosMin (s : State) (th : Thermal) : (s.moveThermState th).qosMin = s.qosMin := rfl
@[simp] theorem State.moveThermState_qosMax (s : State) (th : Thermal) : (s.moveThermState th).qosMax = s.qosMax := rfl
@[simp] theorem State.moveThermState_lastRequested (s : State) (th : Thermal) : (s.moveThermState th).lastRequested = s.lastRequested := rfl
@[simp] theorem State.moveThermState_thermState (s : State) (th : Thermal) : (s.moveThermState th).thermState = nextThermState th s.thermState s.maxLevel := rfl
@[simp] theorem State.moveThermState_rankLevel (s : State) (th : Thermal) : (s.moveThermState th).rankLevel = s.rankLevel := rfl
@[simp] theorem State.moveThermState_sampled (s : State) (th : Thermal) : (s.moveThermState th).sampled = s.sampled := rfl
@[simp] theorem State.moveThermState_tickRemaining (s : State) (th : Thermal) : (s.moveThermState th).tickRemaining = s.tickRemaining := rfl
@[simp] theorem State.moveThermState_tickPending (s : State) (th : Thermal) : (s.moveThermState th).tickPending = s.tickPending := rfl
@[simp] theorem State.moveThermState_monStopped (s : State) (th : Thermal) : (s.moveThermState th).monStopped = s.monStopped := rfl
@[simp] theorem State.moveThermState_slot (s : State) (th : Thermal) : (s.moveThermState th).slot = s.slot := rfl
@[simp] theorem State.moveThermState_cmdActive (s : State) (th : Thermal) : (s.moveThermState th).cmdActive = s.cmdActive := rfl
@[simp] theorem State.moveThermState_arg0 (s : State) (th : Thermal) : (s.moveThermState th).arg0 = s.arg0 := rfl
@[simp] theorem State.moveThermState_arg1 (s : State) (th : Thermal) : (s.moveThermState th).arg1 = s.arg1 := rfl
@[simp] theorem State.moveThermState_result (s : State) (th : Thermal) : (s.moveThermState th).result = s.result := rfl
@[simp] theorem State.moveThermState_err (s : State) (th : Thermal) : (s.moveThermState th).err = s.err := rfl
@[simp] theorem State.moveThermState_errStep (s : State) (th : Thermal) : (s.moveThermState th).errStep = s.errStep := rfl
@[simp] theorem State.moveThermState_errSig (s : State) (th : Thermal) : (s.moveThermState th).errSig = s.errSig := rfl
@[simp] theorem State.moveThermState_errArg (s : State) (th : Thermal) : (s.moveThermState th).errArg = s.errArg := rfl
@[simp] theorem State.moveThermState_errSnap (s : State) (th : Thermal) : (s.moveThermState th).errSnap = s.errSnap := rfl
@[simp] theorem State.moveThermState_intStatus (s : State) (th : Thermal) : (s.moveThermState th).intStatus = s.intStatus := rfl
@[simp] theorem State.moveThermState_intEnable (s : State) (th : Thermal) : (s.moveThermState th).intEnable = s.intEnable := rfl
@[simp] theorem State.moveThermState_old (s : State) (th : Thermal) : (s.moveThermState th).old = s.old := rfl
@[simp] theorem State.moveThermState_target (s : State) (th : Thermal) : (s.moveThermState th).target = s.target := rfl
@[simp] theorem State.moveThermState_origin (s : State) (th : Thermal) : (s.moveThermState th).origin = s.origin := rfl
@[simp] theorem State.moveThermState_attempt (s : State) (th : Thermal) : (s.moveThermState th).attempt = s.attempt := rfl
@[simp] theorem State.moveThermState_sample (s : State) (th : Thermal) : (s.moveThermState th).sample = s.sample := rfl
@[simp] theorem State.moveThermState_lastWord (s : State) (th : Thermal) : (s.moveThermState th).lastWord = s.lastWord := rfl
@[simp] theorem State.moveThermState_env (s : State) (th : Thermal) : (s.moveThermState th).env = s.env := rfl

@[simp] theorem State.shutDown_cfg (s : State) : (s.shutDown).cfg = s.cfg := rfl
@[simp] theorem State.shutDown_step (s : State) : (s.shutDown).step = s.step := rfl
@[simp] theorem State.shutDown_lockOwner (s : State) : (s.shutDown).lockOwner = s.lockOwner := rfl
@[simp] theorem State.shutDown_currentLevel (s : State) : (s.shutDown).currentLevel = s.currentLevel := rfl
@[simp] theorem State.shutDown_currentVoltage (s : State) : (s.shutDown).currentVoltage = s.currentVoltage := rfl
@[simp] theorem State.shutDown_thermalOffset (s : State) : (s.shutDown).thermalOffset = s.thermalOffset := rfl
@[simp] theorem State.shutDown_dllForced (s : State) : (s.shutDown).dllForced = s.dllForced := rfl
@[simp] theorem State.shutDown_dllLocked (s : State) : (s.shutDown).dllLocked = s.dllLocked := rfl
@[simp] theorem State.shutDown_pendingLock (s : State) : (s.shutDown).pendingLock = s.pendingLock := rfl
@[simp] theorem State.shutDown_safePllLevel (s : State) : (s.shutDown).safePllLevel = s.safePllLevel := rfl
@[simp] theorem State.shutDown_pllCur (s : State) : (s.shutDown).pllCur = s.pllCur := rfl
@[simp] theorem State.shutDown_qosMin (s : State) : (s.shutDown).qosMin = s.qosMin := rfl
@[simp] theorem State.shutDown_qosMax (s : State) : (s.shutDown).qosMax = s.qosMax := rfl
@[simp] theorem State.shutDown_lastRequested (s : State) : (s.shutDown).lastRequested = s.lastRequested := rfl
@[simp] theorem State.shutDown_thermState (s : State) : (s.shutDown).thermState = s.thermState := rfl
@[simp] theorem State.shutDown_rankLevel (s : State) : (s.shutDown).rankLevel = s.rankLevel := rfl
@[simp] theorem State.shutDown_sampled (s : State) : (s.shutDown).sampled = s.sampled := rfl
@[simp] theorem State.shutDown_tickRemaining (s : State) : (s.shutDown).tickRemaining = s.tickRemaining := rfl
@[simp] theorem State.shutDown_tickPending (s : State) : (s.shutDown).tickPending = s.tickPending := rfl
@[simp] theorem State.shutDown_monStopped (s : State) : (s.shutDown).monStopped = true := rfl
@[simp] theorem State.shutDown_slot (s : State) : (s.shutDown).slot = s.slot := rfl
@[simp] theorem State.shutDown_cmdActive (s : State) : (s.shutDown).cmdActive = s.cmdActive := rfl
@[simp] theorem State.shutDown_arg0 (s : State) : (s.shutDown).arg0 = s.arg0 := rfl
@[simp] theorem State.shutDown_arg1 (s : State) : (s.shutDown).arg1 = s.arg1 := rfl
@[simp] theorem State.shutDown_result (s : State) : (s.shutDown).result = s.result := rfl
@[simp] theorem State.shutDown_err (s : State) : (s.shutDown).err = s.err := rfl
@[simp] theorem State.shutDown_errStep (s : State) : (s.shutDown).errStep = s.errStep := rfl
@[simp] theorem State.shutDown_errSig (s : State) : (s.shutDown).errSig = s.errSig := rfl
@[simp] theorem State.shutDown_errArg (s : State) : (s.shutDown).errArg = s.errArg := rfl
@[simp] theorem State.shutDown_errSnap (s : State) : (s.shutDown).errSnap = s.errSnap := rfl
@[simp] theorem State.shutDown_intStatus (s : State) : (s.shutDown).intStatus = s.intStatus ||| IntBit.trip.mask := rfl
@[simp] theorem State.shutDown_intEnable (s : State) : (s.shutDown).intEnable = s.intEnable := rfl
@[simp] theorem State.shutDown_old (s : State) : (s.shutDown).old = s.old := rfl
@[simp] theorem State.shutDown_target (s : State) : (s.shutDown).target = s.target := rfl
@[simp] theorem State.shutDown_origin (s : State) : (s.shutDown).origin = s.origin := rfl
@[simp] theorem State.shutDown_attempt (s : State) : (s.shutDown).attempt = s.attempt := rfl
@[simp] theorem State.shutDown_sample (s : State) : (s.shutDown).sample = s.sample := rfl
@[simp] theorem State.shutDown_lastWord (s : State) : (s.shutDown).lastWord = s.lastWord := rfl
@[simp] theorem State.shutDown_env (s : State) : (s.shutDown).env = (s.record .shutdown).env := rfl

@[simp] theorem State.setRequest_cfg (s : State) (f : Word) : (s.setRequest f).cfg = s.cfg := rfl
@[simp] theorem State.setRequest_step (s : State) (f : Word) : (s.setRequest f).step = s.step := rfl
@[simp] theorem State.setRequest_lockOwner (s : State) (f : Word) : (s.setRequest f).lockOwner = s.lockOwner := rfl
@[simp] theorem State.setRequest_currentLevel (s : State) (f : Word) : (s.setRequest f).currentLevel = s.currentLevel := rfl
@[simp] theorem State.setRequest_currentVoltage (s : State) (f : Word) : (s.setRequest f).currentVoltage = s.currentVoltage := rfl
@[simp] theorem State.setRequest_thermalOffset (s : State) (f : Word) : (s.setRequest f).thermalOffset = s.thermalOffset := rfl
@[simp] theorem State.setRequest_dllForced (s : State) (f : Word) : (s.setRequest f).dllForced = s.dllForced := rfl
@[simp] theorem State.setRequest_dllLocked (s : State) (f : Word) : (s.setRequest f).dllLocked = s.dllLocked := rfl
@[simp] theorem State.setRequest_pendingLock (s : State) (f : Word) : (s.setRequest f).pendingLock = s.pendingLock := rfl
@[simp] theorem State.setRequest_safePllLevel (s : State) (f : Word) : (s.setRequest f).safePllLevel = s.safePllLevel := rfl
@[simp] theorem State.setRequest_pllCur (s : State) (f : Word) : (s.setRequest f).pllCur = s.pllCur := rfl
@[simp] theorem State.setRequest_qosMin (s : State) (f : Word) : (s.setRequest f).qosMin = s.qosMin := rfl
@[simp] theorem State.setRequest_qosMax (s : State) (f : Word) : (s.setRequest f).qosMax = s.qosMax := rfl
@[simp] theorem State.setRequest_lastRequested (s : State) (f : Word) : (s.setRequest f).lastRequested = f := rfl
@[simp] theorem State.setRequest_thermState (s : State) (f : Word) : (s.setRequest f).thermState = s.thermState := rfl
@[simp] theorem State.setRequest_rankLevel (s : State) (f : Word) : (s.setRequest f).rankLevel = s.rankLevel := rfl
@[simp] theorem State.setRequest_sampled (s : State) (f : Word) : (s.setRequest f).sampled = s.sampled := rfl
@[simp] theorem State.setRequest_tickRemaining (s : State) (f : Word) : (s.setRequest f).tickRemaining = s.tickRemaining := rfl
@[simp] theorem State.setRequest_tickPending (s : State) (f : Word) : (s.setRequest f).tickPending = s.tickPending := rfl
@[simp] theorem State.setRequest_monStopped (s : State) (f : Word) : (s.setRequest f).monStopped = s.monStopped := rfl
@[simp] theorem State.setRequest_slot (s : State) (f : Word) : (s.setRequest f).slot = s.slot := rfl
@[simp] theorem State.setRequest_cmdActive (s : State) (f : Word) : (s.setRequest f).cmdActive = s.cmdActive := rfl
@[simp] theorem State.setRequest_arg0 (s : State) (f : Word) : (s.setRequest f).arg0 = s.arg0 := rfl
@[simp] theorem State.setRequest_arg1 (s : State) (f : Word) : (s.setRequest f).arg1 = s.arg1 := rfl
@[simp] theorem State.setRequest_result (s : State) (f : Word) : (s.setRequest f).result = s.result := rfl
@[simp] theorem State.setRequest_err (s : State) (f : Word) : (s.setRequest f).err = s.err := rfl
@[simp] theorem State.setRequest_errStep (s : State) (f : Word) : (s.setRequest f).errStep = s.errStep := rfl
@[simp] theorem State.setRequest_errSig (s : State) (f : Word) : (s.setRequest f).errSig = s.errSig := rfl
@[simp] theorem State.setRequest_errArg (s : State) (f : Word) : (s.setRequest f).errArg = s.errArg := rfl
@[simp] theorem State.setRequest_errSnap (s : State) (f : Word) : (s.setRequest f).errSnap = s.errSnap := rfl
@[simp] theorem State.setRequest_intStatus (s : State) (f : Word) : (s.setRequest f).intStatus = s.intStatus := rfl
@[simp] theorem State.setRequest_intEnable (s : State) (f : Word) : (s.setRequest f).intEnable = s.intEnable := rfl
@[simp] theorem State.setRequest_old (s : State) (f : Word) : (s.setRequest f).old = s.old := rfl
@[simp] theorem State.setRequest_target (s : State) (f : Word) : (s.setRequest f).target = s.target := rfl
@[simp] theorem State.setRequest_origin (s : State) (f : Word) : (s.setRequest f).origin = s.origin := rfl
@[simp] theorem State.setRequest_attempt (s : State) (f : Word) : (s.setRequest f).attempt = s.attempt := rfl
@[simp] theorem State.setRequest_sample (s : State) (f : Word) : (s.setRequest f).sample = s.sample := rfl
@[simp] theorem State.setRequest_lastWord (s : State) (f : Word) : (s.setRequest f).lastWord = s.lastWord := rfl
@[simp] theorem State.setRequest_env (s : State) (f : Word) : (s.setRequest f).env = s.env := rfl

@[simp] theorem State.setBounds_cfg (s : State) (lo hi : Word) : (s.setBounds lo hi).cfg = s.cfg := rfl
@[simp] theorem State.setBounds_step (s : State) (lo hi : Word) : (s.setBounds lo hi).step = s.step := rfl
@[simp] theorem State.setBounds_lockOwner (s : State) (lo hi : Word) : (s.setBounds lo hi).lockOwner = s.lockOwner := rfl
@[simp] theorem State.setBounds_currentLevel (s : State) (lo hi : Word) : (s.setBounds lo hi).currentLevel = s.currentLevel := rfl
@[simp] theorem State.setBounds_currentVoltage (s : State) (lo hi : Word) : (s.setBounds lo hi).currentVoltage = s.currentVoltage := rfl
@[simp] theorem State.setBounds_thermalOffset (s : State) (lo hi : Word) : (s.setBounds lo hi).thermalOffset = s.thermalOffset := rfl
@[simp] theorem State.setBounds_dllForced (s : State) (lo hi : Word) : (s.setBounds lo hi).dllForced = s.dllForced := rfl
@[simp] theorem State.setBounds_dllLocked (s : State) (lo hi : Word) : (s.setBounds lo hi).dllLocked = s.dllLocked := rfl
@[simp] theorem State.setBounds_pendingLock (s : State) (lo hi : Word) : (s.setBounds lo hi).pendingLock = s.pendingLock := rfl
@[simp] theorem State.setBounds_safePllLevel (s : State) (lo hi : Word) : (s.setBounds lo hi).safePllLevel = s.safePllLevel := rfl
@[simp] theorem State.setBounds_pllCur (s : State) (lo hi : Word) : (s.setBounds lo hi).pllCur = s.pllCur := rfl
@[simp] theorem State.setBounds_qosMin (s : State) (lo hi : Word) : (s.setBounds lo hi).qosMin = lo := rfl
@[simp] theorem State.setBounds_qosMax (s : State) (lo hi : Word) : (s.setBounds lo hi).qosMax = hi := rfl
@[simp] theorem State.setBounds_lastRequested (s : State) (lo hi : Word) : (s.setBounds lo hi).lastRequested = s.lastRequested := rfl
@[simp] theorem State.setBounds_thermState (s : State) (lo hi : Word) : (s.setBounds lo hi).thermState = s.thermState := rfl
@[simp] theorem State.setBounds_rankLevel (s : State) (lo hi : Word) : (s.setBounds lo hi).rankLevel = s.rankLevel := rfl
@[simp] theorem State.setBounds_sampled (s : State) (lo hi : Word) : (s.setBounds lo hi).sampled = s.sampled := rfl
@[simp] theorem State.setBounds_tickRemaining (s : State) (lo hi : Word) : (s.setBounds lo hi).tickRemaining = s.tickRemaining := rfl
@[simp] theorem State.setBounds_tickPending (s : State) (lo hi : Word) : (s.setBounds lo hi).tickPending = s.tickPending := rfl
@[simp] theorem State.setBounds_monStopped (s : State) (lo hi : Word) : (s.setBounds lo hi).monStopped = s.monStopped := rfl
@[simp] theorem State.setBounds_slot (s : State) (lo hi : Word) : (s.setBounds lo hi).slot = s.slot := rfl
@[simp] theorem State.setBounds_cmdActive (s : State) (lo hi : Word) : (s.setBounds lo hi).cmdActive = s.cmdActive := rfl
@[simp] theorem State.setBounds_arg0 (s : State) (lo hi : Word) : (s.setBounds lo hi).arg0 = s.arg0 := rfl
@[simp] theorem State.setBounds_arg1 (s : State) (lo hi : Word) : (s.setBounds lo hi).arg1 = s.arg1 := rfl
@[simp] theorem State.setBounds_result (s : State) (lo hi : Word) : (s.setBounds lo hi).result = s.result := rfl
@[simp] theorem State.setBounds_err (s : State) (lo hi : Word) : (s.setBounds lo hi).err = s.err := rfl
@[simp] theorem State.setBounds_errStep (s : State) (lo hi : Word) : (s.setBounds lo hi).errStep = s.errStep := rfl
@[simp] theorem State.setBounds_errSig (s : State) (lo hi : Word) : (s.setBounds lo hi).errSig = s.errSig := rfl
@[simp] theorem State.setBounds_errArg (s : State) (lo hi : Word) : (s.setBounds lo hi).errArg = s.errArg := rfl
@[simp] theorem State.setBounds_errSnap (s : State) (lo hi : Word) : (s.setBounds lo hi).errSnap = s.errSnap := rfl
@[simp] theorem State.setBounds_intStatus (s : State) (lo hi : Word) : (s.setBounds lo hi).intStatus = s.intStatus := rfl
@[simp] theorem State.setBounds_intEnable (s : State) (lo hi : Word) : (s.setBounds lo hi).intEnable = s.intEnable := rfl
@[simp] theorem State.setBounds_old (s : State) (lo hi : Word) : (s.setBounds lo hi).old = s.old := rfl
@[simp] theorem State.setBounds_target (s : State) (lo hi : Word) : (s.setBounds lo hi).target = s.target := rfl
@[simp] theorem State.setBounds_origin (s : State) (lo hi : Word) : (s.setBounds lo hi).origin = s.origin := rfl
@[simp] theorem State.setBounds_attempt (s : State) (lo hi : Word) : (s.setBounds lo hi).attempt = s.attempt := rfl
@[simp] theorem State.setBounds_sample (s : State) (lo hi : Word) : (s.setBounds lo hi).sample = s.sample := rfl
@[simp] theorem State.setBounds_lastWord (s : State) (lo hi : Word) : (s.setBounds lo hi).lastWord = s.lastWord := rfl
@[simp] theorem State.setBounds_env (s : State) (lo hi : Word) : (s.setBounds lo hi).env = s.env := rfl

@[simp] theorem State.setCold_cfg (s : State) (b : Bool) : (s.setCold b).cfg = s.cfg := rfl
@[simp] theorem State.setCold_step (s : State) (b : Bool) : (s.setCold b).step = s.step := rfl
@[simp] theorem State.setCold_lockOwner (s : State) (b : Bool) : (s.setCold b).lockOwner = s.lockOwner := rfl
@[simp] theorem State.setCold_currentLevel (s : State) (b : Bool) : (s.setCold b).currentLevel = s.currentLevel := rfl
@[simp] theorem State.setCold_currentVoltage (s : State) (b : Bool) : (s.setCold b).currentVoltage = s.currentVoltage := rfl
@[simp] theorem State.setCold_thermalOffset (s : State) (b : Bool) : (s.setCold b).thermalOffset = if b then s.cfg.coldOffset else 0 := rfl
@[simp] theorem State.setCold_dllForced (s : State) (b : Bool) : (s.setCold b).dllForced = s.dllForced := rfl
@[simp] theorem State.setCold_dllLocked (s : State) (b : Bool) : (s.setCold b).dllLocked = s.dllLocked := rfl
@[simp] theorem State.setCold_pendingLock (s : State) (b : Bool) : (s.setCold b).pendingLock = s.pendingLock := rfl
@[simp] theorem State.setCold_safePllLevel (s : State) (b : Bool) : (s.setCold b).safePllLevel = s.safePllLevel := rfl
@[simp] theorem State.setCold_pllCur (s : State) (b : Bool) : (s.setCold b).pllCur = s.pllCur := rfl
@[simp] theorem State.setCold_qosMin (s : State) (b : Bool) : (s.setCold b).qosMin = s.qosMin := rfl
@[simp] theorem State.setCold_qosMax (s : State) (b : Bool) : (s.setCold b).qosMax = s.qosMax := rfl
@[simp] theorem State.setCold_lastRequested (s : State) (b : Bool) : (s.setCold b).lastRequested = s.lastRequested := rfl
@[simp] theorem State.setCold_thermState (s : State) (b : Bool) : (s.setCold b).thermState = s.thermState := rfl
@[simp] theorem State.setCold_rankLevel (s : State) (b : Bool) : (s.setCold b).rankLevel = s.rankLevel := rfl
@[simp] theorem State.setCold_sampled (s : State) (b : Bool) : (s.setCold b).sampled = s.sampled := rfl
@[simp] theorem State.setCold_tickRemaining (s : State) (b : Bool) : (s.setCold b).tickRemaining = s.tickRemaining := rfl
@[simp] theorem State.setCold_tickPending (s : State) (b : Bool) : (s.setCold b).tickPending = s.tickPending := rfl
@[simp] theorem State.setCold_monStopped (s : State) (b : Bool) : (s.setCold b).monStopped = s.monStopped := rfl
@[simp] theorem State.setCold_slot (s : State) (b : Bool) : (s.setCold b).slot = s.slot := rfl
@[simp] theorem State.setCold_cmdActive (s : State) (b : Bool) : (s.setCold b).cmdActive = s.cmdActive := rfl
@[simp] theorem State.setCold_arg0 (s : State) (b : Bool) : (s.setCold b).arg0 = s.arg0 := rfl
@[simp] theorem State.setCold_arg1 (s : State) (b : Bool) : (s.setCold b).arg1 = s.arg1 := rfl
@[simp] theorem State.setCold_result (s : State) (b : Bool) : (s.setCold b).result = s.result := rfl
@[simp] theorem State.setCold_err (s : State) (b : Bool) : (s.setCold b).err = s.err := rfl
@[simp] theorem State.setCold_errStep (s : State) (b : Bool) : (s.setCold b).errStep = s.errStep := rfl
@[simp] theorem State.setCold_errSig (s : State) (b : Bool) : (s.setCold b).errSig = s.errSig := rfl
@[simp] theorem State.setCold_errArg (s : State) (b : Bool) : (s.setCold b).errArg = s.errArg := rfl
@[simp] theorem State.setCold_errSnap (s : State) (b : Bool) : (s.setCold b).errSnap = s.errSnap := rfl
@[simp] theorem State.setCold_intStatus (s : State) (b : Bool) : (s.setCold b).intStatus = s.intStatus := rfl
@[simp] theorem State.setCold_intEnable (s : State) (b : Bool) : (s.setCold b).intEnable = s.intEnable := rfl
@[simp] theorem State.setCold_old (s : State) (b : Bool) : (s.setCold b).old = s.old := rfl
@[simp] theorem State.setCold_target (s : State) (b : Bool) : (s.setCold b).target = s.target := rfl
@[simp] theorem State.setCold_origin (s : State) (b : Bool) : (s.setCold b).origin = s.origin := rfl
@[simp] theorem State.setCold_attempt (s : State) (b : Bool) : (s.setCold b).attempt = s.attempt := rfl
@[simp] theorem State.setCold_sample (s : State) (b : Bool) : (s.setCold b).sample = s.sample := rfl
@[simp] theorem State.setCold_lastWord (s : State) (b : Bool) : (s.setCold b).lastWord = s.lastWord := rfl
@[simp] theorem State.setCold_env (s : State) (b : Bool) : (s.setCold b).env = s.env := rfl

@[simp] theorem State.completeCmd_cfg (s : State) (code : BitVec 4) (res : Option Word) : (s.completeCmd code res).cfg = s.cfg := rfl
@[simp] theorem State.completeCmd_step (s : State) (code : BitVec 4) (res : Option Word) : (s.completeCmd code res).step = .idle := rfl
@[simp] theorem State.completeCmd_lockOwner (s : State) (code : BitVec 4) (res : Option Word) : (s.completeCmd code res).lockOwner = .none := rfl
@[simp] theorem State.completeCmd_currentLevel (s : State) (code : BitVec 4) (res : Option Word) : (s.completeCmd code res).currentLevel = s.currentLevel := rfl
@[simp] theorem State.completeCmd_currentVoltage (s : State) (code : BitVec 4) (res : Option Word) : (s.completeCmd code res).currentVoltage = s.currentVoltage := rfl
@[simp] theorem State.completeCmd_thermalOffset (s : State) (code : BitVec 4) (res : Option Word) : (s.completeCmd code res).thermalOffset = s.thermalOffset := rfl
@[simp] theorem State.completeCmd_dllForced (s : State) (code : BitVec 4) (res : Option Word) : (s.completeCmd code res).dllForced = s.dllForced := rfl
@[simp] theorem State.completeCmd_dllLocked (s : State) (code : BitVec 4) (res : Option Word) : (s.completeCmd code res).dllLocked = s.dllLocked := rfl
@[simp] theorem State.completeCmd_pendingLock (s : State) (code : BitVec 4) (res : Option Word) : (s.completeCmd code res).pendingLock = s.pendingLock := rfl
@[simp] theorem State.completeCmd_safePllLevel (s : State) (code : BitVec 4) (res : Option Word) : (s.completeCmd code res).safePllLevel = s.safePllLevel := rfl
@[simp] theorem State.completeCmd_pllCur (s : State) (code : BitVec 4) (res : Option Word) : (s.completeCmd code res).pllCur = s.pllCur := rfl
@[simp] theorem State.completeCmd_qosMin (s : State) (code : BitVec 4) (res : Option Word) : (s.completeCmd code res).qosMin = s.qosMin := rfl
@[simp] theorem State.completeCmd_qosMax (s : State) (code : BitVec 4) (res : Option Word) : (s.completeCmd code res).qosMax = s.qosMax := rfl
@[simp] theorem State.completeCmd_lastRequested (s : State) (code : BitVec 4) (res : Option Word) : (s.completeCmd code res).lastRequested = s.lastRequested := rfl
@[simp] theorem State.completeCmd_thermState (s : State) (code : BitVec 4) (res : Option Word) : (s.completeCmd code res).thermState = s.thermState := rfl
@[simp] theorem State.completeCmd_rankLevel (s : State) (code : BitVec 4) (res : Option Word) : (s.completeCmd code res).rankLevel = s.rankLevel := rfl
@[simp] theorem State.completeCmd_sampled (s : State) (code : BitVec 4) (res : Option Word) : (s.completeCmd code res).sampled = s.sampled := rfl
@[simp] theorem State.completeCmd_tickRemaining (s : State) (code : BitVec 4) (res : Option Word) : (s.completeCmd code res).tickRemaining = s.tickRemaining := rfl
@[simp] theorem State.completeCmd_tickPending (s : State) (code : BitVec 4) (res : Option Word) : (s.completeCmd code res).tickPending = s.tickPending := rfl
@[simp] theorem State.completeCmd_monStopped (s : State) (code : BitVec 4) (res : Option Word) : (s.completeCmd code res).monStopped = s.monStopped := rfl
@[simp] theorem State.completeCmd_slot (s : State) (code : BitVec 4) (res : Option Word) : (s.completeCmd code res).slot = s.slot := rfl
@[simp] theorem State.completeCmd_cmdActive (s : State) (code : BitVec 4) (res : Option Word) : (s.completeCmd code res).cmdActive = false := rfl
@[simp] theorem State.completeCmd_arg0 (s : State) (code : BitVec 4) (res : Option Word) : (s.completeCmd code res).arg0 = s.arg0 := rfl
@[simp] theorem State.completeCmd_arg1 (s : State) (code : BitVec 4) (res : Option Word) : (s.completeCmd code res).arg1 = s.arg1 := rfl
@[simp] theorem State.completeCmd_result (s : State) (code : BitVec 4) (res : Option Word) : (s.completeCmd code res).result = res.getD s.result := rfl
@[simp] theorem State.completeCmd_err (s : State) (code : BitVec 4) (res : Option Word) : (s.completeCmd code res).err = code := rfl
@[simp] theorem State.completeCmd_errStep (s : State) (code : BitVec 4) (res : Option Word) : (s.completeCmd code res).errStep = s.errStep := rfl
@[simp] theorem State.completeCmd_errSig (s : State) (code : BitVec 4) (res : Option Word) : (s.completeCmd code res).errSig = s.errSig := rfl
@[simp] theorem State.completeCmd_errArg (s : State) (code : BitVec 4) (res : Option Word) : (s.completeCmd code res).errArg = s.errArg := rfl
@[simp] theorem State.completeCmd_errSnap (s : State) (code : BitVec 4) (res : Option Word) : (s.completeCmd code res).errSnap = s.errSnap := rfl
@[simp] theorem State.completeCmd_intStatus (s : State) (code : BitVec 4) (res : Option Word) : (s.completeCmd code res).intStatus = s.intStatus ||| completionBits code := rfl
@[simp] theorem State.completeCmd_intEnable (s : State) (code : BitVec 4) (res : Option Word) : (s.completeCmd code res).intEnable = s.intEnable := rfl
@[simp] theorem State.completeCmd_old (s : State) (code : BitVec 4) (res : Option Word) : (s.completeCmd code res).old = s.old := rfl
@[simp] theorem State.completeCmd_target (s : State) (code : BitVec 4) (res : Option Word) : (s.completeCmd code res).target = s.target := rfl
@[simp] theorem State.completeCmd_origin (s : State) (code : BitVec 4) (res : Option Word) : (s.completeCmd code res).origin = s.origin := rfl
@[simp] theorem State.completeCmd_attempt (s : State) (code : BitVec 4) (res : Option Word) : (s.completeCmd code res).attempt = s.attempt := rfl
@[simp] theorem State.completeCmd_sample (s : State) (code : BitVec 4) (res : Option Word) : (s.completeCmd code res).sample = s.sample := rfl
@[simp] theorem State.completeCmd_lastWord (s : State) (code : BitVec 4) (res : Option Word) : (s.completeCmd code res).lastWord = s.lastWord := rfl
@[simp] theorem State.completeCmd_env (s : State) (code : BitVec 4) (res : Option Word) : (s.completeCmd code res).env = s.env := rfl

@[simp] theorem State.finishTick_cfg (s : State) (th : Thermal) : (s.finishTick th).cfg = s.cfg := rfl
@[simp] theorem State.finishTick_step (s : State) (th : Thermal) : (s.finishTick th).step = .idle := rfl
@[simp] theorem State.finishTick_lockOwner (s : State) (th : Thermal) : (s.finishTick th).lockOwner = .none := rfl
@[simp] theorem State.finishTick_currentLevel (s : State) (th : Thermal) : (s.finishTick th).currentLevel = s.currentLevel := rfl
@[simp] theorem State.finishTick_currentVoltage (s : State) (th : Thermal) : (s.finishTick th).currentVoltage = s.currentVoltage := rfl
@[simp] theorem State.finishTick_thermalOffset (s : State) (th : Thermal) : (s.finishTick th).thermalOffset = s.thermalOffset := rfl
@[simp] theorem State.finishTick_dllForced (s : State) (th : Thermal) : (s.finishTick th).dllForced = s.dllForced := rfl
@[simp] theorem State.finishTick_dllLocked (s : State) (th : Thermal) : (s.finishTick th).dllLocked = s.dllLocked := rfl
@[simp] theorem State.finishTick_pendingLock (s : State) (th : Thermal) : (s.finishTick th).pendingLock = s.pendingLock := rfl
@[simp] theorem State.finishTick_safePllLevel (s : State) (th : Thermal) : (s.finishTick th).safePllLevel = s.safePllLevel := rfl
@[simp] theorem State.finishTick_pllCur (s : State) (th : Thermal) : (s.finishTick th).pllCur = s.pllCur := rfl
@[simp] theorem State.finishTick_qosMin (s : State) (th : Thermal) : (s.finishTick th).qosMin = s.qosMin := rfl
@[simp] theorem State.finishTick_qosMax (s : State) (th : Thermal) : (s.finishTick th).qosMax = s.qosMax := rfl
@[simp] theorem State.finishTick_lastRequested (s : State) (th : Thermal) : (s.finishTick th).lastRequested = s.lastRequested := rfl
@[simp] theorem State.finishTick_thermState (s : State) (th : Thermal) : (s.finishTick th).thermState = s.thermState := rfl
@[simp] theorem State.finishTick_rankLevel (s : State) (th : Thermal) : (s.finishTick th).rankLevel = s.rankLevel := rfl
@[simp] theorem State.finishTick_sampled (s : State) (th : Thermal) : (s.finishTick th).sampled = s.sampled := rfl
@[simp] theorem State.finishTick_tickRemaining (s : State) (th : Thermal) : (s.finishTick th).tickRemaining = th.pollMs.get s.thermState := rfl
@[simp] theorem State.finishTick_tickPending (s : State) (th : Thermal) : (s.finishTick th).tickPending = s.tickPending := rfl
@[simp] theorem State.finishTick_monStopped (s : State) (th : Thermal) : (s.finishTick th).monStopped = s.monStopped := rfl
@[simp] theorem State.finishTick_slot (s : State) (th : Thermal) : (s.finishTick th).slot = s.slot := rfl
@[simp] theorem State.finishTick_cmdActive (s : State) (th : Thermal) : (s.finishTick th).cmdActive = s.cmdActive := rfl
@[simp] theorem State.finishTick_arg0 (s : State) (th : Thermal) : (s.finishTick th).arg0 = s.arg0 := rfl
@[simp] theorem State.finishTick_arg1 (s : State) (th : Thermal) : (s.finishTick th).arg1 = s.arg1 := rfl
@[simp] theorem State.finishTick_result (s : State) (th : Thermal) : (s.finishTick th).result = s.result := rfl
@[simp] theorem State.finishTick_err (s : State) (th : Thermal) : (s.finishTick th).err = s.err := rfl
@[simp] theorem State.finishTick_errStep (s : State) (th : Thermal) : (s.finishTick th).errStep = s.errStep := rfl
@[simp] theorem State.finishTick_errSig (s : State) (th : Thermal) : (s.finishTick th).errSig = s.errSig := rfl
@[simp] theorem State.finishTick_errArg (s : State) (th : Thermal) : (s.finishTick th).errArg = s.errArg := rfl
@[simp] theorem State.finishTick_errSnap (s : State) (th : Thermal) : (s.finishTick th).errSnap = s.errSnap := rfl
@[simp] theorem State.finishTick_intStatus (s : State) (th : Thermal) : (s.finishTick th).intStatus = s.intStatus := rfl
@[simp] theorem State.finishTick_intEnable (s : State) (th : Thermal) : (s.finishTick th).intEnable = s.intEnable := rfl
@[simp] theorem State.finishTick_old (s : State) (th : Thermal) : (s.finishTick th).old = s.old := rfl
@[simp] theorem State.finishTick_target (s : State) (th : Thermal) : (s.finishTick th).target = s.target := rfl
@[simp] theorem State.finishTick_origin (s : State) (th : Thermal) : (s.finishTick th).origin = s.origin := rfl
@[simp] theorem State.finishTick_attempt (s : State) (th : Thermal) : (s.finishTick th).attempt = s.attempt := rfl
@[simp] theorem State.finishTick_sample (s : State) (th : Thermal) : (s.finishTick th).sample = s.sample := rfl
@[simp] theorem State.finishTick_lastWord (s : State) (th : Thermal) : (s.finishTick th).lastWord = s.lastWord := rfl
@[simp] theorem State.finishTick_env (s : State) (th : Thermal) : (s.finishTick th).env = s.env := rfl

theorem State.outRead_state (s : State) (w : Window) (off : Nat) :
    (s.outRead w off).2 = s.withEnv (s.outRead w off).2.env := by
  unfold State.outRead; split <;> rfl

/-! Outbound reads and polls, and a read that is counted, change the model's own fields only. -/

@[simp] theorem State.outRead_cfg (s : State) (w : Window) (off : Nat) : (s.outRead w off).2.cfg = s.cfg := (congrArg State.cfg (State.outRead_state s w off)).trans rfl
@[simp] theorem State.outRead_step (s : State) (w : Window) (off : Nat) : (s.outRead w off).2.step = s.step := (congrArg State.step (State.outRead_state s w off)).trans rfl
@[simp] theorem State.outRead_lockOwner (s : State) (w : Window) (off : Nat) : (s.outRead w off).2.lockOwner = s.lockOwner := (congrArg State.lockOwner (State.outRead_state s w off)).trans rfl
@[simp] theorem State.outRead_currentLevel (s : State) (w : Window) (off : Nat) : (s.outRead w off).2.currentLevel = s.currentLevel := (congrArg State.currentLevel (State.outRead_state s w off)).trans rfl
@[simp] theorem State.outRead_currentVoltage (s : State) (w : Window) (off : Nat) : (s.outRead w off).2.currentVoltage = s.currentVoltage := (congrArg State.currentVoltage (State.outRead_state s w off)).trans rfl
@[simp] theorem State.outRead_thermalOffset (s : State) (w : Window) (off : Nat) : (s.outRead w off).2.thermalOffset = s.thermalOffset := (congrArg State.thermalOffset (State.outRead_state s w off)).trans rfl
@[simp] theorem State.outRead_dllForced (s : State) (w : Window) (off : Nat) : (s.outRead w off).2.dllForced = s.dllForced := (congrArg State.dllForced (State.outRead_state s w off)).trans rfl
@[simp] theorem State.outRead_dllLocked (s : State) (w : Window) (off : Nat) : (s.outRead w off).2.dllLocked = s.dllLocked := (congrArg State.dllLocked (State.outRead_state s w off)).trans rfl
@[simp] theorem State.outRead_pendingLock (s : State) (w : Window) (off : Nat) : (s.outRead w off).2.pendingLock = s.pendingLock := (congrArg State.pendingLock (State.outRead_state s w off)).trans rfl
@[simp] theorem State.outRead_safePllLevel (s : State) (w : Window) (off : Nat) : (s.outRead w off).2.safePllLevel = s.safePllLevel := (congrArg State.safePllLevel (State.outRead_state s w off)).trans rfl
@[simp] theorem State.outRead_pllCur (s : State) (w : Window) (off : Nat) : (s.outRead w off).2.pllCur = s.pllCur := (congrArg State.pllCur (State.outRead_state s w off)).trans rfl
@[simp] theorem State.outRead_qosMin (s : State) (w : Window) (off : Nat) : (s.outRead w off).2.qosMin = s.qosMin := (congrArg State.qosMin (State.outRead_state s w off)).trans rfl
@[simp] theorem State.outRead_qosMax (s : State) (w : Window) (off : Nat) : (s.outRead w off).2.qosMax = s.qosMax := (congrArg State.qosMax (State.outRead_state s w off)).trans rfl
@[simp] theorem State.outRead_lastRequested (s : State) (w : Window) (off : Nat) : (s.outRead w off).2.lastRequested = s.lastRequested := (congrArg State.lastRequested (State.outRead_state s w off)).trans rfl
@[simp] theorem State.outRead_thermState (s : State) (w : Window) (off : Nat) : (s.outRead w off).2.thermState = s.thermState := (congrArg State.thermState (State.outRead_state s w off)).trans rfl
@[simp] theorem State.outRead_rankLevel (s : State) (w : Window) (off : Nat) : (s.outRead w off).2.rankLevel = s.rankLevel := (congrArg State.rankLevel (State.outRead_state s w off)).trans rfl
@[simp] theorem State.outRead_sampled (s : State) (w : Window) (off : Nat) : (s.outRead w off).2.sampled = s.sampled := (congrArg State.sampled (State.outRead_state s w off)).trans rfl
@[simp] theorem State.outRead_tickRemaining (s : State) (w : Window) (off : Nat) : (s.outRead w off).2.tickRemaining = s.tickRemaining := (congrArg State.tickRemaining (State.outRead_state s w off)).trans rfl
@[simp] theorem State.outRead_tickPending (s : State) (w : Window) (off : Nat) : (s.outRead w off).2.tickPending = s.tickPending := (congrArg State.tickPending (State.outRead_state s w off)).trans rfl
@[simp] theorem State.outRead_monStopped (s : State) (w : Window) (off : Nat) : (s.outRead w off).2.monStopped = s.monStopped := (congrArg State.monStopped (State.outRead_state s w off)).trans rfl
@[simp] theorem State.outRead_slot (s : State) (w : Window) (off : Nat) : (s.outRead w off).2.slot = s.slot := (congrArg State.slot (State.outRead_state s w off)).trans rfl
@[simp] theorem State.outRead_cmdActive (s : State) (w : Window) (off : Nat) : (s.outRead w off).2.cmdActive = s.cmdActive := (congrArg State.cmdActive (State.outRead_state s w off)).trans rfl
@[simp] theorem State.outRead_arg0 (s : State) (w : Window) (off : Nat) : (s.outRead w off).2.arg0 = s.arg0 := (congrArg State.arg0 (State.outRead_state s w off)).trans rfl
@[simp] theorem State.outRead_arg1 (s : State) (w : Window) (off : Nat) : (s.outRead w off).2.arg1 = s.arg1 := (congrArg State.arg1 (State.outRead_state s w off)).trans rfl
@[simp] theorem State.outRead_result (s : State) (w : Window) (off : Nat) : (s.outRead w off).2.result = s.result := (congrArg State.result (State.outRead_state s w off)).trans rfl
@[simp] theorem State.outRead_err (s : State) (w : Window) (off : Nat) : (s.outRead w off).2.err = s.err := (congrArg State.err (State.outRead_state s w off)).trans rfl
@[simp] theorem State.outRead_errStep (s : State) (w : Window) (off : Nat) : (s.outRead w off).2.errStep = s.errStep := (congrArg State.errStep (State.outRead_state s w off)).trans rfl
@[simp] theorem State.outRead_errSig (s : State) (w : Window) (off : Nat) : (s.outRead w off).2.errSig = s.errSig := (congrArg State.errSig (State.outRead_state s w off)).trans rfl
@[simp] theorem State.outRead_errArg (s : State) (w : Window) (off : Nat) : (s.outRead w off).2.errArg = s.errArg := (congrArg State.errArg (State.outRead_state s w off)).trans rfl
@[simp] theorem State.outRead_errSnap (s : State) (w : Window) (off : Nat) : (s.outRead w off).2.errSnap = s.errSnap := (congrArg State.errSnap (State.outRead_state s w off)).trans rfl
@[simp] theorem State.outRead_intStatus (s : State) (w : Window) (off : Nat) : (s.outRead w off).2.intStatus = s.intStatus := (congrArg State.intStatus (State.outRead_state s w off)).trans rfl
@[simp] theorem State.outRead_intEnable (s : State) (w : Window) (off : Nat) : (s.outRead w off).2.intEnable = s.intEnable := (congrArg State.intEnable (State.outRead_state s w off)).trans rfl
@[simp] theorem State.outRead_old (s : State) (w : Window) (off : Nat) : (s.outRead w off).2.old = s.old := (congrArg State.old (State.outRead_state s w off)).trans rfl
@[simp] theorem State.outRead_target (s : State) (w : Window) (off : Nat) : (s.outRead w off).2.target = s.target := (congrArg State.target (State.outRead_state s w off)).trans rfl
@[simp] theorem State.outRead_origin (s : State) (w : Window) (off : Nat) : (s.outRead w off).2.origin = s.origin := (congrArg State.origin (State.outRead_state s w off)).trans rfl
@[simp] theorem State.outRead_attempt (s : State) (w : Window) (off : Nat) : (s.outRead w off).2.attempt = s.attempt := (congrArg State.attempt (State.outRead_state s w off)).trans rfl
@[simp] theorem State.outRead_sample (s : State) (w : Window) (off : Nat) : (s.outRead w off).2.sample = s.sample := (congrArg State.sample (State.outRead_state s w off)).trans rfl
@[simp] theorem State.outRead_lastWord (s : State) (w : Window) (off : Nat) : (s.outRead w off).2.lastWord = s.lastWord := (congrArg State.lastWord (State.outRead_state s w off)).trans rfl

@[simp] theorem State.outPoll_cfg (s : State) (sig : Signal) : (s.outPoll sig).2.cfg = s.cfg := rfl
@[simp] theorem State.outPoll_step (s : State) (sig : Signal) : (s.outPoll sig).2.step = s.step := rfl
@[simp] theorem State.outPoll_lockOwner (s : State) (sig : Signal) : (s.outPoll sig).2.lockOwner = s.lockOwner := rfl
@[simp] theorem State.outPoll_currentLevel (s : State) (sig : Signal) : (s.outPoll sig).2.currentLevel = s.currentLevel := rfl
@[simp] theorem State.outPoll_currentVoltage (s : State) (sig : Signal) : (s.outPoll sig).2.currentVoltage = s.currentVoltage := rfl
@[simp] theorem State.outPoll_thermalOffset (s : State) (sig : Signal) : (s.outPoll sig).2.thermalOffset = s.thermalOffset := rfl
@[simp] theorem State.outPoll_dllForced (s : State) (sig : Signal) : (s.outPoll sig).2.dllForced = s.dllForced := rfl
@[simp] theorem State.outPoll_dllLocked (s : State) (sig : Signal) : (s.outPoll sig).2.dllLocked = s.dllLocked := rfl
@[simp] theorem State.outPoll_pendingLock (s : State) (sig : Signal) : (s.outPoll sig).2.pendingLock = s.pendingLock := rfl
@[simp] theorem State.outPoll_safePllLevel (s : State) (sig : Signal) : (s.outPoll sig).2.safePllLevel = s.safePllLevel := rfl
@[simp] theorem State.outPoll_pllCur (s : State) (sig : Signal) : (s.outPoll sig).2.pllCur = s.pllCur := rfl
@[simp] theorem State.outPoll_qosMin (s : State) (sig : Signal) : (s.outPoll sig).2.qosMin = s.qosMin := rfl
@[simp] theorem State.outPoll_qosMax (s : State) (sig : Signal) : (s.outPoll sig).2.qosMax = s.qosMax := rfl
@[simp] theorem State.outPoll_lastRequested (s : State) (sig : Signal) : (s.outPoll sig).2.lastRequested = s.lastRequested := rfl
@[simp] theorem State.outPoll_thermState (s : State) (sig : Signal) : (s.outPoll sig).2.thermState = s.thermState := rfl
@[simp] theorem State.outPoll_rankLevel (s : State) (sig : Signal) : (s.outPoll sig).2.rankLevel = s.rankLevel := rfl
@[simp] theorem State.outPoll_sampled (s : State) (sig : Signal) : (s.outPoll sig).2.sampled = s.sampled := rfl
@[simp] theorem State.outPoll_tickRemaining (s : State) (sig : Signal) : (s.outPoll sig).2.tickRemaining = s.tickRemaining := rfl
@[simp] theorem State.outPoll_tickPending (s : State) (sig : Signal) : (s.outPoll sig).2.tickPending = s.tickPending := rfl
@[simp] theorem State.outPoll_monStopped (s : State) (sig : Signal) : (s.outPoll sig).2.monStopped = s.monStopped := rfl
@[simp] theorem State.outPoll_slot (s : State) (sig : Signal) : (s.outPoll sig).2.slot = s.slot := rfl
@[simp] theorem State.outPoll_cmdActive (s : State) (sig : Signal) : (s.outPoll sig).2.cmdActive = s.cmdActive := rfl
@[simp] theorem State.outPoll_arg0 (s : State) (sig : Signal) : (s.outPoll sig).2.arg0 = s.arg0 := rfl
@[simp] theorem State.outPoll_arg1 (s : State) (sig : Signal) : (s.outPoll sig).2.arg1 = s.arg1 := rfl
@[simp] theorem State.outPoll_result (s : State) (sig : Signal) : (s.outPoll sig).2.result = s.result := rfl
@[simp] theorem State.outPoll_err (s : State) (sig : Signal) : (s.outPoll sig).2.err = s.err := rfl
@[simp] theorem State.outPoll_errStep (s : State) (sig : Signal) : (s.outPoll sig).2.errStep = s.errStep := rfl
@[simp] theorem State.outPoll_errSig (s : State) (sig : Signal) : (s.outPoll sig).2.errSig = s.errSig := rfl
@[simp] theorem State.outPoll_errArg (s : State) (sig : Signal) : (s.outPoll sig).2.errArg = s.errArg := rfl
@[simp] theorem State.outPoll_errSnap (s : State) (sig : Signal) : (s.outPoll sig).2.errSnap = s.errSnap := rfl
@[simp] theorem State.outPoll_intStatus (s : State) (sig : Signal) : (s.outPoll sig).2.intStatus = s.intStatus := rfl
@[simp] theorem State.outPoll_intEnable (s : State) (sig : Signal) : (s.outPoll sig).2.intEnable = s.intEnable := rfl
@[simp] theorem State.outPoll_old (s : State) (sig : Signal) : (s.outPoll sig).2.old = s.old := rfl
@[simp] theorem State.outPoll_target (s : State) (sig : Signal) : (s.outPoll sig).2.target = s.target := rfl
@[simp] theorem State.outPoll_origin (s : State) (sig : Signal) : (s.outPoll sig).2.origin = s.origin := rfl
@[simp] theorem State.outPoll_attempt (s : State) (sig : Signal) : (s.outPoll sig).2.attempt = s.attempt := rfl
@[simp] theorem State.outPoll_sample (s : State) (sig : Signal) : (s.outPoll sig).2.sample = s.sample := rfl
@[simp] theorem State.outPoll_lastWord (s : State) (sig : Signal) : (s.outPoll sig).2.lastWord = s.lastWord := rfl

@[simp] theorem State.withInputs_eq (s : State) (l : List Input) : s.withInputs l = s.withEnv { s.env with inputs := l } := rfl
@[simp] theorem State.record_eq (s : State) (ev : Event) :
    s.record ev = s.withEnv { s.env with trace := s.env.trace ++ [ev] } := rfl
@[simp] theorem State.reply_eq (s : State) (w : Word) :
    s.reply w = s.withEnv { s.env with replies := s.env.replies ++ [w] } := rfl
@[simp] theorem State.withHost_eq (s : State) (h : HostSide) : s.withHost h = s.withEnv { s.env with host := h } := rfl
@[simp] theorem State.withEnv_withEnv (s : State) (e e' : Env) : (s.withEnv e).withEnv e' = s.withEnv e' := rfl
@[simp] theorem State.withEnv_self (s : State) : s.withEnv s.env = s := rfl

end Sys2Proof.Machine
end

