-- ==== Sys2Proof/Laws/Triple.lean ====
section
/-! SUPPORT. What an operation of the sequencer does, said as a triple: from a state with P, it ends well in a state
with Q of its answer, or stops in a state with X of its reason. One rule for each way operations are put together, and
one for the sequencer's turn; a later proof cites these and unfolds no operation. -/

namespace Sys2Proof.Machine

/-- From P the operation ends with Q, or stops with X. -/
def Triple {α : Type} (P : State → Prop) (op : Op α) (Q : α → State → Prop) (X : Stop → State → Prop) : Prop :=
  ∀ s, P s → match op s with
    | .ok a t => Q a t
    | .error e t => X e t

variable {α β : Type} {P P' : State → Prop} {Q Q' : α → State → Prop} {X X' : Stop → State → Prop}

theorem Triple.conseq {op : Op α} (h : Triple P op Q X) (hP : ∀ s, P' s → P s) (hQ : ∀ a s, Q a s → Q' a s)
    (hX : ∀ e s, X e s → X' e s) : Triple P' op Q' X' := by
  intro s hs
  have := h s (hP s hs)
  cases hop : op s with
  | ok a t => rw [hop] at this; exact hQ _ _ this
  | error e t => rw [hop] at this; exact hX _ _ this

theorem Triple.pure {a : α} (h : ∀ s, P s → Q a s) : Triple P (pure a : Op α) Q X := fun s hs => h s hs

theorem Triple.bind {R : β → State → Prop} {op : Op α} {k : α → Op β} (h : Triple P op Q X)
    (hk : ∀ a, Triple (Q a) (k a) R X) : Triple P (op >>= k) R X := by
  intro s hs
  have h1 := h s hs
  show match EStateM.bind op k s with
    | .ok a t => R a t
    | .error e t => X e t
  unfold EStateM.bind
  cases hop : op s with
  | ok a t => rw [hop] at h1; exact hk a t h1
  | error e t => rw [hop] at h1; exact h1

theorem Triple.get_bind {k : State → Op α} (h : ∀ s, Triple (fun t => t = s ∧ P s) (k s) Q X) :
    Triple P (get >>= k) Q X := fun s hs => h s s ⟨rfl, hs⟩

theorem Triple.modify {f : State → State} {Q : Unit → State → Prop} (h : ∀ s, P s → Q () (f s)) :
    Triple P (modify f : Op Unit) Q X := fun s hs => h s hs

theorem Triple.set {s' : State} {Q : PUnit → State → Prop} (h : Q ⟨⟩ s') :
    Triple P (set s' : Op PUnit) Q X := fun _ _ => h

theorem Triple.modifyGet {f : State → α × State} (h : ∀ s, P s → Q (f s).1 (f s).2) :
    Triple P (modifyGet f : Op α) Q X := by
  intro s hs
  have := h s hs
  exact this

theorem Triple.throw {e : Stop} (h : ∀ s, P s → X e s) : Triple P (throw e : Op α) Q X := fun s hs => h s hs

theorem Triple.ite {c : Prop} [Decidable c] {op op' : Op α} (h : c → Triple P op Q X) (h' : ¬c → Triple P op' Q X) :
    Triple P (if c then op else op') Q X := by
  split
  · next hc => exact h hc
  · next hc => exact h' hc

/-- A fact about no state may be taken out of the precondition. -/
theorem Triple.of_pre {c : Prop} {op : Op α} (h : c → Triple P op Q X) : Triple (fun s => c ∧ P s) op Q X :=
  fun s hs => h hs.1 s hs.2

theorem Triple.of_forall_state {op : Op α} (h : ∀ s, P s → Triple (fun t => t = s) op Q X) : Triple P op Q X :=
  fun s hs => h s hs s rfl

/-- R104: everything the host's turn can do is an access and a new place in its program. -/
theorem hostTurn_ok {s s' : State} (h : s.hostTurn = .ok s') :
    s' = s ∨ ∃ a t x, s.hostAccess a = .ok t ∧ s' = t.withHost x := by
  unfold State.hostTurn at h
  split at h
  · cases h; exact .inl rfl
  · split at h
    · next ha => cases h; exact .inr ⟨_, _, _, ha, rfl⟩
    · cases h

/-- R278: the host's turn faults only where its access does. -/
theorem hostTurn_error {s : State} {f : Fault} (h : s.hostTurn = .error f) : ∃ a, s.hostAccess a = .error f := by
  unfold State.hostTurn at h
  split at h
  · cases h
  · split at h
    · cases h
    · next ha => cases h; exact ⟨_, ha⟩

/-- What inputs leave true: P through every strobe and performed access and any change of the coming inputs and of the
host's place in its program, X at a reset or a bus error. -/
structure Stable (P : State → Prop) (X : Stop → State → Prop) : Prop where
  msTick : ∀ s, P s → P s.msTick
  access : ∀ s a s', P s → s.hostAccess a = .ok s' → P s'
  inputs : ∀ s l, P s → P (s.withInputs l)
  host : ∀ s x, P s → P (s.withHost x)
  reset : ∀ s l, P s → X .reset (s.resetNow.withInputs l)
  fault : ∀ s a f, P s → s.hostAccess a = .error f → X (.fault f) s

theorem absorb_spec (h : Stable P X) (l : List Input) :
    ∀ s, P s → match absorb l s with
      | .ok _ t => P t
      | .error e t => X e t := by
  induction l with
  | nil => intro s hs; exact h.inputs s [] hs
  | cons i rest ih =>
    intro s hs
    cases i with
    | turn p => exact h.inputs s rest hs
    | msTick => exact ih _ (h.msTick s hs)
    | rst => exact h.reset s rest hs
    | access a =>
      simp only [absorb]
      cases ha : s.hostAccess a with
      | ok s' => exact ih _ (h.access s a s' hs ha)
      | error f => exact h.fault s a f hs ha
    | host =>
      simp only [absorb]
      cases ht : s.hostTurn with
      | ok s' =>
        rcases hostTurn_ok ht with rfl | ⟨a, t, x, ha, rfl⟩
        · exact ih _ hs
        · exact ih _ (h.host t x (h.access s a t hs ha))
      | error f =>
        obtain ⟨a, ha⟩ := hostTurn_error ht
        exact h.fault s a f hs ha

/-- P holds again when the sequencer's turn comes, whatever came before it. -/
def Turn (P : State → Prop) (X : Stop → State → Prop) : Prop := Triple P awaitTurn (fun _ => P) X

/-- What every input keeps, any number of inputs keeps. -/
theorem Stable.turn (h : Stable P X) : Turn P X := by
  intro s hs
  have h1 := absorb_spec h s.env.inputs s hs
  unfold Machine.awaitTurn
  cases ha : absorb s.env.inputs s with
  | ok a t => rw [ha] at h1; exact h1
  | error e t => rw [ha] at h1; exact h1

theorem awaitTurn_quiet {s : State} (h : s.env.inputs = []) : awaitTurn s = .ok () s := by
  unfold awaitTurn
  rw [h]
  show EStateM.Result.ok () (s.withEnv { s.env with inputs := [] }) = _
  rw [← h]
  rfl

/-- Where no input is to come, everything holds again at once. -/
theorem Turn.of_quiet (h : ∀ s, P s → s.env.inputs = []) : Turn P X := by
  intro s hs
  rw [awaitTurn_quiet (h s hs)]
  exact hs

theorem Triple.act {f : State → State} {Q : Unit → State → Prop} (h : Turn P X) (hf : ∀ s, P s → Q () (f s)) :
    Triple P (act f) Q X := Triple.bind h fun _ => Triple.modify hf

theorem Triple.memRead {w : Window} {off : Nat} {Q : Word → State → Prop} (h : Turn P X)
    (hf : ∀ s, P s → Q (s.outRead w off).1 (s.outRead w off).2) : Triple P (memRead w off) Q X :=
  Triple.bind h fun _ => Triple.modifyGet hf

theorem Triple.pollSignal {sig : Signal} {Q : Bool → State → Prop} (h : Turn P X)
    (hf : ∀ s, P s → Q (s.outPoll sig).1 (s.outPoll sig).2) : Triple P (pollSignal sig) Q X :=
  Triple.bind h fun _ => Triple.modifyGet hf

theorem Triple.goTo {x : SeqStep} {Q : Unit → State → Prop} (h : ∀ s, P s → Q () (s.setStep x)) :
    Triple P (goTo x) Q X := Triple.modify h

/-- A timeout caught becomes an answer; a reset or a fault goes on. -/
theorem Triple.catchTimeout {op : Op Word} {R : Option Word → State → Prop} {Q : Word → State → Prop}
    (h : Triple P op Q X) (hok : ∀ a s, Q a s → R (some a) s) (hto : ∀ s, X .timeout s → R none s)
    (hX : ∀ e s, e ≠ .timeout → X e s → X' e s) : Triple P (catchTimeout op) R X' := by
  intro s hs
  have h1 := h s hs
  unfold Machine.catchTimeout
  cases hop : op s with
  | ok a t => rw [hop] at h1; exact hok a t h1
  | error e t =>
    rw [hop] at h1
    cases e with
    | timeout => exact hto t h1
    | reset => exact hX _ t (by simp) h1
    | fault f => exact hX _ t (by simp) h1

/-- What a whole operation leaves when it answers a next state. -/
theorem runOp_next {op : Op Unit} {Q : Unit → State → Prop} (h : Triple P op Q X) {s t : State}
    (hs : P s) (hrun : runOp op s = .next t) : Q () t ∨ X .timeout t ∨ X .reset t := by
  have h1 := h s hs
  unfold runOp at hrun
  split at hrun
  · cases hop : op s with
    | ok a s' =>
      rw [hop] at h1 hrun
      simp only [outcomeOf, Host.Outcome.next.injEq] at hrun
      subst hrun; exact .inl h1
    | error e s' =>
      rw [hop] at h1 hrun
      cases e with
      | timeout => simp only [outcomeOf, Host.Outcome.next.injEq] at hrun; subst hrun; exact .inr (.inl h1)
      | reset => simp only [outcomeOf, Host.Outcome.next.injEq] at hrun; subst hrun; exact .inr (.inr h1)
      | fault f => simp [outcomeOf] at hrun
  · simp at hrun

end Sys2Proof.Machine
end

