-- ==== Sys2Proof/Laws/Waits.lean ====
section
/-! SUPPORT. The bounded waits (spec/41_transition_engine.md R153) as triples: P through every attempt, R after an
attempt that answers true, and what a timeout leaves. -/

namespace Sys2Proof.Machine

variable {P R T : State → Prop} {X : Stop → State → Prop}

/-- What every attempt of a signal wait keeps. -/
structure PollStep (sig : Signal) (P R : State → Prop) : Prop where
  attempt : ∀ s k, P s → P { s with attempt := k }
  seen : ∀ s, P s → (s.outPoll sig).1 = true → R (s.outPoll sig).2
  unseen : ∀ s, P s → (s.outPoll sig).1 = false → P (s.outPoll sig).2

theorem Triple.pollLoop {sig : Signal} (h : Turn P X) (hp : PollStep sig P R) (n : Nat) :
    ∀ k, Triple P (pollLoop sig n k) (fun b s => if b then R s else P s) X := by
  induction n with
  | zero => exact fun k => Triple.pure (fun s hs => hs)
  | succ n ih =>
    intro k
    refine Triple.bind (Q := fun _ => P) (Triple.modify fun s hs => hp.attempt s k hs) fun _ => ?_
    refine Triple.bind (Q := fun b s => if b then R s else P s) (Triple.pollSignal h fun s hs => ?_) fun b => ?_
    · cases hb : (s.outPoll sig).1
      · exact hp.unseen s hs hb
      · exact hp.seen s hs hb
    · cases b
      · exact ih (k + 1)
      · exact Triple.pure fun s hs => hs

theorem Triple.timedOut {sig : Signal} {crit : Bool} {arg : Byte} {snap : Word} {Q : Bool → State → Prop}
    (hc : crit = true → ∀ s, P s → X .timeout (s.recordTimeout sig arg snap))
    (hn : crit = false → ∀ s, P s → Q false ((s.recordTimeout sig arg snap).raiseInt .warn)) :
    Triple P (timedOut sig crit arg snap) Q X := by
  cases crit
  · refine Triple.bind (Q := fun _ t => ∃ s, P s ∧ t = s.recordTimeout sig arg snap)
      (Triple.modify fun s hs => ⟨s, hs, rfl⟩) fun _ => ?_
    intro t ht
    obtain ⟨s, hs, rfl⟩ := ht
    exact hn rfl s hs
  · refine Triple.bind (Q := fun _ => X .timeout) (Triple.modify fun s hs => hc rfl s hs) fun _ => ?_
    exact Triple.throw fun s hs => hs

/-- A signal wait: R if the signal came; else what the timeout leaves. -/
theorem Triple.waitSig {sig : Signal} {crit : Bool} {arg : Byte} (h : Turn P X) (hp : PollStep sig P R)
    (hc : crit = true → ∀ s, P s → X .timeout (s.recordTimeout sig arg 0))
    (hn : crit = false → ∀ s, P s → T ((s.recordTimeout sig arg 0).raiseInt .warn)) :
    Triple P (waitSig sig crit arg) (fun b s => if b then R s else T s) X := by
  refine Triple.get_bind fun s0 => ?_
  refine Triple.bind (Q := fun b s => if b then R s else P s) ?_ fun b => ?_
  · exact (Triple.pollLoop h hp s0.cfg.waitMax 1).conseq (fun s hs => hs.1 ▸ hs.2) (fun _ _ hs => hs) (fun _ _ hs => hs)
  · cases b
    · exact Triple.timedOut hc hn
    · exact Triple.pure fun s hs => hs

/-- A critical signal wait ends well only if the signal came. -/
theorem Triple.waitSigCritical {sig : Signal} {arg : Byte} (h : Turn P X) (hp : PollStep sig P R)
    (hc : ∀ s, P s → X .timeout (s.recordTimeout sig arg 0)) :
    Triple P (Machine.waitSig sig true arg) (fun _ => R) X := by
  refine Triple.get_bind fun s0 => ?_
  refine Triple.bind (Q := fun b s => if b then R s else P s) ?_ fun b => ?_
  · exact (Triple.pollLoop h hp s0.cfg.waitMax 1).conseq (fun s hs => hs.1 ▸ hs.2) (fun _ _ hs => hs) (fun _ _ hs => hs)
  · cases b
    · exact Triple.timedOut (fun _ => hc) (fun hf => by simp at hf)
    · exact Triple.pure fun s hs => hs

/-- What every attempt of a register wait keeps. -/
structure ReadStep (w : Window) (off : Nat) (mask : Word) (P R : State → Prop) : Prop where
  attempt : ∀ s k, P s → P { s with attempt := k }
  seen : ∀ s v, P s → (s.outRead w off).1 = v → v &&& mask = mask → R { (s.outRead w off).2 with lastWord := v }
  unseen : ∀ s v, P s → (s.outRead w off).1 = v → P { (s.outRead w off).2 with lastWord := v }

theorem Triple.readLoop {w : Window} {off : Nat} {mask : Word} (h : Turn P X) (hp : ReadStep w off mask P R) (n : Nat) :
    ∀ k, Triple P (readLoop w off mask n k) (fun b s => if b then R s else P s) X := by
  induction n with
  | zero => exact fun k => Triple.pure (fun s hs => hs)
  | succ n ih =>
    intro k
    refine Triple.bind (Q := fun _ => P) (Triple.modify fun s hs => hp.attempt s k hs) fun _ => ?_
    refine Triple.bind (Q := fun v t => ∃ s, P s ∧ (s.outRead w off).1 = v ∧ t = (s.outRead w off).2)
      (Triple.memRead h fun s hs => ⟨s, hs, rfl, rfl⟩) fun v => ?_
    by_cases hm : v &&& mask = mask
    · refine Triple.bind (Q := fun _ => R) (Triple.modify ?_) fun _ => ?_
      · rintro t ⟨s, hs, hv, rfl⟩; exact hp.seen s v hs hv hm
      · simp only [if_pos hm]; exact Triple.pure fun s hs => hs
    · refine Triple.bind (Q := fun _ => P) (Triple.modify ?_) fun _ => ?_
      · rintro t ⟨s, hs, hv, rfl⟩; exact hp.unseen s v hs hv
      · simp only [if_neg hm]; exact ih (k + 1)

/-- A register wait: R if the bits came; else what the timeout leaves. -/
theorem Triple.waitReg {w : Window} {off : Nat} {mask : Word} {sig : Signal} {crit : Bool} {arg : Byte}
    (h : Turn P X) (hp : ReadStep w off mask P R)
    (hc : crit = true → ∀ s snap, P s → X .timeout (s.recordTimeout sig arg snap))
    (hn : crit = false → ∀ s snap, P s → T ((s.recordTimeout sig arg snap).raiseInt .warn)) :
    Triple P (waitReg w off mask sig crit arg) (fun b s => if b then R s else T s) X := by
  refine Triple.get_bind fun s0 => ?_
  refine Triple.bind (Q := fun b s => if b then R s else P s) ?_ fun b => ?_
  · exact (Triple.readLoop h hp s0.cfg.waitMax 1).conseq (fun s hs => hs.1 ▸ hs.2) (fun _ _ hs => hs) (fun _ _ hs => hs)
  · cases b
    · refine Triple.get_bind fun s1 => ?_
      exact (Triple.timedOut (P := P) (fun hf s hs => hc hf s _ hs) (fun hf s hs => hn hf s _ hs)).conseq
        (fun s hs => by have := hs.1 ▸ hs.2; exact this) (fun _ _ hs => hs) (fun _ _ hs => hs)
    · exact Triple.pure fun s hs => hs

/-- A critical register wait ends well only if the bits came. -/
theorem Triple.waitRegCritical {w : Window} {off : Nat} {mask : Word} {sig : Signal} {arg : Byte}
    (h : Turn P X) (hp : ReadStep w off mask P R)
    (hc : ∀ s snap, P s → X .timeout (s.recordTimeout sig arg snap)) :
    Triple P (Machine.waitReg w off mask sig true arg) (fun _ => R) X := by
  refine Triple.get_bind fun s0 => ?_
  refine Triple.bind (Q := fun b s => if b then R s else P s) ?_ fun b => ?_
  · exact (Triple.readLoop h hp s0.cfg.waitMax 1).conseq (fun s hs => hs.1 ▸ hs.2) (fun _ _ hs => hs) (fun _ _ hs => hs)
  · cases b
    · refine Triple.get_bind fun s1 => ?_
      exact (Triple.timedOut (P := P) (fun _ s hs => hc s _ hs) (fun hf => by simp at hf)).conseq
        (fun s hs => by have := hs.1 ▸ hs.2; exact this) (fun _ _ hs => hs) (fun _ _ hs => hs)
    · exact Triple.pure fun s hs => hs

end Sys2Proof.Machine
end

