-- ==== Sys2Proof/Laws/Host.lean ====
section
/-! SUPPORT. What the inputs of the block can change (spec/20_memory.md R65): one case lemma for host accesses, one for
the strobe, and the frames that follow. -/

namespace Sys2Proof.Machine

/-- R65, R94, R120: everything a host write can do. -/
theorem writeReg_cases (s : State) (off : Nat) (v : Word) :
    s.writeReg off v = s ∨
    (s.busy = true ∧ s.writeReg off v = s.raiseInt .drop) ∨
    (s.busy = false ∧ s.writeReg off v = { s with slot := some (capture v s.arg0 s.arg1) }) ∨
    s.writeReg off v = { s with arg0 := v } ∨
    s.writeReg off v = { s with arg1 := v } ∨
    s.writeReg off v = s.acknowledge v ∨
    s.writeReg off v = { s with intEnable := v.setWidth 6 } := by
  unfold State.writeReg
  split
  · unfold State.writeCmd
    cases hb : s.busy
    · exact .inr (.inr (.inl ⟨rfl, rfl⟩))
    · exact .inr (.inl ⟨rfl, rfl⟩)
  · exact .inr (.inr (.inr (.inl rfl)))
  · exact .inr (.inr (.inr (.inr (.inl rfl))))
  · exact .inr (.inr (.inr (.inr (.inr (.inl rfl)))))
  · exact .inr (.inr (.inr (.inr (.inr (.inr rfl)))))
  · exact .inl rfl

/-- R61: everything a host access can do, if it is no bus error. -/
theorem hostAccess_cases {s s' : State} {a : Access} (h : s.hostAccess a = .ok s') :
    s' = s ∨ (∃ w, s' = s.reply w) ∨ ∃ off v, s' = s.writeReg off v := by
  unfold State.hostAccess at h
  split at h
  · split at h
    · split at h
      · cases h; exact .inr (.inl ⟨_, rfl⟩)
      · cases h; exact .inr (.inr ⟨_, _, rfl⟩)
    · cases h
  · cases h; exact .inl rfl

/-- What no input but a reset changes: everything but the command port's argument and slot registers, the interrupt
registers, the countdown, and the coming inputs and replies of the model. -/
structure InputFrame (s t : State) : Prop where
  cfg : t.cfg = s.cfg
  step : t.step = s.step
  lockOwner : t.lockOwner = s.lockOwner
  currentLevel : t.currentLevel = s.currentLevel
  currentVoltage : t.currentVoltage = s.currentVoltage
  thermalOffset : t.thermalOffset = s.thermalOffset
  dllForced : t.dllForced = s.dllForced
  dllLocked : t.dllLocked = s.dllLocked
  pendingLock : t.pendingLock = s.pendingLock
  safePllLevel : t.safePllLevel = s.safePllLevel
  pllCur : t.pllCur = s.pllCur
  qosMin : t.qosMin = s.qosMin
  qosMax : t.qosMax = s.qosMax
  lastRequested : t.lastRequested = s.lastRequested
  thermState : t.thermState = s.thermState
  rankLevel : t.rankLevel = s.rankLevel
  sampled : t.sampled = s.sampled
  monStopped : t.monStopped = s.monStopped
  cmdActive : t.cmdActive = s.cmdActive
  result : t.result = s.result
  err : t.err = s.err
  errStep : t.errStep = s.errStep
  errSig : t.errSig = s.errSig
  errArg : t.errArg = s.errArg
  errSnap : t.errSnap = s.errSnap
  old : t.old = s.old
  target : t.target = s.target
  origin : t.origin = s.origin
  attempt : t.attempt = s.attempt
  sample : t.sample = s.sample
  lastWord : t.lastWord = s.lastWord
  readAnswers : t.env.readAnswers = s.env.readAnswers
  pollAnswers : t.env.pollAnswers = s.env.pollAnswers
  draws : t.env.draws = s.env.draws
  owned : t.env.owned = s.env.owned
  selWord : t.env.selWord = s.env.selWord
  arefWord : t.env.arefWord = s.env.arefWord
  dllCtrlWord : t.env.dllCtrlWord = s.env.dllCtrlWord
  trace : t.env.trace = s.env.trace

theorem InputFrame.refl (s : State) : InputFrame s s := by constructor <;> rfl

theorem InputFrame.trans {s t u : State} (h : InputFrame s t) (h' : InputFrame t u) : InputFrame s u := by
  constructor
  all_goals first
    | exact h'.cfg.trans h.cfg | exact h'.step.trans h.step | exact h'.lockOwner.trans h.lockOwner
    | exact h'.currentLevel.trans h.currentLevel | exact h'.currentVoltage.trans h.currentVoltage
    | exact h'.thermalOffset.trans h.thermalOffset | exact h'.dllForced.trans h.dllForced
    | exact h'.dllLocked.trans h.dllLocked | exact h'.pendingLock.trans h.pendingLock
    | exact h'.safePllLevel.trans h.safePllLevel | exact h'.pllCur.trans h.pllCur
    | exact h'.qosMin.trans h.qosMin | exact h'.qosMax.trans h.qosMax
    | exact h'.lastRequested.trans h.lastRequested | exact h'.thermState.trans h.thermState
    | exact h'.rankLevel.trans h.rankLevel | exact h'.sampled.trans h.sampled
    | exact h'.monStopped.trans h.monStopped | exact h'.cmdActive.trans h.cmdActive
    | exact h'.result.trans h.result | exact h'.err.trans h.err | exact h'.errStep.trans h.errStep
    | exact h'.errSig.trans h.errSig | exact h'.errArg.trans h.errArg | exact h'.errSnap.trans h.errSnap
    | exact h'.old.trans h.old | exact h'.target.trans h.target | exact h'.origin.trans h.origin
    | exact h'.attempt.trans h.attempt | exact h'.sample.trans h.sample | exact h'.lastWord.trans h.lastWord
    | exact h'.readAnswers.trans h.readAnswers | exact h'.pollAnswers.trans h.pollAnswers
    | exact h'.draws.trans h.draws | exact h'.owned.trans h.owned | exact h'.selWord.trans h.selWord
    | exact h'.arefWord.trans h.arefWord | exact h'.dllCtrlWord.trans h.dllCtrlWord | exact h'.trace.trans h.trace

theorem inputFrame_withInputs (s : State) (l : List Input) : InputFrame s (s.withInputs l) := by constructor <;> rfl

theorem inputFrame_withHost (s : State) (x : HostSide) : InputFrame s (s.withHost x) := by constructor <;> rfl

/-- R222: the strobe changes the countdown only. -/
theorem inputFrame_msTick (s : State) : InputFrame s s.msTick := by
  unfold State.msTick
  split
  · exact InputFrame.refl s
  · constructor <;> rfl

theorem inputFrame_writeReg (s : State) (off : Nat) (v : Word) : InputFrame s (s.writeReg off v) := by
  rcases writeReg_cases s off v with h | ⟨-, h⟩ | ⟨-, h⟩ | h | h | h | h <;> rw [h] <;> constructor <;> rfl

theorem inputFrame_hostAccess {s s' : State} {a : Access} (h : s.hostAccess a = .ok s') : InputFrame s s' := by
  rcases hostAccess_cases h with rfl | ⟨w, rfl⟩ | ⟨off, v, rfl⟩
  · exact InputFrame.refl _
  · constructor <;> rfl
  · exact inputFrame_writeReg s off v

theorem inputFrame_hostTurn {s s' : State} (h : s.hostTurn = .ok s') : InputFrame s s' := by
  rcases hostTurn_ok h with rfl | ⟨a, t, x, ha, rfl⟩
  · exact InputFrame.refl _
  · exact (inputFrame_hostAccess ha).trans (inputFrame_withHost t x)

/-- The countdown is the strobe's alone. -/
theorem countdown_hostAccess {s s' : State} {a : Access} (h : s.hostAccess a = .ok s') :
    s'.tickRemaining = s.tickRemaining ∧ s'.tickPending = s.tickPending := by
  rcases hostAccess_cases h with rfl | ⟨w, rfl⟩ | ⟨off, v, rfl⟩
  · exact ⟨rfl, rfl⟩
  · exact ⟨rfl, rfl⟩
  · rcases writeReg_cases s off v with h | ⟨-, h⟩ | ⟨-, h⟩ | h | h | h | h <;> rw [h] <;> exact ⟨rfl, rfl⟩

/-- A property that depends only on what inputs leave alone is stable, if a reset and a bus error have what they need. -/
theorem stable_of_frame {P : State → Prop} {X : Stop → State → Prop} (h : ∀ s t, InputFrame s t → P s → P t)
    (hr : ∀ s l, P s → X .reset (s.resetNow.withInputs l)) (hf : ∀ s f, P s → X (.fault f) s) : Stable P X where
  msTick s := h _ _ (inputFrame_msTick s)
  access _ _ _ hs ha := h _ _ (inputFrame_hostAccess ha) hs
  inputs s l := h _ _ (inputFrame_withInputs s l)
  host s x := h _ _ (inputFrame_withHost s x)
  reset := hr
  fault s _ f hs _ := hf s f hs


end Sys2Proof.Machine
end

