-- ==== Sys2Proof/Laws/Passes.lean ====
section
/-! SUPPORT. The rule by which a property passes through the operations of the Transition Engine
(spec/41_transition_engine.md R150 to R174): it is enough that it passes through the few state functions the operation
issues. `Ev` says which outbound events the property allows. -/

namespace Sys2Proof.Machine

/-- A property kept by an operation that ends well; where it stops, X holds. -/
def Keeps {α : Type} (P : State → Prop) (X : Stop → State → Prop) (op : Op α) : Prop := Triple P op (fun _ => P) X

/-- A property that passes the sequencer's turn, the outbound reads, writes and polls, and the waits that only warn. -/
structure Passes (c : Config) (Ev : Event → Prop) (P : State → Prop) (X : Stop → State → Prop) : Prop where
  cfg : ∀ s, P s → s.cfg = c
  turn : Turn P X
  setStep : ∀ s x, P s → P (s.setStep x)
  attempt : ∀ s k, P s → P { s with attempt := k }
  lastWord : ∀ s v, P s → P { s with lastWord := v }
  read : ∀ s w off, (∀ v, Ev (.rd w off v)) → P s → P (s.outRead w off).2
  write : ∀ s w off v, Ev (.wr w off v) → P s → P (s.outWrite w off v)
  poll : ∀ s sig, (∀ b, Ev (.poll sig b)) → P s → P (s.outPoll sig).2
  warned : ∀ s sig arg snap, P s → P ((s.recordTimeout sig arg snap).raiseInt .warn)

/-- A property that passes the critical waits too. -/
structure PassesWaits (c : Config) (Ev : Event → Prop) (P : State → Prop) (X : Stop → State → Prop) : Prop
    extends Passes c Ev P X where
  timeout : ∀ s sig arg snap, P s → X .timeout (s.recordTimeout sig arg snap)

/-- A property that passes the primitive calls and the DLL writes too: so it passes a whole body. -/
structure PassesCalls (c : Config) (Ev : Event → Prop) (P : State → Prop) (X : Stop → State → Prop) : Prop
    extends PassesWaits c Ev P X where
  voltage : ∀ s v, Ev (.call (.setVoltage v)) → P s → P (s.issueVoltage v)
  clock : ∀ s first t p, Ev (.call p) → P s → P (s.issueClock first t p)
  safeMux : ∀ s, Ev (.call (.setMuxParent c.primaryMux c.safeSrc)) → P s → P s.issueSafeMux
  pll : ∀ s t, Ev (.call (.setPllRate c.pllId (c.pllAt t))) → P s → P (s.issuePll t)
  targetMux : ∀ s t, Ev (.call (.setMuxParent c.primaryMux c.pllSrc)) → P s → P (s.issueTargetMux t)
  keepLock : ∀ s w, P s → P (s.keepLock w)
  forceDll : ∀ s v, (∀ v, Ev (.wr .phy c.offDllCtrl v)) → P s → P (s.forceDll v)
  freeDll : ∀ s, (∀ v, Ev (.wr .phy c.offDllCtrl v)) → P s → P s.freeDll
  markLocked : ∀ s, P s → P s.markLocked

variable {α β : Type} {c : Config} {Ev : Event → Prop} {P R : State → Prop} {X : Stop → State → Prop}

theorem Keeps.bind {op : Op α} {k : α → Op β} (h : Keeps P X op) (hk : ∀ a, Keeps P X (k a)) : Keeps P X (op >>= k) :=
  Triple.bind h hk

theorem Keeps.pure (a : α) : Keeps P X (pure a : Op α) := Triple.pure fun _ hs => hs

theorem Keeps.modify {f : State → State} (h : ∀ s, P s → P (f s)) : Keeps P X (modify f : Op Unit) := Triple.modify h

theorem Keeps.ite {c : Prop} [Decidable c] {op op' : Op α} (h : c → Keeps P X op) (h' : ¬c → Keeps P X op') :
    Keeps P X (if c then op else op') := Triple.ite h h'

/-- After reading the state an operation may go on as if it had not. -/
theorem Keeps.get_bind {k : State → Op α} (h : ∀ s, P s → Keeps P X (k s)) : Keeps P X (get >>= k) :=
  Triple.get_bind fun s t ht => by
    obtain ⟨rfl, ht⟩ := ht
    exact h t ht t ht

/-- An operation whose answer does not matter may be followed by one from what it leaves. -/
theorem Triple.seq {op : Op Unit} {k : Op β} {Q : β → State → Prop} (h : Keeps P X op) (hk : Triple P k Q X) :
    Triple P (do op; k) Q X := Triple.bind h fun _ => hk

namespace Passes

variable (h : Passes c Ev P X)
include h

theorem goTo (x : SeqStep) : Keeps P X (goTo x) := Keeps.modify fun s => h.setStep s x

/-- Reading the state, of which the property and the configuration are known. -/
theorem get_bind {k : State → Op α} (hk : ∀ s, P s → s.cfg = c → Keeps P X (k s)) : Keeps P X (get >>= k) :=
  Keeps.get_bind fun s hs => hk s hs (h.cfg s hs)

theorem memRead {w : Window} {off : Nat} (he : ∀ v, Ev (.rd w off v)) : Keeps P X (memRead w off) :=
  Triple.memRead h.turn fun s => h.read s w off he

theorem memWrite {w : Window} {off : Nat} {v : Word} (he : Ev (.wr w off v)) : Keeps P X (memWrite w off v) :=
  Triple.act h.turn fun s => h.write s w off v he

theorem act {f : State → State} (hf : ∀ s, P s → P (f s)) : Keeps P X (act f) := Triple.act h.turn hf

theorem pollStep {sig : Signal} (he : ∀ b, Ev (.poll sig b)) : PollStep sig P P where
  attempt := h.attempt
  seen s hs _ := h.poll s sig he hs
  unseen s hs _ := h.poll s sig he hs

theorem readStep {w : Window} {off : Nat} {mask : Word} (he : ∀ v, Ev (.rd w off v)) : ReadStep w off mask P P where
  attempt := h.attempt
  seen s v hs _ _ := h.lastWord _ v (h.read s w off he hs)
  unseen s v hs _ := h.lastWord _ v (h.read s w off he hs)

/-- A register wait that only warns (R227). -/
theorem waitRegWarn {w : Window} {off : Nat} {mask : Word} {sig : Signal} {arg : Byte}
    (he : ∀ v, Ev (.rd w off v)) : Keeps P X (waitReg w off mask sig false arg) := by
  refine (Triple.waitReg (T := P) h.turn (h.readStep he) (fun hc => by cases hc)
    (fun _ s snap => h.warned s sig arg snap)).conseq (fun _ hs => hs) (fun b s hs => ?_) (fun _ _ hs => hs)
  cases b <;> exact hs

theorem arefWrite (he : ∀ v, Ev (.wr .drex c.offAref v)) : Keeps P X arefWrite := by
  unfold Machine.arefWrite
  exact (h.goTo _).bind fun _ => h.act fun s hs => h.write s _ _ _ (h.cfg s hs ▸ he _) hs

theorem writeWords (offs : List Nat) (vs : List Word) (he : ∀ off ∈ offs, ∀ v, Ev (.wr .drex off v)) :
    Keeps P X (writeWords offs vs) := by
  induction offs generalizing vs with
  | nil => exact Keeps.pure _
  | cons off offs ih =>
    cases vs with
    | nil => exact Keeps.pure _
    | cons v vs => exact (h.memWrite (he off (by simp) v)).bind fun _ => ih vs fun o ho => he o (by simp [ho])

theorem writeTiming {l : Level} (hr : ∀ v, Ev (.rd .drex c.offTsel v)) (hs : ∀ v, Ev (.wr .drex c.offTsel v))
    (hw : ∀ off, off ∈ c.offTset0 ∨ off ∈ c.offTset1 → ∀ v, Ev (.wr .drex off v)) : Keeps P X (writeTiming l) := by
  unfold Machine.writeTiming
  refine h.get_bind fun s _ hc => (h.memRead (hc ▸ hr)).bind fun w => ?_
  refine (h.writeWords _ _ fun off ho => hw off ?_).bind fun _ => h.memWrite (hc ▸ hs _)
  rw [hc] at ho
  unfold Config.timingSet at ho
  split at ho
  · exact .inr ho
  · exact .inl ho

end Passes

namespace PassesWaits

variable (h : PassesWaits c Ev P X)
include h

theorem waitSig {sig : Signal} {crit : Bool} {arg : Byte} (he : ∀ b, Ev (.poll sig b)) :
    Keeps P X (waitSig sig crit arg) := by
  refine (Triple.waitSig (T := P) h.turn (h.pollStep he) (fun _ s => h.timeout s sig arg 0)
    (fun _ s => h.warned s sig arg 0)).conseq (fun _ hs => hs) (fun b s hs => ?_) (fun _ _ hs => hs)
  cases b <;> exact hs

theorem waitReg {w : Window} {off : Nat} {mask : Word} {sig : Signal} {crit : Bool} {arg : Byte}
    (he : ∀ v, Ev (.rd w off v)) : Keeps P X (waitReg w off mask sig crit arg) := by
  refine (Triple.waitReg (T := P) h.turn (h.readStep he) (fun _ s snap => h.timeout s sig arg snap)
    (fun _ s snap => h.warned s sig arg snap)).conseq (fun _ hs => hs) (fun b s hs => ?_) (fun _ _ hs => hs)
  cases b <;> exact hs

theorem pssWait {x : SeqStep} (hp : ∀ b, Ev (.poll .pauseDone b)) : Keeps P X (pssWait x) :=
  (h.goTo x).bind fun _ => (h.waitSig hp).bind fun _ => Keeps.pure _

end PassesWaits

/-- The events of the block that are not voltage calls or voltage polls (R150). -/
structure ClockEvents (c : Config) (Ev : Event → Prop) : Prop where
  clock : ∀ p, p.isClock = true → Ev (.call p)
  poll : ∀ sig b, sig ≠ .voltDone → Ev (.poll sig b)
  readSel : ∀ v, Ev (.rd .drex c.offTsel v)
  writeSel : ∀ v, Ev (.wr .drex c.offTsel v)
  writeSet : ∀ off, off ∈ c.offTset0 ∨ off ∈ c.offTset1 → ∀ v, Ev (.wr .drex off v)

/-- All the events of a body (R150). -/
structure BodyEvents (c : Config) (Ev : Event → Prop) : Prop extends ClockEvents c Ev where
  voltage : ∀ v, Ev (.call (.setVoltage v))
  pollVolt : ∀ b, Ev (.poll .voltDone b)
  readStat : ∀ v, Ev (.rd .phy c.offDllStat v)
  writeCtrl : ∀ v, Ev (.wr .phy c.offDllCtrl v)
  writeAref : ∀ v, Ev (.wr .drex c.offAref v)

theorem Passes.timing (h : Passes c Ev P X) (he : ClockEvents c Ev) (l : Level) : Keeps P X (Machine.writeTiming l) :=
  h.writeTiming he.readSel he.writeSel he.writeSet

/-- Where every event is allowed. -/
theorem Passes.anyTiming (h : Passes c (fun _ => True) P X) (l : Level) : Keeps P X (Machine.writeTiming l) :=
  h.writeTiming (fun _ => trivial) (fun _ => trivial) fun _ _ _ => trivial

namespace PassesCalls

variable (h : PassesCalls c Ev P X)
include h

theorem setVolt {v : Word} (hv : Ev (.call (.setVoltage v))) (hp : ∀ b, Ev (.poll .voltDone b)) :
    Keeps P X (setVolt v) := by
  unfold Machine.setVolt
  exact (h.act fun s => h.voltage s v hv).bind fun _ => (h.waitSig hp).bind fun _ => Keeps.pure _

theorem voltageStep {x : SeqStep} {t : Level} (hv : ∀ v, Ev (.call (.setVoltage v)))
    (hp : ∀ b, Ev (.poll .voltDone b)) : Keeps P X (voltageStep x t) :=
  (h.goTo x).bind fun _ => h.get_bind fun _ _ _ => h.setVolt (hv _) hp

theorem dllCapture (hr : ∀ v, Ev (.rd .phy c.offDllStat v)) (hw : ∀ v, Ev (.wr .phy c.offDllCtrl v)) :
    Keeps P X dllCapture := by
  unfold Machine.dllCapture
  refine (h.goTo _).bind fun _ => h.get_bind fun s _ hs => (h.memRead (hs ▸ hr)).bind fun w => ?_
  exact (Keeps.modify fun s => h.keepLock s w).bind fun _ => h.act fun s => h.forceDll s _ hw

theorem clockCall {first : Bool} {t : Level} {p : Prim} (hp : Ev (.call p)) : Keeps P X (clockCall first t p) :=
  h.act fun s => h.clock s first t p hp

theorem repoint {first : Bool} {t : Level} {m src : Byte} (hc : Ev (.call (.setMuxParent m src)))
    (hp : ∀ b, Ev (.poll (.muxSettled m) b)) : Keeps P X (repoint first t m src) :=
  (h.clockCall hc).bind fun _ => h.get_bind fun _ _ _ => (h.waitSig hp).bind fun _ => Keeps.pure _

theorem setDiv {first : Bool} {t : Level} (hc : ∀ d hz, Ev (.call (.setDivider d hz)))
    (hp : ∀ b, Ev (.poll .divDone b)) : Keeps P X (setDiv first t) :=
  h.get_bind fun _ _ _ => (h.clockCall (hc _ _)).bind fun _ => (h.waitSig hp).bind fun _ => Keeps.pure _

theorem repointAll (hc : ∀ m src, Ev (.call (.setMuxParent m src))) (hp : ∀ m b, Ev (.poll (.muxSettled m) b))
    (t : Level) (l : List (Byte × Byte)) : ∀ first, Keeps P X (repointAll first t l) := by
  induction l with
  | nil => exact fun _ => Keeps.pure _
  | cons p rest ih => exact fun first => (h.repoint (hc _ _) (hp _)).bind fun _ => ih false

theorem clockChange (he : ClockEvents c Ev) (o t : Level) : Keeps P X (clockChange o t) := by
  unfold Machine.clockChange
  refine h.get_bind fun s _ _ => ?_
  have hm := h.repointAll (fun m src => he.clock (.setMuxParent m src) rfl)
    (fun m b => he.poll (.muxSettled m) b (by simp)) t
  have hd : ∀ first, Keeps P X (Machine.setDiv first t) := fun first =>
    h.setDiv (fun d hz => he.clock (.setDivider d hz) rfl) (fun b => he.poll .divDone b (by simp))
  cases s.cfg.switchOrder o t with
  | muxThenDiv => exact (hm _ _).bind fun _ => hd _
  | divThenMux => exact (hd _).bind fun _ => hm _ _

theorem simplePath (he : ClockEvents c Ev) (o t : Level) (u : Bool) : Keeps P X (simplePath o t u) := by
  unfold Machine.simplePath
  cases u
  · exact (h.goTo _).bind fun _ => (h.clockChange he o t).bind fun _ => (h.goTo _).bind fun _ => h.timing he t
  · exact ((h.goTo _).bind fun _ => h.timing he t).bind fun _ =>
      (h.goTo _).bind fun _ => (h.clockChange he o t).bind fun _ => Keeps.pure _

theorem pllSafeSwitch (he : ClockEvents c Ev) (t : Level) : Keeps P X (pllSafeSwitch t) := by
  have hw : ∀ x, Keeps P X (pssWait x) := fun x => h.pssWait fun b => he.poll .pauseDone b (by simp)
  have h1 : Keeps P X pssSafeMux := (h.goTo _).bind fun _ => h.act fun s => h.safeMux s (he.clock _ rfl)
  have h2 : Keeps P X pssSafeTiming := (h.goTo _).bind fun _ => h.get_bind fun _ _ _ => h.timing he _
  have h4 : Keeps P X (pssReprogram t) := (h.goTo _).bind fun _ => (h.act fun s => h.pll s t (he.clock _ rfl)).bind
    fun _ => (h.waitSig fun b => he.poll .pllLocked b (by simp)).bind fun _ => Keeps.pure _
  have h5 : Keeps P X (pssTargetTiming t) := (h.goTo _).bind fun _ => h.timing he t
  have h6 : Keeps P X (pssTargetMux t) := (h.goTo _).bind fun _ => h.act fun s => h.targetMux s t (he.clock _ rfl)
  exact h1.bind fun _ => h2.bind fun _ => (hw _).bind fun _ => h4.bind fun _ => h5.bind fun _ => h6.bind fun _ => hw _

theorem clockPath (he : ClockEvents c Ev) (o t : Level) (u : Bool) : Keeps P X (clockPath o t u) :=
  h.get_bind fun _ _ _ => Keeps.ite (fun _ => h.pllSafeSwitch he t) (fun _ => h.simplePath he o t u)

theorem dllPost (hr : ∀ v, Ev (.rd .phy c.offDllStat v)) (hw : ∀ v, Ev (.wr .phy c.offDllCtrl v)) (t : Level) :
    Keeps P X (dllPost t) := by
  unfold Machine.dllPost
  refine (h.goTo _).bind fun _ => h.get_bind fun s _ hs => Keeps.ite (fun _ => ?_) (fun _ => ?_)
  · exact (h.act fun s => h.freeDll s hw).bind fun _ => (h.waitReg (hs ▸ hr)).bind fun _ =>
      Keeps.modify fun s => h.markLocked s
  · exact h.act fun s => h.forceDll s _ hw

theorem changeLevel (he : BodyEvents c Ev) (o t : Level) : Keeps P X (changeLevel o t) := by
  have hcap := h.dllCapture he.readStat he.writeCtrl
  have hv : ∀ x, Keeps P X (Machine.voltageStep x t) := fun x => h.voltageStep he.voltage he.pollVolt
  have hclk := h.clockPath he.toClockEvents o t
  have hpost := h.dllPost he.readStat he.writeCtrl t
  have haref := h.arefWrite he.writeAref
  unfold Machine.changeLevel
  refine h.get_bind fun s _ _ => ?_
  cases s.needsCapture t <;> cases goesUp s.cfg o t
  · exact (hclk _).bind fun _ => hpost.bind fun _ => haref.bind fun _ => hv _
  · exact (hv _).bind fun _ => (hclk _).bind fun _ => hpost.bind fun _ => haref.bind fun _ => Keeps.pure _
  · exact hcap.bind fun _ => (hclk _).bind fun _ => hpost.bind fun _ => haref.bind fun _ => hv _
  · exact hcap.bind fun _ => (hv _).bind fun _ => (hclk _).bind fun _ => hpost.bind fun _ => haref.bind fun _ =>
      Keeps.pure _

theorem transitionBody (he : BodyEvents c Ev) (hb : ∀ s t o, P s → P (s.beginBody t o)) (f : Word) (o : Origin) :
    Keeps P X (transitionBody f o) := by
  have hr : Keeps P X (resolveTarget f o) := (h.goTo _).bind fun _ => h.get_bind fun s _ _ =>
    (Keeps.modify fun s' => hb s' _ o).bind fun _ => Keeps.pure _
  have hm : ∀ t, Keeps P X (moveTo t) := fun t => h.get_bind fun s _ _ =>
    Keeps.ite (fun _ => h.arefWrite he.writeAref) (fun _ => h.changeLevel he _ _)
  exact hr.bind fun t => (hm t).bind fun _ => h.get_bind fun s _ _ => Keeps.pure _

end PassesCalls

end Sys2Proof.Machine
end

