-- ==== Sys2Proof/Laws/Coherent.lean ====
section
/-! SUPPORT. Which state functions keep `Coherent` (Safety.lean), and that a transition body does: so a body leaves a
coherent state however it ends (spec/41_transition_engine.md R176, R178). -/

namespace Sys2Proof.Machine

/-- The fields that `Coherent` reads, but for the countdown's two. -/
structure CoreFrame (s t : State) : Prop where
  cfg : t.cfg = s.cfg
  currentLevel : t.currentLevel = s.currentLevel
  safePllLevel : t.safePllLevel = s.safePllLevel
  dllForced : t.dllForced = s.dllForced
  dllLocked : t.dllLocked = s.dllLocked
  pendingLock : t.pendingLock = s.pendingLock
  pllCur : t.pllCur = s.pllCur
  err : t.err = s.err
  rankLevel : t.rankLevel = s.rankLevel
  sample : t.sample = s.sample
  monStopped : t.monStopped = s.monStopped
  thermState : t.thermState = s.thermState
  lockOwner : t.lockOwner = s.lockOwner
  cmdActive : t.cmdActive = s.cmdActive

theorem InputFrame.core {s t : State} (h : InputFrame s t) : CoreFrame s t :=
  ⟨h.cfg, h.currentLevel, h.safePllLevel, h.dllForced, h.dllLocked, h.pendingLock, h.pllCur, h.err, h.rankLevel, h.sample,
    h.monStopped, h.thermState, h.lockOwner, h.cmdActive⟩

/-- Coherence looks at the fields of `CoreFrame` and the countdown only. -/
theorem Coherent.of_frame {s t : State} (h : CoreFrame s t) (hr : t.tickRemaining = s.tickRemaining)
    (hp : t.tickPending = s.tickPending) (hs : Coherent s) : Coherent t where
  cfgWf := h.cfg ▸ hs.cfgWf
  level := h.cfg ▸ h.currentLevel ▸ hs.level
  safeLevel := h.cfg ▸ h.safePllLevel ▸ hs.safeLevel
  dll := h.dllLocked ▸ h.dllForced ▸ hs.dll
  lockValue := h.cfg ▸ h.pendingLock ▸ hs.lockValue
  pll := by unfold PllMatches; rw [h.cfg, h.currentLevel, h.pllCur]; exact hs.pll
  errCode := h.err ▸ hs.errCode
  rankCount := h.cfg ▸ h.rankLevel ▸ hs.rankCount
  rankCodes := h.cfg ▸ h.rankLevel ▸ hs.rankCodes
  sampleCodes := h.cfg ▸ h.sample ▸ hs.sampleCodes
  countMax := hr ▸ hs.countMax
  counting := hr ▸ hp ▸ h.monStopped ▸ h.lockOwner ▸ hs.counting
  active := h.cmdActive ▸ h.lockOwner ▸ hs.active
  ticking := hp ▸ h.lockOwner ▸ hs.ticking
  stopped := hp ▸ h.monStopped ▸ hs.stopped
  tripped := h.thermState ▸ h.monStopped ▸ h.lockOwner ▸ hs.tripped
  noMonitor := h.cfg ▸ h.thermState ▸ h.monStopped ▸ hs.noMonitor

/-- R222: the strobe keeps coherence. -/
theorem Coherent.msTick {s : State} (hs : Coherent s) : Coherent s.msTick := by
  unfold State.msTick
  split
  · exact hs
  · next h =>
    simp only [Bool.or_eq_true, not_or, Bool.not_eq_true, beq_eq_false_iff_ne] at h
    obtain ⟨⟨hm, -⟩, ho⟩ := h
    have hlt := s.tickRemaining.isLt
    have hmax := hs.countMax
    have hval : (BitVec.ofNat 32 (s.tickRemaining.toNat - 1)).toNat = s.tickRemaining.toNat - 1 := by
      rw [BitVec.toNat_ofNat]; exact Nat.mod_eq_of_lt (by omega)
    refine { hs with countMax := ?_, counting := ?_, ticking := fun h => absurd h ho, stopped := ?_ }
    · show (BitVec.ofNat 32 (s.tickRemaining.toNat - 1)).toNat ≤ 1000
      omega
    · intro _ hp _
      have : ¬ s.tickRemaining.toNat ≤ 1 := of_decide_eq_false hp
      show 1 ≤ (BitVec.ofNat 32 (s.tickRemaining.toNat - 1)).toNat
      omega
    · intro h; rw [hm] at h; cases h

/-- R61, R65: a host access keeps coherence. -/
theorem Coherent.hostAccess {s s' : State} {a : Access} (h : s.hostAccess a = .ok s') (hs : Coherent s) : Coherent s' :=
  hs.of_frame (inputFrame_hostAccess h).core (countdown_hostAccess h).1 (countdown_hostAccess h).2

/-- R4: what a well-formed configuration says of the named levels. -/
theorem Config.wf_levels {c : Config} (h : c.wf = true) :
    c.safeLevel.toNat < c.nLevels ∧ c.dllFreeLevel.toNat < c.nLevels ∧ c.bootLevel.toNat < c.nLevels := by
  unfold Config.wf Config.wfNamedLevels at h
  simp only [Bool.and_eq_true, decide_eq_true_eq] at h
  obtain ⟨⟨⟨⟨-, ⟨h1, h2⟩, h3⟩, -⟩, -⟩, -⟩ := h
  exact ⟨h1, h2, h3⟩

theorem Config.wf_count {c : Config} (h : c.wf = true) : 1 ≤ c.nLevels ∧ c.nLevels ≤ 256 := by
  unfold Config.wf Config.wfLevelCount at h
  simp only [Bool.and_eq_true, decide_eq_true_eq] at h
  obtain ⟨⟨⟨⟨⟨h, -⟩, -⟩, -⟩, -⟩, -⟩ := h
  exact h

theorem Config.wf_engine {c : Config} (h : c.wf = true) :
    1 ≤ c.waitMax ∧ 1 ≤ c.lockW ∧ c.lockW ≤ 32 ∧ c.tselBit ≤ 31 ∧ c.bootLock.toNat < 2 ^ c.lockW := by
  unfold Config.wf Config.wfEngine at h
  simp only [Bool.and_eq_true, decide_eq_true_eq] at h
  obtain ⟨⟨⟨-, ⟨⟨⟨⟨h1, -⟩, h2, h3⟩, h4⟩, -⟩, h5⟩, -⟩, -⟩ := h
  exact ⟨h1, h2, h3, h4, h5⟩

theorem Config.wf_shape {c : Config} (h : c.wf = true) :
    (∀ p ∈ c.opps, p.timing.length = c.tpw ∧ p.orderTo.length = c.nLevels) ∧ c.offTset0.length = c.tpw ∧
      c.offTset1.length = c.tpw := by
  unfold Config.wf Config.wfShape at h
  simp only [Bool.and_eq_true, List.all_eq_true, beq_iff_eq] at h
  obtain ⟨⟨-, ⟨h1, h2⟩, h3⟩, -⟩ := h
  exact ⟨h1, h2, h3⟩

theorem Config.wf_monitor {c : Config} {th : Thermal} (h : c.wf = true) (hth : c.thermal = some th) :
    th.wfWidths = true ∧ th.wfThresholds = true ∧ c.wfCeilings th = true ∧ th.wfPollMs = true := by
  unfold Config.wf Config.wfThermal at h
  simp only [hth, Bool.and_eq_true] at h
  obtain ⟨-, ⟨⟨⟨⟨h1, h2⟩, h3⟩, h4⟩, -⟩⟩ := h
  exact ⟨h1, h2, h3, h4⟩

/-- R4.5, R221: every poll interval is 100 to 1000 ms. -/
theorem Thermal.pollMs_range {th : Thermal} (h : th.wfPollMs = true) (st : ThermState) :
    100 ≤ (th.pollMs.get st).toNat ∧ (th.pollMs.get st).toNat ≤ 1000 := by
  unfold Thermal.wfPollMs PerState.nonRising at h
  simp only [Bool.and_eq_true, decide_eq_true_eq] at h
  obtain ⟨⟨h1, h2⟩, ⟨h3, h4⟩, h5⟩ := h
  rw [h1] at h3
  rw [h2] at h5
  have e1 : (1000 : Word).toNat = 1000 := rfl
  have e2 : (100 : Word).toNat = 100 := rfl
  cases st <;> simp only [PerState.get] <;> first | (rw [h1]; omega) | (rw [h2]; omega) | omega

/-- R9: the level found is a level. -/
theorem floorLevel_lt {c : Config} (h : c.wf = true) (v : Word) : (floorLevel c v).toNat < c.nLevels := by
  have hc := Config.wf_count h
  unfold floorLevel
  split
  · next i hi =>
    have hlt := (List.findIdx?_eq_some_iff_findIdx_eq.1 hi).1
    have : (BitVec.ofNat 8 i).toNat ≤ i := by rw [BitVec.toNat_ofNat]; exact Nat.mod_le _ _
    exact Nat.lt_of_le_of_lt this hlt
  · show (BitVec.ofNat 8 (c.nLevels - 1)).toNat < c.nLevels
    rw [BitVec.toNat_ofNat]
    exact Nat.lt_of_le_of_lt (Nat.mod_le _ _) (by omega)

/-- R155: a lock field fits its width. -/
theorem lockField_lt (c : Config) (w : Word) : (lockField c w).toNat < 2 ^ c.lockW := by
  unfold lockField
  rw [BitVec.toNat_ofNat]
  exact Nat.lt_of_le_of_lt (Nat.mod_le _ _) (Nat.mod_lt _ (Nat.two_pow_pos _))

/-- R226: a code fits its width. -/
theorem codeField_lt (th : Thermal) (w : Word) : (codeField th w).toNat < 2 ^ th.codeW := by
  unfold codeField
  rw [BitVec.toNat_ofNat]
  exact Nat.lt_of_le_of_lt (Nat.mod_le _ _) (Nat.mod_lt _ (Nat.two_pow_pos _))

/-! ### The operation in progress -/

/-- What holds at every action of an operation that holds the lock for `L`: coherence, and a fact `F` of the operation. -/
structure Running (L : LockOwner) (c : Config) (F : State → Prop) (s : State) : Prop where
  coherent : Coherent s
  owner : s.lockOwner = L
  cfg : s.cfg = c
  fact : F s

/-- How such an operation may stop: by a timeout it is still running; by a reset the block is at rest. -/
def StopsWell (L : LockOwner) (c : Config) (F : State → Prop) : Stop → State → Prop
  | .timeout, t => Running L c F t
  | .reset, t => Coherent t ∧ AtRest t
  | .fault _, _ => True

/-- How a whole command or tick may stop: never by a timeout (R122, R235). -/
def EndsWell : Stop → State → Prop
  | .timeout, _ => False
  | .reset, t => Coherent t ∧ AtRest t
  | .fault _, _ => True

/-- A fact about the fields of `CoreFrame` only. -/
def CoreFact (F : State → Prop) : Prop := ∀ s t, CoreFrame s t → F s → F t

/-- R320: the state after reset is coherent and at rest. -/
theorem Coherent.resetOf {c : Config} (h : c.wf = true) (e : Env) : Coherent (State.resetOf c e) where
  cfgWf := h
  level := (Config.wf_levels h).2.2
  safeLevel := rfl
  dll := fun hl => by
    have : (c.bootLevel == c.dllFreeLevel) = true := hl
    show (c.bootLevel != c.dllFreeLevel) = false
    simp only [bne, this, Bool.not_true]
  lockValue := (Config.wf_engine h).2.2.2.2
  pll := fun _ => rfl
  errCode := .inl rfl
  rankCount := List.length_replicate
  rankCodes := fun p hp => by
    obtain rfl := List.eq_of_mem_replicate hp
    exact fun th _ => ⟨Nat.two_pow_pos _, Nat.two_pow_pos _⟩
  sampleCodes := fun p hp => by cases hp
  countMax := Nat.le_refl 1000
  counting := fun _ _ _ => show 1 ≤ 1000 by omega
  active := fun h => by cases h
  ticking := fun _ => rfl
  stopped := fun _ => rfl
  tripped := fun ht => by cases ht
  noMonitor := fun hn => ⟨rfl, by
    have hn' : c.thermal = none := hn
    show (!c.thermal.isSome) = true
    rw [hn']; rfl⟩

variable {L : LockOwner} {c : Config} {F : State → Prop}

/-- An update that touches no field of `CoreFrame` and no countdown. -/
theorem Running.of_frame {G : State → Prop} {s : State} (hs : Running L c G s) (hG : CoreFact G) (t : State)
    (h : CoreFrame s t) (hr : t.tickRemaining = s.tickRemaining) (hp : t.tickPending = s.tickPending) : Running L c G t :=
  ⟨hs.coherent.of_frame h hr hp, h.lockOwner.trans hs.owner, h.cfg.trans hs.cfg, hG s t h hs.fact⟩

theorem Running.stable {G : State → Prop} {X : Stop → State → Prop} (hG : CoreFact G)
    (hr : ∀ t, Coherent t ∧ AtRest t → X .reset t) (hf : ∀ f t, X (.fault f) t) : Stable (Running L c G) X where
  msTick s hs := ⟨hs.coherent.msTick, (inputFrame_msTick s).lockOwner.trans hs.owner,
    (inputFrame_msTick s).cfg.trans hs.cfg, hG _ _ (inputFrame_msTick s).core hs.fact⟩
  access _ _ _ hs ha := ⟨hs.coherent.hostAccess ha, (inputFrame_hostAccess ha).lockOwner.trans hs.owner,
    (inputFrame_hostAccess ha).cfg.trans hs.cfg, hG _ _ (inputFrame_hostAccess ha).core hs.fact⟩
  inputs s l hs := hs.of_frame hG _ (inputFrame_withInputs s l).core rfl rfl
  host s x hs := hs.of_frame hG _ (inputFrame_withHost s x).core rfl rfl
  reset s l hs := hr _ ⟨Coherent.of_frame (s := s.resetNow) (inputFrame_withInputs _ l).core rfl rfl
    (Coherent.resetOf hs.coherent.cfgWf _), ⟨rfl, rfl, rfl⟩⟩
  fault s _ f _ _ := hf f s

/-- A fact of the core fields passes what touches none of them. -/
theorem Running.passesInputs {G : State → Prop} {X : Stop → State → Prop} (hG : CoreFact G)
    (hr : ∀ t, Coherent t ∧ AtRest t → X .reset t) (hf : ∀ f t, X (.fault f) t) :
    Passes c (fun _ => True) (Running L c G) X where
  cfg _ hs := hs.cfg
  turn := (Running.stable hG hr hf).turn
  setStep s x hs := hs.of_frame hG (s.setStep x) (by constructor <;> rfl) rfl rfl
  attempt s k hs := hs.of_frame hG { s with attempt := k } (by constructor <;> rfl) rfl rfl
  lastWord s v hs := hs.of_frame hG { s with lastWord := v } (by constructor <;> rfl) rfl rfl
  read s w off _ hs := hs.of_frame hG _ (by constructor <;> simp) (by simp) (by simp)
  write s w off v _ hs := hs.of_frame hG (s.outWrite w off v) (by constructor <;> rfl) rfl rfl
  poll s sig _ hs := hs.of_frame hG (s.outPoll sig).2 (by constructor <;> rfl) rfl rfl
  warned s sig arg snap hs :=
    hs.of_frame hG ((s.recordTimeout sig arg snap).raiseInt .warn) (by constructor <;> rfl) rfl rfl

/-- The same within a body, whose timeouts leave the operation running with its own fact. -/
theorem Running.passes {G : State → Prop} (hG : CoreFact G) (hF : ∀ s, G s → F s) :
    PassesWaits c (fun _ => True) (Running L c G) (StopsWell L c F) where
  toPasses := Running.passesInputs hG (fun _ h => h) fun _ _ => trivial
  timeout s sig arg snap hs :=
    have h := hs.of_frame hG (s.recordTimeout sig arg snap) (by constructor <;> rfl) rfl rfl
    ⟨h.coherent, h.owner, h.cfg, hF _ h.fact⟩

/-- The same for the actions of a command or tick outside a body. -/
theorem Running.passesTop {G : State → Prop} (hG : CoreFact G) : Passes c (fun _ => True) (Running L c G) EndsWell :=
  Running.passesInputs hG (fun _ h => h) fun _ _ => trivial

/-! ### The transition body -/

/-- What a fact of the operation may not depend on, so that a body keeps it. -/
structure BodyFact (F : State → Prop) : Prop where
  same : ∀ s t, t.cfg = s.cfg → t.rankLevel = s.rankLevel → t.sample = s.sample → t.monStopped = s.monStopped →
    t.thermState = s.thermState → F s → F t

theorem BodyFact.core (h : BodyFact F) : CoreFact F := fun s t hf =>
  h.same s t hf.cfg hf.rankLevel hf.sample hf.monStopped hf.thermState

/-- A body fact together with one of the level, the PLL and the DLL. -/
theorem BodyFact.and (h : BodyFact F) (D : Level → Word → Bool → Prop) :
    CoreFact fun s => F s ∧ D s.currentLevel s.pllCur s.dllForced := fun s t hf hs =>
  ⟨h.core s t hf hs.1, by rw [hf.currentLevel, hf.pllCur, hf.dllForced]; exact hs.2⟩

variable (hF : BodyFact F)
include hF

/-- With a fact of the level, the PLL and the DLL beside the operation's own. -/
abbrev With (F : State → Prop) (D : Level → Word → Bool → Prop) (s : State) : Prop :=
  F s ∧ D s.currentLevel s.pllCur s.dllForced

theorem Running.passesWith (D : Level → Word → Bool → Prop) :
    PassesWaits c (fun _ => True) (Running L c (With F D)) (StopsWell L c F) :=
  Running.passes (hF.and D) fun _ hs => hs.1

theorem Running.setVolt (v : Word) : Keeps (Running L c F) (StopsWell L c F) (setVolt v) := by
  have h := Running.passes (L := L) (c := c) hF.core fun _ hs => hs
  unfold Machine.setVolt
  exact (h.act fun s hs => hs.of_frame hF.core (s.issueVoltage v) (by constructor <;> rfl) rfl rfl).bind fun _ =>
    (h.waitSig fun _ => trivial).bind fun _ => Keeps.pure _

theorem Running.forceDll {s : State} (v : Word) (hs : Running L c F s) : Running L c F (s.forceDll v) :=
  ⟨{ hs.coherent with dll := fun h => by cases h }, hs.owner, hs.cfg, hF.same s _ rfl rfl rfl rfl rfl hs.fact⟩

theorem Running.dllCapture : Keeps (Running L c F) (StopsWell L c F) dllCapture := by
  have h := Running.passes (L := L) (c := c) hF.core fun _ hs => hs
  unfold Machine.dllCapture
  refine (h.goTo _).bind fun _ => h.get_bind fun s _ _ => (h.memRead fun _ => trivial).bind fun w => ?_
  refine Keeps.bind (Keeps.modify fun s hs => ?_) fun _ => h.act fun s hs => Running.forceDll hF _ hs
  exact ⟨{ hs.coherent with lockValue := lockField_lt _ _ }, hs.owner, hs.cfg, hF.same s _ rfl rfl rfl rfl rfl hs.fact⟩

/-- R164: a clock call of the simple path keeps coherence where the target needs no PLL change (R157). -/
theorem Running.clockCall {t : Level} (ht : t.toNat < c.nLevels) (first : Bool) (p : Prim) :
    Keeps (Running L c (With F fun _ q _ => t ≠ c.safeLevel → q = c.pllAt t)) (StopsWell L c F) (clockCall first t p) := by
  refine Triple.act (Running.passesWith hF _).turn fun s hs => ?_
  obtain ⟨hc, ho, rfl, hfact⟩ := hs
  refine ⟨{ hc with level := ?_, pll := ?_ }, ho, rfl, hF.same s _ rfl rfl rfl rfl rfl hfact.1, hfact.2⟩
  · cases first
    · exact hc.level
    · exact ht
  · cases first
    · exact hc.pll
    · exact hfact.2

theorem Running.clockChange {o t : Level} (ht : t.toNat < c.nLevels) :
    Keeps (Running L c (With F fun _ q _ => t ≠ c.safeLevel → q = c.pllAt t)) (StopsWell L c F) (clockChange o t) := by
  have h := Running.passesWith (L := L) (c := c) hF fun _ q _ => t ≠ c.safeLevel → q = c.pllAt t
  have hm : ∀ l first, Keeps (Running L c (With F fun _ q _ => t ≠ c.safeLevel → q = c.pllAt t)) (StopsWell L c F)
      (repointAll first t l) := fun l => by
    induction l with
    | nil => exact fun _ => Keeps.pure _
    | cons p rest ih =>
      exact fun first => Keeps.bind (Keeps.bind (Running.clockCall hF ht first _) fun _ => h.get_bind fun _ _ _ =>
        (h.waitSig fun _ => trivial).bind fun _ => Keeps.pure _) fun _ => ih false
  have hd : ∀ first, Keeps (Running L c (With F fun _ q _ => t ≠ c.safeLevel → q = c.pllAt t)) (StopsWell L c F)
      (Machine.setDiv first t) := fun first =>
    h.get_bind fun _ _ _ => Keeps.bind (Running.clockCall hF ht first _) fun _ =>
      (h.waitSig fun _ => trivial).bind fun _ => Keeps.pure _
  unfold Machine.clockChange
  refine h.get_bind fun s _ _ => ?_
  cases s.cfg.switchOrder o t with
  | muxThenDiv => exact (hm _ _).bind fun _ => hd _
  | divThenMux => exact (hd _).bind fun _ => hm _ _

theorem Running.simplePath {o t : Level} {u : Bool} (ht : t.toNat < c.nLevels) :
    Keeps (Running L c (With F fun _ q _ => t ≠ c.safeLevel → q = c.pllAt t)) (StopsWell L c F) (simplePath o t u) := by
  have h := Running.passesWith (L := L) (c := c) hF fun _ q _ => t ≠ c.safeLevel → q = c.pllAt t
  have hc := Running.clockChange (L := L) (o := o) hF ht
  unfold Machine.simplePath
  cases u
  · exact (h.goTo _).bind fun _ => hc.bind fun _ => (h.goTo _).bind fun _ => h.anyTiming t
  · exact ((h.goTo _).bind fun _ => h.anyTiming t).bind fun _ =>
      (h.goTo _).bind fun _ => hc.bind fun _ => Keeps.pure _

theorem Running.pllSafeSwitch {t : Level} (ht : t.toNat < c.nLevels) :
    Keeps (Running L c F) (StopsWell L c F) (pllSafeSwitch t) := by
  -- the level is the safe one from step 1 to step 6, and the PLL is the target's from step 4 on
  have h0 := Running.passes (L := L) (c := c) hF.core fun _ hs => hs
  have h1 := Running.passesWith (L := L) (c := c) hF fun l _ _ => l = c.safeLevel
  have h2 := Running.passesWith (L := L) (c := c) hF fun l q _ => l = c.safeLevel ∧ q = c.pllAt t
  have s1 : Triple (Running L c F) pssSafeMux (fun _ => Running L c (With F fun l _ _ => l = c.safeLevel))
      (StopsWell L c F) := by
    unfold pssSafeMux
    refine Triple.bind (h0.goTo _) fun _ => Triple.act h0.turn fun s hs => ?_
    obtain ⟨hc, ho, rfl, hfact⟩ := hs
    exact ⟨{ hc with level := (Config.wf_levels hc.cfgWf).1, pll := fun hne => absurd rfl hne }, ho, rfl,
      hF.same s _ rfl rfl rfl rfl rfl hfact, rfl⟩
  have s4 : Triple (Running L c (With F fun l _ _ => l = c.safeLevel)) (pssReprogram t)
      (fun _ => Running L c (With F fun l q _ => l = c.safeLevel ∧ q = c.pllAt t)) (StopsWell L c F) := by
    unfold pssReprogram
    refine Triple.bind (h1.goTo _) fun _ => Triple.bind
      (Q := fun _ => Running L c (With F fun l q _ => l = c.safeLevel ∧ q = c.pllAt t))
      (Triple.act h1.turn fun s hs => ?_) fun _ => (h2.waitSig fun _ => trivial).bind fun _ => Keeps.pure _
    obtain ⟨hc, ho, rfl, hfact⟩ := hs
    exact ⟨{ hc with pll := fun hne => absurd hfact.2 hne }, ho, rfl, hF.same s _ rfl rfl rfl rfl rfl hfact.1,
      hfact.2, rfl⟩
  have s6 : Triple (Running L c (With F fun l q _ => l = c.safeLevel ∧ q = c.pllAt t)) (pssTargetMux t)
      (fun _ => Running L c F) (StopsWell L c F) := by
    unfold pssTargetMux
    refine Triple.bind (h2.goTo _) fun _ => Triple.act h2.turn fun s hs => ?_
    obtain ⟨hc, ho, rfl, hfact⟩ := hs
    exact ⟨{ hc with level := ht, pll := fun _ => hfact.2.2 }, ho, rfl, hF.same s _ rfl rfl rfl rfl rfl hfact.1⟩
  exact Triple.bind s1 fun _ => Triple.bind ((h1.goTo _).bind fun _ => h1.get_bind fun _ _ _ => h1.anyTiming _) fun _ =>
    Triple.bind (h1.pssWait fun _ => trivial) fun _ => Triple.bind s4 fun _ =>
    Triple.bind ((h2.goTo _).bind fun _ => h2.anyTiming t) fun _ => Triple.bind s6 fun _ => h0.pssWait fun _ => trivial

theorem Running.clockPath {o t : Level} {u : Bool} (ht : t.toNat < c.nLevels) :
    Keeps (Running L c F) (StopsWell L c F) (clockPath o t u) := by
  unfold Machine.clockPath
  refine Triple.get_bind fun s => Triple.of_forall_state fun s' hs => ?_
  obtain ⟨rfl, hs⟩ := hs
  refine Triple.ite (fun _ => ?_) fun hn => ?_
  · exact (Running.pllSafeSwitch hF ht).conseq (fun s' he => he ▸ hs) (fun _ _ h => h) (fun _ _ h => h)
  · refine (Running.simplePath hF ht).conseq (fun s'' he => ?_) (fun _ _ h => ⟨h.coherent, h.owner, h.cfg, h.fact.1⟩)
      (fun _ _ h => h)
    subst he
    refine ⟨hs.coherent, hs.owner, hs.cfg, hs.fact, fun hne => ?_⟩
    simp only [State.needsPll, hs.cfg, Bool.and_eq_true, bne_iff_ne, ne_eq, not_and, Decidable.not_not] at hn
    exact (hn hne).symm

theorem Running.dllPost (t : Level) : Keeps (Running L c F) (StopsWell L c F) (dllPost t) := by
  have h0 := Running.passes (L := L) (c := c) hF.core fun _ hs => hs
  have h1 := Running.passesWith (L := L) (c := c) hF fun _ _ forced => forced = false
  unfold Machine.dllPost
  refine (h0.goTo _).bind fun _ => h0.get_bind fun s _ _ => Keeps.ite (fun _ => ?_) fun _ =>
    h0.act fun s hs => Running.forceDll hF _ hs
  refine Triple.bind (Q := fun _ => Running L c (With F fun _ _ forced => forced = false))
    (Triple.act h0.turn fun s hs => ?_) fun _ => Triple.bind (h1.waitReg fun _ => trivial) fun _ =>
    Triple.modify fun s hs => ?_
  · exact ⟨{ hs.coherent with dll := fun _ => rfl }, hs.owner, hs.cfg, hF.same s _ rfl rfl rfl rfl rfl hs.fact, rfl⟩
  · exact ⟨{ hs.coherent with dll := fun _ => hs.fact.2 }, hs.owner, hs.cfg, hF.same s _ rfl rfl rfl rfl rfl hs.fact.1⟩

theorem Running.changeLevel {o t : Level} (ht : t.toNat < c.nLevels) :
    Keeps (Running L c F) (StopsWell L c F) (changeLevel o t) := by
  have h := Running.passes (L := L) (c := c) hF.core fun _ hs => hs
  have hcap := Running.dllCapture (L := L) (c := c) hF
  have hv : ∀ x, Keeps (Running L c F) (StopsWell L c F) (voltageStep x t) := fun x =>
    (h.goTo x).bind fun _ => h.get_bind fun _ _ _ => Running.setVolt hF _
  have hclk : ∀ u, Keeps (Running L c F) (StopsWell L c F) (Machine.clockPath o t u) := fun u => Running.clockPath hF ht
  have hpost := Running.dllPost (L := L) (c := c) hF t
  have haref := h.arefWrite fun _ => trivial
  unfold Machine.changeLevel
  refine h.get_bind fun s _ _ => ?_
  cases s.needsCapture t <;> cases goesUp s.cfg o t
  · exact (hclk _).bind fun _ => hpost.bind fun _ => haref.bind fun _ => hv _
  · exact (hv _).bind fun _ => (hclk _).bind fun _ => hpost.bind fun _ => haref.bind fun _ => Keeps.pure _
  · exact hcap.bind fun _ => (hclk _).bind fun _ => hpost.bind fun _ => haref.bind fun _ => hv _
  · exact hcap.bind fun _ => (hv _).bind fun _ => (hclk _).bind fun _ => hpost.bind fun _ => haref.bind fun _ =>
      Keeps.pure _

/-- R150, R176: a transition body keeps coherence, whether it ends or times out. -/
theorem Running.transitionBody (f : Word) (o : Origin) :
    Keeps (Running L c F) (StopsWell L c F) (transitionBody f o) := by
  have h := Running.passes (L := L) (c := c) hF.core fun _ hs => hs
  unfold Machine.transitionBody
  refine Triple.bind (Q := fun t s => t.toNat < c.nLevels ∧ Running L c F s) ?_ fun t => Triple.of_pre fun ht => ?_
  · unfold resolveTarget
    refine Triple.bind (h.goTo _) fun _ => Triple.get_bind fun s => ?_
    refine Triple.bind (Q := fun _ s' => (s.resolve f).toNat < c.nLevels ∧ Running L c F s')
      (Triple.modify fun s' hs => ?_) fun _ => Triple.pure fun _ hs => hs
    obtain ⟨rfl, hs⟩ := hs
    refine ⟨?_, hs.of_frame hF.core (s'.beginBody (s'.resolve f) o) (by constructor <;> rfl) rfl rfl⟩
    exact hs.cfg ▸ floorLevel_lt hs.coherent.cfgWf _
  · have hm : Keeps (Running L c F) (StopsWell L c F) (moveTo t) := h.get_bind fun s _ _ =>
      Keeps.ite (fun _ => h.arefWrite fun _ => trivial) fun _ => Running.changeLevel hF ht
    exact hm.bind fun _ => h.get_bind fun s _ _ => Keeps.pure _

/-- R122, R235: with its timeout caught, a body leaves the operation running. -/
theorem Running.catchBody (f : Word) (o : Origin) :
    Keeps (Running L c F) EndsWell (catchTimeout (Machine.transitionBody f o)) :=
  Triple.catchTimeout (Running.transitionBody hF f o) (fun _ _ hs => hs) (fun _ hs => hs) fun e s he hs => by
    cases e with
    | timeout => exact absurd rfl he
    | reset => exact hs
    | fault => trivial

end Sys2Proof.Machine
end

