-- ==== Sys2Proof/Laws/PerInstr.lean ====
section
/-! SUPPORT. Statements made per instruction, about the instruction as syntax: what its command word looks like
(spec/30_encoding.md R90 to R93, R102). -/

namespace Sys2Proof.Laws

/-- R90, R91, R92: the command word has its reserved bits clear and an opcode of the table, and captured with any
argument words it is a legal command. -/
def EncodingFields.Statement (i : Instr) : Prop :=
  (encode i).1.extractLsb' 4 28 = 0 ∧ 1 ≤ ((encode i).1.extractLsb' 0 4).toNat ∧
    ((encode i).1.extractLsb' 0 4).toNat ≤ 4 ∧ ∀ a0 a1, (capture (encode i).1 a0 a1).wf = true

/-- The statement is about the command word alone. -/
theorem EncodingFields.of_word (i : Instr) (w : Word) (hw : (encode i).1 = w)
    (h : w.extractLsb' 4 28 = 0 ∧ 1 ≤ (w.extractLsb' 0 4).toNat ∧ (w.extractLsb' 0 4).toNat ≤ 4 ∧
      (capture w 0 0).wf = true) : EncodingFields.Statement i := by
  subst hw
  exact ⟨h.1, h.2.1, h.2.2.1, fun _ _ => h.2.2.2⟩

theorem EncodingFields.policy (desired : Word) : EncodingFields.Statement (.policy desired) :=
  EncodingFields.of_word _ 1 rfl (by decide)

theorem EncodingFields.transition (requested : Word) : EncodingFields.Statement (.transition requested) :=
  EncodingFields.of_word _ 2 rfl (by decide)

theorem EncodingFields.setBounds (min max : Word) : EncodingFields.Statement (.setBounds min max) :=
  EncodingFields.of_word _ 3 rfl (by decide)

theorem EncodingFields.cold (asserted : Bool) : EncodingFields.Statement (.cold asserted) :=
  EncodingFields.of_word _ 4 rfl (by decide)

end Sys2Proof.Laws
end

