-- ==== Sys2Proof/Laws/Trace.lean ====
section
/-! SUPPORT. What each outbound access adds to the trace (spec/20_memory.md R66, R67, R76), and the rule by which a
property of the trace passes through an operation: it is enough that it passes through the events the operation can add. -/

namespace Sys2Proof.Machine

@[simp] theorem outRead_trace (s : State) (w : Window) (off : Nat) :
    (s.outRead w off).2.env.trace = s.env.trace ++ [.rd w off (s.outRead w off).1] := by
  unfold State.outRead
  split
  · rfl
  · unfold Env.drawWord; cases s.env.readAnswers <;> rfl

@[simp] theorem outWrite_trace (s : State) (w : Window) (off : Nat) (v : Word) :
    (s.outWrite w off v).env.trace = s.env.trace ++ [.wr w off v] := rfl

@[simp] theorem outPoll_trace (s : State) (sig : Signal) :
    (s.outPoll sig).2.env.trace = s.env.trace ++ [.poll sig (s.outPoll sig).1] := by
  unfold State.outPoll Env.drawBit; cases s.env.pollAnswers <;> rfl

@[simp] theorem resetNow_cfg (s : State) : s.resetNow.cfg = s.cfg := rfl

@[simp] theorem resetNow_trace (s : State) : s.resetNow.env.trace = s.env.trace := rfl

/-- A property of the configuration, which it fixes, and of the trace; adding an event of `Ev` keeps it. -/
structure TraceProp (c : Config) (Ev : Event → Prop) (P : State → Prop) : Prop where
  cfg : ∀ s, P s → s.cfg = c
  same : ∀ s t, t.cfg = s.cfg → t.env.trace = s.env.trace → P s → P t
  pass : ∀ s t e, Ev e → t.cfg = s.cfg → t.env.trace = s.env.trace ++ [e] → P s → P t

variable {c : Config} {Ev : Event → Prop} {P : State → Prop}

theorem TraceProp.stable (h : TraceProp c Ev P) : Stable P (fun _ => P) :=
  stable_of_frame (fun s t hf => h.same s t hf.cfg hf.trace) (fun s _ => h.same s _ rfl rfl) (fun _ _ hs => hs)

/-- Such a property passes everything a body does, stops among them. -/
theorem TraceProp.passesCalls (h : TraceProp c Ev P) : PassesCalls c Ev P (fun _ => P) where
  cfg := h.cfg
  turn := h.stable.turn
  setStep s _ := h.same s _ rfl rfl
  attempt s _ := h.same s _ rfl rfl
  lastWord s _ := h.same s _ rfl rfl
  read s w off he := h.pass s _ _ (he _) (State.outRead_cfg s w off) (outRead_trace s w off)
  write s w off v he := h.pass s _ _ he rfl (outWrite_trace s w off v)
  poll s sig he := h.pass s _ _ (he _) rfl (outPoll_trace s sig)
  timeout s _ _ _ := h.same s _ rfl rfl
  warned s _ _ _ := h.same s _ rfl rfl
  voltage s _ he := h.pass s _ _ he rfl rfl
  clock s _ _ _ he := h.pass s _ _ he rfl rfl
  safeMux s he hs := h.pass s _ _ ((h.cfg s hs).symm ▸ he) rfl rfl hs
  pll s _ he hs := h.pass s _ _ ((h.cfg s hs).symm ▸ he) rfl rfl hs
  targetMux s _ he hs := h.pass s _ _ ((h.cfg s hs).symm ▸ he) rfl rfl hs
  keepLock s _ := h.same s _ rfl rfl
  forceDll s v he hs := h.pass s _ _ ((h.cfg s hs).symm ▸ he (s.cfg.dllCtrl.word true v)) rfl rfl hs
  freeDll s he hs := h.pass s _ _ ((h.cfg s hs).symm ▸ he (s.cfg.dllCtrl.word false s.pendingLock)) rfl rfl hs
  markLocked s := h.same s _ rfl rfl

/-- The events of a tick beside those of a body (R224 to R236). -/
structure TickEvents (c : Config) (Ev : Event → Prop) : Prop extends BodyEvents c Ev where
  writeMrr : ∀ th v, c.thermal = some th → Ev (.wr .drex th.offMrrCmd v)
  readStatus : ∀ th v, c.thermal = some th → Ev (.rd .drex th.offMrrStat v)
  readData : ∀ th v, c.thermal = some th → Ev (.rd .drex th.offMrrData v)
  notify : ∀ l c, Ev (.notify l c)
  shutdown : Ev .shutdown

namespace TraceProp

variable (h : TraceProp c Ev P)
include h

/-- An update of the state that leaves configuration and trace alone. -/
theorem modify {f : State → State} (hc : ∀ s, (f s).cfg = s.cfg) (ht : ∀ s, (f s).env.trace = s.env.trace) :
    Keeps P (fun _ => P) (modify f : Op Unit) := Keeps.modify fun s => h.same s _ (hc s) (ht s)

theorem act {f : State → State} (hc : ∀ s, (f s).cfg = s.cfg) (ht : ∀ s, (f s).env.trace = s.env.trace) :
    Keeps P (fun _ => P) (Machine.act f) := h.passesCalls.act fun s => h.same s _ (hc s) (ht s)

theorem catchBody (he : BodyEvents c Ev) (f : Word) (o : Origin) :
    Keeps P (fun _ => P) (catchTimeout (transitionBody f o)) :=
  Triple.catchTimeout (h.passesCalls.transitionBody he (fun s _ _ => h.same s _ rfl rfl) f o) (fun _ _ hs => hs)
    (fun _ hs => hs) (fun _ _ _ hs => hs)

theorem sampleRank (he : TickEvents c Ev) {th : Thermal} (hth : c.thermal = some th) (n : Nat) (r : Bool) (cmd : Word) :
    Keeps P (fun _ => P) (sampleRank th n r cmd) := by
  unfold Machine.sampleRank
  refine (h.passesCalls.memWrite (he.writeMrr th _ hth)).bind fun _ =>
    (h.passesCalls.waitReg fun v => he.readStatus th v hth).bind fun ok => Keeps.ite (fun _ => ?_) fun _ => Keeps.pure _
  exact (h.passesCalls.memRead fun v => he.readData th v hth).bind fun _ =>
    Keeps.bind (h.modify (fun _ => rfl) fun _ => rfl) fun _ => Keeps.pure _

theorem sampleFrom (he : TickEvents c Ev) {th : Thermal} (hth : c.thermal = some th) (l : List (Word × Word)) :
    ∀ n, Keeps P (fun _ => P) (sampleFrom th n l) := by
  induction l with
  | nil => exact fun _ => Keeps.pure _
  | cons p rest ih =>
    intro n
    unfold Machine.sampleFrom
    exact (h.sampleRank he hth n _ _).bind fun _ => Keeps.ite (fun _ => (h.sampleRank he hth n _ _).bind fun _ =>
      Keeps.ite (fun _ => ih _) fun _ => Keeps.pure _) fun _ => Keeps.pure _

theorem sampleAll (he : TickEvents c Ev) {th : Thermal} (hth : c.thermal = some th) :
    Keeps P (fun _ => P) (sampleAll th) :=
  (h.passesCalls.goTo _).bind fun _ => Keeps.bind (h.modify (fun _ => rfl) fun _ => rfl) fun _ => h.sampleFrom he hth _ _

theorem notifyFrom (he : TickEvents c Ev) (news prevs : List Byte) : ∀ n, Keeps P (fun _ => P) (notifyFrom n news prevs) := by
  induction news generalizing prevs with
  | nil => intro n; cases prevs <;> exact Keeps.pure _
  | cons new news ih =>
    intro n
    cases prevs with
    | nil => exact Keeps.pure _
    | cons prev prevs =>
      exact Keeps.ite (fun _ => ih _ _) fun _ =>
        (h.passesCalls.act fun s => h.pass s (s.record (.notify new n)) _ (he.notify _ _) rfl rfl).bind
          fun _ => (ih _ _).bind fun _ => Keeps.pure _

theorem notifyChanges (he : TickEvents c Ev) (prev : List Byte) : Keeps P (fun _ => P) (notifyChanges prev) :=
  h.passesCalls.get_bind fun _ _ _ => (h.notifyFrom he _ _ _).bind fun _ =>
    Keeps.ite (fun _ => h.modify (fun _ => rfl) fun _ => rfl) fun _ => Keeps.pure _

theorem reeval (he : TickEvents c Ev) : Keeps P (fun _ => P) reeval := by
  unfold Machine.reeval
  refine (h.passesCalls.goTo _).bind fun _ => h.passesCalls.get_bind fun s _ _ => Keeps.ite (fun _ => ?_) fun _ => Keeps.pure _
  exact (h.catchBody he.toBodyEvents _ _).bind fun r => by
    cases r <;> exact h.modify (fun _ => rfl) fun _ => rfl

theorem reevalIfChanged (he : TickEvents c Ev) (v : Word) : Keeps P (fun _ => P) (reevalIfChanged v) :=
  h.passesCalls.get_bind fun _ _ _ => Keeps.ite (fun _ => h.reeval he) fun _ => Keeps.pure _

theorem trip (he : TickEvents c Ev) (v : Word) : Keeps P (fun _ => P) (trip v) :=
  (h.passesCalls.act fun s => h.pass s s.shutDown _ he.shutdown rfl rfl).bind fun _ =>
    (h.reevalIfChanged he v).bind fun _ => h.act (fun _ => rfl) fun _ => rfl

theorem finishTick (th : Thermal) : Keeps P (fun _ => P) (finishTick th) := h.act (fun _ => rfl) fun _ => rfl

theorem monAref (he : TickEvents c Ev) : Keeps P (fun _ => P) monAref :=
  (h.passesCalls.goTo _).bind fun _ => h.passesCalls.act fun s hs =>
    h.passesCalls.write s _ _ _ (h.cfg s hs ▸ he.writeAref _) hs

theorem updateTick (he : TickEvents c Ev) (th : Thermal) : Keeps P (fun _ => P) (updateTick th) := by
  unfold Machine.updateTick
  refine (h.passesCalls.goTo _).bind fun _ => h.passesCalls.get_bind fun _ _ _ =>
    Keeps.bind (h.modify (fun _ => rfl) fun _ => rfl) fun _ => (h.notifyChanges he _).bind fun _ =>
    h.passesCalls.get_bind fun _ _ _ => Keeps.bind (h.modify (fun _ => rfl) fun _ => rfl)
    fun _ => h.passesCalls.get_bind fun _ _ _ => Keeps.ite (fun _ => h.trip he _) fun _ => ?_
  exact (h.monAref he).bind fun _ => (h.reevalIfChanged he _).bind fun _ => h.finishTick th

theorem tick (he : TickEvents c Ev) {th : Thermal} (hth : c.thermal = some th) : Keeps P (fun _ => P) (tick th) :=
  (h.sampleAll he hth).bind fun _ => Keeps.ite (fun _ => h.updateTick he th) fun _ => h.finishTick th

theorem completeWith (code : BitVec 4) (res : Option Word) : Keeps P (fun _ => P) (completeWith code res) :=
  h.act (fun _ => rfl) fun _ => rfl

theorem completeTransition (r : Option Word) : Keeps P (fun _ => P) (completeTransition r) := by
  cases r <;> exact h.completeWith _ _

theorem policyOp (he : BodyEvents c Ev) (d : Word) : Keeps P (fun _ => P) (policyOp d) :=
  h.passesCalls.get_bind fun _ _ _ => Keeps.ite
    (fun _ => Keeps.bind (h.modify (fun _ => rfl) fun _ => rfl) fun _ => h.passesCalls.get_bind fun _ _ _ =>
      (h.catchBody he _ _).bind fun r => h.completeTransition r)
    fun _ => h.completeWith _ _

theorem transitionOp (he : BodyEvents c Ev) (d : Word) : Keeps P (fun _ => P) (transitionOp d) :=
  h.passesCalls.get_bind fun _ _ _ => Keeps.ite
    (fun _ => Keeps.bind (h.modify (fun _ => rfl) fun _ => rfl) fun _ => (h.catchBody he _ _).bind fun r => h.completeTransition r)
    fun _ => h.completeWith _ _

theorem setBoundsOp (lo hi : Word) : Keeps P (fun _ => P) (setBoundsOp lo hi) :=
  Keeps.bind (h.modify (fun _ => rfl) fun _ => rfl) fun _ => h.completeWith _ _

theorem coldOp (he : BodyEvents c Ev) (b : Bool) : Keeps P (fun _ => P) (coldOp b) := by
  refine Keeps.bind (h.modify (fun _ => rfl) fun _ => rfl) fun _ =>
    Keeps.bind (Triple.catchTimeout ?_ (fun _ _ hs => hs) (fun _ hs => hs) fun _ _ _ hs => hs) fun _ => h.completeWith _ _
  exact (h.passesCalls.goTo _).bind fun _ => h.passesCalls.get_bind fun _ _ _ =>
    (h.passesCalls.setVolt (he.voltage _) he.pollVolt).bind fun _ => Keeps.pure _

/-- Any command keeps the property. -/
theorem exec (he : BodyEvents c Ev) {i : Instr} {s t : State} (hs : P s) (hx : exec i s = .next t) : P t := by
  have hop : ∀ op : Op Unit, Keeps P (fun _ => P) op → runOp op s = .next t → P t := fun op hk hr => by
    rcases runOp_next hk hs hr with h | h | h <;> exact h
  cases i with
  | policy d => exact hop _ (h.policyOp he d) hx
  | transition d => exact hop _ (h.transitionOp he d) hx
  | setBounds lo hi => exact hop _ (h.setBoundsOp lo hi) hx
  | cold b => exact hop _ (h.coldOp he b) hx

theorem execIllegal {s t : State} (hs : P s) (hx : execIllegal s = .next t) : P t := by
  rcases runOp_next (h.completeWith 4 none) hs hx with h | h | h <;> exact h

theorem runTick (he : TickEvents c Ev) {th : Thermal} (hth : c.thermal = some th) {s t : State} (hs : P s)
    (hx : runTick th s = .next t) : P t := by
  have hs' : P s.takeTick := h.same s _ rfl rfl hs
  rcases runOp_next (h.tick he hth) hs' hx with h | h | h <;> exact h

end TraceProp

end Sys2Proof.Machine
end

