-- ==== Sys2Proof/Laws/Step.lean ====
section
/-! SUPPORT. What one step is, by the next input; and the trace properties that every step keeps. -/

namespace Sys2Proof.Machine

theorem step_of_wf {s : State} (h : s.cfg.wf = true) : step s = nextAction s := by
  simp [step, stepBlock, h]

theorem step_access {s : State} {a : Access} {rest : List Input} (h : s.cfg.wf = true)
    (hi : s.env.inputs = .access a :: rest) : step s = match s.hostAccess a with
      | .ok s' => .next (s'.withInputs rest)
      | .error f => .fault f := by
  cases ha : s.hostAccess a <;> simp only [step_of_wf h, nextAction, hi, ha]

theorem step_msTick {s : State} {rest : List Input} (h : s.cfg.wf = true) (hi : s.env.inputs = .msTick :: rest) :
    step s = .next (s.msTick.withInputs rest) := by
  rw [step_of_wf h]; unfold nextAction; rw [hi]

theorem step_rst {s : State} {rest : List Input} (h : s.cfg.wf = true) (hi : s.env.inputs = .rst :: rest) :
    step s = .next (s.resetNow.withInputs rest) := by
  rw [step_of_wf h]; unfold nextAction; rw [hi]

theorem step_host {s : State} {rest : List Input} (h : s.cfg.wf = true) (hi : s.env.inputs = .host :: rest) :
    step s = match s.hostTurn with
      | .ok s' => .next (s'.withInputs rest)
      | .error f => .fault f := by
  cases ha : s.hostTurn <;> simp only [step_of_wf h, nextAction, hi, ha]

theorem step_turn {s : State} {p : Pick} {rest : List Input} (h : s.cfg.wf = true)
    (hi : s.env.inputs = .turn p :: rest) : step s = startReady p (s.withInputs rest) := by
  rw [step_of_wf h]; unfold nextAction; rw [hi]

theorem step_quiet {s : State} (h : s.cfg.wf = true) (hi : s.env.inputs = []) : step s = arbitrate s := by
  rw [step_of_wf h]; unfold nextAction; rw [hi]

/-- R61, R94: a performed access inside the window. -/
theorem hostAccess_at (s : State) (off : Nat) (d : Direction) (ho : off < 256) (h4 : off % 4 = 0) :
    s.hostAccess ⟨s.cfg.mmioBase + off, 4, d⟩ = match d with
      | .read => .ok (s.reply (s.readReg off))
      | .write v => .ok (s.writeReg off v) := by
  cases d <;> simp [State.hostAccess, Access.inWindow, Access.performed, ho, h4]

theorem step_read {s : State} {off : Nat} {rest : List Input} (h : s.cfg.wf = true) (ho : off < 256) (h4 : off % 4 = 0)
    (hi : s.env.inputs = .access ⟨s.cfg.mmioBase + off, 4, .read⟩ :: rest) :
    step s = .next ((s.reply (s.readReg off)).withInputs rest) := by
  rw [step_access h hi, hostAccess_at s _ .read ho h4]

theorem step_write {s : State} {off : Nat} {v : Word} {rest : List Input} (h : s.cfg.wf = true) (ho : off < 256)
    (h4 : off % 4 = 0) (hi : s.env.inputs = .access ⟨s.cfg.mmioBase + off, 4, .write v⟩ :: rest) :
    step s = .next ((s.writeReg off v).withInputs rest) := by
  rw [step_access h hi, hostAccess_at s _ (.write v) ho h4]

namespace TraceProp

variable {c : Config} {Ev : Event → Prop} {P : State → Prop} (h : TraceProp c Ev P)
include h

theorem startCommand (he : BodyEvents c Ev) {s t : State} {cmd : Cmd} (hs : P s)
    (hx : startCommand cmd s = .next t) : P t := by
  unfold Machine.startCommand at hx
  have hs' : P s.takeCommand := h.same s _ rfl rfl hs
  split at hx
  · exact h.exec he hs' hx
  · exact h.execIllegal hs' hx

theorem startReady (he : TickEvents c Ev) {s t : State} {p : Pick} (hs : P s) (hx : startReady p s = .next t) :
    P t := by
  have h1 : startSlot s = .next t → P t := fun hx => by
    unfold startSlot at hx
    split at hx
    · exact h.startCommand he.toBodyEvents hs hx
    · cases hx; exact hs
  have h2 : startTick s = .next t → P t := fun hx => by
    unfold startTick at hx
    split at hx
    · next th hth => exact h.runTick he (h.cfg s hs ▸ hth) hs hx
    · cases hx; exact hs
  unfold Machine.startReady at hx
  split at hx
  · split at hx
    · exact h1 hx
    · exact h2 hx
  · exact h1 hx
  · exact h2 hx
  · cases hx; exact hs

/-- A trace property whose events are all those of the block is kept by every step. -/
theorem step (he : TickEvents c Ev) {s t : State} (hs : P s) (hx : step s = .next t) : P t := by
  unfold Machine.step stepBlock at hx
  split at hx
  · unfold nextAction at hx
    split at hx
    · unfold arbitrate at hx
      split at hx
      · exact h.startReady he (h.same s (s.withEnv { s.env with draws := s.env.draws + 1 }) rfl rfl hs) hx
      · exact h.startReady he hs hx
    · next pick rest _ => exact h.startReady he (h.same s (s.withInputs rest) rfl rfl hs) hx
    · cases hx; exact h.same s _ (inputFrame_msTick s).cfg (inputFrame_msTick s).trace hs
    · cases hx; exact h.same s _ rfl rfl hs
    · split at hx
      · next ha => cases hx; exact h.same s _ (inputFrame_hostAccess ha).cfg (inputFrame_hostAccess ha).trace hs
      · cases hx
    · split at hx
      · next ha => cases hx; exact h.same s _ (inputFrame_hostTurn ha).cfg (inputFrame_hostTurn ha).trace hs
      · cases hx
  · cases hx

end TraceProp

end Sys2Proof.Machine
end

