-- ==== Sys2Proof/Laws/Tables.lean ====
section
/-! SUPPORT. The data form of the configuration's functions loses nothing: every function of a forced flag and a lock
value is some `DllCtrl` (spec/00_scope.md R5, spec/30_encoding.md R103). -/

namespace Sys2Proof

/-- A table that lists every word answers with the function's value. -/
theorem dllCtrl_of_rows (f : Bool → Word → Word) (words : List Word) (d : DllCtrl)
    (hd : d.rows = words.flatMap fun v => [⟨false, v, f false v⟩, ⟨true, v, f true v⟩]) (forced : Bool) (lock : Word)
    (hl : lock ∈ words) : d.word forced lock = f forced lock := by
  have hmem : (⟨forced, lock, f forced lock⟩ : DllCtrlRow) ∈ d.rows := by
    rw [hd, List.mem_flatMap]
    exact ⟨lock, hl, by cases forced <;> simp⟩
  unfold DllCtrl.word
  cases hr : d.rows.find? (fun r => r.forced == forced && r.lock == lock) with
  | none => exact absurd (List.find?_eq_none.1 hr _ hmem) (by simp)
  | some r =>
    have hp := List.find?_some hr
    simp only [Bool.and_eq_true, beq_iff_eq] at hp
    have hin := List.mem_of_find?_eq_some hr
    rw [hd, List.mem_flatMap] at hin
    obtain ⟨v, -, hv⟩ := hin
    simp only [List.mem_cons, List.not_mem_nil, or_false] at hv
    obtain ⟨rfl, rfl⟩ := hp
    rcases hv with rfl | rfl <;> rfl

/-- Every function is some table. -/
theorem dllCtrl_represents (f : Bool → Word → Word) : ∃ d : DllCtrl, ∀ forced lock, d.word forced lock = f forced lock := by
  obtain ⟨words, hw⟩ : ∃ words : List Word, ∀ v, v ∈ words := by
    generalize hn : 2 ^ 32 = n
    refine ⟨(List.range n).map (BitVec.ofNat 32), fun v => ?_⟩
    rw [List.mem_map]
    exact ⟨v.toNat, List.mem_range.2 (hn ▸ v.isLt), by simp⟩
  exact ⟨⟨_, 0, 0, 0⟩, fun forced lock => dllCtrl_of_rows f words _ rfl forced lock (hw lock)⟩

end Sys2Proof
end

