-- ==== Sys2Proof/Tests/Slice0.lean ====
section
/-! SUPPORT. Tests. Expected results are those of spec/95_test_vectors.md, or written out by hand from the encodings of
spec/30_encoding.md; each test names its source. -/

namespace Sys2Proof.Tests

open Sys2Proof Sys2Proof.Machine

/-! ### Helpers -/

/-- CFG-A with another boot level. -/
def cfgA (boot : Level) : Config := { Config.exampleA with bootLevel := boot }

/-- CFG-B of spec/95_test_vectors.md section 0. -/
def cfgB (boot : Level) : Config := { Config.exampleA with
  bootLevel := boot
  opps := [
    { freq := 800000000, volt := 1050000, timing := [0x00000A0A, 0x000000A0], dvfsOffset := 0, pllCfg := 0x00000320,
      planMux := [(0, 0)], planDiv := 800000000, orderTo := [.muxThenDiv, .muxThenDiv, .muxThenDiv],
      aref := ⟨0x1000, 0x0800, 0x0400, 0x0200⟩ },
    { freq := 400000000, volt := 950000, timing := [0x00000505, 0x00000050], dvfsOffset := -10, pllCfg := 0x00000190,
      planMux := [(0, 0)], planDiv := 400000000, orderTo := [.muxThenDiv, .muxThenDiv, .muxThenDiv],
      aref := ⟨0x0800, 0x0400, 0x0200, 0x0100⟩ },
    { freq := 200000000, volt := 900000, timing := [0x00000303, 0x00000030], dvfsOffset := -20, pllCfg := 0x00000190,
      planMux := [(0, 1)], planDiv := 200000000, orderTo := [.muxThenDiv, .muxThenDiv, .muxThenDiv],
      aref := ⟨0x0400, 0x0200, 0x0100, 0x0080⟩ }]
  safeLevel := 2
  thermal := Config.exampleA.thermal.map fun th => { th with ceilTripped := some 200000000 } }

/-- The state R(l) of spec/95_test_vectors.md section 0. -/
def atReset (c : Config) : State := State.resetOf c Env.fresh

/-- The environment's coming answers. -/
def answering (s : State) (polls : List Bool) (reads : List Word) : State :=
  s.withEnv { s.env with pollAnswers := polls, readAnswers := reads }

/-- A command accepted with its argument words, as after the host's writes (R120). -/
def given (s : State) (cmd a0 a1 : Word) : State := { s with arg0 := a0, arg1 := a1, slot := some (capture cmd a0 a1) }

/-- A host access next. -/
def withAccess (s : State) (off bytes : Nat) (dir : Direction) : State := s.withInputs [.access ⟨off, bytes, dir⟩]

/-- The outcome is a next state of which `p` holds. -/
def nextIs (o : Host.Outcome State Fault Refusal) (p : State → Bool) : Bool :=
  match o with
  | .next t => p t
  | .fault _ => false
  | .refused _ => false

/-- The outcome is this fault. -/
def faultIs (o : Host.Outcome State Fault Refusal) (f : Fault) : Bool :=
  match o with
  | .next _ => false
  | .fault g => g == f
  | .refused _ => false

/-- A tick pending (R33). -/
def duePending (s : State) : State := { s with tickRemaining := 0, tickPending := true }

/-! ### Decoding (spec/30_encoding.md R90 to R93: OP in bits 3..0, bits 31..4 zero) -/

theorem test_decode_policy : decode 0b00000000000000000000000000000001#32 800000000 0 = .ok (.policy 800000000) := by decide
theorem test_decode_transition :
    decode 0b00000000000000000000000000000010#32 0x17D78400 0 = .ok (.transition 400000000) := by decide
theorem test_decode_set_bounds :
    decode 0b00000000000000000000000000000011#32 5 400000000 = .ok (.setBounds 5 400000000) := by decide
/-- V-CMD-17: only ARG0[0] is read. -/
theorem test_decode_cold : decode 0b00000000000000000000000000000100#32 0xFFFFFFFF 0 = .ok (.cold true) ∧
    decode 4 0xFFFFFFFE 0 = .ok (.cold false) := by decide
/-- V-CMD-2 to V-CMD-5. -/
theorem test_decode_illegal : decode 0x00000000 0 0 = .error .unknownOp ∧ decode 0x00000005 0 0 = .error .unknownOp ∧
    decode 0x00000011 0 0 = .error .reservedBits ∧ decode 0x80000002 0 0 = .error .reservedBits := by decide
theorem test_decode_table_word : decodeTableWord 32 3 = some (.setBounds 0 0) ∧ decodeTableWord 32 0x11 = none := by decide
theorem test_encode : encode (.setBounds 0 400000000) = (3, 0, 0x17D78400) ∧ encode (.cold true) = (4, 1, 0) := by decide

/-! ### Ill-formed terms are refused -/

theorem test_wf_reserved : (capture 0x00000011 0 0).reservedClear = false ∧ (capture 0x00000001 0 0).wf = true := by decide
theorem test_wf_op : (capture 0x00000000 0 0).opKnown = false ∧ (capture 0x00000005 0 0).opKnown = false ∧
    (capture 0x00000004 0 0).opKnown = true := by decide
theorem test_wf_cfgA : (cfgA 0).wf = true ∧ (cfgA 1).wf = true := by decide
theorem test_wf_cfgB : (cfgB 1).wf = true := by decide
theorem test_wf_levelCount : ({ cfgA 0 with opps := [] } : Config).wfLevelCount = false := by decide
theorem test_wf_freqs : ({ cfgA 0 with opps := (cfgA 0).opps.reverse } : Config).wfFreqs = false := by decide
theorem test_wf_namedLevels : ({ cfgA 0 with safeLevel := 2 } : Config).wfNamedLevels = false ∧
    ({ cfgA 0 with dllFreeLevel := 2 } : Config).wfNamedLevels = false ∧ (cfgA 2).wfNamedLevels = false := by decide
theorem test_wf_engine : ({ cfgA 0 with waitMax := 0 } : Config).wfEngine = false ∧
    ({ cfgA 0 with tpw := 0 } : Config).wfEngine = false ∧ ({ cfgA 0 with lockW := 33 } : Config).wfEngine = false ∧
    ({ cfgA 0 with tselBit := 32 } : Config).wfEngine = false ∧
    ({ cfgA 0 with bootLock := 0x200 } : Config).wfEngine = false ∧
    ({ cfgA 0 with lockShift := 32 } : Config).wfEngine = false := by decide
theorem test_wf_shape : ({ cfgA 0 with offTset1 := [0x240] } : Config).wfShape = false := by decide
theorem test_wf_thermal : (cfgA 0).thermal.map (fun th => ({ th with mrrCmd := [] } : Thermal).wfWidths) = some false ∧
    (cfgA 0).thermal.map (fun th => ({ th with th2 := 6 } : Thermal).wfThresholds) = some false ∧
    (cfgA 0).thermal.map (fun th => (cfgA 0).wfCeilings { th with ceilTripped := some 500000000 }) = some false ∧
    (cfgA 0).thermal.map (fun th => ({ th with pollMs := ⟨1000, 500, 600, 100⟩ } : Thermal).wfPollMs) = some false := by
  decide
/-- R5: `CEIL[4]` is `FREQ[NLEVELS - 1]` where the configuration does not give it, and its own value where it does. -/
theorem test_ceil_default :
    (cfgB 0).thermal.map (fun th => (cfgB 0).ceilAt { th with ceilTripped := none } .tripped) = some 200000000 ∧
    (cfgB 0).thermal.map (fun th => (cfgB 0).ceilAt { th with ceilTripped := some 7 } .tripped) = some 7 := by decide
/-- R4, I14: the step refuses it. -/
theorem test_wf_refused : (match step (atReset { cfgA 1 with waitMax := 0 }) with
    | .refused .configIllFormed => true
    | _ => false) = true := by decide

/-! ### Commands -/

/-- W1. -/
theorem test_policy_up : nextIs (step (given (answering (atReset (cfgA 1)) [true, true, true] [0, 0x5A01]) 1 800000000 0))
    (fun t => t.env.trace == [.call (.setVoltage 1050000), .poll .voltDone true, .rd .drex 0x100 0,
        .wr .drex 0x240 0x0A0A, .wr .drex 0x244 0xA0, .wr .drex 0x100 1, .call (.setMuxParent 0 0),
        .poll (.muxSettled 0) true, .call (.setDivider 0 800000000), .poll .divDone true, .wr .phy 0x10 0x5A,
        .rd .phy 0x14 0x5A01, .wr .drex 0x300 0x1000] &&
      t.result == 800000000 && t.currentLevel == 0 && t.currentVoltage == 1050000 && t.lastRequested == 800000000 &&
      t.statusWord == 0x80 && t.intStatus == 1) = true := by decide +kernel

/-- V-WAIT-3: the voltage wait times out; nothing is rolled back. -/
theorem test_policy_timeout :
    nextIs (step (given (answering (atReset (cfgA 1)) [false, false, false] []) 1 800000000 0))
      (fun t => t.env.trace == [.call (.setVoltage 1050000), .poll .voltDone false, .poll .voltDone false,
          .poll .voltDone false] &&
        t.err == 2 && t.errInfoWord == 0x0104 && t.intStatus == 3 && t.currentLevel == 1 &&
        t.currentVoltage == 1050000 && t.lastRequested == 800000000 && t.result == 0) = true := by decide +kernel

/-- W5: the PLL-safe-switch. -/
theorem test_transition_pss :
    nextIs (step (given (answering (atReset (cfgB 1)) (List.replicate 4 true) [0, 0x5A01]) 2 800000000 0))
      (fun t => t.env.trace == [.call (.setVoltage 1050000), .poll .voltDone true, .call (.setMuxParent 0 1),
          .rd .drex 0x100 0, .wr .drex 0x240 0x0303, .wr .drex 0x244 0x30, .wr .drex 0x100 1, .poll .pauseDone true,
          .call (.setPllRate 0 0x320), .poll .pllLocked true, .rd .drex 0x100 1, .wr .drex 0x200 0x0A0A,
          .wr .drex 0x204 0xA0, .wr .drex 0x100 0, .call (.setMuxParent 0 0), .poll .pauseDone true,
          .wr .phy 0x10 0x5A, .rd .phy 0x14 0x5A01, .wr .drex 0x300 0x1000] &&
        t.result == 800000000 && t.currentLevel == 0 && t.pllCur == 0x320 && t.currentVoltage == 1050000 &&
        t.statusWord == 0x80) = true := by decide +kernel

/-- W2's trace, by TRANSITION from level 0: the clock before the voltage, the DLL captured and forced. -/
theorem test_transition_down :
    nextIs (step (given (answering (atReset (cfgA 0)) (List.replicate 3 true) [0x5A01, 1]) 2 400000000 0))
      (fun t => t.env.trace == [.rd .phy 0x14 0x5A01, .wr .phy 0x10 0x1005A, .call (.setMuxParent 0 0),
          .poll (.muxSettled 0) true, .call (.setDivider 0 400000000), .poll .divDone true, .rd .drex 0x100 1,
          .wr .drex 0x200 0x0505, .wr .drex 0x204 0x50, .wr .drex 0x100 0, .wr .phy 0x10 0x10050,
          .wr .drex 0x300 0x0800, .call (.setVoltage 950000), .poll .voltDone true] &&
        t.result == 400000000 && t.currentLevel == 1 && t.currentVoltage == 950000 && t.dllLockWord == 0x5A &&
        t.statusWord == 0x1000) = true := by decide +kernel

/-- V-CMD-7. -/
theorem test_set_bounds : nextIs (step (given (atReset (cfgA 0)) 3 0 400000000))
    (fun t => t.env.trace == [] && t.qosMin == 0 && t.qosMax == 400000000 && t.err == 0 && t.intStatus == 1 &&
      t.currentLevel == 0) = true := by decide +kernel
/-- V-CMD-9, the clamp: where the bounds cross the upper one wins. -/
theorem test_clamp_crossed :
    ({ atReset (cfgA 0) with qosMin := 800000000, qosMax := 400000000 } : State).clamp 800000000 = 400000000 := by decide

/-- V-CMD-13. -/
theorem test_cold : nextIs (step (given (answering (atReset (cfgA 1)) [true] []) 4 1 0))
    (fun t => t.env.trace == [.call (.setVoltage 975000), .poll .voltDone true] && t.thermalOffset == 25000 &&
      t.currentVoltage == 975000 && t.intStatus == 1) = true := by decide +kernel
/-- V-CMD-16. -/
theorem test_cold_timeout : nextIs (step (given (answering (atReset (cfgA 1)) [false, false, false] []) 4 1 0))
    (fun t => t.err == 2 && t.errInfoWord == 0x010B && t.errSnap == 0 && t.intStatus == 3 && t.thermalOffset == 25000 &&
      t.currentVoltage == 975000) = true := by decide +kernel

/-- V-CMD-2: an illegal word completes with code 4. -/
theorem test_illegal : nextIs (step (given (atReset (cfgA 1)) 0 0 0))
    (fun t => t.err == 4 && t.intStatus == 3 && t.env.trace == []) = true := by decide +kernel

/-- R93, R101: the word of each row, placed where the next step starts it, runs as the first command after reset. -/
theorem test_withFetchWord : nextIs (step (State.reset.withFetchWord 32 1)) (fun t => t.err == 1) = true ∧
    nextIs (step (State.reset.withFetchWord 32 2)) (fun t => t.err == 1) = true ∧
    nextIs (step (State.reset.withFetchWord 32 3)) (fun t => t.err == 0 && t.qosMax == 0) = true ∧
    nextIs (step (answering (State.reset.withFetchWord 32 4) [true] []))
      (fun t => t.err == 0 && t.thermalOffset == 0 && t.currentVoltage == 950000) = true := by decide +kernel

/-! ### Arithmetic -/

/-- V-DLL-1 to V-DLL-3: the offset added to the lock value, saturated to 9 bits. -/
theorem test_saturate : saturate 9 (0x05A - 10) = 0x050 ∧ saturate 9 (0x005 - 10) = 0 ∧ saturate 9 (0x1FA + 10) = 0x1FF := by
  decide
/-- V-DLL-5. -/
theorem test_lockField : lockField (cfgA 1) 0xFFFFFFFF = 0x1FF ∧ lockField (cfgA 1) 0x00005A01 = 0x5A := by decide
/-- The table of `next_state` in 2.8, by rows: HalfRate at 1 and 3, QuarterRate at 2, 3 and 4, Normal at 6. -/
theorem test_next_state : (cfgA 1).thermal.map (fun th => [nextThermState th .halfRate 1, nextThermState th .halfRate 3,
      nextThermState th .quarterRate 2, nextThermState th .quarterRate 3, nextThermState th .quarterRate 4,
      nextThermState th .normal 6]) =
    some [.normal, .halfRate, .reduced, .halfRate, .quarterRate, .tripped] := by decide

/-! ### The tick -/

/-- V-MON-3. -/
theorem test_tick_heating : nextIs (step (answering (duePending (atReset (cfgA 1))) [] [1, 3, 1, 4]))
    (fun t => t.env.trace == [.wr .drex 0x400 4, .rd .drex 0x404 1, .rd .drex 0x408 3, .wr .drex 0x400 0x14,
        .rd .drex 0x404 1, .rd .drex 0x408 4, .notify 4 0, .wr .drex 0x300 0x0200] &&
      t.intStatus == 8 && t.readReg 0x80 == 0x0403 && t.statusWord == 0x00041024 && t.tickRemaining == 200) = true := by
  decide +kernel
/-- V-MON-6: the second rank times out. -/
theorem test_tick_timeout : nextIs (step (answering (duePending (atReset (cfgA 1))) [] [1, 5, 0, 0, 0]))
    (fun t => t.errInfoWord == 0x00010720 && t.readReg 0x80 == 0 && decide (t.thermState = .normal) &&
      t.tickRemaining == 1000 && t.intStatus == 0x20) = true := by decide +kernel
/-- V-MON-8. -/
theorem test_tick_trip : nextIs (step (answering (duePending (atReset (cfgA 1))) [] [1, 6, 1, 0]))
    (fun t => t.env.trace == [.wr .drex 0x400 4, .rd .drex 0x404 1, .rd .drex 0x408 6, .wr .drex 0x400 0x14,
        .rd .drex 0x404 1, .rd .drex 0x408 0, .notify 6 0, .shutdown] &&
      t.statusWord == 0x0006104C && t.intStatus == 0x0C && t.monStopped && t.thermalCeiling == 400000000) = true := by
  decide +kernel
/-- V-MON-4: a tick that starts a transition; RESULT and DONE stay as they are. -/
theorem test_tick_transition :
    nextIs (step (answering (duePending (atReset (cfgA 0))) (List.replicate 3 true) [1, 4, 1, 4, 0x5A01, 1]))
      (fun t => t.currentLevel == 1 && t.err == 0 && t.result == 0 && t.intStatus == 8 && t.tickRemaining == 200 &&
        t.lastRequested == 800000000 && t.env.trace.length == 22) = true := by decide +kernel

/-! ### The host's window -/

/-- V-MMIO-1, V-MMIO-2. -/
theorem test_bus_error : faultIs (step (withAccess (atReset (cfgA 1)) 0x0C 2 .read)) (.busError 0x0C 2) = true ∧
    faultIs (step (withAccess (atReset (cfgA 1)) 0x0E 4 .read)) (.busError 0x0E 4) = true := by decide +kernel
/-- V-MMIO-3, V-MMIO-7, V-MMIO-8, and STATUS of R(1). -/
theorem test_reads : [0x4C, 0x00, 0x84, 0x0C].map (fun off =>
      nextIs (step (withAccess (atReset (cfgA 1)) off 4 .read))
        (fun t => t.env.replies == [if off = 0x0C then 0x00001000 else 0])) = [true, true, true, true] := by decide +kernel
/-- V-MMIO-5. -/
theorem test_acknowledge : nextIs (step (withAccess { atReset (cfgA 1) with intStatus := 0x23 } 0x30 4 (.write 0x21)))
    (fun t => t.intStatus == 2) = true := by decide +kernel
/-- V-MMIO-6. -/
theorem test_irq : nextIs (step (withAccess { atReset (cfgA 1) with intStatus := 2 } 0x34 4 (.write 2)))
    (fun t => t.irq) = true := by decide +kernel
/-- V-CMD-1. -/
theorem test_drop : nextIs (step (withAccess (given (atReset (cfgA 1)) 1 800000000 0) 0 4 (.write 1)))
    (fun t => t.intStatus == 0x10 && t.slot == some ⟨1, false, 800000000, 0⟩) = true := by decide +kernel

/-- W1 as a host program: POLICY, then POLLRD STATUS,2,2 until the lock is seen held, WAITIDLE, and two reads. The
schedule puts a strobe, the second read of POLLRD and the first one of WAITIDLE among the command's actions. -/
def programW1 : HostProgram where
  lines := [.pseudo (.policy 800000000), .op (.pollRd (.reg .status) 2 2), .pseudo .waitIdle,
    .op (.rd (.reg .result) "f"), .op (.rd (.number 0x14) "level")]
  reads := [0, 0x5A01]
  polls := [true, true, true]
  schedule := [.host, .host, .host, .msTick, .turn .cmd, .turn .cmd, .msTick, .host, .turn .cmd, .host] ++
    List.replicate 20 (.turn .cmd) ++ [.host, .host, .host]

/-- W1, R104, R105, R64, R283: POLLRD STATUS,2,2 reads once before the command starts, and ends among its actions; the
read of WAITIDLE there finds the block busy, the next one does not; RESULT and CUR_LEVEL go into variables; of the two
strobes one falls before the command and one within it; and the run ends (R326). -/
theorem test_host_program : nextIs (programW1.run (atReset (cfgA 1)) 16)
    (fun t => t.env.host.vars == [("level", 0), ("f", 800000000)] && t.env.host.todo == [] && !t.busy &&
      t.env.replies.length == 6 && t.tickRemaining == 998 && t.err == 0) = true := by decide +kernel
/-- R222, R284: a tick that falls due among a command's actions is pending when the command has completed. -/
theorem test_tick_due_mid_command :
    nextIs (step ((given (answering { atReset (cfgA 1) with tickRemaining := 1 } [true, true, true] [0, 0x5A01])
      1 800000000 0).withInputs [.turn .cmd, .turn .cmd, .turn .cmd, .msTick]))
      (fun t => t.tickPending && t.tickRemaining == 0 && t.err == 0 && t.env.trace.length == 13) = true := by decide +kernel
/-- R278: a line at a misaligned number is a bus error, a fault of the program. -/
theorem test_host_program_fault :
    faultIs (HostProgram.run ⟨[.op (.wr (.number 0x32) 0)], [], [], [.host]⟩ (atReset (cfgA 1)) 1) (.busError 0x32 4) =
      true := by decide +kernel

/-! ### Witnesses: for every statement with hypotheses, a concrete state and operands that meet all of them -/

theorem next_of_nextIs {o : Host.Outcome State Fault Refusal} {p : State → Bool} (h : nextIs o p = true) :
    ∃ t, o = .next t ∧ p t = true := by
  cases o with
  | next t => exact ⟨t, rfl, h⟩
  | fault _ => cases h
  | refused _ => cases h

/-- The sampling ended well with this answer, in a state of which `p` holds. -/
def sampledIs (r : EStateM.Result Stop State Bool) (b : Bool) (p : State → Bool) : Bool :=
  match r with
  | .ok a t => a == b && p t
  | .error _ _ => false

theorem ok_of_sampledIs {r : EStateM.Result Stop State Bool} {b : Bool} {p : State → Bool}
    (h : sampledIs r b p = true) : ∃ t, r = .ok b t ∧ p t = true := by
  cases r with
  | ok a t =>
    simp only [sampledIs, Bool.and_eq_true, beq_iff_eq] at h
    exact ⟨t, by rw [h.1], h.2⟩
  | error _ _ => cases h

/-- The body ended well in a state of which `p` holds. -/
def bodyIs (r : EStateM.Result Stop State Word) (p : State → Bool) : Bool :=
  match r with
  | .ok _ t => p t
  | .error _ _ => false

theorem ok_of_bodyIs {r : EStateM.Result Stop State Word} (h : bodyIs r (fun _ => true) = true) : ∃ a t, r = .ok a t := by
  cases r with
  | ok a t => exact ⟨a, t, rfl⟩
  | error _ _ => cases h

/-- The body was stopped for this reason. -/
def stopsAt (r : EStateM.Result Stop State Word) (e : Stop) : Bool :=
  match r with
  | .ok _ _ => false
  | .error x _ => x == e

theorem stop_of_stopsAt {r : EStateM.Result Stop State Word} {e : Stop} (h : stopsAt r e = true) : ∃ t, r = .error e t := by
  cases r with
  | ok a t => cases h
  | error x t => exact ⟨t, by rw [eq_of_beq h]⟩

/-- A state of CFG-A at level 1 with nothing to come. -/
abbrev sA : State := atReset (cfgA 1)

/-- The monitor of CFG-A. -/
def thA : Thermal := (cfgA 1).thermal.getD default

theorem witness_DecodeAndEncodeAgree : decode 3 5 6 = .ok (.setBounds 5 6) ∧ decode 4 0xFFFFFFFF 0 = .ok (.cold true) := by
  decide

theorem witness_DecodingIsTotal : (∃ i, decode 4 0 0 = .ok i) ∧ (0x80000001#32).extractLsb' 4 28 ≠ 0 := ⟨⟨_, rfl⟩, by decide⟩

/-- A free port; a command in the slot; a command running. -/
theorem witness_CmdWriteCapturedOrDropped :
    (withAccess sA 0 4 (.write 1)).cfg.wf = true ∧ (withAccess sA 0 4 (.write 1)).slot = none ∧
    (withAccess sA 0 4 (.write 1)).cmdActive = false ∧ (withAccess (given sA 1 5 0) 0 4 (.write 1)).slot ≠ none ∧
    (withAccess { sA with cmdActive := true } 0 4 (.write 1)).cmdActive = true ∧
    (withAccess sA 0 4 (.write 1)).env.inputs = .access ⟨sA.cfg.mmioBase, 4, .write 1⟩ :: [] := by decide

/-- The first and the last register of the window. -/
theorem witness_HostReadsRegisters : sA.cfg.wf = true ∧ (∀ c, Reg.chLevel 15 = .chLevel c → c < 16) ∧
    (withAccess sA 0x00 4 .read).env.inputs = .access ⟨sA.cfg.mmioBase + Reg.offset .cmd, 4, .read⟩ :: [] ∧
    (withAccess sA 0xBC 4 .read).env.inputs = .access ⟨sA.cfg.mmioBase + Reg.offset (.chLevel 15), 4, .read⟩ :: [] :=
  ⟨by decide, fun c h => by cases h; decide, by decide, by decide⟩

theorem witness_ReservedBitsReadZero : 0 < sA.cfg.channels ∧ sA.cfg.lockW ≤ 9 ∧ 8 < sA.cfg.lockW := by decide

/-- The ends of both ranges of unmapped offsets and of read-only offsets. -/
theorem witness_UnmappedAndReadOnlyIgnored : ∀ off ∈ [0x0C, 0x2C, 0x38, 0x4C, 0x7C, 0xC0, 0xFC],
    sA.cfg.wf = true ∧ off < 256 ∧ off % 4 = 0 ∧
    (withAccess sA off 4 .read).env.inputs = .access ⟨sA.cfg.mmioBase + off, 4, .read⟩ :: [] ∧
    (withAccess sA off 4 (.write 7)).env.inputs = .access ⟨sA.cfg.mmioBase + off, 4, .write 7⟩ :: [] := by decide

/-- Too short, misaligned, and performed at both ends of the window. -/
theorem witness_BusErrorExactlyWhenMisaligned : ∀ x ∈ [(0, 2), (1, 4), (255, 4), (0, 4), (252, 4)],
    sA.cfg.wf = true ∧ x.1 < 256 ∧
    (withAccess sA x.1 x.2 .read).env.inputs = .access ⟨sA.cfg.mmioBase + x.1, x.2, .read⟩ :: [] := by decide

theorem witness_InterruptEnablePendingClear : sA.cfg.wf = true ∧
    (withAccess sA 0x30 4 (.write 1)).env.inputs = .access ⟨sA.cfg.mmioBase + 0x30, 4, .write 1⟩ :: [] ∧
    (withAccess sA 0x34 4 (.write 1)).env.inputs = .access ⟨sA.cfg.mmioBase + 0x34, 4, .write 1⟩ :: [] := by decide

theorem witness_PseudoInstructionPlacesCommand :
    ∀ p ∈ [Pseudo.policy 5, .transition 5, .setBounds 1 2, .cold 1, .waitIdle, .ack 3],
      sA.cfg.wf = true ∧ sA.slot = none ∧ sA.cmdActive = false ∧
      (sA.withInputs (p.expand.map fun l => Input.access (l.access sA.cfg))).env.inputs =
        p.expand.map (fun l => Input.access (l.access sA.cfg)) ++ [] := by decide
/-- By name and by number, at the first and the last offset of the window. -/
theorem witness_PseudoInstructionPlacesCommand_place :
    ∀ p ∈ [Place.reg .cmd, .reg (.chLevel 15), .number 0xFC], p.offset < 256 ∧ p.offset % 4 = 0 := by decide
/-- A line of each kind next; and one that falls after three actions of a command, of a tick, or before a step. -/
theorem witness_PseudoInstructionPlacesCommand_line : ∀ op ∈ [HostOp.wr (.reg .arg0) 7, .rd (.number 0x14) "level",
      .pollRd (.reg .status) 2 2], ∀ before ∈ [[], List.replicate 3 (Input.turn .cmd) ++ [.msTick]],
    sA.cfg.wf = true ∧ (sA.withHost ⟨[op], []⟩).env.host.todo = op :: [] ∧
    ((sA.withHost ⟨[op], []⟩).withInputs [.host]).env.inputs = .host :: [] ∧
    ((op.access sA.cfg).inWindow sA.cfg && (op.access sA.cfg).performed sA.cfg) = true ∧
    (∀ i ∈ before, i ≠ .host ∧ ∀ a, i ≠ .access a) ∧ Input.host ∉ [Input.turn .cmd] ∧ sA.cfg.thermal = some thA := by
  intro op hop before hb
  simp only [List.mem_cons, List.not_mem_nil, or_false] at hop hb
  refine ⟨by decide, rfl, rfl, ?_, ?_, by decide, by decide⟩
  · rcases hop with rfl | rfl | rfl <;> decide
  · intro i hi
    rcases hb with rfl | rfl
    · cases hi
    · simp only [List.replicate, List.cons_append, List.nil_append, List.mem_cons, List.not_mem_nil, or_false] at hi
      rcases hi with rfl | rfl | rfl | rfl <;> exact ⟨by decide, fun _ h => by cases h⟩

/-- A legal and an illegal command in the slot, by a turn and by an empty queue. -/
theorem witness_StepRunsTheDecodedCommand : sA.cfg.wf = true ∧ (given sA 3 1 2).step = .idle ∧
    (given sA 3 1 2).slot = some ⟨3, false, 1, 2⟩ ∧ (given sA 3 1 2).tickReady = false ∧ (given sA 3 1 2).env.inputs = [] ∧
    ((given sA 3 1 2).withInputs [.turn .tick]).env.inputs = .turn .tick :: [] ∧
    decodeCmd ⟨3, false, 1, 2⟩ = .ok (.setBounds 1 2) ∧ (given sA 5 1 2).slot = some ⟨5, false, 1, 2⟩ ∧
    decodeCmd ⟨5, false, 1, 2⟩ = .error .unknownOp := by decide

/-- V-MON-9: both are ready. -/
theorem witness_EitherReadyOperationMayStart : sA.cfg.wf = true ∧ sA.step = .idle ∧ sA.cfg.thermal = some thA ∧
    (duePending (given sA 1 800000000 0)).slot = some ⟨1, false, 800000000, 0⟩ ∧
    (duePending (given sA 1 800000000 0)).tickPending = true ∧
    ((duePending (given sA 1 800000000 0)).withInputs [.turn .tick]).env.inputs = .turn .tick :: [] ∧
    ((duePending (given sA 1 800000000 0)).withInputs [.turn .cmd]).env.inputs = .turn .cmd :: [] ∧
    nextIs (step ((duePending (given sA 3 1 2)).withInputs [.turn .cmd])) (fun _ => true) = true ∧
    nextIs (step ((duePending (given (answering sA [] [1, 3, 1, 0]) 3 1 2)).withInputs [.turn .tick])) (fun _ => true) =
      true ∧ Input.rst ∉ ([] : List Input) := by decide +kernel

theorem witness_IllFormedConfigurationRefused : (atReset { cfgA 1 with waitMax := 0 }).cfg.wf = false := by decide

/-- A stopped monitor, a tick pending, a tick running; and the last two pulses of a count. -/
theorem witness_StrobeCountsDown : sA.cfg.wf = true ∧ (sA.withInputs [.msTick]).env.inputs = .msTick :: [] ∧
    ({ sA with monStopped := true } : State).monStopped = true ∧ (duePending sA).tickPending = true ∧
    sA.takeTick.lockOwner = .tick ∧ sA.monStopped = false ∧ sA.tickPending = false ∧ sA.lockOwner ≠ .tick ∧
    1 ≤ ({ sA with tickRemaining := 1 } : State).tickRemaining.toNat ∧
    1 ≤ ({ sA with tickRemaining := 2 } : State).tickRemaining.toNat := by decide

theorem inv_resetOf (c : Config) (e : Env) (h : c.wf = true) : Inv (State.resetOf c e) :=
  ⟨⟨rfl, rfl, rfl⟩, Coherent.resetOf h e⟩

/-- V-MON-1: any number of pulses, from none up to the interval. -/
theorem witness_TickFallsDueAfterItsInterval (k : Nat) (hk : k ≤ 1000) :
    ∃ s : State, Inv s ∧ s.monStopped = false ∧ s.tickPending = false ∧ k ≤ s.tickRemaining.toNat ∧
      s.env.inputs = List.replicate k .msTick := by
  refine ⟨State.resetOf (cfgA 1) { Env.fresh with inputs := List.replicate k .msTick }, inv_resetOf _ _ (by decide), ?_⟩
  have h : ∀ e, (State.resetOf (cfgA 1) e).tickRemaining = 1000#32 := fun _ => rfl
  rw [h]
  exact ⟨rfl, rfl, hk, rfl⟩

/-- Enough answers, all favourable. -/
def favoured (s : State) : State := answering s (List.replicate 6 true) (List.replicate 5 0x5A01)

/-- Strobes after the first, a middle and the last action of a command, and of a tick; the count falls short, is met, or
is stopped. -/
theorem witness_TickFallsDueAfterItsInterval_during : sA.cfg.wf = true ∧ (favoured sA).quiet ∧ sA.lockOwner ≠ .tick ∧
    sA.cfg.thermal = some thA ∧ ({ sA with monStopped := true } : State).monStopped = true ∧
    (duePending sA).tickPending = true ∧ 1 ≤ sA.tickRemaining.toNat ∧ 1000 ≤ sA.tickRemaining.toNat ∧
    (∀ n ∈ [0, 5, 13], nextIs (exec (.transition 800000000) (favoured sA))
      (fun t => decide (sA.env.trace.length + n ≤ t.env.trace.length)) = true) ∧
    (∀ n ∈ [0, 3, 7], nextIs (runTick thA (answering (duePending sA) [] [1, 3, 1, 0]))
      (fun t => decide (sA.env.trace.length + n ≤ t.env.trace.length)) = true) := by decide +kernel

theorem witness_ResetValues : (given sA 1 2 3).cfg.wf = true ∧
    ((given sA 1 2 3).withInputs [.rst]).env.inputs = .rst :: [] ∧ sA.cfg.thermal = some thA := by decide
theorem witness_ResetEndsAnOperation : (given sA 1 2 3).cfg.wf = true ∧
    ((given sA 1 2 3).withInputs [.rst]).env.inputs = .rst :: [] ∧ sA.cfg.thermal = some thA := by decide
theorem witness_InvariantAtReset : (cfgA 1).wf = true ∧ (cfgB 0).wf = true := by decide

/-- A domain at the boot level of CFG-A: forced at level 1, free-running and locked at level 0. -/
def bootDomain (boot : Level) : Domain where
  freq := if boot = 0 then 800000000 else 400000000
  muxes := [(0, 0)]
  pll := 0x320
  rail := if boot = 0 then 1050000 else 950000
  cold := false
  dllForced := boot != 0
  dllLocked := boot == 0
  dllLock := 0x05A
  liveTiming := if boot = 0 then [0x00000A0A, 0x000000A0] else [0x00000505, 0x00000050]
  selReadable := true
  strobeRuns := true

/-- R324, the seven premises together, where the DLL is forced and where it runs free; at a reset pulse too. -/
theorem witness_InvariantAtReset_boot : (∀ boot ∈ [(0 : Level), 1], BootPrecondition (cfgA boot) Env.fresh (bootDomain boot)) ∧
    ResetTogether sA (bootDomain 1) := by
  have h : ∀ boot ∈ [(0 : Level), 1], ∀ e : Env, e.owned = true → BootPrecondition (cfgA boot) e (bootDomain boot) := by
    intro boot hb e he
    simp only [List.mem_cons, List.not_mem_nil, or_false] at hb
    rcases hb with rfl | rfl
    · exact ⟨by decide, ⟨rfl, fun _ _ h => h, rfl⟩, ⟨rfl, rfl⟩, ⟨fun _ => by decide, fun h => absurd rfl h⟩, ⟨rfl, rfl⟩, he, rfl⟩
    · exact ⟨by decide, ⟨rfl, fun _ _ h => h, rfl⟩, ⟨rfl, rfl⟩, ⟨fun h => absurd h (by decide), fun _ => by decide⟩, ⟨rfl, rfl⟩, he, rfl⟩
  exact ⟨fun boot hb => h boot hb _ rfl, h 1 (by decide) _ rfl⟩

theorem witness_EveryCommandCompletes : sA.cfg.wf = true ∧ sA.quiet := by decide
theorem witness_SetBoundsStoresBounds : sA.cfg.wf = true ∧ sA.quiet ∧ (given sA 3 800000000 0).quiet := by decide
theorem witness_TimingSetsAlternate : sA.quiet ∧ sA.env.owned = true ∧ sA.cfg.tselBit ≤ 31 := by decide
/-- A step that runs the PLL-safe-switch, with its two timing writes, on offsets apart. -/
theorem witness_TimingSetsAlternate_step : (favoured (given (atReset (cfgB 1)) 2 800000000 0)).env.owned = true ∧
    (favoured (given (atReset (cfgB 1)) 2 800000000 0)).noReset ∧ SelectApart (cfgB 1) ∧
    nextIs (step (favoured (given (atReset (cfgB 1)) 2 800000000 0)))
      (fun t => (writesOf t.env.trace).filter (fun p => p.1 == 0x100) == [(0x100, 0x5A00), (0x100, 0x5A01)]) = true :=
  ⟨by decide, by decide, ⟨by decide, by decide, fun th h => by cases h; decide⟩, by decide +kernel⟩
theorem witness_ForcedLockIsSaturated : sA.quiet ∧ sA.cfg.lockW ≤ 32 ∧ (1 : Level) ≠ sA.cfg.dllFreeLevel := by decide
theorem witness_DllLockedOnlyIfSeen : sA.quiet ∧ (0 : Level) = sA.cfg.dllFreeLevel := by decide
theorem witness_CommandWordsDecode : decode 0x00000004#32 3 0 = .ok (.cold true) ∧ decode 1 7 9 = .ok (.policy 7) := by
  decide

/-- Bounds that cross. -/
theorem witness_ClampUpperBoundWins : ({ sA with qosMin := 800000000, qosMax := 1 } : State).clampHigh.toNat <
    ({ sA with qosMin := 800000000, qosMax := 1 } : State).clampLow.toNat := by decide

theorem witness_IllegalWordCompletesWithCodeFour : (given sA 0 0 0).cfg.wf = true ∧ (given sA 0 0 0).step = .idle ∧
    (given sA 0 0 0).slot = some ⟨0, false, 0, 0⟩ ∧ (given sA 0 0 0).tickReady = false ∧ (given sA 0 0 0).quiet ∧
    decodeCmd ⟨0, false, 0, 0⟩ = .error .unknownOp := by decide

/-- W4, V-CMD-18. -/
theorem witness_UnknownFrequencyChangesNothingElse : sA.cfg.wf = true ∧ sA.quiet ∧
    (∀ p ∈ sA.cfg.opps, p.freq ≠ 999000000) ∧ ∀ p ∈ sA.cfg.opps, p.freq ≠ 0 := by decide

/-- Seen at the first attempt, and at the last. -/
theorem witness_ColdRewritesTheVoltage : sA.cfg.wf = true ∧ sA.quiet ∧ 0 < sA.cfg.waitMax ∧ 2 < sA.cfg.waitMax ∧
    (answering sA [true] []).pollAnswer 0 = true ∧ (answering sA [false, false, true] []).pollAnswer 2 = true ∧
    ∀ j, j < 2 → (answering sA [false, false, true] []).pollAnswer j = false := by decide

theorem witness_ColdTimesOutWithoutRollback : sA.cfg.wf = true ∧ (answering sA [false, false, false] []).quiet ∧
    ∀ j, j < sA.cfg.waitMax → (answering sA [false, false, false] []).pollAnswer j = false := by decide

theorem witness_TransitionToTheCurrentLevel : sA.cfg.wf = true ∧ sA.quiet ∧ (∃ p ∈ sA.cfg.opps, p.freq = 400000000) ∧
    sA.resolve 400000000 = sA.currentLevel := by decide

theorem witness_PolicyToTheCurrentLevel : sA.cfg.wf = true ∧ sA.quiet ∧ (∃ p ∈ sA.cfg.opps, p.freq = 400000000) ∧
    sA.resolve (sA.cfg.freqAt (floorLevel sA.cfg (sA.clamp 400000000))) = sA.currentLevel := by decide

theorem witness_PolicyIsTheClampedTransition : sA.cfg.wf = true ∧ sA.quiet ∧
    ∃ p ∈ sA.cfg.opps, p.freq = 800000000 := by decide

theorem favourable_of (s : State) (t : Level) (h : (favoured s).env.inputs = [] ∧ 4 + (s.cfg.opp t).planMux.length ≤ 6 ∧
    (0x5A01 : Word) &&& s.cfg.dllLockMask = s.cfg.dllLockMask ∧ s.cfg.offDllStat ≠ s.cfg.offDllCtrl) :
    Favourable (favoured s) t where
  quiet := h.1
  polls := h.2.1
  pollsTrue := fun _ hb => List.eq_of_mem_replicate hb
  reads := show 4 ≤ 5 by decide
  readsLocked := fun _ hw => List.eq_of_mem_replicate hw ▸ h.2.2.1
  statusApart := h.2.2.2

/-- Up by the simple path, down by it, and up by the PLL-safe-switch. -/
theorem witness_TransitionReachesItsTarget : ∀ x ∈ [(atReset (cfgA 1), (800000000 : Word), (0 : Level)),
      (atReset (cfgA 0), 400000000, 1), (atReset (cfgB 1), 800000000, 0)],
    (favoured x.1).cfg.wf = true ∧ (∃ p ∈ (favoured x.1).cfg.opps, p.freq = x.2.1) ∧
    x.2.2 = (favoured x.1).resolve x.2.1 ∧ x.2.2 ≠ (favoured x.1).currentLevel ∧ Favourable (favoured x.1) x.2.2 := by
  intro x hx
  simp only [List.mem_cons, List.not_mem_nil, or_false] at hx
  rcases hx with rfl | rfl | rfl <;>
    exact ⟨by decide, by decide, by decide, by decide, favourable_of _ _ (by decide)⟩

/-- A multiplexer beside the primary one, whose signal never comes. -/
theorem witness_TransitionReachesItsTarget_mux : sA.cfg.wf = true ∧ (answering sA [false, false, false] []).quiet ∧
    (7 : Byte) ≠ sA.cfg.primaryMux ∧
    ∀ j, j < sA.cfg.waitMax → (answering sA [false, false, false] []).pollAnswer j = false := by decide

/-- A request the ceiling of HalfRate lowers from level 0 to level 1 (CFG-B). -/
theorem witness_PolicyReachesItsTarget_clamped :
    (favoured { atReset (cfgB 0) with thermState := .halfRate }).cfg.wf = true ∧
    1 = (favoured { atReset (cfgB 0) with thermState := .halfRate }).resolve ((cfgB 0).freqAt
      (floorLevel (cfgB 0) ((favoured { atReset (cfgB 0) with thermState := .halfRate }).clamp 800000000))) ∧
    (1 : Level) ≠ (favoured { atReset (cfgB 0) with thermState := .halfRate }).currentLevel ∧
    Favourable (favoured { atReset (cfgB 0) with thermState := .halfRate }) 1 :=
  ⟨by decide, by decide, by decide, favourable_of _ _ (by decide)⟩

theorem witness_PolicyReachesItsTarget : ∀ x ∈ [(atReset (cfgA 1), (800000000 : Word), (0 : Level)),
      (atReset (cfgA 0), 400000000, 1), (atReset (cfgB 1), 800000000, 0)],
    (favoured x.1).cfg.wf = true ∧ (∃ p ∈ (favoured x.1).cfg.opps, p.freq = x.2.1) ∧
    x.2.2 = (favoured x.1).resolve ((favoured x.1).cfg.freqAt (floorLevel (favoured x.1).cfg ((favoured x.1).clamp x.2.1))) ∧
    x.2.2 ≠ (favoured x.1).currentLevel ∧ Favourable (favoured x.1) x.2.2 := by
  intro x hx
  simp only [List.mem_cons, List.not_mem_nil, or_false] at hx
  rcases hx with rfl | rfl | rfl <;>
    exact ⟨by decide, by decide, by decide, by decide, favourable_of _ _ (by decide)⟩

/-- A transition of a quiet state that ends with this code and this failing step. -/
def endsWith (s : State) (f : Word) (err : BitVec 4) (x : Byte) : Bool :=
  decide (s.env.inputs = []) && s.cfg.wf && nextIs (exec (.transition f) s) fun u => u.err == err && u.errStep == x

/-- V-WAIT-3, V-PSS-2 and the other steps that can fail, one for each clause. -/
theorem witness_FailedTransitionKeepsWhatItIssued :
    endsWith (answering (atReset (cfgA 1)) [false, false, false] []) 800000000 2 0x04 = true ∧
    endsWith (answering (atReset (cfgB 1)) [true, false, false, false] [0]) 800000000 2 0x13 = true ∧
    endsWith (answering (atReset (cfgB 1)) [true, true, false, false, false] [0]) 800000000 2 0x14 = true ∧
    endsWith (answering (atReset (cfgA 1)) [true, false, false, false] [0]) 800000000 2 0x06 = true ∧
    endsWith (answering (atReset (cfgB 1)) [true, true, true, false, false, false] [0]) 800000000 2 0x17 = true ∧
    endsWith (answering (atReset (cfgA 1)) [true, true, true] [0, 0, 0, 0]) 800000000 2 0x08 = true ∧
    endsWith (answering (atReset (cfgA 0)) [true, true, false, false, false] [0x5A01, 1]) 400000000 2 0x0A = true := by
  decide +kernel

theorem witness_TransitionFrame : (favoured sA).quiet ∧ (∃ u, exec (.transition 800000000) (favoured sA) = .next u) ∧
    ∃ u, exec (.policy 800000000) (favoured sA) = .next u :=
  ⟨rfl, (next_of_nextIs (p := fun _ => true) (by decide +kernel)).imp fun _ h => h.1,
    (next_of_nextIs (p := fun _ => true) (by decide +kernel)).imp fun _ h => h.1⟩

theorem witness_ColdFrame : (favoured sA).quiet ∧ ∃ u, exec (.cold true) (favoured sA) = .next u :=
  ⟨rfl, (next_of_nextIs (p := fun _ => true) (by decide +kernel)).imp fun _ h => h.1⟩

theorem witness_FloorLevelIsTheHighestThatFits : (cfgB 1).wf = true ∧ floorLevel (cfgB 1) 399999999 = 2 ∧
    floorLevel (cfgB 1) 400000000 = 1 ∧ floorLevel (cfgB 1) 0 = 2 ∧ floorLevel (cfgB 1) 0xFFFFFFFF = 0 := by decide

/-- Up and down. -/
theorem witness_VoltageSafety :
    (0 = (favoured (atReset (cfgA 1))).resolve 800000000 ∧ (0 : Level) ≠ (favoured (atReset (cfgA 1))).currentLevel ∧
      goesUp (cfgA 1) 1 0 = true ∧ ∃ u, exec (.transition 800000000) (favoured (atReset (cfgA 1))) = .next u) ∧
    (1 = (favoured (atReset (cfgA 0))).resolve 400000000 ∧ (1 : Level) ≠ (favoured (atReset (cfgA 0))).currentLevel ∧
      goesUp (cfgA 0) 0 1 = false ∧ ∃ u, exec (.transition 400000000) (favoured (atReset (cfgA 0))) = .next u) :=
  ⟨⟨by decide, by decide, by decide, (next_of_nextIs (p := fun _ => true) (by decide +kernel)).imp fun _ h => h.1⟩,
    by decide, by decide, by decide, (next_of_nextIs (p := fun _ => true) (by decide +kernel)).imp fun _ h => h.1⟩

/-- A body that ends, and one that a timeout, a reset and a bus error end. -/
theorem witness_VoltageSafety_body : (∃ r u, transitionBody 800000000 .tick (favoured sA) = .ok r u) ∧
    (∃ u, transitionBody 800000000 .tick (answering sA [false, false, false] []) = .error .timeout u) ∧
    (∃ u, transitionBody 800000000 .tick (sA.withInputs [.turn .cmd, .rst]) = .error .reset u) ∧
    ∃ u, transitionBody 800000000 .tick (sA.withInputs [.access ⟨2, 4, .read⟩]) = .error (.fault (.busError 2 4)) u := by
  refine ⟨?_, ?_, ?_, ?_⟩
  · exact ok_of_bodyIs (by decide +kernel)
  · exact stop_of_stopsAt (by decide +kernel)
  · exact stop_of_stopsAt (by decide +kernel)
  · exact stop_of_stopsAt (by decide +kernel)

/-- CFG-A with a multiplexer beside the primary one in the plan of level 0. -/
def cfgMux : Config := { cfgA 1 with opps := (cfgA 1).opps.modify 0 fun p => { p with planMux := [(0, 0), (7, 2)] } }

/-- R162's example, W1 and W5: the secondary multiplexer missed, the simple path, and the PLL-safe-switch. -/
theorem witness_CallsOfALevelChange_body : ∀ x ∈ [(cfgMux, [true, true, false, false, false, true]),
      (cfgA 1, List.replicate 3 true), (cfgB 1, List.replicate 4 true)],
    x.1.wf = true ∧ (answering (atReset x.1) x.2 [0, 0x5A01]).quiet ∧
    0 = (answering (atReset x.1) x.2 [0, 0x5A01]).resolve 800000000 ∧ (0 : Level) ≠ (atReset x.1).currentLevel ∧
    bodyIs (transitionBody 800000000 .tick (answering (atReset x.1) x.2 [0, 0x5A01]))
      (fun u => x.1 != cfgMux || u.errInfoWord == 0x00070406 && u.intStatus == 0x20) = true := by decide +kernel

/-- By the simple path and by the PLL-safe-switch. -/
theorem witness_CallsOfALevelChange : ∀ c ∈ [cfgA 1, cfgB 1], (favoured (atReset c)).cfg.wf = true ∧
    (favoured (atReset c)).quiet ∧ (∃ p ∈ (favoured (atReset c)).cfg.opps, p.freq = 800000000) ∧
    0 = (favoured (atReset c)).resolve 800000000 ∧ (0 : Level) ≠ (favoured (atReset c)).currentLevel ∧
    nextIs (exec (.transition 800000000) (favoured (atReset c))) (fun u => u.err == 0) = true := by decide +kernel

theorem witness_TimingGoesToTheInactiveSet : (favoured sA).quiet ∧
    0x5A01 = ((favoured sA).outRead .drex (favoured sA).cfg.offTsel).1 ∧ (favoured sA).cfg.tselBit ≤ 31 := by decide

theorem witness_DllCaptureKeepsTheLockField : (favoured sA).quiet ∧ (favoured sA).cfg.lockW ≤ 32 ∧
    0x5A01 = ((favoured sA).outRead .phy (favoured sA).cfg.offDllStat).1 := by decide

/-- A rising, an equal and a falling maximum; a margin and none. -/
theorem witness_HysteresisBounds : thA.wfThresholds = true ∧ ({ thA with hyst := 0 } : Thermal).wfThresholds = true ∧
    ThermState.normal.code ≤ (rawState thA 6).code ∧ (rawState thA 0).code < ThermState.quarterRate.code ∧
    ThermState.quarterRate ≠ .tripped := by decide

theorem witness_MonotonicCeiling : thA.wfThresholds = true ∧ (cfgA 1).wfCeilings thA = true ∧
    ThermState.quarterRate = nextThermState thA .normal 5 ∧ ThermState.reduced = nextThermState thA .quarterRate 2 ∧
    ThermState.tripped = nextThermState thA .quarterRate 6 := by decide

/-- V-MON-5. -/
theorem witness_MrrTimeoutIsNoChange : sA.cfg.wf = true ∧ sA.cfg.thermal = some thA ∧
    (answering (duePending sA) [] [0, 0, 0]).quiet ∧
    ∃ u, sampleAll thA (answering (duePending sA) [] [0, 0, 0]).takeTick = .ok false u :=
  ⟨by decide, by decide, rfl, (ok_of_sampledIs (p := fun _ => true) (by decide +kernel)).imp fun _ h => h.1⟩

/-- V-MON-2, and V-MON-3 with a ceiling that does not change. -/
theorem witness_SteadyTick : sA.cfg.wf = true ∧ sA.cfg.thermal = some thA ∧
    (answering (duePending sA) [] [1, 3, 1, 0]).quiet ∧ ThermState.reduced ≠ .tripped ∧
    sA.cfg.ceilAt thA .reduced = sA.cfg.ceilAt thA sA.thermState ∧
    ∃ u, sampleAll thA (answering (duePending sA) [] [1, 3, 1, 0]).takeTick = .ok true u ∧
      (.reduced == nextThermState thA sA.thermState (maxOfLevels u.sample)) = true :=
  ⟨by decide, by decide, rfl, by decide, by decide, ok_of_sampledIs (by decide +kernel)⟩

/-- V-MON-8 from Normal, where the ceiling falls, and from QuarterRate, where it stays. -/
theorem witness_TripIsForGood : ∀ st ∈ [ThermState.normal, .quarterRate],
    sA.cfg.wf = true ∧ sA.cfg.thermal = some thA ∧
    (answering (duePending { sA with thermState := st }) [] [1, 6, 1, 0]).quiet ∧
    (st = .quarterRate → sA.cfg.ceilAt thA .tripped = sA.cfg.ceilAt thA st) ∧
    sampledIs (sampleAll thA (answering (duePending { sA with thermState := st }) [] [1, 6, 1, 0]).takeTick) true
      (fun u => decide (thA.th4 ≤ maxOfLevels u.sample)) = true := by decide +kernel

theorem witness_EveryTickEnds : (duePending sA).cfg.wf = true ∧ (duePending sA).cfg.thermal = some thA ∧
    (duePending sA).quiet := by decide

theorem witness_TickLeavesTheCommandPort : (answering (duePending sA) [] [1, 3, 1, 0]).quiet ∧
    ∃ t, runTick thA (answering (duePending sA) [] [1, 3, 1, 0]) = .next t :=
  ⟨rfl, (next_of_nextIs (p := fun _ => true) (by decide +kernel)).imp fun _ h => h.1⟩

/-- With a command in the slot, and with nothing to do; of InvariantKept, ConfigurationNeverWritten and
OnlyConfiguredOffsets too. -/
theorem witness_InvariantKept : (∃ s t, Inv s ∧ s.slot = some (capture 3 1 2) ∧ step s = .next t) ∧
    ∃ s t, Inv s ∧ s.slot = none ∧ step s = .next t := by
  have hgiven : Inv (given sA 3 1 2) := by
    have h := inv_resetOf (cfgA 1) Env.fresh (by decide)
    exact ⟨⟨rfl, rfl, rfl⟩, Coherent.of_frame (s := sA) (by constructor <;> rfl) rfl rfl h.coherent⟩
  obtain ⟨t, ht, -⟩ := next_of_nextIs (o := step (given sA 3 1 2)) (p := fun _ => true) (by decide +kernel)
  obtain ⟨u, hu, -⟩ := next_of_nextIs (o := step sA) (p := fun _ => true) (by decide +kernel)
  exact ⟨⟨_, t, hgiven, rfl, ht⟩, _, u, inv_resetOf (cfgA 1) Env.fresh (by decide), rfl, hu⟩

/-- At the safe level, and away from it. -/
theorem witness_PllInvariant : PllMatches (atReset (cfgA 1)) ∧ PllMatches (atReset (cfgB 0)) ∧
    (atReset (cfgB 0)).currentLevel ≠ (cfgB 0).safeLevel ∧ ∃ t, step (atReset (cfgB 0)) = .next t :=
  ⟨fun _ => rfl, fun _ => rfl, by decide, (next_of_nextIs (p := fun _ => true) (by decide +kernel)).imp fun _ h => h.1⟩

theorem witness_TrippedIsTerminal : ∃ s t, TrippedForGood s ∧ s.noReset ∧ step s = .next t := by
  obtain ⟨t, ht, -⟩ := next_of_nextIs (o := step ({ sA with thermState := .tripped, monStopped := true } : State))
    (p := fun _ => true) (by decide +kernel)
  exact ⟨_, t, ⟨rfl, rfl, rfl⟩, by decide, ht⟩

/-- A step that runs a command. -/
theorem witness_ConfigurationNeverWritten : ∃ t, step (given sA 3 1 2) = .next t :=
  (next_of_nextIs (p := fun _ => true) (by decide +kernel)).imp fun _ h => h.1

/-- A step whose command makes accesses. -/
theorem witness_OnlyConfiguredOffsets : ∃ t, step (given (favoured sA) 1 800000000 0) = .next t :=
  (next_of_nextIs (p := fun _ => true) (by decide +kernel)).imp fun _ h => h.1

/-- One of each operation, with its end. -/
theorem witness_OperationsAreBounded : sA.cfg.wf = true ∧ sA.cfg.thermal = some thA ∧
    (∃ t, exec (.transition 800000000) (favoured sA) = .next t) ∧ (∃ t, exec (.cold true) (favoured sA) = .next t) ∧
    (∃ t, exec (.setBounds 1 2) sA = .next t) ∧ (∃ t, execIllegal sA = .next t) ∧
    ∃ t, runTick thA (answering (duePending sA) [] [1, 3, 1, 0]) = .next t :=
  ⟨by decide, by decide, (next_of_nextIs (p := fun _ => true) (by decide +kernel)).imp fun _ h => h.1,
    (next_of_nextIs (p := fun _ => true) (by decide +kernel)).imp fun _ h => h.1,
    (next_of_nextIs (p := fun _ => true) (by decide +kernel)).imp fun _ h => h.1,
    (next_of_nextIs (p := fun _ => true) (by decide +kernel)).imp fun _ h => h.1,
    (next_of_nextIs (p := fun _ => true) (by decide +kernel)).imp fun _ h => h.1⟩

/-- A step that changes each of the registers it speaks of. -/
theorem witness_EachRegisterHasItsWriters :
    (favoured sA).noReset ∧
    nextIs (step (given (favoured sA) 4 1 0)) (fun t => t.thermalOffset != sA.thermalOffset) = true ∧
    nextIs (step (given sA 3 1 2)) (fun t => t.qosMin != sA.qosMin) = true ∧
    nextIs (step (given (favoured sA) 1 800000000 0)) (fun t => t.result != sA.result) = true ∧
    nextIs (step (answering (duePending sA) [] [1, 3, 1, 0])) (fun t => t.rankLevel != sA.rankLevel) = true := by
  decide +kernel

/-- A pulse after the first, a middle and the last action of a command; and of an illegal one and of a tick. -/
theorem witness_ResetEndsAnOperation_during : sA.cfg.wf = true ∧ (favoured sA).quiet ∧ sA.cfg.thermal = some thA ∧
    (∀ n ∈ [0, 5, 13], nextIs (exec (.transition 800000000) (favoured sA))
      (fun t => decide (sA.env.trace.length + n ≤ t.env.trace.length)) = true) ∧
    nextIs (execIllegal sA) (fun t => decide (sA.env.trace.length + 0 ≤ t.env.trace.length)) = true ∧
    nextIs (runTick thA (answering (duePending sA) [] [1, 3, 1, 0]))
      (fun t => decide (sA.env.trace.length + 6 ≤ t.env.trace.length)) = true := by decide +kernel

/-- A command of many actions, with a write in the middle and one after its end. -/
theorem witness_CmdWriteDuringACommandIsDropped : sA.takeCommand.cfg.wf = true ∧ (favoured sA).takeCommand.cmdActive = true ∧
    (favoured sA).takeCommand.quiet ∧
    nextIs (exec (.policy 800000000) (favoured sA).takeCommand)
      (fun t => decide (sA.env.trace.length + 5 ≤ t.env.trace.length ∧ ¬ sA.env.trace.length + 20 ≤ t.env.trace.length)) =
      true := by decide +kernel

/-- V-MON-3: the clamped request is the frequency in force; V-MON-4: it is not, and the body ends well, or times out;
V-MON-8 from Normal: the tick trips. -/
theorem witness_CeilingChangeIsReevaluated : ∀ x ∈ [(sA, ([] : List Bool), ([1, 4, 1, 4] : List Word)),
      (atReset (cfgA 0), List.replicate 3 true, [1, 4, 1, 4, 0x5A01, 1]),
      (atReset (cfgA 0), List.replicate 3 false, [1, 4, 1, 4, 0x5A01, 1]), (sA, [], [1, 6, 1, 0])],
    x.1.cfg.wf = true ∧ x.1.cfg.thermal = some thA ∧ (answering (duePending x.1) x.2.1 x.2.2).quiet ∧
    sampledIs (sampleAll thA (answering (duePending x.1) x.2.1 x.2.2).takeTick) true
      (fun u => x.1.cfg.ceilAt thA (nextThermState thA x.1.thermState (maxOfLevels u.sample)) !=
        x.1.cfg.ceilAt thA x.1.thermState) = true := by decide +kernel

/-- Owned, not owned, and before the first write. -/
theorem witness_SelectWordReadsBack : sA.env.owned = true ∧ (sA.withEnv { sA.env with owned := false }).env.owned = false ∧
    sA.env.selWord = none ∧ (favoured sA).env.readAnswers = 0x5A01 :: List.replicate 4 0x5A01 := by decide

end Sys2Proof.Tests
end

section
/-! SUPPORT. The functions of spec/00_scope.md R7 and R9 as integer facts, the refusal of R4, and the statements of the
scope settled from them. -/

namespace Sys2Proof.Machine

/-! ### Words as integers (R7) -/

@[simp] theorem least_toNat (a b : Word) : (least a b).toNat = min a.toNat b.toNat := by
  unfold least
  split <;> omega

@[simp] theorem most_toNat (a b : Word) : (most a b).toNat = max a.toNat b.toNat := by
  unfold most
  split <;> omega

/-- R7: `sat_W` bounds an integer to `[0, 2^W - 1]`, for every width a word can hold. -/
theorem saturate_toNat {width : Nat} (hw : width ≤ 32) (x : Int) :
    ((saturate width x).toNat : Int) = min (max x 0) (2 ^ width - 1) := by
  have hpos : 1 ≤ 2 ^ width := Nat.one_le_two_pow
  have hword : 2 ^ width ≤ 2 ^ 32 := Nat.pow_le_pow_right (by decide) hw
  have hfit : min x.toNat (2 ^ width - 1) < 2 ^ 32 := by omega
  rw [saturate, BitVec.toNat_ofNat, Nat.mod_eq_of_lt hfit]
  push_cast [hpos]
  rw [Int.toNat_eq_max]

/-! ### A configuration that breaks R4 -/

/-- I14: no operation runs under an ill-formed configuration. -/
theorem runOp_of_wf_false {s : State} (h : s.cfg.wf = false) (op : Op Unit) : runOp op s = .refused .configIllFormed :=
  if_neg (by simp [h])

theorem step_of_wf_false {s : State} (h : s.cfg.wf = false) : step s = .refused .configIllFormed :=
  if_neg (by simp [h])

/-- Every command is a whole operation (R72), so it is refused as every operation is. -/
theorem exec_of_wf_false {s : State} (h : s.cfg.wf = false) (i : Instr) : exec i s = .refused .configIllFormed := by
  cases i with
  | policy desired => exact runOp_of_wf_false h (policyOp desired)
  | transition requested => exact runOp_of_wf_false h (transitionOp requested)
  | setBounds min max => exact runOp_of_wf_false h (setBoundsOp min max)
  | cold asserted => exact runOp_of_wf_false h (coldOp asserted)

/-- Settles O14: `step` and `exec` both check the configuration before anything else. -/
theorem illFormedConfigurationRefused : Obligations.IllFormedConfigurationRefused :=
  fun _ i h => ⟨step_of_wf_false h, exec_of_wf_false h i⟩

/-! ### The governor's clamp and the voltage (R9) -/

theorem State.clampLow_toNat (s : State) :
    s.clampLow.toNat = max (s.cfg.freqAt s.cfg.lowest).toNat s.qosMin.toNat := most_toNat _ _

theorem State.clampHigh_toNat (s : State) :
    s.clampHigh.toNat = min (min (s.cfg.freqAt 0).toNat s.thermalCeiling.toNat) s.qosMax.toNat := by
  simp [State.clampHigh]

theorem State.clamp_toNat (s : State) (d : Word) :
    (s.clamp d).toNat = min (max d.toNat s.clampLow.toNat) s.clampHigh.toNat := by
  simp [State.clamp]

/-- Settles O35: the clamp is its integer formula, of which the upper bound is the outermost minimum. -/
theorem clampUpperBoundWins : Obligations.ClampUpperBoundWins := by
  intro s d
  have hclamp := s.clamp_toNat d
  have hhigh := s.clampHigh_toNat
  refine ⟨?_, fun hcross => BitVec.eq_of_toNat_eq ?_, ?_⟩
  · rw [hclamp, s.clampLow_toNat, hhigh]
  · omega
  · omega

/-- Settles O36: the saturation of R7 at the full width of a word. -/
theorem voltageSaturates : Obligations.VoltageSaturates :=
  fun _ _ => saturate_toNat le_rfl _

/-! ### `floor_level` (R9, R151) -/

/-- A level's frequency is that of its entry in the table. -/
theorem Config.freqAt_eq_getElem {c : Config} {l : Level} (h : l.toNat < c.opps.length) :
    c.freqAt l = c.opps[l.toNat].freq := by
  unfold Config.freqAt Config.opp
  rw [List.getD_eq_getElem _ _ h]

/-- R4.1: a level's number fits the register of levels. -/
theorem Config.toNat_ofNat_level {c : Config} (h : c.wf = true) {i : Nat} (hi : i < c.nLevels) :
    (BitVec.ofNat 8 i).toNat = i := by
  have hcount := Config.wf_count h
  rw [BitVec.toNat_ofNat, Nat.mod_eq_of_lt (by omega)]

/-- R9: the lowest level has the last number. -/
theorem Config.lowest_toNat {c : Config} (h : c.wf = true) : c.lowest.toNat = c.nLevels - 1 :=
  Config.toNat_ofNat_level h (by have := Config.wf_count h; omega)

/-- R9: either the level found is the first whose frequency fits the bound, or none fits and it is the lowest. -/
theorem floorLevel_cases {c : Config} (h : c.wf = true) (v : Word) :
    ((c.freqAt (floorLevel c v)).toNat ≤ v.toNat ∧
      ∀ i : Level, i.toNat < (floorLevel c v).toNat → v.toNat < (c.freqAt i).toNat) ∨
    (floorLevel c v = c.lowest ∧ ∀ i : Level, i.toNat < c.nLevels → v.toNat < (c.freqAt i).toNat) := by
  unfold floorLevel
  split
  · next k hk =>
    left
    obtain ⟨hlt, hfits, hbefore⟩ := List.findIdx?_eq_some_iff_getElem.1 hk
    have hnum : (BitVec.ofNat 8 k).toNat = k := Config.toNat_ofNat_level h hlt
    refine ⟨?_, fun i hi => ?_⟩
    · rw [Config.freqAt_eq_getElem (hnum.symm ▸ hlt)]
      simpa [hnum] using hfits
    · rw [hnum] at hi
      rw [Config.freqAt_eq_getElem (hi.trans hlt)]
      simpa using hbefore i.toNat hi
  · next hnone =>
    refine .inr ⟨rfl, fun i hi => ?_⟩
    rw [Config.freqAt_eq_getElem hi]
    simpa using List.findIdx?_eq_none_iff.1 hnone _ (List.getElem_mem hi)

/-- Settles O34: where no level fits, every level is over the bound, so those above the lowest are. -/
theorem floorLevelIsTheHighestThatFits : Obligations.FloorLevelIsTheHighestThatFits := by
  intro c v h
  have hlevel := floorLevel_lt h v
  obtain ⟨hfits, habove⟩ | ⟨hlowest, hover⟩ := floorLevel_cases h v
  · exact ⟨hlevel, habove, .inl hfits⟩
  · exact ⟨hlevel, fun i hi => hover i (hi.trans hlevel),
      .inr ⟨hlowest.symm ▸ Config.lowest_toNat h, hover⟩⟩

end Sys2Proof.Machine
end

section
/-! SUPPORT. The words owed back and the configuration (spec/10_state.md R40, R41), and what one step can do, as one list
of cases. -/

namespace Sys2Proof.Machine

/-! ### The words owed back (R40) -/

/-- R40: a word that is owed back is the answer, and is not drawn. -/
theorem State.outRead_of_owed {s : State} {w : Window} {off : Nat} {v : Word} (h : s.owedWord w off = some v) :
    (s.outRead w off).1 = v := by
  simp [State.outRead, h]

/-- R66: where no word is owed back, the answer is the environment's next. -/
theorem State.outRead_of_not_owed {s : State} {w : Window} {off : Nat} (h : s.owedWord w off = none) :
    (s.outRead w off).1 = s.env.drawWord.1 := by
  simp [State.outRead, h]

/-- Settles O59: with the obligation the word written is owed back, and without it or before a write none is. -/
theorem selectWordReadsBack : Obligations.SelectWordReadsBack := by
  intro s v
  refine ⟨fun howned => State.outRead_of_owed ?_, fun hfree w rest hanswers => ?_⟩
  · simp [State.owedWord, State.outWrite, State.noteWrite, howned]
  · have hnone : s.owedWord .drex s.cfg.offTsel = none := by
      obtain howned | hsel := hfree
      · simp [State.owedWord, howned]
      · simp [State.owedWord, hsel]
    rw [State.outRead_of_not_owed hnone, Env.drawWord, hanswers]

/-! ### The configuration (R41) -/

theorem anyBodyEvents (c : Config) : BodyEvents c fun _ => True where
  clock _ _ := trivial
  poll _ _ _ := trivial
  readSel _ := trivial
  writeSel _ := trivial
  writeSet _ _ _ := trivial
  voltage _ := trivial
  pollVolt _ := trivial
  readStat _ := trivial
  writeCtrl _ := trivial
  writeAref _ := trivial

theorem anyTickEvents (c : Config) : TickEvents c fun _ => True where
  toBodyEvents := anyBodyEvents c
  writeMrr _ _ _ := trivial
  readStatus _ _ _ := trivial
  readData _ _ _ := trivial
  notify _ _ := trivial
  shutdown := trivial

/-- The configuration alone is a property of configuration and trace. -/
theorem traceProp_cfg (c : Config) : TraceProp c (fun _ => True) fun s => s.cfg = c where
  cfg _ h := h
  same _ _ hcfg _ hs := hcfg.trans hs
  pass _ _ _ _ hcfg _ hs := hcfg.trans hs

/-- Settles O54: a property of configuration and trace that every event keeps is kept by every step. -/
theorem configurationNeverWritten : Obligations.ConfigurationNeverWritten :=
  fun s _ hstep => (traceProp_cfg s.cfg).step (anyTickEvents _) rfl hstep

/-! ### What one step can do -/

/-- R64, R121, R224, R320: what a step that answers a next state did: it took in an input, or nothing, or ran what was
ready. -/
inductive StepEffect (s t : State) : Prop
  | idle (e : Env) (ht : t = s.withEnv e)
  | strobe (e : Env) (ht : t = s.msTick.withEnv e)
  | access (a : Access) (s' : State) (e : Env) (ha : s.hostAccess a = .ok s') (ht : t = s'.withEnv e)
  | reset (e : Env) (hi : Input.rst ∈ s.env.inputs) (ht : t = s.resetNow.withEnv e)
  | command (e : Env) (cmd : Cmd) (i : Instr) (he : e.inputs ⊆ s.env.inputs) (hslot : s.slot = some cmd)
      (hdecode : decodeCmd cmd = .ok i) (hx : exec i (s.withEnv e).takeCommand = .next t)
  | illegal (e : Env) (he : e.inputs ⊆ s.env.inputs) (hx : execIllegal (s.withEnv e).takeCommand = .next t)
  | tick (e : Env) (th : Thermal) (he : e.inputs ⊆ s.env.inputs) (hpending : s.tickPending = true)
      (hth : s.cfg.thermal = some th) (hx : runTick th (s.withEnv e) = .next t)

/-- R121: the slot's command, started from a state with other fields of the model. -/
theorem stepEffect_startSlot {s t : State} {e : Env} (he : e.inputs ⊆ s.env.inputs)
    (hx : startSlot (s.withEnv e) = .next t) : StepEffect s t := by
  unfold startSlot at hx
  split at hx
  · next cmd hslot =>
    unfold startCommand at hx
    split at hx
    · next i hdecode => exact .command e cmd i he hslot hdecode hx
    · exact .illegal e he hx
  · cases hx; exact .idle e rfl

/-- R223, R224: the tick, started likewise. -/
theorem stepEffect_startTick {s t : State} {e : Env} (he : e.inputs ⊆ s.env.inputs)
    (hready : (s.withEnv e).tickReady = true) (hx : startTick (s.withEnv e) = .next t) : StepEffect s t := by
  unfold startTick at hx
  split at hx
  · next th hth =>
    simp only [State.tickReady, Bool.and_eq_true] at hready
    obtain ⟨⟨-, hpending⟩, -⟩ := hready
    exact .tick e th he hpending hth hx
  · cases hx; exact .idle e rfl

theorem stepEffect_startReady {s t : State} {e : Env} {p : Pick} (he : e.inputs ⊆ s.env.inputs)
    (hx : startReady p (s.withEnv e) = .next t) : StepEffect s t := by
  unfold startReady at hx
  split at hx
  · next _ htick =>
    cases p with
    | cmd => exact stepEffect_startSlot he hx
    | tick => exact stepEffect_startTick he htick hx
  · exact stepEffect_startSlot he hx
  · next _ htick => exact stepEffect_startTick he htick hx
  · cases hx; exact .idle e rfl

/-- R274: with nothing to come, the arbiter starts what is ready. -/
theorem stepEffect_arbitrate {s t : State} (hx : arbitrate s = .next t) : StepEffect s t := by
  unfold arbitrate at hx
  split at hx
  · exact stepEffect_startReady (e := { s.env with draws := s.env.draws + 1 }) (List.Subset.refl _) hx
  · exact stepEffect_startReady (e := s.env) (List.Subset.refl _) hx

theorem stepEffect {s t : State} (hx : step s = .next t) : StepEffect s t := by
  unfold step stepBlock at hx
  split at hx
  · unfold nextAction at hx
    split at hx
    · exact stepEffect_arbitrate hx
    · next rest hi =>
      exact stepEffect_startReady (e := { s.env with inputs := rest }) (by simp [hi]) hx
    · cases hx; exact .strobe _ rfl
    · next hi => cases hx; exact .reset _ (by simp [hi]) rfl
    · split at hx
      · next ha => cases hx; exact .access _ _ _ ha rfl
      · cases hx
    · split at hx
      · next ht =>
        cases hx
        obtain rfl | ⟨a, u, x, ha, rfl⟩ := hostTurn_ok ht
        · exact .idle _ rfl
        · exact .access a u _ ha rfl
      · cases hx
  · cases hx

end Sys2Proof.Machine
end

section
/-! SUPPORT. The rules by which a property passes through a whole command (spec/40_commands.md R122 to R127) and a whole
tick (spec/42_thermal_monitor.md R225 to R236), whatever the property is. -/

namespace Sys2Proof.Machine

variable {α : Type} {c : Config} {th : Thermal} {P Q : State → Prop} {X : Stop → State → Prop}

/-- An operation may read the state and need nothing of what it read. -/
theorem Triple.read {k : State → Op α} {R : α → State → Prop} (h : ∀ s, Triple P (k s) R X) :
    Triple P (get >>= k) R X := fun s hs => h s s hs

/-! ### A whole command -/

/-- R123 to R126: what a command stores before its transition or voltage call. -/
def storeOf : Instr → State → State
  | .policy f => fun s => s.setRequest f
  | .transition f => fun s => s.setRequest f
  | .setBounds lo hi => fun s => s.setBounds lo hi
  | .cold b => fun s => s.setCold b

/-- R37: the commands that answer in RESULT. -/
def answersResult : Instr → Bool
  | .policy _ => true
  | .transition _ => true
  | .setBounds _ _ => false
  | .cold _ => false

/-- What leads from P, which holds while the command runs, to Q at its end (R122). -/
structure RunsCommand (i : Instr) (P Q : State → Prop) (X : Stop → State → Prop) : Prop where
  turn : Turn P X
  store : ∀ s, P s → P (storeOf i s)
  body : ∀ f, Keeps P X (catchTimeout (transitionBody f .cmd))
  voltage : Keeps P X (catchTimeout coldVoltage)
  complete : ∀ s code res, code = 0 ∨ code = 1 ∨ code = 2 → (answersResult i = false → res = none) → P s →
    Q (s.completeCmd code res)

namespace RunsCommand

theorem completeWith {i : Instr} (h : RunsCommand i P Q X) {code : BitVec 4} {res : Option Word}
    (hcode : code = 0 ∨ code = 1 ∨ code = 2) (hres : answersResult i = false → res = none) :
    Triple P (completeWith code res) (fun _ => Q) X :=
  Triple.act h.turn fun s => h.complete s code res hcode hres

theorem completeTransition {i : Instr} (h : RunsCommand i P Q X) (hi : answersResult i = true) (r : Option Word) :
    Triple P (completeTransition r) (fun _ => Q) X := by
  cases r with
  | some f => exact h.completeWith (.inl rfl) fun hn => absurd (hi.symm.trans hn) Bool.noConfusion
  | none => exact h.completeWith (.inr (.inr rfl)) fun _ => rfl

theorem policyOp {f : Word} (h : RunsCommand (.policy f) P Q X) : Triple P (policyOp f) (fun _ => Q) X :=
  Triple.read fun _ => Triple.ite
    (fun _ => Triple.seq (Keeps.modify h.store) (Triple.read fun _ =>
      Triple.bind (h.body _) fun r => h.completeTransition rfl r))
    fun _ => h.completeWith (.inr (.inl rfl)) fun _ => rfl

theorem transitionOp {f : Word} (h : RunsCommand (.transition f) P Q X) : Triple P (transitionOp f) (fun _ => Q) X :=
  Triple.read fun _ => Triple.ite
    (fun _ => Triple.seq (Keeps.modify h.store) (Triple.bind (h.body f) fun r => h.completeTransition rfl r))
    fun _ => h.completeWith (.inr (.inl rfl)) fun _ => rfl

theorem setBoundsOp {lo hi : Word} (h : RunsCommand (.setBounds lo hi) P Q X) :
    Triple P (setBoundsOp lo hi) (fun _ => Q) X :=
  Triple.seq (Keeps.modify h.store) (h.completeWith (.inl rfl) fun _ => rfl)

theorem coldOp {b : Bool} (h : RunsCommand (.cold b) P Q X) : Triple P (coldOp b) (fun _ => Q) X := by
  refine Triple.seq (Keeps.modify h.store) (Triple.bind h.voltage fun r => h.completeWith ?_ fun _ => rfl)
  cases r with
  | some _ => exact .inl rfl
  | none => exact .inr (.inr rfl)

/-- What a command leaves when it answers a next state. -/
theorem exec {i : Instr} (h : RunsCommand i P Q X) {s t : State} (hs : P s) (hx : exec i s = .next t) :
    Q t ∨ X .timeout t ∨ X .reset t := by
  cases i with
  | policy f => exact runOp_next h.policyOp hs hx
  | transition f => exact runOp_next h.transitionOp hs hx
  | setBounds lo hi => exact runOp_next h.setBoundsOp hs hx
  | cold b => exact runOp_next h.coldOp hs hx

end RunsCommand

/-! ### The parts of a tick -/

/-- A property kept while the ranks are sampled (R225, R226). -/
structure PassesSampling (c : Config) (th : Thermal) (P : State → Prop) (X : Stop → State → Prop) : Prop
    extends Passes c (fun _ => True) P X where
  sampled : ∀ s n second w, P s → P (s.setSample n second (codeField th w))

namespace PassesSampling

variable (h : PassesSampling c th P X)
include h

theorem sampleRank (n : Nat) (second : Bool) (cmd : Word) : Keeps P X (sampleRank th n second cmd) :=
  (h.memWrite trivial).bind fun _ => (h.waitRegWarn fun _ => trivial).bind fun _ => Keeps.ite
    (fun _ => (h.memRead fun _ => trivial).bind fun w =>
      (Keeps.modify fun s => h.sampled s n second w).bind fun _ => Keeps.pure _)
    fun _ => Keeps.pure _

theorem sampleFrom (cmds : List (Word × Word)) : ∀ n, Keeps P X (sampleFrom th n cmds) := by
  induction cmds with
  | nil => exact fun _ => Keeps.pure _
  | cons p rest ih =>
    exact fun n => (h.sampleRank n false p.1).bind fun _ => Keeps.ite
      (fun _ => (h.sampleRank n true p.2).bind fun _ => Keeps.ite (fun _ => ih (n + 1)) fun _ => Keeps.pure _)
      fun _ => Keeps.pure _

end PassesSampling

/-- A property kept while the changes are notified (R230). -/
structure PassesNotices (c : Config) (P : State → Prop) (X : Stop → State → Prop) : Prop
    extends Passes c (fun _ => True) P X where
  notified : ∀ s level n, P s → P (s.record (.notify level n))
  tlevel : ∀ s, P s → P (s.raiseInt .tlevel)

namespace PassesNotices

variable (h : PassesNotices c P X)
include h

theorem notifyFrom (news : List Byte) : ∀ prevs n, Keeps P X (notifyFrom n news prevs) := by
  induction news with
  | nil => exact fun _ _ => Keeps.pure _
  | cons new news ih =>
    intro prevs n
    cases prevs with
    | nil => exact Keeps.pure _
    | cons prev prevs =>
      exact Keeps.ite (fun _ => ih _ _) fun _ => (h.act fun s => h.notified s new n).bind fun _ =>
        (ih _ _).bind fun _ => Keeps.pure _

theorem notifyChanges (prev : List Byte) : Keeps P X (notifyChanges prev) :=
  h.get_bind fun _ _ _ => (h.notifyFrom _ _ _).bind fun _ =>
    Keeps.ite (fun _ => Keeps.modify h.tlevel) fun _ => Keeps.pure _

end PassesNotices

/-- A property kept while the ceiling is re-evaluated (R235). -/
structure PassesReeval (c : Config) (P : State → Prop) (X : Stop → State → Prop) : Prop
    extends Passes c (fun _ => True) P X where
  body : ∀ f, Keeps P X (catchTimeout (transitionBody f .tick))
  recorded : ∀ s r, P s → P (s.recordTickResult r)

namespace PassesReeval

variable (h : PassesReeval c P X)
include h

theorem reeval : Keeps P X reeval :=
  (h.goTo _).bind fun _ => h.get_bind fun _ _ _ => Keeps.ite
    (fun _ => (h.body _).bind fun r => Keeps.modify fun s => h.recorded s r) fun _ => Keeps.pure _

theorem reevalIfChanged (oldCeiling : Word) : Keeps P X (reevalIfChanged oldCeiling) :=
  h.get_bind fun _ _ _ => Keeps.ite (fun _ => h.reeval) fun _ => Keeps.pure _

theorem monAref : Keeps P X monAref :=
  (h.goTo _).bind fun _ => h.act fun s => h.write s _ _ _ trivial

end PassesReeval

/-! ### A whole tick -/

/-- What leads from B, at the start of a tick, to Q at its end (R225): S holds while the ranks are sampled, U once the
levels are taken, as long as the tick has not tripped, M when the state has moved to Tripped, and T after the shutdown
request. -/
structure RunsTick (c : Config) (th : Thermal) (B S U M T Q : State → Prop) (X : Stop → State → Prop) : Prop where
  start : ∀ s, B s → S ((s.setStep .monSample).clearSamples th)
  sampling : PassesSampling c th S X
  finishUnsampled : ∀ s, S s → Q (s.finishTick th)
  take : ∀ s, S s → U s.takeSamples
  notices : PassesNotices c U X
  move : ∀ s, U s → (s.moveThermState th).thermState ≠ .tripped → U (s.moveThermState th)
  moveTripped : ∀ s, U s → (s.moveThermState th).thermState = .tripped → M (s.moveThermState th)
  reevals : PassesReeval c U X
  finish : ∀ s, U s → Q (s.finishTick th)
  tripTurn : Turn M X
  shutDown : ∀ s, M s → T s.shutDown
  reevalsTripped : PassesReeval c T X
  release : ∀ s, T s → Q s.releaseLock

namespace RunsTick

variable {B S U M T : State → Prop} (h : RunsTick c th B S U M T Q X)
include h

/-- R233: from the move to Tripped to the release of the lock. -/
theorem trip (oldCeiling : Word) : Triple M (trip oldCeiling) (fun _ => Q) X :=
  Triple.bind (Triple.act h.tripTurn h.shutDown) fun _ => Triple.seq (h.reevalsTripped.reevalIfChanged oldCeiling)
    (Triple.act h.reevalsTripped.turn h.release)

/-- R234 to R236: the end of a tick that does not trip. -/
theorem settle (oldCeiling : Word) :
    Triple U (do monAref; reevalIfChanged oldCeiling; finishTick th) (fun _ => Q) X :=
  Triple.seq h.reevals.monAref (Triple.seq (h.reevals.reevalIfChanged oldCeiling) (Triple.act h.reevals.turn h.finish))

theorem updateTick : Triple S (updateTick th) (fun _ => Q) X := by
  refine Triple.seq (h.sampling.goTo _) (Triple.read fun s => ?_)
  refine Triple.bind (Triple.modify h.take) fun _ => Triple.seq (h.notices.notifyChanges _) (Triple.read fun u => ?_)
  refine Triple.bind (Q := fun _ t => if t.thermState = .tripped then M t else U t)
    (Triple.modify fun t ht => ?_) fun _ => Triple.get_bind fun t => Triple.ite (fun hm => ?_) fun hm => ?_
  · split
    · next hm => exact h.moveTripped t ht hm
    · next hm => exact h.move t ht hm
  · refine (h.trip _).conseq (fun t' ht => ?_) (fun _ _ hq => hq) (fun _ _ hx => hx)
    obtain ⟨rfl, ht⟩ := ht
    exact (if_pos hm).mp ht
  · refine (h.settle _).conseq (fun t' ht => ?_) (fun _ _ hq => hq) (fun _ _ hx => hx)
    obtain ⟨rfl, ht⟩ := ht
    exact (if_neg hm).mp ht

theorem sampleAll : Triple B (sampleAll th) (fun _ => S) X :=
  Triple.bind (Q := fun _ t => S (t.clearSamples th)) (Triple.goTo h.start) fun _ =>
    Triple.bind (Triple.modify fun _ ht => ht) fun _ => h.sampling.sampleFrom _ _

/-- What a tick leaves when it answers a next state. -/
theorem tick : Triple B (tick th) (fun _ => Q) X :=
  Triple.bind h.sampleAll fun _ => Triple.ite (fun _ => h.updateTick)
    fun _ => Triple.act h.sampling.turn h.finishUnsampled

end RunsTick

end Sys2Proof.Machine
end

section
/-! SUPPORT. The invariant of the block (spec/10_state.md R22 to R42): what starts, stores and ends an operation keeps
coherence, so a whole command and a whole tick do, and every step. -/

namespace Sys2Proof.Machine

variable {L : LockOwner} {c : Config} {th : Thermal}

/-! ### A running command -/

theorem bodyFact_true : BodyFact fun _ => True := ⟨fun _ _ _ _ _ _ _ _ => trivial⟩

/-- R122: at its end a command gives its code and the lock back. -/
theorem Inv.completeCmd {s : State} {code : BitVec 4} (hcode : code = 0 ∨ code = 1 ∨ code = 2 ∨ code = 4)
    (res : Option Word) (hs : Coherent s) (howner : s.lockOwner = .cmd) : Inv (s.completeCmd code res) where
  rest := ⟨rfl, rfl, rfl⟩
  coherent := { hs with
    errCode := hcode
    counting := fun hm hp _ => hs.counting hm hp (howner ▸ LockOwner.noConfusion)
    active := fun h => by cases h
    ticking := fun h => by cases h
    tripped := fun h => (hs.tripped h).imp_right fun h' => by rw [howner] at h'; cases h' }

/-- R121: a command is started with the lock, from a state at rest. -/
theorem Running.takeCommand {s : State} (hs : Inv s) :
    Running .cmd s.cfg (fun _ => True) s.takeCommand where
  coherent := { hs.coherent with
    counting := fun hm hp _ => hs.coherent.counting hm hp (hs.rest.owner ▸ LockOwner.noConfusion)
    active := fun _ => rfl
    ticking := fun h => by cases h
    tripped := fun h => (hs.coherent.tripped h).imp_right fun h' => by rw [hs.rest.owner] at h'; cases h' }
  owner := rfl
  cfg := rfl
  fact := trivial

/-- R126: COLD's voltage call. -/
theorem Running.catchVoltage : Keeps (Running L c fun _ => True) EndsWell (catchTimeout coldVoltage) := by
  have h := Running.passes (L := L) (c := c) bodyFact_true.core fun _ hs => hs
  have hv : Keeps (Running L c fun _ => True) (StopsWell L c fun _ => True) coldVoltage :=
    (h.goTo _).bind fun _ => h.get_bind fun _ _ _ => (Running.setVolt bodyFact_true _).bind fun _ => Keeps.pure _
  exact Triple.catchTimeout hv (fun _ _ hs => hs) (fun _ hs => hs) fun e s he hs => by
    cases e with
    | timeout => exact absurd rfl he
    | reset => exact hs
    | fault => trivial

theorem Running.runsCommand (i : Instr) : RunsCommand i (Running .cmd c fun _ => True) Inv EndsWell where
  turn := (Running.passesTop bodyFact_true.core).turn
  store s hs := hs.of_frame bodyFact_true.core (storeOf i s) (by cases i <;> constructor <;> rfl)
    (by cases i <;> rfl) (by cases i <;> rfl)
  body f := Running.catchBody bodyFact_true f .cmd
  voltage := Running.catchVoltage
  complete s code res hcode _ hs := Inv.completeCmd (by tauto) res hs.coherent hs.owner

/-! ### A running tick -/

/-- R233: the tick in progress has not tripped. -/
def BelowTripped (s : State) : Prop := s.thermState ≠ .tripped

/-- R225: it is sampling into a table with a row for each channel. -/
def SamplingBelowTripped (th : Thermal) (s : State) : Prop := BelowTripped s ∧ s.sample.length = th.channels

/-- R233: the shutdown request has been made. -/
def MonitorStopped (s : State) : Prop := s.monStopped = true

theorem bodyFact_belowTripped : BodyFact BelowTripped where
  same _ _ _ _ _ _ hstate hs := by unfold BelowTripped; rw [hstate]; exact hs

theorem bodyFact_samplingBelowTripped (th : Thermal) : BodyFact (SamplingBelowTripped th) where
  same _ _ _ _ hsample _ hstate hs := by unfold SamplingBelowTripped BelowTripped; rw [hstate, hsample]; exact hs

theorem bodyFact_monitorStopped : BodyFact MonitorStopped where
  same _ _ _ _ _ hstopped _ hs := hstopped.trans hs

/-- R31: a table of zeros fits any width. -/
theorem codesFit_zero (c : Config) : codesFit c (0, 0) := fun _ _ => ⟨Nat.two_pow_pos _, Nat.two_pow_pos _⟩

/-- R31, R225: a table stays within the width when a code field is stored in it. -/
theorem codesFit_setSample {s : State} (hth : s.cfg.thermal = some th) (hs : ∀ p ∈ s.sample, codesFit s.cfg p)
    (n : Nat) (second : Bool) (w : Word) :
    ∀ p ∈ (s.setSample n second (codeField th w)).sample, codesFit s.cfg p := by
  intro p hp
  obtain ⟨k, hk, rfl⟩ := List.getElem_of_mem hp
  have hk' : k < s.sample.length := by simpa [State.setSample] using hk
  have hold := hs _ (List.getElem_mem hk')
  simp only [State.setSample, List.getElem_modify]
  split
  · intro th' hth'
    obtain rfl : th = th' := Option.some.inj (hth.symm.trans hth')
    cases second
    · exact ⟨codeField_lt th w, (hold th hth).2⟩
    · exact ⟨(hold th hth).1, codeField_lt th w⟩
  · exact hold

/-- R224, R225: a tick is started with the lock and a fresh table, from a state at rest with a tick pending: so the
monitor runs and has not tripped. -/
theorem Running.takeTick {s : State} (hs : Inv s) (hpending : s.tickPending = true) :
    Running .tick s.cfg BelowTripped s.takeTick where
  coherent := { hs.coherent with
    counting := fun _ _ h => absurd rfl h
    active := fun h => by rw [State.takeTick_cmdActive, hs.rest.active] at h; cases h
    ticking := fun _ => rfl
    stopped := fun _ => rfl
    tripped := fun _ => .inr rfl }
  owner := rfl
  cfg := rfl
  fact htripped := by
    obtain hstopped | howner := hs.coherent.tripped htripped
    · exact absurd (hpending.symm.trans (hs.coherent.stopped hstopped)) Bool.noConfusion
    · exact absurd (hs.rest.owner.symm.trans howner) LockOwner.noConfusion

/-- No command runs while a tick holds the lock (R42). -/
theorem Coherent.not_active {s : State} (hs : Coherent s) (howner : s.lockOwner = .tick) : s.cmdActive = false :=
  Bool.eq_false_iff.2 fun h => by have := hs.active h; rw [howner] at this; cases this

/-- R236: a tick that has not tripped ends with the countdown of its state. -/
theorem Inv.finishTick {s : State} (hth : s.cfg.thermal = some th) (hs : Coherent s) (howner : s.lockOwner = .tick)
    (hbelow : BelowTripped s) : Inv (s.finishTick th) := by
  have hactive := hs.not_active howner
  obtain ⟨-, -, -, hpoll⟩ := Config.wf_monitor hs.cfgWf hth
  obtain ⟨hlow, hhigh⟩ := Thermal.pollMs_range hpoll s.thermState
  exact {
    rest := ⟨rfl, rfl, hactive⟩
    coherent := { hs with
      countMax := hhigh
      counting := fun _ _ _ => Nat.le_trans (by decide) hlow
      active := fun h => absurd (hactive.symm.trans h) Bool.noConfusion
      ticking := fun h => by cases h
      tripped := fun h => absurd h hbelow } }

/-- R233: a tick that tripped ends with the monitor stopped. -/
theorem Inv.releaseLock {s : State} (hs : Coherent s) (howner : s.lockOwner = .tick) (hstopped : MonitorStopped s) :
    Inv s.releaseLock := by
  have hactive := hs.not_active howner
  exact {
    rest := ⟨rfl, rfl, hactive⟩
    coherent := { hs with
      counting := fun h => absurd (hstopped.symm.trans h) Bool.noConfusion
      active := fun h => absurd (hactive.symm.trans h) Bool.noConfusion
      ticking := fun h => by cases h
      tripped := fun _ => .inl hstopped } }

theorem Running.passesSampling (hth : c.thermal = some th) :
    PassesSampling c th (Running .tick c (SamplingBelowTripped th)) EndsWell where
  toPasses := Running.passesTop (bodyFact_samplingBelowTripped th).core
  sampled s n second w hs := by
    obtain ⟨hc, howner, rfl, hbelow, hlength⟩ := hs
    exact ⟨{ hc with sampleCodes := codesFit_setSample hth hc.sampleCodes n second w }, howner, rfl, hbelow,
      (List.length_modify _ _ _).trans hlength⟩

theorem Running.passesNotices : PassesNotices c (Running .tick c BelowTripped) EndsWell where
  toPasses := Running.passesTop bodyFact_belowTripped.core
  notified s level n hs := hs.of_frame bodyFact_belowTripped.core (s.record (.notify level n))
    (by constructor <;> rfl) rfl rfl
  tlevel s hs := hs.of_frame bodyFact_belowTripped.core (s.raiseInt .tlevel) (by constructor <;> rfl) rfl rfl

theorem Running.passesReeval {F : State → Prop} (hF : BodyFact F) : PassesReeval c (Running .tick c F) EndsWell where
  toPasses := Running.passesTop hF.core
  body f := Running.catchBody hF f .tick
  recorded s r hs := by
    have hfact : F (s.recordTickResult r) :=
      hF.same s _ (by cases r <;> rfl) (by cases r <;> rfl) (by cases r <;> rfl) (by cases r <;> rfl)
        (by cases r <;> rfl) hs.fact
    cases r with
    | some w => exact ⟨{ hs.coherent with errCode := .inl rfl }, hs.owner, hs.cfg, hfact⟩
    | none => exact ⟨{ hs.coherent with errCode := .inr (.inr (.inl rfl)) }, hs.owner, hs.cfg, hfact⟩

/-- R231, R232: where there is a monitor, the thermal state may move while a tick holds the lock. -/
theorem Coherent.moveThermState {s : State} (hth : s.cfg.thermal = some th) (hs : Coherent s)
    (howner : s.lockOwner = .tick) : Coherent (s.moveThermState th) :=
  { hs with
    tripped := fun _ => .inr howner
    noMonitor := fun h => absurd (hth.symm.trans h) (Option.some_ne_none th) }

theorem Running.runsTick (hth : c.thermal = some th) :
    RunsTick c th (Running .tick c BelowTripped) (Running .tick c (SamplingBelowTripped th))
      (Running .tick c BelowTripped) (Running .tick c fun _ => True) (Running .tick c MonitorStopped) Inv EndsWell where
  start s hs := ⟨{ hs.coherent with
      sampleCodes := fun p hp => by
        obtain rfl := List.eq_of_mem_replicate hp
        exact codesFit_zero _ }, hs.owner, hs.cfg, hs.fact, List.length_replicate⟩
  sampling := Running.passesSampling hth
  finishUnsampled s hs := Inv.finishTick (hs.cfg ▸ hth) hs.coherent hs.owner hs.fact.1
  take s hs := by
    obtain ⟨hc, howner, rfl, hbelow, hlength⟩ := hs
    exact ⟨{ hc with
      rankCount := by simp [Config.channels, hth, hlength]
      rankCodes := hc.sampleCodes }, howner, rfl, hbelow⟩
  notices := Running.passesNotices
  move s hs hbelow := ⟨hs.coherent.moveThermState (hs.cfg ▸ hth) hs.owner, hs.owner, hs.cfg, hbelow⟩
  moveTripped s hs _ := ⟨hs.coherent.moveThermState (hs.cfg ▸ hth) hs.owner, hs.owner, hs.cfg, trivial⟩
  reevals := Running.passesReeval bodyFact_belowTripped
  finish s hs := Inv.finishTick (hs.cfg ▸ hth) hs.coherent hs.owner hs.fact
  tripTurn := (Running.passesTop bodyFact_true.core).turn
  shutDown s hs := ⟨{ hs.coherent with
      counting := fun _ _ h => absurd hs.owner h
      stopped := fun _ => hs.coherent.ticking hs.owner
      tripped := fun _ => .inl rfl
      noMonitor := fun h => absurd (hth.symm.trans (hs.cfg ▸ h)) (Option.some_ne_none th) }, hs.owner, hs.cfg, rfl⟩
  reevalsTripped := Running.passesReeval bodyFact_monitorStopped
  release s hs := Inv.releaseLock hs.coherent hs.owner hs.fact

/-! ### A step -/

/-- The invariant looks at none of the model's own fields. -/
theorem Inv.withEnv {s : State} (hs : Inv s) (e : Env) : Inv (s.withEnv e) where
  rest := ⟨hs.rest.step, hs.rest.owner, hs.rest.active⟩
  coherent := Coherent.of_frame (s := s) (by constructor <;> rfl) rfl rfl hs.coherent

/-- An input other than a reset keeps the block at rest. -/
theorem AtRest.of_input {s t : State} (h : InputFrame s t) (hs : AtRest s) : AtRest t :=
  ⟨h.step.trans hs.step, h.lockOwner.trans hs.owner, h.cmdActive.trans hs.active⟩

/-- How a whole operation ends, well or by a reset. -/
theorem Inv.of_ends {t : State} (h : Inv t ∨ EndsWell .timeout t ∨ EndsWell .reset t) : Inv t := by
  obtain h | h | ⟨hc, hr⟩ := h
  · exact h
  · exact h.elim
  · exact ⟨hr, hc⟩

/-- R127: a word that is no command completes with code 4. -/
theorem Inv.execIllegal {s t : State} (hs : Running .cmd c (fun _ => True) s) (hx : execIllegal s = .next t) : Inv t :=
  Inv.of_ends (runOp_next (Q := fun _ => Inv) (Triple.act (Running.passesTop bodyFact_true.core).turn fun _ h =>
    Inv.completeCmd (.inr (.inr (.inr rfl))) none h.coherent h.owner) hs hx)

/-- Settles O51: each of a step's effects keeps the invariant. -/
theorem invariantKept : Obligations.InvariantKept := by
  intro s t hs hstep
  cases stepEffect hstep with
  | idle e ht => exact ht ▸ hs.withEnv e
  | strobe e ht => exact ht ▸ Inv.withEnv ⟨hs.rest.of_input (inputFrame_msTick s), hs.coherent.msTick⟩ e
  | access a s' e ha ht =>
    exact ht ▸ Inv.withEnv ⟨hs.rest.of_input (inputFrame_hostAccess ha), hs.coherent.hostAccess ha⟩ e
  | reset e _ ht => exact ht ▸ Inv.withEnv ⟨⟨rfl, rfl, rfl⟩, Coherent.resetOf hs.coherent.cfgWf _⟩ e
  | command e cmd i _ _ _ hx =>
    exact Inv.of_ends ((Running.runsCommand i).exec (Running.takeCommand (hs.withEnv e)) hx)
  | illegal e _ hx => exact Inv.execIllegal (Running.takeCommand (hs.withEnv e)) hx
  | tick e th _ hpending hth hx =>
    have hstart : Running .tick s.cfg BelowTripped (s.withEnv e).takeTick := Running.takeTick (hs.withEnv e) hpending
    exact Inv.of_ends (runOp_next (Running.runsTick hth).tick hstart hx)

end Sys2Proof.Machine
end

section
/-! SUPPORT. Which operation writes which register (spec/10_state.md R24, R29, R30, R31, R37): while no reset is to
come, every action but those of the register's own command or tick leaves it alone. -/

namespace Sys2Proof.Machine

variable {c : Config} {th : Thermal}

/-! ### Operations that no reset ends -/

/-- R69: the turn takes inputs from the front of those to come; it is cut short by a bus error, or by a reset that is
among them. -/
theorem absorb_inputs (l : List Input) :
    ∀ s, match absorb l s with
      | .ok _ t => t.env.inputs ⊆ l
      | .error e _ => (e = .reset ∧ Input.rst ∈ l) ∨ ∃ f, e = .fault f := by
  induction l with
  | nil => exact fun _ => List.Subset.refl _
  | cons i rest ih =>
    have hrest : ∀ s, match absorb rest s with
        | .ok _ t => t.env.inputs ⊆ i :: rest
        | .error e _ => (e = .reset ∧ Input.rst ∈ i :: rest) ∨ ∃ f, e = .fault f := fun s => by
      have h := ih s
      cases hr : absorb rest s with
      | ok _ t => rw [hr] at h; exact List.subset_cons_of_subset i h
      | error e t => rw [hr] at h; exact h.imp_left (And.imp_right (List.mem_cons_of_mem i))
    intro s
    cases i with
    | turn p => exact List.subset_cons_self _ _
    | msTick => exact hrest _
    | rst => exact .inl ⟨rfl, List.mem_cons_self⟩
    | access a =>
      simp only [absorb]
      cases s.hostAccess a with
      | ok s' => exact hrest s'
      | error f => exact .inr ⟨f, rfl⟩
    | host =>
      simp only [absorb]
      cases s.hostTurn with
      | ok s' => exact hrest s'
      | error f => exact .inr ⟨f, rfl⟩

/-- How an operation may stop that no reset ends: by a timeout, after which P still holds, or by a bus error. -/
def StopsUnreset (P : State → Prop) : Stop → State → Prop
  | .timeout, t => P t
  | .reset, _ => False
  | .fault _, _ => True

/-- What every input but a reset keeps, the turn keeps where no reset is to come. -/
theorem Turn.of_noReset {P : State → Prop} (h : Stable P fun _ _ => True) :
    Turn (fun s => s.noReset ∧ P s) (StopsUnreset fun s => s.noReset ∧ P s) := by
  intro s hs
  obtain ⟨hnone, hs⟩ := hs
  have hkeep := absorb_spec h s.env.inputs s hs
  have hfront := absorb_inputs s.env.inputs s
  unfold awaitTurn
  cases ha : absorb s.env.inputs s with
  | ok _ t =>
    rw [ha] at hkeep hfront
    exact ⟨fun hr => hnone (hfront hr), hkeep⟩
  | error e t =>
    rw [ha] at hfront
    obtain ⟨-, hr⟩ | ⟨f, rfl⟩ := hfront
    · exact absurd hr hnone
    · trivial

/-- A body whose timeout is caught. -/
theorem Keeps.catchUnreset {P : State → Prop} {op : Op Word} (h : Keeps P (StopsUnreset P) op) :
    Keeps P (StopsUnreset P) (catchTimeout op) :=
  Triple.catchTimeout h (fun _ _ hs => hs) (fun _ hs => hs) fun _ _ _ hs => hs

/-- How a whole operation ends that no reset ends. -/
theorem StopsUnreset.of_ends {P : State → Prop} {t : State}
    (h : P t ∨ StopsUnreset P .timeout t ∨ StopsUnreset P .reset t) : P t := by
  obtain h | h | h := h
  · exact h
  · exact h
  · exact h.elim

@[simp] theorem State.outRead_inputs (s : State) (w : Window) (off : Nat) :
    (s.outRead w off).2.env.inputs = s.env.inputs := by
  unfold State.outRead
  split
  · rfl
  · unfold Env.drawWord; cases s.env.readAnswers <;> rfl

@[simp] theorem State.outPoll_inputs (s : State) (sig : Signal) : (s.outPoll sig).2.env.inputs = s.env.inputs := by
  unfold State.outPoll Env.drawBit; cases s.env.pollAnswers <;> rfl

/-! ### The registers with one writer -/

/-- The registers that a command or the tick alone writes. -/
structure OwnedRegs where
  thermalOffset : Word
  qosMin : Word
  qosMax : Word
  lastRequested : Word
  result : Word
  thermState : ThermState
  rankLevel : List (Byte × Byte)

/-- Their values in a state. -/
def State.ownedRegs (s : State) : OwnedRegs where
  thermalOffset := s.thermalOffset
  qosMin := s.qosMin
  qosMax := s.qosMax
  lastRequested := s.lastRequested
  result := s.result
  thermState := s.thermState
  rankLevel := s.rankLevel

theorem InputFrame.ownedRegs {s t : State} (h : InputFrame s t) : t.ownedRegs = s.ownedRegs := by
  simp only [State.ownedRegs, h.thermalOffset, h.qosMin, h.qosMax, h.lastRequested, h.result, h.thermState, h.rankLevel]

/-- R123 to R126: the registers without those that a command writes. -/
def maskCommand : Instr → OwnedRegs → OwnedRegs
  | .policy _ => fun r => { r with lastRequested := 0, result := 0 }
  | .transition _ => fun r => { r with lastRequested := 0, result := 0 }
  | .setBounds _ _ => fun r => { r with qosMin := 0, qosMax := 0 }
  | .cold _ => fun r => { r with thermalOffset := 0 }

/-- R228, R231: the registers without those that a tick writes. -/
def maskTick (r : OwnedRegs) : OwnedRegs := { r with thermState := .normal, rankLevel := [] }

/-- No reset is to come, and the registers that a mask leaves are those of r. -/
def Unreset (c : Config) (mask : OwnedRegs → OwnedRegs) (r : OwnedRegs) (s : State) : Prop :=
  s.noReset ∧ s.cfg = c ∧ mask s.ownedRegs = mask r

variable {mask : OwnedRegs → OwnedRegs} {r : OwnedRegs}

theorem Unreset.same {s t : State} (hs : Unreset c mask r s) (hcfg : t.cfg = s.cfg)
    (hinputs : t.env.inputs = s.env.inputs) (hregs : mask t.ownedRegs = mask s.ownedRegs) : Unreset c mask r t := by
  obtain ⟨hnone, hc, hr⟩ := hs
  exact ⟨by rw [State.noReset, hinputs]; exact hnone, hcfg.trans hc, hregs.trans hr⟩

theorem Unreset.turn : Turn (Unreset c mask r) (StopsUnreset (Unreset c mask r)) :=
  Turn.of_noReset (P := fun s => s.cfg = c ∧ mask s.ownedRegs = mask r) <| stable_of_frame
    (fun _ _ hf hs => ⟨hf.cfg.trans hs.1, hf.ownedRegs ▸ hs.2⟩) (fun _ _ _ => trivial) fun _ _ _ => trivial

/-- No action of a body writes one of the registers. -/
theorem Unreset.passesCalls : PassesCalls c (fun _ => True) (Unreset c mask r) (StopsUnreset (Unreset c mask r)) where
  cfg _ hs := hs.2.1
  turn := Unreset.turn
  setStep s x hs := hs.same (t := s.setStep x) rfl rfl rfl
  attempt _ _ hs := hs.same rfl rfl rfl
  lastWord _ _ hs := hs.same rfl rfl rfl
  read s w off _ hs := hs.same (by simp) (by simp) (by simp [State.ownedRegs])
  write s w off v _ hs := hs.same (t := s.outWrite w off v) rfl rfl rfl
  poll s sig _ hs := hs.same rfl (by simp) rfl
  warned s sig arg snap hs := hs.same (t := (s.recordTimeout sig arg snap).raiseInt .warn) rfl rfl rfl
  timeout s sig arg snap hs := hs.same (t := s.recordTimeout sig arg snap) rfl rfl rfl
  voltage s v _ hs := hs.same (t := s.issueVoltage v) rfl rfl rfl
  clock s first t p _ hs := hs.same (t := s.issueClock first t p) rfl rfl rfl
  safeMux s _ hs := hs.same (t := s.issueSafeMux) rfl rfl rfl
  pll s t _ hs := hs.same (t := s.issuePll t) rfl rfl rfl
  targetMux s t _ hs := hs.same (t := s.issueTargetMux t) rfl rfl rfl
  keepLock s w hs := hs.same (t := s.keepLock w) rfl rfl rfl
  forceDll s v _ hs := hs.same (t := s.forceDll v) rfl rfl rfl
  freeDll s _ hs := hs.same (t := s.freeDll) rfl rfl rfl
  markLocked s hs := hs.same (t := s.markLocked) rfl rfl rfl

theorem Unreset.catchBody (f : Word) (o : Origin) :
    Keeps (Unreset c mask r) (StopsUnreset (Unreset c mask r)) (catchTimeout (transitionBody f o)) :=
  Keeps.catchUnreset <| Unreset.passesCalls.transitionBody (anyBodyEvents c)
    (fun s t o hs => hs.same (t := s.beginBody t o) rfl rfl rfl) f o

theorem Unreset.catchVoltage :
    Keeps (Unreset c mask r) (StopsUnreset (Unreset c mask r)) (catchTimeout coldVoltage) := by
  have h := Unreset.passesCalls (c := c) (mask := mask) (r := r)
  exact Keeps.catchUnreset <| (h.goTo _).bind fun _ => h.get_bind fun _ _ _ =>
    (h.setVolt trivial fun _ => trivial).bind fun _ => Keeps.pure _

/-! ### A command, an illegal word, a tick -/

/-- R122 to R126: a command stores, and answers, only in registers of its own. -/
theorem Unreset.runsCommand (i : Instr) :
    RunsCommand i (Unreset c (maskCommand i) r) (Unreset c (maskCommand i) r)
      (StopsUnreset (Unreset c (maskCommand i) r)) where
  turn := Unreset.turn
  store s hs := hs.same (t := storeOf i s) (by cases i <;> rfl) (by cases i <;> rfl) (by cases i <;> rfl)
  body f := Unreset.catchBody f .cmd
  voltage := Unreset.catchVoltage
  complete s code res _ hres hs := hs.same (t := s.completeCmd code res) rfl rfl <| by
    cases i with
    | policy f => rfl
    | transition f => rfl
    | setBounds lo hi => rw [hres rfl]; rfl
    | cold b => rw [hres rfl]; rfl

/-- R127: a word that is no command answers nothing. -/
theorem Unreset.completeIllegal :
    Triple (Unreset c id r) (completeWith 4 none) (fun _ => Unreset c id r) (StopsUnreset (Unreset c id r)) :=
  Triple.act Unreset.turn fun s hs => hs.same (t := s.completeCmd 4 none) rfl rfl rfl

/-- R225: a tick writes the thermal state and the levels only. -/
theorem Unreset.runsTick :
    RunsTick c th (Unreset c maskTick r) (Unreset c maskTick r) (Unreset c maskTick r) (Unreset c maskTick r)
      (Unreset c maskTick r) (Unreset c maskTick r) (StopsUnreset (Unreset c maskTick r)) :=
  have hreeval : PassesReeval c (Unreset c maskTick r) (StopsUnreset (Unreset c maskTick r)) :=
    { toPasses := Unreset.passesCalls.toPasses
      body := fun f => Unreset.catchBody f .tick
      recorded := fun s res hs => by cases res <;> exact hs.same rfl rfl rfl }
  { start := fun s hs => hs.same (t := (s.setStep .monSample).clearSamples th) rfl rfl rfl
    sampling :=
      { toPasses := Unreset.passesCalls.toPasses
        sampled := fun s n second w hs => hs.same (t := s.setSample n second (codeField th w)) rfl rfl rfl }
    finishUnsampled := fun s hs => hs.same (t := s.finishTick th) rfl rfl rfl
    take := fun s hs => hs.same (t := s.takeSamples) rfl rfl rfl
    notices :=
      { toPasses := Unreset.passesCalls.toPasses
        notified := fun s level n hs => hs.same (t := s.record (.notify level n)) rfl rfl rfl
        tlevel := fun s hs => hs.same (t := s.raiseInt .tlevel) rfl rfl rfl }
    move := fun s hs _ => hs.same (t := s.moveThermState th) rfl rfl rfl
    moveTripped := fun s hs _ => hs.same (t := s.moveThermState th) rfl rfl rfl
    reevals := hreeval
    finish := fun s hs => hs.same (t := s.finishTick th) rfl rfl rfl
    tripTurn := Unreset.turn
    shutDown := fun s hs => hs.same (t := s.shutDown) rfl rfl rfl
    reevalsTripped := hreeval
    release := fun s hs => hs.same (t := s.releaseLock) rfl rfl rfl }

/-! ### A step -/

/-- Without a reset, the registers change only in a step that runs a command, and then as that command writes, or in one
that runs a pending tick, and then as the tick writes. -/
theorem step_ownedRegs {s t : State} (hnone : s.noReset) (hstep : step s = .next t) :
    t.ownedRegs = s.ownedRegs ∨
    (∃ cmd i, s.slot = some cmd ∧ decodeCmd cmd = .ok i ∧ maskCommand i t.ownedRegs = maskCommand i s.ownedRegs) ∨
    (s.tickPending = true ∧ maskTick t.ownedRegs = maskTick s.ownedRegs) := by
  have hstart : ∀ (mask : OwnedRegs → OwnedRegs) (e : Env), e.inputs ⊆ s.env.inputs →
      Unreset s.cfg mask s.ownedRegs (s.withEnv e) := fun _ _ he => ⟨fun hr => hnone (he hr), rfl, rfl⟩
  cases stepEffect hstep with
  | idle e ht => exact .inl (ht ▸ rfl)
  | strobe e ht => exact .inl (ht ▸ (inputFrame_msTick s).ownedRegs)
  | access a s' e ha ht => exact .inl (ht ▸ (inputFrame_hostAccess ha).ownedRegs)
  | reset e hr _ => exact absurd hr hnone
  | command e cmd i he hslot hdecode hx =>
    have hs : Unreset s.cfg (maskCommand i) s.ownedRegs (s.withEnv e).takeCommand := (hstart _ e he).same rfl rfl rfl
    obtain ⟨-, -, hregs⟩ := StopsUnreset.of_ends ((Unreset.runsCommand i).exec hs hx)
    exact .inr (.inl ⟨cmd, i, hslot, hdecode, hregs⟩)
  | illegal e he hx =>
    have hs : Unreset s.cfg id s.ownedRegs (s.withEnv e).takeCommand := (hstart _ e he).same rfl rfl rfl
    obtain ⟨-, -, hregs⟩ := StopsUnreset.of_ends (runOp_next Unreset.completeIllegal hs hx)
    exact .inl hregs
  | tick e th he hpending _ hx =>
    have hs : Unreset s.cfg maskTick s.ownedRegs (s.withEnv e).takeTick := (hstart _ e he).same rfl rfl rfl
    obtain ⟨-, -, hregs⟩ := StopsUnreset.of_ends (runOp_next Unreset.runsTick.tick hs hx)
    exact .inr (.inr ⟨hpending, hregs⟩)

/-- Settles O57: whatever a step may have done, the registers it does not write are as before. -/
theorem eachRegisterHasItsWriters : Obligations.EachRegisterHasItsWriters := by
  intro s t hnone hstep
  obtain hregs | ⟨cmd, i, hslot, hdecode, hregs⟩ | ⟨hpending, hregs⟩ := step_ownedRegs hnone hstep
  · simp only [State.ownedRegs, OwnedRegs.mk.injEq] at hregs
    simp [hregs]
  · -- outside the mask every field is as before; inside it stands the command whose register it is
    cases i
    all_goals
      simp only [State.ownedRegs, maskCommand, OwnedRegs.mk.injEq] at hregs
      simp [hregs, hslot, hdecode]
  · simp only [State.ownedRegs, maskTick, OwnedRegs.mk.injEq] at hregs
    simp [hregs, hpending]

end Sys2Proof.Machine
end

section
/-! SUPPORT. The two edges of the block (spec/20_memory.md): host accesses that meet no writable register (R63), and the
outbound accesses an operation adds to the trace (R69, R75, R76). -/

namespace Sys2Proof.Machine

/-! ### Undefined offsets and read-only registers (R63, R94) -/

/-- R63: between TICK_REMAIN and the CH_LEVEL words, and after them, no register is defined. -/
theorem State.readReg_of_undefined (s : State) {off : Nat} (h : 0x4C ≤ off ∧ off < 0x80 ∨ 0xC0 ≤ off) :
    s.readReg off = 0 := by
  have hchannel : ¬ (0x80 ≤ off ∧ off < 0xC0 ∧ off % 4 = 0) := by omega
  unfold State.readReg
  split
  case h_19 => exact if_neg hchannel
  all_goals omega

/-- R63, R94: CMD, ARG0 and ARG1 stand below these offsets, INT_STATUS and INT_ENABLE between them. -/
theorem State.writeReg_of_not_writable (s : State) {off : Nat} (v : Word) (h : 0x0C ≤ off ∧ off < 0x30 ∨ 0x38 ≤ off) :
    s.writeReg off v = s := by
  unfold State.writeReg
  split
  case h_6 => rfl
  all_goals omega

/-- Settles O8: a read answers what `readReg` gives, and a write does what `writeReg` does. -/
theorem unmappedAndReadOnlyIgnored : Obligations.UnmappedAndReadOnlyIgnored := by
  intro s off v rest hwf hoff halign
  refine ⟨fun hundef hi => ?_, fun hro hi => ?_⟩
  · rw [step_read hwf hoff halign hi, s.readReg_of_undefined hundef]
    rfl
  · rw [step_write hwf hoff halign hi, s.writeReg_of_not_writable v hro]

/-! ### What an operation adds to the trace (R69, R75, R76) -/

/-- The configuration is `c`, and the trace is `trace` with only events of `Ev` added to it. -/
structure ExtendsTrace (c : Config) (Ev : Event → Prop) (trace : List Event) (s : State) : Prop where
  cfg : s.cfg = c
  added : ∃ evs, s.env.trace = trace ++ evs ∧ ∀ e ∈ evs, Ev e

theorem ExtendsTrace.refl (Ev : Event → Prop) (s : State) : ExtendsTrace s.cfg Ev s.env.trace s :=
  ⟨rfl, [], by simp⟩

/-- R76: one more event of `Ev` at the end of the trace. -/
theorem ExtendsTrace.snoc {c : Config} {Ev : Event → Prop} {trace : List Event} {s t : State} {e : Event} (he : Ev e)
    (hcfg : t.cfg = s.cfg) (htrace : t.env.trace = s.env.trace ++ [e]) (hs : ExtendsTrace c Ev trace s) :
    ExtendsTrace c Ev trace t := by
  obtain ⟨hc, evs, hevs, hall⟩ := hs
  exact ⟨hcfg.trans hc, evs ++ [e], by rw [htrace, hevs, List.append_assoc],
    List.forall_mem_append.2 ⟨hall, List.forall_mem_singleton.2 he⟩⟩

theorem traceProp_extendsTrace (c : Config) (Ev : Event → Prop) (trace : List Event) :
    TraceProp c Ev (ExtendsTrace c Ev trace) where
  cfg _ hs := hs.cfg
  same _ _ hcfg htrace hs := ⟨hcfg.trans hs.cfg, htrace ▸ hs.added⟩
  pass _ _ _ he hcfg htrace hs := hs.snoc he hcfg htrace

/-- R75: each access of a body is at an offset its own parameter gives. -/
theorem configured_bodyEvents (c : Config) : BodyEvents c (Event.configured c) where
  clock _ _ := trivial
  poll _ _ _ := trivial
  readSel _ := .inl rfl
  writeSel _ := .inl rfl
  writeSet _ hset _ := .inr <| .inr <| hset.elim .inl fun h => .inr (.inl h)
  voltage _ := trivial
  pollVolt _ := trivial
  readStat _ := rfl
  writeCtrl _ := rfl
  writeAref _ := .inr (.inl rfl)

/-- R75, R226: and so is each access of a tick, the mode-register ones at offsets of the monitor. -/
theorem configured_tickEvents (c : Config) : TickEvents c (Event.configured c) where
  toBodyEvents := configured_bodyEvents c
  writeMrr th _ hth := .inr <| .inr <| .inr <| .inr ⟨th, hth, rfl⟩
  readStatus th _ hth := .inr ⟨th, hth, .inl rfl⟩
  readData th _ hth := .inr ⟨th, hth, .inr rfl⟩
  notify _ _ := trivial
  shutdown := trivial

/-- Settles O55: extending the trace by configured accesses passes every event the block can add, so every step. -/
theorem onlyConfiguredOffsets : Obligations.OnlyConfiguredOffsets := fun s _ hstep =>
  ((traceProp_extendsTrace s.cfg _ s.env.trace).step (configured_tickEvents s.cfg) (.refl _ s) hstep).added

end Sys2Proof.Machine
end

section
/-! SUPPORT. Command words (spec/30_encoding.md R90 to R93, R101, R102): when a word decodes, and to what. -/

namespace Sys2Proof

/-- R90: a word is its reserved bits and its opcode. -/
theorem Word.toNat_eq_fields (w : Word) :
    w.toNat = 2 ^ 4 * (w.extractLsb' 4 28).toNat + (w.extractLsb' 0 4).toNat := by
  simp only [BitVec.extractLsb'_toNat, Nat.shiftRight_eq_div_pow]
  omega

/-- R92: among the words with clear reserved bits the opcode says which one it is. -/
theorem Word.eq_iff_fields (w : Word) (op : BitVec 4) :
    w = op.setWidth 32 ↔ w.extractLsb' 4 28 = 0 ∧ w.extractLsb' 0 4 = op := by
  have hfields := w.toNat_eq_fields
  simp only [← BitVec.toNat_inj, BitVec.toNat_setWidth, BitVec.ofNat_eq_ofNat, BitVec.toNat_ofNat]
  omega

/-- R91, R93, R102: a word decodes exactly if it is one of the four, each to its command. -/
theorem decode_eq_ok_iff {w a0 a1 : Word} {i : Instr} :
    decode w a0 a1 = .ok i ↔
      w = 1 ∧ i = .policy a0 ∨ w = 2 ∧ i = .transition a0 ∨ w = 3 ∧ i = .setBounds a0 a1 ∨
        w = 4 ∧ i = .cold (a0.getLsbD 0) := by
  constructor
  · intro h
    simp only [decode, decodeCmd, capture, bne_iff_ne, ne_eq, ite_not] at h
    split at h
    · next hclear =>
      have hword : ∀ op : BitVec 4, (w.extractLsb' 0 4).toNat = op.toNat → w = op.setWidth 32 := fun op hop =>
        (w.eq_iff_fields op).2 ⟨hclear, BitVec.eq_of_toNat_eq hop⟩
      split at h
      case h_1 hop => exact .inl ⟨hword 1 hop, (Except.ok.inj h).symm⟩
      case h_2 hop => exact .inr (.inl ⟨hword 2 hop, (Except.ok.inj h).symm⟩)
      case h_3 hop => exact .inr (.inr (.inl ⟨hword 3 hop, (Except.ok.inj h).symm⟩))
      case h_4 hop => exact .inr (.inr (.inr ⟨hword 4 hop, (Except.ok.inj h).symm⟩))
      case h_5 => cases h
    · cases h
  · rintro (⟨rfl, rfl⟩ | ⟨rfl, rfl⟩ | ⟨rfl, rfl⟩ | ⟨rfl, rfl⟩) <;> rfl

/-- R92: a word with a reserved bit set is illegal for that. -/
theorem decode_of_reserved {w : Word} (a0 a1 : Word) (h : w.extractLsb' 4 28 ≠ 0) :
    decode w a0 a1 = .error .reservedBits := if_pos (bne_iff_ne.2 h)

/-- R93: COLD reads bit 0 of its argument, and the encoder writes that bit alone. -/
theorem Word.ite_getLsbD_zero (a : Word) : (if a.getLsbD 0 then (1 : Word) else 0) = a &&& 1 := by
  have h := BitVec.and_one_eq_setWidth_ofBool_getLsbD (x := a)
  cases hb : a.getLsbD 0 <;> rw [hb] at h <;> exact h.symm

/-- Settles O3: one round trip command by command, the other word by word. -/
theorem decodeAndEncodeAgree : Obligations.DecodeAndEncodeAgree := by
  refine ⟨fun i => ?_, fun w a0 a1 i h => ?_⟩
  · cases i with
    | policy f => exact decode_eq_ok_iff.2 (.inl ⟨rfl, rfl⟩)
    | transition f => exact decode_eq_ok_iff.2 (.inr (.inl ⟨rfl, rfl⟩))
    | setBounds lo hi => exact decode_eq_ok_iff.2 (.inr (.inr (.inl ⟨rfl, rfl⟩)))
    | cold b => cases b <;> rfl
  · obtain ⟨rfl, rfl⟩ | ⟨rfl, rfl⟩ | ⟨rfl, rfl⟩ | ⟨rfl, rfl⟩ := decode_eq_ok_iff.1 h
    · exact ⟨rfl, rfl, rfl⟩
    · exact ⟨rfl, rfl, rfl⟩
    · exact ⟨rfl, rfl, rfl, rfl⟩
    · exact ⟨rfl, rfl, a0.ite_getLsbD_zero⟩

/-- Some command of the four is selected, whatever the arguments. -/
theorem exists_decode_eq_ok_iff {w : Word} (a0 a1 : Word) :
    (∃ i, decode w a0 a1 = .ok i) ↔ w = 1 ∨ w = 2 ∨ w = 3 ∨ w = 4 := by
  simp only [decode_eq_ok_iff, exists_or, exists_and_left, exists_eq, and_true]

/-- Settles O2: the four words are those with clear reserved bits and an opcode of the table. -/
theorem decodingIsTotal : Obligations.DecodingIsTotal := by
  refine fun w a0 a1 => ⟨?_, exists_decode_eq_ok_iff a0 a1, decode_of_reserved a0 a1⟩
  rw [exists_decode_eq_ok_iff]
  have hword : ∀ op : BitVec 4, w = op.setWidth 32 ↔ _ := w.eq_iff_fields
  simp only [and_or_left, ← hword]
  rfl

/-- Settles O1: the cases of `decode_eq_ok_iff`. -/
theorem commandWordsDecode : Obligations.CommandWordsDecode := by
  refine fun a0 a1 => ⟨rfl, rfl, rfl, rfl, fun w i h => ?_⟩
  obtain ⟨rfl, rfl⟩ | ⟨rfl, rfl⟩ | ⟨rfl, rfl⟩ | ⟨rfl, rfl⟩ := decode_eq_ok_iff.1 h <;> rfl

end Sys2Proof
end

section
/-! SUPPORT. The status words as sums of their fields (spec/30_encoding.md R95, R97, R99), what a host read of each
register answers (R94, R98), and the reserved bits. -/

namespace Sys2Proof.Machine

/-! ### Fields side by side -/

/-- A field put above the bits of `x` is added to it. -/
theorem toNat_or_field {x : Word} {k a n : Nat} (hx : x.toNat = a) (ha : a < 2 ^ k) (hn : 2 ^ k * n < 2 ^ 32) :
    (x ||| (BitVec.ofNat 32 n <<< k)).toNat = a + 2 ^ k * n := by
  have hsmall : n % 2 ^ 32 = n := Nat.mod_eq_of_lt (lt_of_le_of_lt (Nat.le_mul_of_pos_left n (Nat.two_pow_pos k)) hn)
  rw [Nat.mul_comm, ← Nat.shiftLeft_eq] at hn
  rw [BitVec.toNat_or, BitVec.toNat_shiftLeft, BitVec.toNat_ofNat, hsmall, Nat.mod_eq_of_lt hn, hx, Nat.or_comm,
    ← Nat.shiftLeft_add_eq_or_of_lt ha, Nat.shiftLeft_eq, Nat.mul_comm, Nat.add_comm]

theorem bitAt_eq (b : Bool) (place : Nat) : bitAt b place = BitVec.ofNat 32 b.toNat <<< place := by
  apply BitVec.eq_of_toNat_eq
  cases b <;> simp [bitAt, Nat.shiftLeft_eq]

theorem getLsbD_of_toNat {n i : Nat} {w : BitVec n} {b : Bool} (h : w.toNat / 2 ^ i % 2 = b.toNat) :
    w.getLsbD i = b := by
  rw [← BitVec.testBit_toNat, Nat.testBit_eq_decide_div_mod_eq, h]
  cases b <;> rfl

theorem toNat_extractLsb' {m : Nat} (w : BitVec m) (i n : Nat) :
    (w.extractLsb' i n).toNat = w.toNat / 2 ^ i % 2 ^ n := by
  rw [BitVec.extractLsb'_toNat, Nat.shiftRight_eq_div_pow]

theorem extractLsb'_of_toNat {m n i : Nat} {w : BitVec m} {v : BitVec n} (h : w.toNat / 2 ^ i % 2 ^ n = v.toNat) :
    w.extractLsb' i n = v := BitVec.eq_of_toNat_eq ((toNat_extractLsb' w i n).trans h)

theorem extractLsb'_eq_zero {m n i : Nat} {w : BitVec m} (h : w.toNat / 2 ^ i % 2 ^ n = 0) : w.extractLsb' i n = 0 :=
  extractLsb'_of_toNat (h.trans (BitVec.toNat_ofNat 0 n).symm)

theorem thermState_code_lt (st : ThermState) : st.code < 2 ^ 3 := by cases st <;> decide

theorem maxOfLevels_lt (l : List (Byte × Byte)) : maxOfLevels l < 2 ^ 8 := by
  induction l with
  | nil => decide
  | cons p rest ih => exact max_lt (chLevel p).isLt ih

theorem maxOfLevels_replicate_zero (n : Nat) : maxOfLevels (List.replicate n (0, 0)) = 0 := by
  induction n with
  | zero => rfl
  | succ n ih => exact (Nat.zero_max _).trans ih

/-- R95: the widths of the fields of STATUS. -/
theorem State.statusFields_lt (s : State) : s.busy.toNat < 2 ∧ s.locked.toNat < 2 ∧ s.sampled.toNat < 2 ∧
    (decide (s.thermState = .tripped)).toNat < 2 ∧ s.thermState.code < 2 ^ 3 ∧ s.dllLocked.toNat < 2 ∧
    s.err.toNat < 2 ^ 4 ∧ s.dllForced.toNat < 2 ∧ s.maxLevel < 2 ^ 8 :=
  ⟨Bool.toNat_lt _, Bool.toNat_lt _, Bool.toNat_lt _, Bool.toNat_lt _, thermState_code_lt _, Bool.toNat_lt _,
    s.err.isLt, Bool.toNat_lt _, maxOfLevels_lt _⟩

/-- R95: the fields of STATUS, none over another. -/
theorem State.statusWord_toNat (s : State) : s.statusWord.toNat =
    s.busy.toNat + 2 ^ 1 * s.locked.toNat + 2 ^ 2 * s.sampled.toNat + 2 ^ 3 * (decide (s.thermState = .tripped)).toNat +
      2 ^ 4 * s.thermState.code + 2 ^ 7 * s.dllLocked.toNat + 2 ^ 8 * s.err.toNat + 2 ^ 12 * s.dllForced.toNat +
      2 ^ 16 * s.maxLevel := by
  obtain ⟨hbusy, hlocked, hsampled, htripped, hcode, hdll, herr, hforced, hlevel⟩ := s.statusFields_lt
  unfold State.statusWord
  simp only [bitAt_eq, BitVec.shiftLeft_zero, ← BitVec.ofNat_toNat]
  refine toNat_or_field (toNat_or_field (toNat_or_field (toNat_or_field (toNat_or_field (toNat_or_field (toNat_or_field
    (toNat_or_field (Nat.mod_eq_of_lt ?_) ?_ ?_) ?_ ?_) ?_ ?_) ?_ ?_) ?_ ?_) ?_ ?_) ?_ ?_) ?_ ?_ <;> omega

/-- R97: the fields of ERR_INFO. -/
theorem State.errInfoWord_toNat (s : State) :
    s.errInfoWord.toNat = s.errStep.toNat + 2 ^ 8 * s.errSig.toNat + 2 ^ 16 * s.errArg.toNat := by
  have hstep := s.errStep.isLt
  have hsig := s.errSig.isLt
  have harg := s.errArg.isLt
  unfold State.errInfoWord
  simp only [← BitVec.ofNat_toNat]
  refine toNat_or_field (toNat_or_field (Nat.mod_eq_of_lt ?_) ?_ ?_) ?_ ?_ <;> omega

/-- R99: the rank codes of a channel. -/
theorem State.chLevelWord_toNat {s : State} {c : Nat} (h : c < s.cfg.channels) : (s.chLevelWord c).toNat =
    (s.rankLevel.getD c (0, 0)).1.toNat + 2 ^ 8 * (s.rankLevel.getD c (0, 0)).2.toNat := by
  have hfirst := (s.rankLevel.getD c (0, 0)).1.isLt
  have hsecond := (s.rankLevel.getD c (0, 0)).2.isLt
  unfold State.chLevelWord
  rw [if_pos h]
  simp only [← BitVec.ofNat_toNat]
  refine toNat_or_field (Nat.mod_eq_of_lt ?_) ?_ ?_ <;> omega

theorem State.chLevelWord_of_no_channel {s : State} {c : Nat} (h : ¬ c < s.cfg.channels) : s.chLevelWord c = 0 :=
  if_neg h

/-! ### STATUS (R95) -/

/-- R95, R320: of the fields of STATUS only the mode of the DLL is not 0 at reset. -/
theorem statusWord_resetOf (c : Config) (e : Env) :
    (State.resetOf c e).statusWord = if c.bootLevel = c.dllFreeLevel then 0x00000080 else 0x00001000 := by
  apply BitVec.eq_of_toNat_eq
  rw [State.statusWord_toNat]
  show 0 + 2 ^ 1 * 0 + 2 ^ 2 * 0 + 2 ^ 3 * 0 + 2 ^ 4 * 0 + 2 ^ 7 * (c.bootLevel == c.dllFreeLevel).toNat + 2 ^ 8 * 0 +
    2 ^ 12 * (c.bootLevel != c.dllFreeLevel).toNat + 2 ^ 16 * maxOfLevels (List.replicate c.channels (0, 0)) = _
  rw [maxOfLevels_replicate_zero]
  by_cases h : c.bootLevel = c.dllFreeLevel
  · rw [if_pos h, bne, beq_iff_eq.2 h]; rfl
  · rw [if_neg h, bne, beq_eq_false_iff_ne.2 h]; rfl

/-- Settles O6: each field is read off the sum. -/
theorem statusLayout : Obligations.StatusLayout := by
  refine ⟨fun s => ?_, statusWord_resetOf⟩
  have hword := s.statusWord_toNat
  obtain ⟨hbusy, hlocked, hsampled, htripped, hcode, hdll, herr, hforced, hlevel⟩ := s.statusFields_lt
  refine ⟨getLsbD_of_toNat (b := s.busy) ?_, getLsbD_of_toNat (b := s.locked) ?_, getLsbD_of_toNat ?_,
    getLsbD_of_toNat ?_, (toNat_extractLsb' _ _ _).trans ?_, getLsbD_of_toNat ?_, extractLsb'_of_toNat ?_,
    getLsbD_of_toNat ?_, extractLsb'_eq_zero ?_, (toNat_extractLsb' _ _ _).trans ?_, extractLsb'_eq_zero ?_, rfl,
    fun v => rfl⟩ <;> omega

/-! ### Reserved bits (R94, R96, R97, R99; 93 I25) -/

/-- R94: of the pending lock value DLL_LOCK shows the bits below `LOCK_W`. -/
theorem State.dllLockWord_getLsbD (s : State) (i : Nat) :
    s.dllLockWord.getLsbD i = (decide (i < s.cfg.lockW) && s.pendingLock.getLsbD i) := by
  simp only [State.dllLockWord, ← BitVec.testBit_toNat, BitVec.toNat_ofNat]
  rw [Nat.mod_eq_of_lt (lt_of_le_of_lt (Nat.mod_le _ _) s.pendingLock.isLt), Nat.testBit_mod_two_pow]

/-- A narrower value read as a word has no bits above its own. -/
theorem extractLsb'_setWidth_above {n : Nat} (x : BitVec n) (m : Nat) : (x.setWidth 32).extractLsb' n m = 0 := by
  have hlt : (x.setWidth 32).toNat < 2 ^ n := lt_of_le_of_lt (BitVec.toNat_setWidth 32 x ▸ Nat.mod_le _ _) x.isLt
  exact extractLsb'_eq_zero (by rw [Nat.div_eq_of_lt hlt, Nat.zero_mod])

/-- Settles O7: the fields are read off the sums. -/
theorem reservedBitsReadZero : Obligations.ReservedBitsReadZero := by
  intro s
  have herr := s.errInfoWord_toNat
  have hstep := s.errStep.isLt
  have hsig := s.errSig.isLt
  have harg := s.errArg.isLt
  refine ⟨extractLsb'_of_toNat (by omega), extractLsb'_of_toNat (by omega), extractLsb'_of_toNat (by omega),
    extractLsb'_eq_zero (by omega), fun c => ?_, fun i hi => ?_, fun i hi => ?_, extractLsb'_setWidth_above _ _,
    extractLsb'_setWidth_above _ _, extractLsb'_setWidth_above _ _⟩
  · by_cases hc : c < s.cfg.channels
    · have hlevel := s.chLevelWord_toNat hc
      have hfirst := (s.rankLevel.getD c (0, 0)).1.isLt
      have hsecond := (s.rankLevel.getD c (0, 0)).2.isLt
      exact ⟨extractLsb'_eq_zero (by omega), fun _ =>
        ⟨extractLsb'_of_toNat (by omega), extractLsb'_of_toNat (by omega)⟩⟩
    · rw [State.chLevelWord_of_no_channel hc]
      exact ⟨rfl, fun h => absurd h hc⟩
  · rw [s.dllLockWord_getLsbD, decide_eq_false (Nat.not_lt.2 hi), Bool.false_and]
  · rw [s.dllLockWord_getLsbD, decide_eq_true hi, Bool.true_and]

/-! ### Host reads (R94, R98) -/

/-- R94: every register has its own word in the window. -/
theorem Reg.offset_lt_and_aligned {r : Reg} (h : ∀ c, r = .chLevel c → c < 16) :
    r.offset < 256 ∧ r.offset % 4 = 0 := by
  cases r with
  | chLevel c =>
    have hc := h c rfl
    show 0x80 + 4 * c < 256 ∧ (0x80 + 4 * c) % 4 = 0
    omega
  | _ => decide

/-- R99: sixteen words of the window are the channels'. -/
theorem State.readReg_chLevel (s : State) {c : Nat} (h : c < 16) :
    s.readReg (Reg.chLevel c).offset = s.chLevelWord c := by
  show s.readReg (0x80 + 4 * c) = _
  unfold State.readReg
  split
  case h_19 => rw [if_pos (by omega), show (0x80 + 4 * c - 0x80) / 4 = c by omega]
  all_goals omega

/-- R99, as a sum. -/
theorem State.chLevelWord_eq (s : State) (c : Nat) : s.chLevelWord c = if c < s.cfg.channels then
    BitVec.ofNat 32 ((s.rankLevel.getD c (0, 0)).1.toNat + 256 * (s.rankLevel.getD c (0, 0)).2.toNat) else 0 := by
  split
  · next h => exact (BitVec.setWidth_eq _).symm.trans ((BitVec.ofNat_toNat _ _).symm.trans
      (congrArg (BitVec.ofNat 32) (s.chLevelWord_toNat h)))
  · next h => exact State.chLevelWord_of_no_channel h

/-- Settles O5: a read answers what `readReg` gives, register by register. -/
theorem hostReadsRegisters : Obligations.HostReadsRegisters := by
  intro s r rest hwf hr hi
  obtain ⟨hlt, halign⟩ := Reg.offset_lt_and_aligned hr
  rw [step_read hwf hlt halign hi]
  cases r with
  | chLevel c => rw [s.readReg_chLevel (hr c rfl), s.chLevelWord_eq]; rfl
  | curLevel | intStatus | intEnable => simp only [BitVec.ofNat_toNat]; rfl
  | _ => rfl

end Sys2Proof.Machine
end

section
/-! SUPPORT. Operations meet the coming inputs and the host program at the sequencer's turn only (spec/20_memory.md R64,
R69): two runs of one operation, from states that differ in nothing else and stay related at every turn, end alike. -/

namespace Sys2Proof.Machine

/-- The state with these inputs to come, and the host at this place of its program. -/
def State.facing (s : State) (l : List Input) (x : HostSide) : State := s.withEnv { s.env with inputs := l, host := x }

/-- A state function that neither reads nor writes the coming inputs and the host program, and leaves the configuration
and the words answered to the host alone. -/
def Internal (f : State → State) : Prop :=
  ∀ s l x, f (s.facing l x) = (f s).facing l x ∧ (f s).cfg = s.cfg ∧ (f s).env.replies = s.env.replies

/-- Two runs of an operation end alike: with one answer, or with one stop, in related states; a bus error leaves no
state (R278). -/
inductive SameEnd {α : Type} (R : State → State → Prop) :
    EStateM.Result Stop State α → EStateM.Result Stop State α → Prop
  | ok (a : α) {s t : State} (h : R s t) : SameEnd R (.ok a s) (.ok a t)
  | stop (e : Stop) {s t : State} (h : R s t ∨ ∃ f, e = .fault f) : SameEnd R (.error e s) (.error e t)

/-- From related states the operation ends alike. -/
def Alike {α : Type} (R : State → State → Prop) (op : Op α) : Prop := ∀ s t, R s t → SameEnd R (op s) (op t)

/-- A relation of states that differ in the coming inputs and the host program only, which the turn and every internal
state function keep. -/
structure Blind (R : State → State → Prop) : Prop where
  facing : ∀ s t, R s t → ∃ l x, t = s.facing l x
  turn : Alike R awaitTurn
  update : ∀ f, Internal f → ∀ s t, R s t → R (f s) (f t)

variable {α β : Type} {R : State → State → Prop}

/-! ### How operations are put together -/

theorem Alike.pure (a : α) : Alike R (pure a : Op α) := fun _ _ h => .ok a h

theorem Alike.bind {op : Op α} {k : α → Op β} (h : Alike R op) (hk : ∀ a, Alike R (k a)) : Alike R (op >>= k) := by
  intro s t hst
  have hop := h s t hst
  show SameEnd R (EStateM.bind op k s) (EStateM.bind op k t)
  unfold EStateM.bind
  generalize op s = r, op t = r' at hop
  cases hop with
  | ok a hst => exact hk a _ _ hst
  | stop e h => exact .stop e h

theorem Alike.ite {c : Prop} [Decidable c] {op op' : Op α} (h : Alike R op) (h' : Alike R op') :
    Alike R (if c then op else op') := by
  split
  · exact h
  · exact h'

/-- R122: a timeout caught is an answer. -/
theorem Alike.catchTimeout {op : Op Word} (h : Alike R op) : Alike R (catchTimeout op) := by
  intro s t hst
  have hop := h s t hst
  unfold Machine.catchTimeout
  generalize op s = r, op t = r' at hop
  cases hop with
  | ok a hst => exact .ok _ hst
  | stop e h =>
    cases e with
    | timeout => exact .ok _ (h.resolve_right fun ⟨_, hf⟩ => Stop.noConfusion hf)
    | reset => exact .stop _ h
    | fault f => exact .stop _ h

/-! ### Outbound reads and polls (R66, R67) -/

theorem Env.drawWord_facing (e : Env) (l : List Input) (x : HostSide) :
    ({ e with inputs := l, host := x } : Env).drawWord =
      (e.drawWord.1, { e.drawWord.2 with inputs := l, host := x }) := by
  cases h : e.readAnswers <;> simp only [Env.drawWord, h]

theorem Env.drawBit_facing (e : Env) (l : List Input) (x : HostSide) :
    ({ e with inputs := l, host := x } : Env).drawBit =
      (e.drawBit.1, { e.drawBit.2 with inputs := l, host := x }) := by
  cases h : e.pollAnswers <;> simp only [Env.drawBit, h]

theorem Env.drawWord_replies (e : Env) : e.drawWord.2.replies = e.replies := by
  cases h : e.readAnswers <;> simp only [Env.drawWord, h]

theorem Env.drawBit_replies (e : Env) : e.drawBit.2.replies = e.replies := by
  cases h : e.pollAnswers <;> simp only [Env.drawBit, h]

theorem State.outRead_facing (s : State) (l : List Input) (x : HostSide) (w : Window) (off : Nat) :
    (s.facing l x).outRead w off = ((s.outRead w off).1, (s.outRead w off).2.facing l x) := by
  have howed : (s.facing l x).owedWord w off = s.owedWord w off := rfl
  have hdraw : (s.facing l x).env.drawWord = _ := s.env.drawWord_facing l x
  unfold State.outRead
  rw [howed, hdraw]
  cases s.owedWord w off <;> rfl

theorem State.outRead_replies (s : State) (w : Window) (off : Nat) :
    (s.outRead w off).2.env.replies = s.env.replies := by
  unfold State.outRead
  split
  · rfl
  · exact s.env.drawWord_replies

theorem State.outPoll_facing (s : State) (l : List Input) (x : HostSide) (sig : Signal) :
    (s.facing l x).outPoll sig = ((s.outPoll sig).1, (s.outPoll sig).2.facing l x) := by
  have hdraw : (s.facing l x).env.drawBit = _ := s.env.drawBit_facing l x
  unfold State.outPoll
  rw [hdraw]
  rfl

namespace Blind

variable (h : Blind R)
include h

/-! ### The sequencer's primitives -/

/-- Reading the state, of an operation that asks nothing of the inputs and of the host program. -/
theorem read {k : State → Op α} (hk : ∀ s l x, k (s.facing l x) = k s) (hop : ∀ s, Alike R (k s)) :
    Alike R (get >>= k) := by
  intro s t hst
  obtain ⟨l, x, rfl⟩ := h.facing s t hst
  show SameEnd R (k s s) (k (s.facing l x) (s.facing l x))
  rw [hk]
  exact hop s _ _ hst

theorem modify {f : State → State} (hf : Internal f) : Alike R (modify f : Op Unit) :=
  fun s t hst => .ok () (h.update f hf s t hst)

theorem act {f : State → State} (hf : Internal f) : Alike R (act f) := h.turn.bind fun _ => h.modify hf

/-- One action whose answer the inputs and the host program do not change. -/
theorem query {g : State → α × State} (hg : ∀ s l x, g (s.facing l x) = ((g s).1, (g s).2.facing l x))
    (hcfg : ∀ s, (g s).2.cfg = s.cfg) (hreplies : ∀ s, (g s).2.env.replies = s.env.replies) :
    Alike R (do awaitTurn; modifyGet g : Op α) := by
  refine h.turn.bind fun _ s t hst => ?_
  have hend := h.update (fun s => (g s).2) (fun s l x => ⟨congrArg Prod.snd (hg s l x), hcfg s, hreplies s⟩) s t hst
  obtain ⟨l, x, rfl⟩ := h.facing s t hst
  have hanswer : (g (s.facing l x)).1 = (g s).1 := by rw [hg]
  show SameEnd R (.ok (g s).1 (g s).2) (.ok (g (s.facing l x)).1 (g (s.facing l x)).2)
  rw [hanswer]
  exact .ok _ hend

theorem memRead (w : Window) (off : Nat) : Alike R (memRead w off) :=
  h.query (fun s l x => s.outRead_facing l x w off) (fun s => s.outRead_cfg w off) fun s => s.outRead_replies w off

theorem pollSignal (sig : Signal) : Alike R (pollSignal sig) :=
  h.query (fun s l x => s.outPoll_facing l x sig) (fun _ => rfl) fun s => s.env.drawBit_replies

theorem memWrite (w : Window) (off : Nat) (v : Word) : Alike R (memWrite w off v) :=
  h.act fun _ _ _ => ⟨rfl, rfl, rfl⟩

theorem goTo (x : SeqStep) : Alike R (goTo x) := h.modify fun _ _ _ => ⟨rfl, rfl, rfl⟩

/-! ### The bounded waits (R153) -/

theorem timedOut (sig : Signal) (crit : Bool) (arg : Byte) (snap : Word) :
    Alike R (timedOut sig crit arg snap) := by
  refine Alike.bind (h.modify fun _ _ _ => ⟨rfl, rfl, rfl⟩) fun _ => Alike.ite (fun s t hst => .stop _ (.inl hst)) ?_
  exact Alike.bind (h.modify fun _ _ _ => ⟨rfl, rfl, rfl⟩) fun _ => Alike.pure _

theorem pollLoop (sig : Signal) (n : Nat) : ∀ k, Alike R (pollLoop sig n k) := by
  induction n with
  | zero => exact fun _ => Alike.pure _
  | succ n ih =>
    exact fun k => Alike.bind (h.modify fun _ _ _ => ⟨rfl, rfl, rfl⟩) fun _ => (h.pollSignal sig).bind fun _ =>
      Alike.ite (Alike.pure _) (ih (k + 1))

theorem waitSig (sig : Signal) (crit : Bool) (arg : Byte) : Alike R (waitSig sig crit arg) :=
  h.read (fun _ _ _ => rfl) fun s => (h.pollLoop sig s.cfg.waitMax 1).bind fun _ =>
    Alike.ite (Alike.pure _) (h.timedOut sig crit arg 0)

theorem readLoop (w : Window) (off : Nat) (mask : Word) (n : Nat) : ∀ k, Alike R (readLoop w off mask n k) := by
  induction n with
  | zero => exact fun _ => Alike.pure _
  | succ n ih =>
    exact fun k => Alike.bind (h.modify fun _ _ _ => ⟨rfl, rfl, rfl⟩) fun _ => (h.memRead w off).bind fun _ =>
      Alike.bind (h.modify fun _ _ _ => ⟨rfl, rfl, rfl⟩) fun _ => Alike.ite (Alike.pure _) (ih (k + 1))

theorem waitReg (w : Window) (off : Nat) (mask : Word) (sig : Signal) (crit : Bool) (arg : Byte) :
    Alike R (waitReg w off mask sig crit arg) :=
  h.read (fun _ _ _ => rfl) fun s => (h.readLoop w off mask s.cfg.waitMax 1).bind fun _ =>
    Alike.ite (Alike.pure _) (h.read (fun _ _ _ => rfl) fun u => h.timedOut sig crit arg u.lastWord)

/-! ### The Transition Engine (R150 to R174) -/

theorem setVolt (v : Word) : Alike R (setVolt v) :=
  Alike.bind (h.act fun _ _ _ => ⟨rfl, rfl, rfl⟩) fun _ => (h.waitSig _ _ _).bind fun _ => Alike.pure _

theorem arefWrite : Alike R arefWrite := (h.goTo _).bind fun _ => h.act fun _ _ _ => ⟨rfl, rfl, rfl⟩

theorem dllCapture : Alike R dllCapture :=
  (h.goTo _).bind fun _ => h.read (fun _ _ _ => rfl) fun _ => (h.memRead _ _).bind fun _ =>
    Alike.bind (h.modify fun _ _ _ => ⟨rfl, rfl, rfl⟩) fun _ => h.act fun _ _ _ => ⟨rfl, rfl, rfl⟩

theorem writeWords (offs : List Nat) : ∀ vs, Alike R (writeWords offs vs) := by
  induction offs with
  | nil => exact fun _ => Alike.pure _
  | cons off offs ih =>
    intro vs
    cases vs with
    | nil => exact Alike.pure _
    | cons v vs => exact (h.memWrite _ _ _).bind fun _ => ih vs

theorem writeTiming (l : Level) : Alike R (writeTiming l) :=
  h.read (fun _ _ _ => rfl) fun _ => (h.memRead _ _).bind fun _ => (h.writeWords _ _).bind fun _ => h.memWrite _ _ _

theorem clockCall (first : Bool) (t : Level) (p : Prim) : Alike R (clockCall first t p) :=
  h.act fun _ _ _ => ⟨rfl, rfl, rfl⟩

theorem repoint (first : Bool) (t : Level) (m src : Byte) : Alike R (repoint first t m src) :=
  (h.clockCall _ _ _).bind fun _ => h.read (fun _ _ _ => rfl) fun _ => (h.waitSig _ _ _).bind fun _ => Alike.pure _

theorem setDiv (first : Bool) (t : Level) : Alike R (setDiv first t) :=
  h.read (fun _ _ _ => rfl) fun _ => (h.clockCall _ _ _).bind fun _ => (h.waitSig _ _ _).bind fun _ => Alike.pure _

theorem repointAll (t : Level) (plan : List (Byte × Byte)) : ∀ first, Alike R (repointAll first t plan) := by
  induction plan with
  | nil => exact fun _ => Alike.pure _
  | cons p rest ih => exact fun _ => (h.repoint _ _ _ _).bind fun _ => ih false

theorem clockChange (o t : Level) : Alike R (clockChange o t) := by
  refine h.read (fun _ _ _ => rfl) fun s => ?_
  cases s.cfg.switchOrder o t with
  | muxThenDiv => exact (h.repointAll _ _ _).bind fun _ => h.setDiv _ _
  | divThenMux => exact (h.setDiv _ _).bind fun _ => h.repointAll _ _ _

theorem simplePath (o t : Level) (u : Bool) : Alike R (simplePath o t u) := by
  cases u with
  | false =>
    exact (h.goTo _).bind fun _ => (h.clockChange o t).bind fun _ => (h.goTo _).bind fun _ => h.writeTiming t
  | true =>
    exact ((h.goTo _).bind fun _ => h.writeTiming t).bind fun _ => (h.goTo _).bind fun _ =>
      (h.clockChange o t).bind fun _ => Alike.pure _

theorem pssWait (x : SeqStep) : Alike R (pssWait x) :=
  (h.goTo x).bind fun _ => (h.waitSig _ _ _).bind fun _ => Alike.pure _

theorem pllSafeSwitch (t : Level) : Alike R (pllSafeSwitch t) := by
  have hsafeMux : Alike R pssSafeMux := (h.goTo _).bind fun _ => h.act fun _ _ _ => ⟨rfl, rfl, rfl⟩
  have hsafeTiming : Alike R pssSafeTiming :=
    (h.goTo _).bind fun _ => h.read (fun _ _ _ => rfl) fun _ => h.writeTiming _
  have hreprogram : Alike R (pssReprogram t) := (h.goTo _).bind fun _ =>
    Alike.bind (h.act fun _ _ _ => ⟨rfl, rfl, rfl⟩) fun _ => (h.waitSig _ _ _).bind fun _ => Alike.pure _
  have htargetMux : Alike R (pssTargetMux t) := (h.goTo _).bind fun _ => h.act fun _ _ _ => ⟨rfl, rfl, rfl⟩
  exact hsafeMux.bind fun _ => hsafeTiming.bind fun _ => (h.pssWait _).bind fun _ => hreprogram.bind fun _ =>
    ((h.goTo _).bind fun _ => h.writeTiming t).bind fun _ => htargetMux.bind fun _ => h.pssWait _

theorem clockPath (o t : Level) (u : Bool) : Alike R (clockPath o t u) :=
  h.read (fun _ _ _ => rfl) fun _ => Alike.ite (h.pllSafeSwitch t) (h.simplePath o t u)

theorem dllPost (t : Level) : Alike R (dllPost t) := by
  refine (h.goTo _).bind fun _ => h.read (fun _ _ _ => rfl) fun s => Alike.ite ?_ ?_
  · exact Alike.bind (h.act fun _ _ _ => ⟨rfl, rfl, rfl⟩) fun _ => (h.waitReg _ _ _ _ _ _).bind fun _ =>
      h.modify fun _ _ _ => ⟨rfl, rfl, rfl⟩
  · exact h.act fun _ _ _ => ⟨rfl, rfl, rfl⟩

theorem voltageStep (x : SeqStep) (t : Level) : Alike R (voltageStep x t) :=
  (h.goTo x).bind fun _ => h.read (fun _ _ _ => rfl) fun _ => h.setVolt _

theorem changeLevel (o t : Level) : Alike R (changeLevel o t) := by
  have hend : ∀ u : Bool, Alike R (do
      Machine.clockPath o t u; Machine.dllPost t; Machine.arefWrite; if !u then Machine.voltageStep .voltDown t) :=
    fun u => (h.clockPath o t u).bind fun _ => (h.dllPost t).bind fun _ => h.arefWrite.bind fun _ =>
      Alike.ite (h.voltageStep _ _) (Alike.pure _)
  refine h.read (fun _ _ _ => rfl) fun s => ?_
  cases s.needsCapture t <;> cases goesUp s.cfg o t
  · exact hend false
  · exact (h.voltageStep _ _).bind fun _ => hend true
  · exact h.dllCapture.bind fun _ => hend false
  · exact h.dllCapture.bind fun _ => (h.voltageStep _ _).bind fun _ => hend true

theorem resolveTarget (f : Word) (o : Origin) : Alike R (resolveTarget f o) :=
  (h.goTo _).bind fun _ => h.read (fun _ _ _ => rfl) fun _ =>
    Alike.bind (h.modify fun _ _ _ => ⟨rfl, rfl, rfl⟩) fun _ => Alike.pure _

theorem moveTo (t : Level) : Alike R (moveTo t) :=
  h.read (fun _ _ _ => rfl) fun _ => Alike.ite h.arefWrite (h.changeLevel _ t)

theorem transitionBody (f : Word) (o : Origin) : Alike R (transitionBody f o) :=
  (h.resolveTarget f o).bind fun t => (h.moveTo t).bind fun _ => h.read (fun _ _ _ => rfl) fun _ => Alike.pure _

/-! ### The commands (R122 to R127) -/

theorem completeWith (code : BitVec 4) (res : Option Word) : Alike R (completeWith code res) :=
  h.act fun _ _ _ => ⟨rfl, rfl, rfl⟩

theorem completeTransition (r : Option Word) : Alike R (completeTransition r) := by
  cases r with
  | some f => exact h.completeWith 0 (some f)
  | none => exact h.completeWith 2 none

theorem policyOp (f : Word) : Alike R (policyOp f) := by
  refine h.read (fun _ _ _ => rfl) fun _ => Alike.ite ?_ (h.completeWith _ _)
  exact Alike.bind (h.modify fun _ _ _ => ⟨rfl, rfl, rfl⟩) fun _ => h.read (fun _ _ _ => rfl) fun _ =>
    (h.transitionBody _ _).catchTimeout.bind fun r => h.completeTransition r

theorem transitionOp (f : Word) : Alike R (transitionOp f) := by
  refine h.read (fun _ _ _ => rfl) fun _ => Alike.ite ?_ (h.completeWith _ _)
  exact Alike.bind (h.modify fun _ _ _ => ⟨rfl, rfl, rfl⟩) fun _ =>
    (h.transitionBody _ _).catchTimeout.bind fun r => h.completeTransition r

theorem setBoundsOp (lo hi : Word) : Alike R (setBoundsOp lo hi) :=
  Alike.bind (h.modify fun _ _ _ => ⟨rfl, rfl, rfl⟩) fun _ => h.completeWith _ _

theorem coldVoltage : Alike R coldVoltage :=
  (h.goTo _).bind fun _ => h.read (fun _ _ _ => rfl) fun _ => (h.setVolt _).bind fun _ => Alike.pure _

theorem coldOp (b : Bool) : Alike R (coldOp b) :=
  Alike.bind (h.modify fun _ _ _ => ⟨rfl, rfl, rfl⟩) fun _ => h.coldVoltage.catchTimeout.bind fun _ =>
    h.completeWith _ _

/-! ### The tick (R225 to R236) -/

variable (th : Thermal)

theorem sampleRank (n : Nat) (second : Bool) (cmd : Word) : Alike R (sampleRank th n second cmd) :=
  (h.memWrite _ _ _).bind fun _ => (h.waitReg _ _ _ _ _ _).bind fun _ => Alike.ite
    ((h.memRead _ _).bind fun _ => Alike.bind (h.modify fun _ _ _ => ⟨rfl, rfl, rfl⟩) fun _ => Alike.pure _)
    (Alike.pure _)

theorem sampleFrom (cmds : List (Word × Word)) : ∀ n, Alike R (sampleFrom th n cmds) := by
  induction cmds with
  | nil => exact fun _ => Alike.pure _
  | cons p rest ih =>
    exact fun n => (h.sampleRank th n false p.1).bind fun _ => Alike.ite
      ((h.sampleRank th n true p.2).bind fun _ => Alike.ite (ih (n + 1)) (Alike.pure _)) (Alike.pure _)

theorem sampleAll : Alike R (sampleAll th) :=
  (h.goTo _).bind fun _ => Alike.bind (h.modify fun _ _ _ => ⟨rfl, rfl, rfl⟩) fun _ => h.sampleFrom th _ _

theorem notifyFrom (news : List Byte) : ∀ prevs n, Alike R (notifyFrom n news prevs) := by
  induction news with
  | nil => exact fun _ _ => Alike.pure _
  | cons new news ih =>
    intro prevs n
    cases prevs with
    | nil => exact Alike.pure _
    | cons prev prevs =>
      exact Alike.ite (ih _ _) (Alike.bind (h.act fun _ _ _ => ⟨rfl, rfl, rfl⟩) fun _ => (ih _ _).bind fun _ =>
        Alike.pure _)

theorem notifyChanges (prev : List Byte) : Alike R (notifyChanges prev) :=
  h.read (fun _ _ _ => rfl) fun _ => (h.notifyFrom _ _ _).bind fun _ =>
    Alike.ite (h.modify fun _ _ _ => ⟨rfl, rfl, rfl⟩) (Alike.pure _)

theorem reeval : Alike R reeval := by
  refine (h.goTo _).bind fun _ => h.read (fun _ _ _ => rfl) fun _ => Alike.ite ?_ (Alike.pure _)
  refine (h.transitionBody _ _).catchTimeout.bind fun r => h.modify fun _ _ _ => ?_
  cases r <;> exact ⟨rfl, rfl, rfl⟩

theorem reevalIfChanged (oldCeiling : Word) : Alike R (reevalIfChanged oldCeiling) :=
  h.read (fun _ _ _ => rfl) fun _ => Alike.ite h.reeval (Alike.pure _)

theorem trip (oldCeiling : Word) : Alike R (trip oldCeiling) :=
  Alike.bind (h.act fun _ _ _ => ⟨rfl, rfl, rfl⟩) fun _ => (h.reevalIfChanged _).bind fun _ =>
    h.act fun _ _ _ => ⟨rfl, rfl, rfl⟩

theorem monAref : Alike R monAref := (h.goTo _).bind fun _ => h.act fun _ _ _ => ⟨rfl, rfl, rfl⟩

theorem finishTick : Alike R (finishTick th) := h.act fun _ _ _ => ⟨rfl, rfl, rfl⟩

theorem updateTick : Alike R (updateTick th) := by
  refine (h.goTo _).bind fun _ => h.read (fun _ _ _ => rfl) fun _ =>
    Alike.bind (h.modify fun _ _ _ => ⟨rfl, rfl, rfl⟩) fun _ => (h.notifyChanges _).bind fun _ =>
    h.read (fun _ _ _ => rfl) fun _ => Alike.bind (h.modify fun _ _ _ => ⟨rfl, rfl, rfl⟩) fun _ =>
    h.read (fun _ _ _ => rfl) fun _ => Alike.ite (h.trip _) ?_
  exact h.monAref.bind fun _ => (h.reevalIfChanged _).bind fun _ => h.finishTick th

theorem tick : Alike R (tick th) := (h.sampleAll th).bind fun _ => Alike.ite (h.updateTick th) (h.finishTick th)

end Blind

end Sys2Proof.Machine
end

section
/-! SUPPORT. The host program (spec/30_encoding.md R104, R105): what one line does, that a line is its bus access
wherever it falls (spec/60_exceptions.md R283), and where the pseudo-instructions leave the command port. -/

namespace Sys2Proof.Machine

/-! ### Inputs and the host program -/

theorem Internal.ite {c : State → Bool} {f g : State → State} (hc : ∀ s l x, c (s.facing l x) = c s)
    (hf : Internal f) (hg : Internal g) : Internal fun s => if c s then f s else g s := by
  intro s l x
  simp only [hc]
  cases c s with
  | true => exact hf s l x
  | false => exact hg s l x

theorem internal_writeCmd (w : Word) : Internal fun s => s.writeCmd w :=
  Internal.ite (c := State.busy) (fun _ _ _ => rfl) (fun _ _ _ => ⟨rfl, rfl, rfl⟩) fun _ _ _ => ⟨rfl, rfl, rfl⟩

theorem internal_writeReg (off : Nat) (v : Word) : Internal fun s => s.writeReg off v := by
  intro s l x
  unfold State.writeReg
  split
  case h_1 => exact internal_writeCmd v s l x
  all_goals exact ⟨rfl, rfl, rfl⟩

theorem internal_msTick : Internal State.msTick :=
  Internal.ite (c := fun s => s.monStopped || s.tickPending || s.lockOwner == .tick) (fun _ _ _ => rfl)
    (fun _ _ _ => ⟨rfl, rfl, rfl⟩) fun _ _ _ => ⟨rfl, rfl, rfl⟩

theorem internal_resetNow : Internal State.resetNow := fun _ _ _ => ⟨rfl, rfl, rfl⟩

/-- The inputs to come and the host's place are not written by an internal function. -/
theorem Internal.env {f : State → State} (hf : Internal f) (s : State) :
    (f s).env.inputs = s.env.inputs ∧ (f s).env.host = s.env.host := by
  have h : (f s).env = ((f s).facing s.env.inputs s.env.host).env :=
    congrArg State.env (hf s s.env.inputs s.env.host).1
  rw [h]
  exact ⟨rfl, rfl⟩

/-- R61: an access does the same whatever is to come. -/
theorem hostAccess_facing (s : State) (a : Access) (l : List Input) (x : HostSide) :
    (s.facing l x).hostAccess a = (s.hostAccess a).map fun t => t.facing l x := by
  unfold State.hostAccess
  show (if a.inWindow s.cfg then _ else _) = _
  split
  · show (if a.performed s.cfg then _ else _) = _
    split
    · cases a.dir with
      | read => rfl
      | write v => exact congrArg Except.ok (internal_writeReg _ v s l x).1
    · rfl
  · rfl

/-- R65, R104: an access leaves the host's place and adds what it answers to the words answered before. -/
theorem hostAccess_env {s t : State} {a : Access} (h : s.hostAccess a = .ok t) :
    t.cfg = s.cfg ∧ t.env.host = s.env.host ∧ ∃ ws, t.env.replies = s.env.replies ++ ws := by
  obtain rfl | ⟨w, rfl⟩ | ⟨off, v, rfl⟩ := hostAccess_cases h
  · exact ⟨rfl, rfl, [], (List.append_nil _).symm⟩
  · exact ⟨rfl, rfl, [w], rfl⟩
  · obtain ⟨-, hcfg, hreplies⟩ := internal_writeReg off v s s.env.inputs s.env.host
    exact ⟨hcfg, ((internal_writeReg off v).env s).2, [], hreplies.trans (List.append_nil _).symm⟩

/-- R61, R94: what a performed access inside the window does. -/
theorem hostAccess_of_performed {s : State} {a : Access} (h : (a.inWindow s.cfg && a.performed s.cfg) = true) :
    ∃ t, s.hostAccess a = .ok t ∧ (a.dir = .read → ∃ w, t.env.replies = s.env.replies ++ [w]) := by
  obtain ⟨hin, hperf⟩ := Bool.and_eq_true_iff.1 h
  unfold State.hostAccess
  rw [if_pos hin, if_pos hperf]
  cases a.dir with
  | read => exact ⟨_, rfl, fun _ => ⟨_, rfl⟩⟩
  | write v => exact ⟨_, rfl, fun h => Direction.noConfusion h⟩

theorem hostTurn_of_access {s t : State} {op : HostOp} {more : List HostOp} (htodo : s.env.host.todo = op :: more)
    (h : s.hostAccess (op.access s.cfg) = .ok t) : s.hostTurn =
      .ok (t.withHost (s.env.host.answered op more (t.env.replies.drop s.env.replies.length).head?)) := by
  unfold State.hostTurn
  rw [htodo]
  simp only [h]

/-- R104: what the host reads after its line does not change what the line was answered. -/
theorem HostSide.answered_append (x : HostSide) {op : HostOp} {more : List HostOp} {c : Config} {old new : List Word}
    (hread : (op.access c).dir = .read → ∃ w, new = old ++ [w]) (later : List Word) :
    x.answered op more ((new ++ later).drop old.length).head? = x.answered op more (new.drop old.length).head? := by
  cases op with
  | wr p v => rfl
  | rd p name => obtain ⟨w, rfl⟩ := hread rfl; simp
  | pollRd p mask val => obtain ⟨w, rfl⟩ := hread rfl; simp

theorem absorb_access {s t : State} {a : Access} (h : s.hostAccess a = .ok t) (rest : List Input) :
    absorb (.access a :: rest) s = absorb rest t := by
  simp only [absorb, h]

theorem absorb_access_fault {s : State} {a : Access} {f : Fault} (h : s.hostAccess a = .error f) (rest : List Input) :
    absorb (.access a :: rest) s = .error (.fault f) s := by
  simp only [absorb, h]

theorem absorb_host {s t : State} (h : s.hostTurn = .ok t) (rest : List Input) :
    absorb (.host :: rest) s = absorb rest t := by
  simp only [absorb, h]

/-! ### A line and its access, side by side (R64, R283) -/

section

variable (s0 : State) (op : HostOp) (more : List HostOp)

/-- The host's line is still to come, and no access comes before it. -/
structure LineToCome (l : List Input) (s : State) : Prop where
  next : ∃ before after, (∀ i ∈ before, i ≠ .host ∧ ∀ a, i ≠ .access a) ∧ Input.host ∉ after ∧
    l = before ++ .host :: after
  host : s.env.host = s0.env.host
  replies : s.env.replies = s0.env.replies

/-- The host's line was performed: its answer, the first word since, has left the host where it is, and words answered
later do not matter. -/
structure LinePerformed (l : List Input) (s : State) : Prop where
  none : Input.host ∉ l
  answered : ∀ later, s.env.host =
    s0.env.host.answered op more ((s.env.replies ++ later).drop s0.env.replies.length).head?

/-- Where the line `op` of the host of `s0` stands, with the inputs `l` to come. -/
structure LineAt (l : List Input) (s : State) : Prop where
  cfg : s.cfg = s0.cfg
  stands : LineToCome s0 l s ∨ LinePerformed s0 op more l s

/-- The input with the access `a` in the place of the host's line. -/
def Input.asAccess (a : Access) : Input → Input
  | .host => .access a
  | i => i

/-- A state, and the state where the line's own access stands in its place and the host makes no move. -/
structure LineTwins (s t : State) : Prop where
  line : LineAt s0 op more s.env.inputs s
  twin : t = s.facing (s.env.inputs.map (Input.asAccess (op.access s0.cfg))) s0.env.host

end

variable {s0 : State} {op : HostOp} {more : List HostOp}

theorem Input.asAccess_eq (a : Access) (i : Input) : i.asAccess a = if i = .host then .access a else i := by
  cases i <;> rfl

theorem map_asAccess_of_no_host (a : Access) {l : List Input} (h : Input.host ∉ l) :
    l.map (Input.asAccess a) = l := by
  refine (List.map_congr_left fun i hi => ?_).trans (List.map_id l)
  rw [Input.asAccess_eq, if_neg (ne_of_mem_of_not_mem hi h), id]

namespace LineAt

theorem of_same {l : List Input} {s t : State} (h : LineAt s0 op more l s) (hcfg : t.cfg = s.cfg)
    (hhost : t.env.host = s.env.host) (hreplies : t.env.replies = s.env.replies) : LineAt s0 op more l t where
  cfg := hcfg.trans h.cfg
  stands := h.stands.imp (fun h => ⟨h.next, hhost.trans h.host, hreplies.trans h.replies⟩)
    fun h => ⟨h.none, hhost ▸ hreplies ▸ h.answered⟩

theorem internal {l : List Input} {s : State} (h : LineAt s0 op more l s) {f : State → State} (hf : Internal f) :
    LineAt s0 op more l (f s) := by
  obtain ⟨-, hcfg, hreplies⟩ := hf s s.env.inputs s.env.host
  exact h.of_same hcfg (hf.env s).2 hreplies

/-- Another input than the line is taken in. -/
theorem tail {i : Input} {rest : List Input} {s : State} (h : LineAt s0 op more (i :: rest) s) (hi : i ≠ .host) :
    LineAt s0 op more rest s := by
  refine ⟨h.cfg, h.stands.imp (fun h => ?_) fun h => ⟨fun hr => h.none (List.mem_cons_of_mem i hr), h.answered⟩⟩
  obtain ⟨before, after, hbefore, hafter, hl⟩ := h.next
  cases before with
  | nil => exact absurd (List.cons.inj hl).1 hi
  | cons j before =>
    have hbefore' := fun k hk => hbefore k (List.mem_cons_of_mem j hk)
    exact ⟨⟨before, after, hbefore', hafter, (List.cons.inj hl).2⟩, h.host, h.replies⟩

/-- An access comes after the line only. -/
theorem access {a : Access} {rest : List Input} {s t : State} (h : LineAt s0 op more (.access a :: rest) s)
    (ha : s.hostAccess a = .ok t) : LineAt s0 op more rest t := by
  obtain ⟨hcfg, hhost, ws, hreplies⟩ := hostAccess_env ha
  refine ⟨hcfg.trans h.cfg, .inr ?_⟩
  obtain hcome | hperf := h.stands
  · obtain ⟨before, after, hbefore, -, hl⟩ := hcome.next
    cases before with
    | nil => exact Input.noConfusion (List.cons.inj hl).1
    | cons j before => exact absurd (List.cons.inj hl).1.symm ((hbefore j List.mem_cons_self).2 a)
  · refine ⟨fun hr => hperf.none (List.mem_cons_of_mem _ hr), fun later => ?_⟩
    rw [hhost, hreplies, List.append_assoc]
    exact hperf.answered (ws ++ later)

/-- The line is taken in: it is performed as its access, and its answer is the first word since. -/
theorem host (htodo : s0.env.host.todo = op :: more)
    (hperf : ((op.access s0.cfg).inWindow s0.cfg && (op.access s0.cfg).performed s0.cfg) = true) {rest : List Input}
    {s : State} (h : LineAt s0 op more (.host :: rest) s) :
    ∃ t x, s.hostAccess (op.access s0.cfg) = .ok t ∧ s.hostTurn = .ok (t.withHost x) ∧
      LineAt s0 op more rest (t.withHost x) := by
  obtain hcome | hnone := h.stands
  · obtain ⟨before, after, hbefore, hafter, hl⟩ := hcome.next
    cases before with
    | nil =>
      obtain rfl : rest = after := (List.cons.inj hl).2
      rw [← h.cfg] at hperf ⊢
      obtain ⟨t, ha, hread⟩ := hostAccess_of_performed hperf
      refine ⟨t, _, ha, hostTurn_of_access (hcome.host ▸ htodo) ha, (hostAccess_env ha).1.trans h.cfg,
        .inr ⟨hafter, fun later => ?_⟩⟩
      rw [← hcome.host, ← hcome.replies]
      exact (s.env.host.answered_append hread later).symm
    | cons j before => exact absurd (List.cons.inj hl).1.symm (hbefore j List.mem_cons_self).1
  · exact absurd List.mem_cons_self hnone.none

end LineAt

/-- Twins are what the statement asks of two outcomes. -/
theorem LineTwins.isItsAccess {s t : State} (h : LineTwins s0 op more s t) :
    LineIsItsAccess s0 op more (op.access s0.cfg) (.next s) (.next t) := by
  obtain ⟨⟨-, hstands⟩, rfl⟩ := h
  refine ⟨List.map_congr_left fun i _ => i.asAccess_eq _, ?_⟩
  obtain hcome | hdone := hstands
  · obtain ⟨before, after, -, -, hl⟩ := hcome.next
    rw [if_pos (by rw [hl]; simp), ← hcome.host]
    rfl
  · have hanswered := hdone.answered []
    rw [List.append_nil] at hanswered
    rw [if_neg hdone.none, map_asAccess_of_no_host _ hdone.none]
    show s = s.withHost (s0.env.host.answered op more (s.env.replies.drop s0.env.replies.length).head?)
    rw [← hanswered]
    rfl

theorem runOp_lineTwins {o : Op Unit} (ho : Alike (LineTwins s0 op more) o) {s t : State}
    (h : LineTwins s0 op more s t) :
    LineIsItsAccess s0 op more (op.access s0.cfg) (runOp o s) (runOp o t) := by
  have hend := ho s t h
  have hcfg : t.cfg = s.cfg := h.twin ▸ rfl
  unfold runOp
  rw [hcfg]
  split
  · generalize o s = r, o t = r' at hend
    cases hend with
    | ok a h => exact h.isItsAccess
    | stop e h =>
      cases e with
      | timeout => exact (h.resolve_right fun ⟨_, hf⟩ => Stop.noConfusion hf).isItsAccess
      | reset => exact (h.resolve_right fun ⟨_, hf⟩ => Stop.noConfusion hf).isItsAccess
      | fault f => rfl
  · rfl

/-! ### Both runs of an operation -/

section

variable (htodo : s0.env.host.todo = op :: more)
  (hperf : ((op.access s0.cfg).inWindow s0.cfg && (op.access s0.cfg).performed s0.cfg) = true)
include htodo hperf

/-- The two runs take in the same inputs, but for the line and its access. -/
theorem absorb_lineTwins (l : List Input) : ∀ s k, LineAt s0 op more l s →
    SameEnd (LineTwins s0 op more) (absorb l s)
      (absorb (l.map (Input.asAccess (op.access s0.cfg))) (s.facing k s0.env.host)) := by
  induction l with
  | nil => exact fun s k h => .ok () ⟨h.of_same rfl rfl rfl, rfl⟩
  | cons i rest ih =>
    intro s k h
    cases i with
    | turn p => exact .ok () ⟨(h.tail Input.noConfusion).of_same rfl rfl rfl, rfl⟩
    | msTick =>
      have hend := ih s.msTick k ((h.tail Input.noConfusion).internal internal_msTick)
      rw [← (internal_msTick s k s0.env.host).1] at hend
      exact hend
    | rst => exact .stop .reset (.inl ⟨(h.tail Input.noConfusion).of_same rfl rfl rfl, rfl⟩)
    | access a =>
      have hfacing := hostAccess_facing s a k s0.env.host
      cases ha : s.hostAccess a with
      | ok t =>
        rw [ha] at hfacing
        rw [absorb_access ha]
        exact (absorb_access hfacing _).symm ▸ ih t k (h.access ha)
      | error f =>
        rw [ha] at hfacing
        rw [absorb_access_fault ha]
        exact (absorb_access_fault hfacing _).symm ▸ .stop _ (.inr ⟨f, rfl⟩)
    | host =>
      obtain ⟨t, x, ha, hturn, hline⟩ := h.host htodo hperf
      have hfacing := hostAccess_facing s (op.access s0.cfg) k s0.env.host
      rw [ha] at hfacing
      rw [absorb_host hturn]
      exact (absorb_access hfacing _).symm ▸ ih (t.withHost x) k hline

/-- An operation meets the line or its access at a turn only. -/
theorem blind_lineTwins : Blind (LineTwins s0 op more) where
  facing _ _ h := ⟨_, _, h.twin⟩
  turn s t h := by
    rw [h.twin]
    exact absorb_lineTwins htodo hperf _ s _ h.line
  update f hf s t h := by
    obtain ⟨hinputs, -⟩ := hf.env s
    refine ⟨hinputs ▸ h.line.internal hf, ?_⟩
    rw [h.twin, (hf s _ _).1, hinputs]

end

/-! ### Both runs of a command, a tick, a step -/

section

variable (hblind : Blind (LineTwins s0 op more))
include hblind

theorem exec_lineTwins (i : Instr) {s t : State} (h : LineTwins s0 op more s t) :
    LineIsItsAccess s0 op more (op.access s0.cfg) (exec i s) (exec i t) := by
  cases i with
  | policy f => exact runOp_lineTwins (hblind.policyOp f) h
  | transition f => exact runOp_lineTwins (hblind.transitionOp f) h
  | setBounds lo hi => exact runOp_lineTwins (hblind.setBoundsOp lo hi) h
  | cold b => exact runOp_lineTwins (hblind.coldOp b) h

theorem execIllegal_lineTwins {s t : State} (h : LineTwins s0 op more s t) :
    LineIsItsAccess s0 op more (op.access s0.cfg) (execIllegal s) (execIllegal t) :=
  runOp_lineTwins (hblind.completeWith 4 none) h

theorem runTick_lineTwins (th : Thermal) {s t : State} (h : LineTwins s0 op more s t) :
    LineIsItsAccess s0 op more (op.access s0.cfg) (runTick th s) (runTick th t) :=
  runOp_lineTwins (hblind.tick th)
    (hblind.update State.takeTick (fun _ _ _ => ⟨rfl, rfl, rfl⟩) s t h)

theorem startCommand_lineTwins (c : Cmd) {s t : State} (h : LineTwins s0 op more s t) :
    LineIsItsAccess s0 op more (op.access s0.cfg) (startCommand c s) (startCommand c t) := by
  have htake : LineTwins s0 op more s.takeCommand t.takeCommand :=
    hblind.update State.takeCommand (fun _ _ _ => ⟨rfl, rfl, rfl⟩) s t h
  unfold startCommand
  cases decodeCmd c with
  | ok i => exact exec_lineTwins hblind i htake
  | error e => exact execIllegal_lineTwins hblind htake

theorem startSlot_lineTwins {s t : State} (h : LineTwins s0 op more s t) :
    LineIsItsAccess s0 op more (op.access s0.cfg) (startSlot s) (startSlot t) := by
  have hslot : t.slot = s.slot := h.twin ▸ rfl
  unfold startSlot
  rw [hslot]
  cases s.slot with
  | none => exact h.isItsAccess
  | some c => exact startCommand_lineTwins hblind c h

theorem startTick_lineTwins {s t : State} (h : LineTwins s0 op more s t) :
    LineIsItsAccess s0 op more (op.access s0.cfg) (startTick s) (startTick t) := by
  have hcfg : t.cfg = s.cfg := h.twin ▸ rfl
  unfold startTick
  rw [hcfg]
  cases s.cfg.thermal with
  | none => exact h.isItsAccess
  | some th => exact runTick_lineTwins hblind th h

theorem startReady_lineTwins (p : Pick) {s t : State} (h : LineTwins s0 op more s t) :
    LineIsItsAccess s0 op more (op.access s0.cfg) (startReady p s) (startReady p t) := by
  have hcmd : t.cmdReady = s.cmdReady := h.twin ▸ rfl
  have htick : t.tickReady = s.tickReady := h.twin ▸ rfl
  have hslot := startSlot_lineTwins hblind h
  have htick' := startTick_lineTwins hblind h
  unfold startReady
  rw [hcmd, htick]
  cases s.cmdReady <;> cases s.tickReady
  · exact h.isItsAccess
  · exact htick'
  · exact hslot
  · cases p with
    | cmd => exact hslot
    | tick => exact htick'

end

/-- Of two steps that take in an input, the same or the line and its access. -/
theorem step_lineTwins (htodo : s0.env.host.todo = op :: more)
    (hperf : ((op.access s0.cfg).inWindow s0.cfg && (op.access s0.cfg).performed s0.cfg) = true)
    (hwf : s0.cfg.wf = true) {i : Input} {rest : List Input} {s t : State} (hi : s.env.inputs = i :: rest)
    (h : LineTwins s0 op more s t) : LineIsItsAccess s0 op more (op.access s0.cfg) (step s) (step t) := by
  obtain ⟨hline, rfl⟩ := h
  have hs : s.cfg.wf = true := hline.cfg ▸ hwf
  rw [hi] at hline ⊢
  generalize hk : (i :: rest).map (Input.asAccess (op.access s0.cfg)) = k
  have ht : (s.facing k s0.env.host).cfg.wf = true := hs
  have hfacing := fun a => hostAccess_facing s a k s0.env.host
  have hnext : ∀ u, LineAt s0 op more rest u → LineTwins s0 op more (u.withInputs rest)
      ((u.facing k s0.env.host).withInputs (rest.map (Input.asAccess (op.access s0.cfg)))) :=
    fun u hu => ⟨hu.of_same rfl rfl rfl, rfl⟩
  cases i with
  | turn p =>
    rw [step_turn hs hi, step_turn ht hk.symm]
    exact startReady_lineTwins (blind_lineTwins htodo hperf) p (hnext s (hline.tail Input.noConfusion))
  | msTick =>
    rw [step_msTick hs hi, step_msTick ht hk.symm, (internal_msTick s k s0.env.host).1]
    exact (hnext _ ((hline.tail Input.noConfusion).internal internal_msTick)).isItsAccess
  | rst =>
    rw [step_rst hs hi, step_rst ht hk.symm]
    exact (hnext _ ((hline.tail Input.noConfusion).internal internal_resetNow)).isItsAccess
  | access a =>
    rw [step_access hs hi, step_access ht hk.symm, hfacing]
    cases ha : s.hostAccess a with
    | ok u => exact (hnext u (hline.access ha)).isItsAccess
    | error f => rfl
  | host =>
    obtain ⟨u, x, ha, hturn, hrest⟩ := hline.host htodo hperf
    rw [step_host hs hi, step_access ht hk.symm, hfacing, ha, hturn]
    exact (hnext (u.withHost x) hrest).isItsAccess

/-- The twins before the first input is taken in. -/
theorem lineTwins_withInputs {before after : List Input}
    (hbefore : ∀ i ∈ before, i ≠ .host ∧ ∀ a, i ≠ .access a) (hafter : Input.host ∉ after) :
    LineTwins s0 op more (s0.withInputs (before ++ .host :: after))
      (s0.withInputs (before ++ .access (op.access s0.cfg) :: after)) where
  line := ⟨rfl, .inl ⟨⟨before, after, hbefore, hafter, rfl⟩, rfl, rfl⟩⟩
  twin := by
    have hmap : (before ++ Input.host :: after).map (Input.asAccess (op.access s0.cfg)) =
        before ++ .access (op.access s0.cfg) :: after := by
      rw [List.map_append, List.map_cons, map_asAccess_of_no_host _ fun h => (hbefore _ h).1 rfl,
        map_asAccess_of_no_host _ hafter]
      rfl
    show _ = (s0.withInputs _).facing ((before ++ Input.host :: after).map _) _
    rw [hmap]
    rfl

/-! ### One line next (R104) -/

theorem State.writeReg_env (s : State) (off : Nat) (v : Word) : (s.writeReg off v).env = s.env := by
  obtain h | ⟨-, h⟩ | ⟨-, h⟩ | h | h | h | h := writeReg_cases s off v <;> rw [h] <;> rfl

/-- R104: a line at an aligned offset of the window, next among the inputs. -/
theorem step_line {s t : State} {op : HostOp} {more : List HostOp} {rest : List Input} (hwf : s.cfg.wf = true)
    (hi : s.env.inputs = .host :: rest) (htodo : s.env.host.todo = op :: more)
    (h : s.hostAccess (op.access s.cfg) = .ok t) : step s = .next ((t.withHost
      (s.env.host.answered op more (t.env.replies.drop s.env.replies.length).head?)).withInputs rest) := by
  rw [step_host hwf hi, hostTurn_of_access htodo h]

theorem step_lineWrite {s : State} {p : Place} {v : Word} {more : List HostOp} {rest : List Input}
    (hwf : s.cfg.wf = true) (hlt : p.offset < 256) (halign : p.offset % 4 = 0) (hi : s.env.inputs = .host :: rest)
    (htodo : s.env.host.todo = .wr p v :: more) : step s = .next ((s.writeReg p.offset v).withEnv
      { s.env with inputs := rest, host := ⟨more, s.env.host.vars⟩ }) := by
  rw [step_line hwf hi htodo (hostAccess_at s p.offset (.write v) hlt halign)]
  simp only [State.withInputs, State.withHost, State.withEnv_withEnv, State.withEnv_env, State.writeReg_env]
  rfl

/-- R104: the host reads: the word is answered, and the line is over or not as the word says. -/
theorem step_lineRead {s : State} {p : Place} {op : HostOp} {more : List HostOp} {rest : List Input}
    (hwf : s.cfg.wf = true) (hlt : p.offset < 256) (halign : p.offset % 4 = 0) (hi : s.env.inputs = .host :: rest)
    (htodo : s.env.host.todo = op :: more) (hop : op.access s.cfg = ⟨s.cfg.mmioBase + p.offset, 4, .read⟩) :
    step s = .next (s.withEnv { s.env with
      inputs := rest, replies := s.env.replies ++ [s.readReg p.offset]
      host := s.env.host.answered op more (some (s.readReg p.offset)) }) := by
  rw [step_line hwf hi htodo (hop ▸ hostAccess_at s p.offset .read hlt halign)]
  simp

/-- R104: POLLRD is over exactly if its word matches. -/
theorem HostSide.answered_pollRd {x : HostSide} {p : Place} {mask val : Word} {more : List HostOp}
    (h : x.todo = .pollRd p mask val :: more) (w : Word) : x.answered (.pollRd p mask val) more (some w) =
      ⟨if w &&& mask = val then more else .pollRd p mask val :: more, x.vars⟩ := by
  show (if w &&& mask = val then { x with todo := more } else x) = _
  split
  · rfl
  · rw [← h]

/-- R105: what WAITIDLE waits for. -/
theorem readReg_status_and_one (s : State) : s.readReg (Place.reg .status).offset &&& 0x1 = 0x0 ↔ s.busy = false := by
  obtain ⟨hbusy, -⟩ := statusLayout.1 s
  have hword : s.readReg (Place.reg .status).offset = s.statusWord := rfl
  have hbit : s.statusWord.getLsbD 0 = s.busy := hbusy
  rw [hword, ← Word.ite_getLsbD_zero, hbit]
  cases s.busy <;> decide

/-! ### The pseudo-instructions (R105) -/

theorem State.writeCmd_of_free {s : State} (hslot : s.slot = none) (hactive : s.cmdActive = false) (w : Word) :
    s.writeCmd w = { s with slot := some (capture w s.arg0 s.arg1) } := by
  have hbusy : s.busy = false := by rw [State.busy, hslot, hactive]; rfl
  rw [State.writeCmd, hbusy]
  rfl

theorem run_of_step {s t : core.State} (h : core.step s = .next t) (n : Nat) : core.run (n + 1) s = core.run n t := by
  rw [Host.Core.run, h]

/-- R105: a bus write of an expansion is one step. -/
theorem run_write {s : State} {r : Reg} {v : Word} {rest : List Input} (hwf : s.cfg.wf = true)
    (hr : ∀ c, r = .chLevel c → c < 16)
    (hi : s.env.inputs = .access ⟨s.cfg.mmioBase + r.offset, 4, .write v⟩ :: rest) (n : Nat) :
    core.run (n + 1) s = core.run n ((s.writeReg r.offset v).withInputs rest) := by
  obtain ⟨hlt, halign⟩ := Reg.offset_lt_and_aligned hr
  exact run_of_step (step_write hwf hlt halign hi) n

/-- R105: with the argument registers written, the write of CMD on a free port captures them, and the run is over. -/
theorem run_writeCmd {s : State} {w : Word} {rest : List Input} (hwf : s.cfg.wf = true) (hslot : s.slot = none)
    (hactive : s.cmdActive = false)
    (hi : s.env.inputs = .access ⟨s.cfg.mmioBase + Reg.cmd.offset, 4, .write w⟩ :: rest) :
    core.run 1 s = .next ({ s with slot := some (capture w s.arg0 s.arg1) }.withInputs rest) := by
  rw [run_write hwf (fun _ h => Reg.noConfusion h) hi 0]
  show Host.Outcome.next ((s.writeCmd w).withInputs rest) = _
  rw [State.writeCmd_of_free hslot hactive]
  rfl

/-- R105: the expansion of a command with one argument. -/
theorem run_arg0_cmd {s : State} {f w : Word} {rest : List Input} (hwf : s.cfg.wf = true) (hslot : s.slot = none)
    (hactive : s.cmdActive = false)
    (hi : s.env.inputs = .access ⟨s.cfg.mmioBase + Reg.arg0.offset, 4, .write f⟩ ::
      .access ⟨s.cfg.mmioBase + Reg.cmd.offset, 4, .write w⟩ :: rest) :
    core.run 2 s = .next ({ s with arg0 := f, slot := some (capture w f s.arg1) }.withInputs rest) := by
  rw [run_write hwf (fun _ h => Reg.noConfusion h) hi 1]
  exact run_writeCmd (s := ({ s with arg0 := f } : State).withInputs _) hwf hslot hactive rfl

/-- R105: the expansion of SETBOUNDS. -/
theorem run_arg0_arg1_cmd {s : State} {lo hi w : Word} {rest : List Input} (hwf : s.cfg.wf = true)
    (hslot : s.slot = none) (hactive : s.cmdActive = false)
    (hinputs : s.env.inputs = .access ⟨s.cfg.mmioBase + Reg.arg0.offset, 4, .write lo⟩ ::
      .access ⟨s.cfg.mmioBase + Reg.arg1.offset, 4, .write hi⟩ ::
      .access ⟨s.cfg.mmioBase + Reg.cmd.offset, 4, .write w⟩ :: rest) :
    core.run 3 s = .next ({ s with arg0 := lo, arg1 := hi, slot := some (capture w lo hi) }.withInputs rest) := by
  rw [run_write hwf (fun _ h => Reg.noConfusion h) hinputs 2]
  refine (run_write (s := ({ s with arg0 := lo } : State).withInputs _) hwf (fun _ h => Reg.noConfusion h) rfl
    1).trans ?_
  exact run_writeCmd (s := ({ s with arg0 := lo, arg1 := hi } : State).withInputs _) hwf hslot hactive rfl

/-- Settles O11: the expansions write by write, one line by the step that takes it in, and a line among an operation's
actions by the twins: two runs that differ in the line and its access only. -/
theorem pseudoInstructionPlacesCommand : Obligations.PseudoInstructionPlacesCommand := by
  refine ⟨fun s p rest hwf hslot hactive hi => ?_, fun s more p rest hwf hlt halign hi => ⟨fun v htodo => ?_,
    fun name htodo => ?_, fun mask val htodo => ?_⟩, readReg_status_and_one, ?_⟩
  · cases p with
    | policy f => exact run_arg0_cmd hwf hslot hactive hi
    | transition f => exact run_arg0_cmd hwf hslot hactive hi
    | setBounds lo hi' => exact run_arg0_arg1_cmd hwf hslot hactive hi
    | cold b => exact run_arg0_cmd hwf hslot hactive hi
    | waitIdle => exact run_of_step (step_read hwf (by decide) (by decide) hi) 0
    | ack m => exact run_write (r := .intStatus) hwf (fun _ h => Reg.noConfusion h) hi 0
  · exact step_lineWrite hwf hlt halign hi htodo
  · exact step_lineRead hwf hlt halign hi htodo rfl
  · rw [step_lineRead hwf hlt halign hi htodo rfl, HostSide.answered_pollRd htodo]
  · intro s op more before after run hwf htodo hperf hbefore hafter hrun
    have htwins := lineTwins_withInputs (op := op) (more := more) (s0 := s) hbefore hafter
    have hblind := blind_lineTwins htodo hperf
    obtain rfl | ⟨i, rfl⟩ | rfl | ⟨th, -, rfl⟩ := hrun
    · cases before with
      | nil => exact step_lineTwins htodo hperf hwf rfl htwins
      | cons i before => exact step_lineTwins htodo hperf hwf rfl htwins
    · exact exec_lineTwins hblind i htwins
    · exact execIllegal_lineTwins hblind htwins
    · exact runTick_lineTwins hblind th htwins

end Sys2Proof.Machine
end

section
/-! SUPPORT. What the command port does (spec/40_commands.md R120, R121): the write of CMD, and the step that starts the
command in the slot. -/

namespace Sys2Proof.Machine

/-! ### The write of CMD (R120) -/

/-- R120: a busy block drops the command. -/
theorem State.writeCmd_of_busy {s : State} (h : s.busy = true) (w : Word) : s.writeCmd w = s.raiseInt .drop :=
  if_pos h

/-- Settles O4: the write is one step, and does what `writeCmd` does on a busy or a free port. -/
theorem cmdWriteCapturedOrDropped : Obligations.CmdWriteCapturedOrDropped := by
  intro s w rest hwf hi
  have hstep : step s = .next ((s.writeCmd w).withInputs rest) := step_write (off := 0) hwf (by decide) rfl hi
  refine ⟨fun hbusy => ?_, fun hslot hactive => ?_⟩
  · have hbusy' : s.busy = true := by
      simpa [State.busy, Option.isSome_iff_ne_none] using hbusy
    rw [hstep, State.writeCmd_of_busy hbusy']
    rfl
  · rw [hstep, State.writeCmd_of_free hslot hactive]
    exact ⟨_, rfl, (statusLayout.1 _).1, rfl⟩

/-! ### The step that starts a command (R121) -/

/-- R121, R274: a ready command is started, unless a tick is ready as well and was picked. -/
theorem startReady_of_slot {s : State} {c : Cmd} {p : Pick} (hidle : s.step = .idle) (hslot : s.slot = some c)
    (hp : s.tickReady = false ∨ p = .cmd) : startReady p s = startCommand c s := by
  have hcmd : s.cmdReady = true := by simp [State.cmdReady, hidle, hslot]
  have hstart : startSlot s = startCommand c s := by rw [startSlot, hslot]
  unfold startReady
  obtain htick | rfl := hp
  · rw [hcmd, htick]
    exact hstart
  · rw [hcmd]
    cases s.tickReady <;> exact hstart

/-- R121: a command word that decodes is run. -/
theorem startCommand_ok {s : State} {c : Cmd} {i : Instr} (h : decodeCmd c = .ok i) :
    startCommand c s = exec i s.takeCommand := by rw [startCommand, h]

/-- R127: any other is completed as illegal. -/
theorem startCommand_error {s : State} {c : Cmd} {e : Illegal} (h : decodeCmd c = .error e) :
    startCommand c s = execIllegal s.takeCommand := by rw [startCommand, h]

/-- Settles O12: with a turn next, or with nothing to come and no tick to choose, the step starts the command. -/
theorem stepRunsTheDecodedCommand : Obligations.StepRunsTheDecodedCommand := by
  intro s c hwf hidle hslot
  refine ⟨fun p rest hi hp => ?_, fun hi htick i hdecode => ?_⟩
  · have hstart : step s = startCommand c (s.withInputs rest) :=
      (step_turn hwf hi).trans (startReady_of_slot hidle hslot hp)
    exact ⟨fun i hdecode => hstart.trans (startCommand_ok hdecode), fun e hdecode =>
      hstart.trans (startCommand_error hdecode)⟩
  · have harbitrate : arbitrate s = startReady .cmd s := if_neg (by simp [htick])
    rw [step_quiet hwf hi, harbitrate, startReady_of_slot hidle hslot (.inl htick)]
    exact startCommand_ok hdecode

end Sys2Proof.Machine
end

section
/-! SUPPORT. Operations while nothing comes from outside: what each is as an equation, a bounded wait
(spec/41_transition_engine.md R153) from the coming answers; and the commands SET_BOUNDS and COLD
(spec/40_commands.md R125, R126). -/

namespace Sys2Proof.Machine

variable {α β : Type}

/-! ### How operations are run -/

theorem run_bind {op : Op α} {k : α → Op β} {s t : State} {a : α} {r : EStateM.Result Stop State β}
    (h : op s = .ok a t) (hk : k a t = r) : (op >>= k) s = r := by
  show EStateM.bind op k s = r
  rw [EStateM.bind, h]
  exact hk

theorem run_bind_error {op : Op α} {k : α → Op β} {s t : State} {e : Stop} (h : op s = .error e t) :
    (op >>= k) s = .error e t := by
  show EStateM.bind op k s = _
  rw [EStateM.bind, h]

theorem run_get {k : State → Op α} {s : State} {r : EStateM.Result Stop State α} (h : k s s = r) :
    (get >>= k) s = r := h

theorem run_modify {f : State → State} {k : Unit → Op α} {s : State} {r : EStateM.Result Stop State α}
    (h : k () (f s) = r) : ((modify f : Op Unit) >>= k) s = r := h

theorem catchTimeout_of_ok {op : Op Word} {s t : State} {w : Word} (h : op s = .ok w t) :
    catchTimeout op s = .ok (some w) t := by rw [catchTimeout, h]

theorem catchTimeout_of_timeout {op : Op Word} {s t : State} (h : op s = .error .timeout t) :
    catchTimeout op s = .ok none t := by rw [catchTimeout, h]

theorem runOp_of_ok {op : Op Unit} {s t : State} (hwf : s.cfg.wf = true) (h : op s = .ok () t) :
    runOp op s = .next t := by rw [runOp, if_pos hwf, h, outcomeOf]

theorem act_quiet {s : State} (h : s.quiet) (f : State → State) : act f s = .ok () (f s) :=
  run_bind (awaitTurn_quiet h) rfl

theorem completeWith_quiet {s : State} (h : s.quiet) (code : BitVec 4) (res : Option Word) :
    completeWith code res s = .ok () (s.completeCmd code res) := act_quiet h _

/-- Settles O21: the bounds are stored and the command completes. -/
theorem setBoundsStoresBounds : Obligations.SetBoundsStoresBounds := fun s lo hi hwf hquiet =>
  runOp_of_ok hwf (completeWith_quiet (s := s.setBounds lo hi) hquiet 0 none)

/-! ### Polls (R67, R153) -/

/-- The state after polls that put these events in the trace, the last of them attempt `n`. -/
def State.polled (s : State) (n : Nat) (polls : List Event) : State :=
  { s with
    attempt := n
    env := { s.env with
      pollAnswers := s.env.pollAnswers.drop polls.length, draws := s.env.draws + polls.length
      trace := s.env.trace ++ polls } }

theorem State.polled_polled (s : State) (n m : Nat) (polls more : List Event) :
    (s.polled n polls).polled m more = s.polled m (polls ++ more) := by
  simp [State.polled, Nat.add_assoc]

theorem State.pollAnswer_polled (s : State) (n : Nat) (e : Event) (j : Nat) :
    (s.polled n [e]).pollAnswer j = s.pollAnswer (j + 1) := by
  simp [State.pollAnswer, State.polled, Nat.add_assoc, Nat.add_comm 1]

/-- R67: one poll, as attempt `n`. -/
theorem pollSignal_attempt {s : State} (h : s.quiet) (sig : Signal) (n : Nat) : pollSignal sig { s with attempt := n } =
    .ok (s.pollAnswer 0) (s.polled n [.poll sig (s.pollAnswer 0)]) := by
  refine run_bind (awaitTurn_quiet (s := { s with attempt := n }) h) ?_
  show EStateM.Result.ok (State.outPoll _ sig).1 (State.outPoll _ sig).2 = _
  cases hp : s.env.pollAnswers <;> simp [State.outPoll, Env.drawBit, State.pollAnswer, State.polled, hp] <;> rfl

theorem pollLoop_of_true {s : State} (h : s.quiet) (htrue : s.pollAnswer 0 = true) (sig : Signal) (n k : Nat) :
    pollLoop sig (n + 1) k s = .ok true (s.polled k [.poll sig true]) := by
  have hpoll := pollSignal_attempt h sig k
  rw [htrue] at hpoll
  exact run_modify (run_bind hpoll rfl)

theorem pollLoop_of_false {s : State} (h : s.quiet) (hfalse : s.pollAnswer 0 = false) (sig : Signal) (n k : Nat) :
    pollLoop sig (n + 1) k s = pollLoop sig n (k + 1) (s.polled k [.poll sig false]) := by
  have hpoll := pollSignal_attempt h sig k
  rw [hfalse] at hpoll
  exact run_modify (run_bind hpoll rfl)

/-- R153: the signal is seen at the attempt after `n` others. -/
theorem pollLoop_seen (sig : Signal) (n : Nat) : ∀ {s : State} (left k : Nat), s.quiet →
    s.pollAnswer n = true → (∀ j, j < n → s.pollAnswer j = false) → pollLoop sig (n + 1 + left) k s =
      .ok true (s.polled (k + n) (List.replicate n (.poll sig false) ++ [.poll sig true])) := by
  induction n with
  | zero =>
    intro s left k hquiet hseen _
    rw [Nat.add_right_comm]
    exact pollLoop_of_true hquiet hseen sig _ k
  | succ n ih =>
    intro s left k hquiet hseen hbefore
    have hrest := ih (s := s.polled k [.poll sig false]) left (k + 1) hquiet ((s.pollAnswer_polled _ _ _).trans hseen)
      fun j hj => (s.pollAnswer_polled _ _ _).trans (hbefore _ (by omega))
    rw [State.polled_polled, Nat.add_right_comm k] at hrest
    rw [Nat.add_right_comm (n + 1)]
    exact (pollLoop_of_false hquiet (hbefore 0 (by omega)) sig _ k).trans hrest

/-- R153: no attempt sees the signal. -/
theorem pollLoop_missed (sig : Signal) (n : Nat) : ∀ {s : State} (k : Nat), s.quiet →
    (∀ j, j < n + 1 → s.pollAnswer j = false) → pollLoop sig (n + 1) k s =
      .ok false (s.polled (k + n) (List.replicate (n + 1) (.poll sig false))) := by
  induction n with
  | zero => exact fun k hquiet hfalse => pollLoop_of_false hquiet (hfalse 0 (by omega)) sig 0 k
  | succ n ih =>
    intro s k hquiet hfalse
    have hrest := ih (s := s.polled k [.poll sig false]) (k + 1) hquiet
      fun j hj => (s.pollAnswer_polled _ _ _).trans (hfalse _ (by omega))
    rw [State.polled_polled, Nat.add_right_comm] at hrest
    exact (pollLoop_of_false hquiet (hfalse 0 (by omega)) sig _ k).trans hrest

theorem timedOut_critical (sig : Signal) (arg : Byte) (snap : Word) (s : State) :
    timedOut sig true arg snap s = .error .timeout (s.recordTimeout sig arg snap) := rfl

theorem timedOut_logged (sig : Signal) (arg : Byte) (snap : Word) (s : State) :
    timedOut sig false arg snap s = .ok false ((s.recordTimeout sig arg snap).raiseInt .warn) := rfl

/-- R153: a signal wait in which the signal is seen at attempt `n + 1`. -/
theorem waitSig_seen {s : State} {n : Nat} (hquiet : s.quiet) (hn : n < s.cfg.waitMax) (hseen : s.pollAnswer n = true)
    (hbefore : ∀ j, j < n → s.pollAnswer j = false) (sig : Signal) (crit : Bool) (arg : Byte) :
    waitSig sig crit arg s =
      .ok true (s.polled (n + 1) (List.replicate n (.poll sig false) ++ [.poll sig true])) := by
  obtain ⟨left, hleft⟩ := Nat.exists_eq_add_of_le hn
  have hloop := pollLoop_seen sig n left 1 hquiet hseen hbefore
  rw [← hleft, Nat.add_comm] at hloop
  exact run_get (run_bind hloop rfl)

/-- R153: a signal wait that uses up its budget. -/
theorem waitSig_missed {s : State} (hwf : s.cfg.wf = true) (hquiet : s.quiet)
    (hfalse : ∀ j, j < s.cfg.waitMax → s.pollAnswer j = false) (sig : Signal) (crit : Bool) (arg : Byte) :
    waitSig sig crit arg s = timedOut sig crit arg 0 (s.polled s.cfg.waitMax (signalMissed s.cfg sig)) := by
  obtain ⟨n, hn⟩ := Nat.exists_eq_add_of_le' (Config.wf_engine hwf).1
  have hloop := pollLoop_missed sig n 1 hquiet (hn ▸ hfalse)
  rw [← hn, Nat.add_comm, ← hn] at hloop
  exact run_get (run_bind hloop rfl)

/-! ### COLD (R126) -/

/-- R126: the offset put in force and the voltage call made. -/
def State.coldIssued (s : State) (asserted : Bool) : State :=
  let u := (s.setCold asserted).setStep .coldVolt
  u.issueVoltage (u.voltageFor u.currentLevel)

/-- R126: what COLD and the polls of its wait have changed. -/
theorem State.coldIssued_polled (s : State) (asserted : Bool) (n : Nat) (polls : List Event) :
    (s.coldIssued asserted).polled n polls = { (s.coldIssued asserted) with
      attempt := n
      env := { s.env with
        pollAnswers := s.env.pollAnswers.drop polls.length, draws := s.env.draws + polls.length
        trace := s.env.trace ++ .call (.setVoltage (s.coldIssued asserted).currentVoltage) :: polls } } := by
  have htrace : (s.coldIssued asserted).env.trace ++ polls =
      s.env.trace ++ .call (.setVoltage (s.coldIssued asserted).currentVoltage) :: polls :=
    List.append_assoc s.env.trace [_] polls
  rw [State.polled, htrace]
  rfl

theorem coldVoltage_of_wait {s : State} {asserted : Bool} (hquiet : s.quiet)
    {r : EStateM.Result Stop State Bool} (h : waitSig .voltDone true 0 (s.coldIssued asserted) = r) :
    coldVoltage (s.setCold asserted) = match r with
      | .ok _ t => .ok ((s.setCold asserted).voltageFor s.currentLevel) t
      | .error e t => .error e t := by
  have hact := act_quiet (s := (s.setCold asserted).setStep .coldVolt) hquiet fun u =>
    u.issueVoltage (((s.setCold asserted).setStep .coldVolt).voltageFor s.currentLevel)
  refine run_modify (run_get ?_)
  cases r with
  | ok b t => exact run_bind (run_bind hact (run_bind h rfl)) rfl
  | error e t => exact run_bind_error (run_bind hact (run_bind_error h))

/-- R126: COLD whose voltage is seen, with the state its wait left. -/
theorem coldOp_seen {s t : State} {asserted b : Bool} (hquiet : s.quiet)
    (h : waitSig .voltDone true 0 (s.coldIssued asserted) = .ok b t) (ht : t.quiet) :
    coldOp asserted s = .ok () (t.completeCmd 0 none) :=
  run_modify (run_bind (catchTimeout_of_ok (coldVoltage_of_wait hquiet h)) (completeWith_quiet ht 0 none))

/-- R126: COLD whose wait timed out. -/
theorem coldOp_missed {s t : State} {asserted : Bool} (hquiet : s.quiet)
    (h : waitSig .voltDone true 0 (s.coldIssued asserted) = .error .timeout t) (ht : t.quiet) :
    coldOp asserted s = .ok () (t.completeCmd 2 none) :=
  run_modify (run_bind (catchTimeout_of_timeout (coldVoltage_of_wait hquiet h)) (completeWith_quiet ht 2 none))

/-- Settles O24: the wait sees VOLT_DONE at attempt `k + 1`. -/
theorem coldRewritesTheVoltage : Obligations.ColdRewritesTheVoltage := by
  rintro s asserted k hwf hquiet hk hseen hbefore _ _ rfl rfl
  have hwait := waitSig_seen (s := s.coldIssued asserted) hquiet hk hseen hbefore .voltDone true 0
  have hlength : (List.replicate k (Event.poll .voltDone false) ++ [Event.poll .voltDone true]).length = k + 1 := by
    simp
  refine (runOp_of_ok hwf (coldOp_seen hquiet hwait hquiet)).trans ?_
  rw [s.coldIssued_polled, hlength, ← List.cons_append, ← List.append_assoc]
  rfl

/-- Settles O25: the wait uses up its budget. -/
theorem coldTimesOutWithoutRollback : Obligations.ColdTimesOutWithoutRollback := by
  rintro s asserted hwf hquiet hfalse _ _ rfl rfl
  have hwait := waitSig_missed (s := s.coldIssued asserted) hwf hquiet hfalse .voltDone true 0
  refine (runOp_of_ok hwf (coldOp_missed hquiet (hwait.trans (timedOut_critical _ _ _ _)) hquiet)).trans ?_
  rw [s.coldIssued_polled, signalMissed, List.length_replicate]
  rfl

/-- R126, R285: COLD always completes: it polls, and then it has seen VOLT_DONE or records that it has not. -/
theorem coldOp_quiet {s : State} (asserted : Bool) (hwf : s.cfg.wf = true) (hquiet : s.quiet) :
    ∃ (n : Nat) (polls : List Event) (code : BitVec 4) (info1 info2 info3 : Byte) (snap : Word),
      (∀ e ∈ polls, ∃ b, e = .poll .voltDone b) ∧ (code = 0 ∨ code = 2) ∧
      coldOp asserted s = .ok () (({ (s.coldIssued asserted).polled n polls with
        errStep := info1, errSig := info2, errArg := info3, errSnap := snap } : State).completeCmd code none) := by
  by_cases hseen : ∃ k, k < s.cfg.waitMax ∧ s.pollAnswer k = true
  · obtain ⟨hk, htrue⟩ := Nat.find_spec hseen
    have hbefore : ∀ j, j < Nat.find hseen → s.pollAnswer j = false := fun j hj =>
      Bool.eq_false_iff.2 fun h => Nat.find_min hseen hj ⟨hj.trans hk, h⟩
    have hwait := waitSig_seen (s := s.coldIssued asserted) hquiet hk htrue hbefore .voltDone true 0
    exact ⟨_, _, 0, _, _, _, _, fun e he => (List.mem_append.1 he).elim (fun h => ⟨false, List.eq_of_mem_replicate h⟩)
      fun h => ⟨true, List.mem_singleton.1 h⟩, .inl rfl, coldOp_seen hquiet hwait hquiet⟩
  · have hfalse : ∀ j, j < s.cfg.waitMax → s.pollAnswer j = false := fun j hj =>
      Bool.eq_false_iff.2 fun h => hseen ⟨j, hj, h⟩
    have hwait := waitSig_missed (s := s.coldIssued asserted) hwf hquiet hfalse .voltDone true 0
    exact ⟨_, _, 2, _, _, _, _, fun e he => ⟨false, List.eq_of_mem_replicate he⟩, .inr rfl,
      coldOp_missed hquiet (hwait.trans (timedOut_critical _ _ _ _)) hquiet⟩

/-- R279: a completion sets DONE and ERR only. -/
theorem completionBits_getLsbD {code : BitVec 4} {i : Nat} (h : (completionBits code).getLsbD i = true) :
    i = 0 ∨ i = 1 := by
  have hi := BitVec.lt_of_getLsbD h
  unfold completionBits at h
  split at h <;> revert h <;> interval_cases i <;> decide

/-- I14: a command that answers a next state ran under a well-formed configuration. -/
theorem wf_of_exec_next {s u : State} {i : Instr} (h : exec i s = .next u) : s.cfg.wf = true := by
  cases hwf : s.cfg.wf with
  | true => rfl
  | false => rw [exec_of_wf_false hwf] at h; cases h

/-- Settles O33: what the voltage call, the polls and the completion change. -/
theorem coldFrame : Obligations.ColdFrame := by
  intro s u asserted hquiet hx
  have hwf := wf_of_exec_next hx
  obtain ⟨n, polls, code, info1, info2, info3, snap, hpolls, -, hop⟩ := coldOp_quiet asserted hwf hquiet
  obtain rfl := Host.Outcome.next.inj ((runOp_of_ok hwf hop).symm.trans hx)
  refine ⟨_, code, info1, info2, info3, snap, s.intStatus ||| completionBits code, n, _, rfl, fun w off v hmem => ?_,
    rfl, rfl, rfl, fun i hi => ?_, fun i hi => ?_⟩
  · have hadded : Event.wr w off v ∈ (s.env.trace ++ [Event.call _]) ++ polls := hmem
    obtain (hold | hcall) | hpoll := (List.mem_append.1 hadded).imp_left List.mem_append.1
    · exact hold
    · cases List.mem_singleton.1 hcall
    · obtain ⟨b, hb⟩ := hpolls _ hpoll
      cases hb
  · rw [BitVec.getLsbD_or, hi, Bool.true_or]
  · rw [BitVec.getLsbD_or, Bool.or_eq_true] at hi
    exact hi.imp_right completionBits_getLsbD

/-! ### A multiplexer that does not settle (R162, R275) -/

/-- R162, R275: its timeout is logged with its id, and the call of the multiplexer completes. -/
theorem repoint_unsettled {s : State} {m : Byte} (first : Bool) (t : Level) (src : Byte) (hwf : s.cfg.wf = true)
    (hquiet : s.quiet) (hm : m ≠ s.cfg.primaryMux) (hfalse : ∀ j, j < s.cfg.waitMax → s.pollAnswer j = false) :
    repoint first t m src s = .ok () ((((s.issueClock first t (.setMuxParent m src)).polled s.cfg.waitMax
      (signalMissed s.cfg (.muxSettled m))).recordTimeout (.muxSettled m) m 0).raiseInt .warn) := by
  have hwait := waitSig_missed (s := s.issueClock first t (.setMuxParent m src)) hwf hquiet hfalse (.muxSettled m)
    (m == s.cfg.primaryMux) m
  rw [beq_eq_false_iff_ne.2 hm, timedOut_logged] at hwait
  refine run_bind (act_quiet hquiet _) (run_get (run_bind (a := false) ?_ rfl))
  exact (beq_eq_false_iff_ne.2 hm).symm ▸ hwait

end Sys2Proof.Machine
end

section
/-! SUPPORT. What a transition body leaves unchanged while nothing comes from outside (spec/41_transition_engine.md
R150), and so what POLICY and TRANSITION do (spec/40_commands.md R122 to R124), and that every command completes. -/

namespace Sys2Proof.Machine

/-! ### The frame of a body -/

/-- The state `s` with the fields that a body may change taken from `t`. -/
def State.moved (s t : State) : State :=
  { s with
    step := t.step, currentLevel := t.currentLevel, currentVoltage := t.currentVoltage
    dllForced := t.dllForced, dllLocked := t.dllLocked, pendingLock := t.pendingLock, pllCur := t.pllCur
    errStep := t.errStep, errSig := t.errSig, errArg := t.errArg, errSnap := t.errSnap, intStatus := t.intStatus
    old := t.old, target := t.target, origin := t.origin, attempt := t.attempt, lastWord := t.lastWord, env := t.env }

/-- R150, R162: from `s` the actions of a body have led to `t`, with nothing from outside: no other field has changed,
and of the interrupt bits at most WARN was set. -/
structure BodyFrame (s t : State) : Prop where
  regs : t = s.moved t
  inputs : t.env.inputs = []
  replies : t.env.replies = s.env.replies
  ints : t.intStatus = s.intStatus ∨ t.intStatus = s.intStatus ||| IntBit.warn.mask

namespace BodyFrame

variable {s t u : State}

theorem refl (h : s.quiet) : BodyFrame s s := ⟨rfl, h, rfl, .inl rfl⟩

/-- One more action that sets no interrupt bit. -/
theorem trans (h : BodyFrame s t) (hregs : u = t.moved u) (hinputs : u.env.inputs = t.env.inputs)
    (hreplies : u.env.replies = t.env.replies) (hints : u.intStatus = t.intStatus) : BodyFrame s u where
  regs := by rw [hregs, h.regs]; rfl
  inputs := hinputs.trans h.inputs
  replies := hreplies.trans h.replies
  ints := hints ▸ h.ints

/-- R162: one more wait that only warns. -/
theorem warned (h : BodyFrame s t) (sig : Signal) (arg : Byte) (snap : Word) :
    BodyFrame s ((t.recordTimeout sig arg snap).raiseInt .warn) where
  regs := by rw [h.regs]; rfl
  inputs := h.inputs
  replies := h.replies
  ints := .inr <| by
    show t.intStatus ||| IntBit.warn.mask = _
    obtain h | h := h.ints <;> rw [h]
    rw [BitVec.or_assoc, BitVec.or_self]

theorem cfg (h : BodyFrame s t) : t.cfg = s.cfg := by rw [h.regs]; rfl

end BodyFrame

/-- How a body stops with nothing from outside: by a timeout only. -/
def TimesOut (P : State → Prop) : Stop → State → Prop
  | .timeout, t => P t
  | .reset, _ => False
  | .fault _, _ => False

theorem BodyFrame.passesCalls (s : State) :
    PassesCalls s.cfg (fun _ => True) (BodyFrame s) (TimesOut (BodyFrame s)) where
  cfg _ h := h.cfg
  turn := Turn.of_quiet fun _ h => h.inputs
  setStep t x h := h.trans (u := t.setStep x) rfl rfl rfl rfl
  attempt _ _ h := h.trans rfl rfl rfl rfl
  lastWord _ _ h := h.trans rfl rfl rfl rfl
  read t w off _ h := h.trans (by rw [t.outRead_state]; rfl) (by simp) (t.outRead_replies w off) (by simp)
  write t w off v _ h := h.trans (u := t.outWrite w off v) rfl rfl rfl rfl
  poll t sig _ h := h.trans rfl (by simp) t.env.drawBit_replies rfl
  warned _ sig arg snap h := h.warned sig arg snap
  timeout t sig arg snap h := h.trans (u := t.recordTimeout sig arg snap) rfl rfl rfl rfl
  voltage t v _ h := h.trans (u := t.issueVoltage v) rfl rfl rfl rfl
  clock t first l p _ h := h.trans (u := t.issueClock first l p) rfl rfl rfl rfl
  safeMux t _ h := h.trans (u := t.issueSafeMux) rfl rfl rfl rfl
  pll t l _ h := h.trans (u := t.issuePll l) rfl rfl rfl rfl
  targetMux t l _ h := h.trans (u := t.issueTargetMux l) rfl rfl rfl rfl
  keepLock t w h := h.trans (u := t.keepLock w) rfl rfl rfl rfl
  forceDll t v _ h := h.trans (u := t.forceDll v) rfl rfl rfl rfl
  freeDll t _ h := h.trans (u := t.freeDll) rfl rfl rfl rfl
  markLocked t h := h.trans (u := t.markLocked) rfl rfl rfl rfl

/-- R150, R176: a body ends well or by a timeout, in its frame. -/
theorem transitionBody_quiet {s : State} (h : s.quiet) (f : Word) (o : Origin) :
    ∃ t, BodyFrame s t ∧ ((∃ w, transitionBody f o s = .ok w t) ∨ transitionBody f o s = .error .timeout t) := by
  have hbody := (BodyFrame.passesCalls s).transitionBody (anyBodyEvents s.cfg)
    (fun t l o h => h.trans (u := t.beginBody l o) rfl rfl rfl rfl) f o s (BodyFrame.refl h)
  cases hx : transitionBody f o s with
  | ok w t => rw [hx] at hbody; exact ⟨t, hbody, .inl ⟨w, rfl⟩⟩
  | error e t =>
    rw [hx] at hbody
    cases e with
    | timeout => exact ⟨t, hbody, .inr rfl⟩
    | reset => exact hbody.elim
    | fault f => exact hbody.elim

/-! ### POLICY and TRANSITION (R123, R124) -/

/-- R123, R124: the transition of a command, and its completion. -/
def commandBody (f : Word) : Op Unit := do
  let r ← catchTimeout (transitionBody f .cmd)
  completeTransition r

/-- R9: a frequency of some level. -/
theorem exactFreq_iff {c : Config} {f : Word} : exactFreq c f = true ↔ ∃ p ∈ c.opps, p.freq = f := by
  simp [exactFreq]

theorem transitionOp_known {s : State} {f : Word} (h : exactFreq s.cfg f = true) :
    transitionOp f s = commandBody f (s.setRequest f) :=
  run_get (congrFun (if_pos h) s)

/-- R123: POLICY runs the transition of the highest level at or below its clamped request. -/
theorem policyOp_known {s : State} {f : Word} (h : exactFreq s.cfg f = true) :
    policyOp f s = commandBody (s.cfg.freqAt (floorLevel s.cfg (s.clamp f))) (s.setRequest f) :=
  run_get (congrFun (if_pos h) s)

/-- R272: any other frequency ends the command with code 1. -/
theorem transitionOp_unknown {s : State} {f : Word} (hquiet : s.quiet) (h : ¬ exactFreq s.cfg f = true) :
    transitionOp f s = .ok () (s.completeCmd 1 none) :=
  run_get ((congrFun (if_neg h) s).trans (completeWith_quiet hquiet 1 none))

theorem policyOp_unknown {s : State} {f : Word} (hquiet : s.quiet) (h : ¬ exactFreq s.cfg f = true) :
    policyOp f s = .ok () (s.completeCmd 1 none) :=
  run_get ((congrFun (if_neg h) s).trans (completeWith_quiet hquiet 1 none))

theorem commandBody_of_ok {s t : State} {f w : Word} (h : transitionBody f .cmd s = .ok w t) (ht : t.quiet) :
    commandBody f s = .ok () (t.completeCmd 0 (some w)) :=
  run_bind (catchTimeout_of_ok h) (completeWith_quiet ht 0 (some w))

theorem commandBody_of_timeout {s t : State} {f : Word} (h : transitionBody f .cmd s = .error .timeout t)
    (ht : t.quiet) : commandBody f s = .ok () (t.completeCmd 2 none) :=
  run_bind (catchTimeout_of_timeout h) (completeWith_quiet ht 2 none)

/-- R122, R123, R124: how POLICY and TRANSITION of `f` end: they complete from a state in the frame of a body, with `f`
noted as the request unless the code is 1. -/
inductive RequestEnds (s : State) (f : Word) : State → Prop
  | intro {t : State} {r : Word} {code : BitVec 4} {res : Option Word} (hframe : BodyFrame (s.setRequest r) t)
    (hcode : code = 0 ∨ code = 1 ∨ code = 2) (hrequest : r = f ∨ r = s.lastRequested ∧ code = 1)
    (hres : code ≠ 0 → res = none) : RequestEnds s f (t.completeCmd code res)

theorem RequestEnds.unknown {s : State} (f : Word) (hquiet : s.quiet) : RequestEnds s f (s.completeCmd 1 none) :=
  .intro (r := s.lastRequested) (BodyFrame.refl hquiet) (by decide) (.inr ⟨rfl, rfl⟩) fun _ => rfl

theorem commandBody_quiet {s : State} (f g : Word) (hquiet : s.quiet) :
    ∃ u, commandBody g (s.setRequest f) = .ok () u ∧ RequestEnds s f u := by
  obtain ⟨t, hframe, ⟨w, hbody⟩ | hbody⟩ := transitionBody_quiet (s := s.setRequest f) hquiet g .cmd
  · exact ⟨_, commandBody_of_ok hbody hframe.inputs, .intro hframe (by decide) (.inl rfl) (absurd rfl)⟩
  · exact ⟨_, commandBody_of_timeout hbody hframe.inputs, .intro hframe (by decide) (.inl rfl) fun _ => rfl⟩

theorem transitionOp_quiet {s : State} (f : Word) (hquiet : s.quiet) :
    ∃ u, transitionOp f s = .ok () u ∧ RequestEnds s f u := by
  by_cases h : exactFreq s.cfg f = true
  · exact transitionOp_known h ▸ commandBody_quiet f f hquiet
  · exact ⟨_, transitionOp_unknown hquiet h, .unknown f hquiet⟩

theorem policyOp_quiet {s : State} (f : Word) (hquiet : s.quiet) :
    ∃ u, policyOp f s = .ok () u ∧ RequestEnds s f u := by
  by_cases h : exactFreq s.cfg f = true
  · exact policyOp_known h ▸ commandBody_quiet f _ hquiet
  · exact ⟨_, policyOp_unknown hquiet h, .unknown f hquiet⟩

/-! ### Every command completes (R122) -/

/-- R122: what holds of every completed command. -/
structure Completed (s u : State) : Prop where
  rest : AtRest u
  code : u.err = 0 ∨ u.err = 1 ∨ u.err = 2
  done : u.intStatus.getLsbD 0 = true
  failed : u.err ≠ 0 → u.intStatus.getLsbD 1 = true ∧ u.result = s.result
  slot : u.slot = s.slot

/-- R122: so it is with a completion from a state that has the slot and the result of `s`. -/
theorem Completed.of_completeCmd {s t : State} {code : BitVec 4} {res : Option Word}
    (hcode : code = 0 ∨ code = 1 ∨ code = 2) (hres : code ≠ 0 → res = none) (hslot : t.slot = s.slot)
    (hresult : t.result = s.result) : Completed s (t.completeCmd code res) where
  rest := ⟨rfl, rfl, rfl⟩
  code := hcode
  done := by
    have hbit : (completionBits code).getLsbD 0 = true := by obtain rfl | rfl | rfl := hcode <;> decide
    show (t.intStatus ||| completionBits code).getLsbD 0 = true
    rw [BitVec.getLsbD_or, hbit, Bool.or_true]
  failed hne := by
    have hbit : (completionBits code).getLsbD 1 = true := by
      obtain rfl | rfl | rfl := hcode
      · exact absurd rfl hne
      · decide
      · decide
    refine ⟨?_, ?_⟩
    · show (t.intStatus ||| completionBits code).getLsbD 1 = true
      rw [BitVec.getLsbD_or, hbit, Bool.or_true]
    · rw [hres hne]
      exact hresult
  slot := hslot

theorem RequestEnds.completed {s u : State} {f : Word} (h : RequestEnds s f u) : Completed s u := by
  obtain ⟨hframe, hcode, -, hres⟩ := h
  exact .of_completeCmd hcode hres (by rw [hframe.regs]; rfl) (by rw [hframe.regs]; rfl)

theorem exec_completes (i : Instr) {s : State} (hwf : s.cfg.wf = true) (hquiet : s.quiet) :
    ∃ u, exec i s = .next u ∧ Completed s u := by
  cases i with
  | policy f =>
    obtain ⟨u, hop, hends⟩ := policyOp_quiet f hquiet
    exact ⟨u, runOp_of_ok hwf hop, hends.completed⟩
  | transition f =>
    obtain ⟨u, hop, hends⟩ := transitionOp_quiet f hquiet
    exact ⟨u, runOp_of_ok hwf hop, hends.completed⟩
  | setBounds lo hi =>
    exact ⟨_, setBoundsStoresBounds s lo hi hwf hquiet,
      Completed.of_completeCmd (t := s.setBounds lo hi) (code := 0) (res := none) (by decide) (fun _ => rfl) rfl rfl⟩
  | cold b =>
    obtain ⟨n, polls, code, info1, info2, info3, snap, -, hcode, hop⟩ := coldOp_quiet b hwf hquiet
    exact ⟨_, runOp_of_ok hwf hop, .of_completeCmd (hcode.imp_right .inr) (fun _ => rfl) rfl rfl⟩

/-- Settles O20: command by command, its completion is from a state with the slot and the result it started with. -/
theorem everyCommandCompletes : Obligations.EveryCommandCompletes := by
  intro s i hwf hquiet
  obtain ⟨u, hx, hrest, hcode, hdone, hfailed, hslot⟩ := exec_completes i hwf hquiet
  exact ⟨u, hx, hrest, hcode, hdone, hfailed, hslot⟩

/-! ### The frame of POLICY and TRANSITION -/

/-- R162: a body sets no interrupt bit but WARN, and clears none. -/
theorem BodyFrame.exists_ints {s t : State} (h : BodyFrame s t) :
    ∃ b : BitVec 6, t.intStatus = s.intStatus ||| b ∧ ∀ i, b.getLsbD i = true → i = 5 := by
  obtain hsame | hwarn := h.ints
  · exact ⟨0, hsame.trans BitVec.or_zero.symm, fun i hi => by simp at hi⟩
  · refine ⟨IntBit.warn.mask, hwarn, fun i hi => ?_⟩
    have hlt := BitVec.lt_of_getLsbD hi
    revert hi
    interval_cases i <;> decide

/-- R96, R122: which interrupt bits a command that ran a body leaves set. -/
theorem BodyFrame.completeCmd_ints {s t : State} (h : BodyFrame s t) (code : BitVec 4) (res : Option Word) :
    (∀ i, s.intStatus.getLsbD i = true → (t.completeCmd code res).intStatus.getLsbD i = true) ∧
    ∀ i, (t.completeCmd code res).intStatus.getLsbD i = true →
      s.intStatus.getLsbD i = true ∨ i = 0 ∨ i = 1 ∨ i = 5 := by
  obtain ⟨b, hb, hwarn⟩ := h.exists_ints
  have hints : ∀ i, (t.completeCmd code res).intStatus.getLsbD i =
      (s.intStatus.getLsbD i || b.getLsbD i || (completionBits code).getLsbD i) := fun i => by
    rw [State.completeCmd_intStatus, hb, BitVec.getLsbD_or, BitVec.getLsbD_or]
  refine ⟨fun i hi => by rw [hints, hi]; rfl, fun i hi => ?_⟩
  rw [hints, Bool.or_eq_true, Bool.or_eq_true] at hi
  obtain (hold | hi) | hi := hi
  · exact .inl hold
  · exact .inr (.inr (.inr (hwarn i hi)))
  · exact .inr ((completionBits_getLsbD hi).imp_right .inl)

/-- A command that answers a next state has ended as its operation does. -/
theorem RequestEnds.of_exec {s u : State} {f : Word} (hquiet : s.quiet)
    (h : exec (.transition f) s = .next u ∨ exec (.policy f) s = .next u) : RequestEnds s f u := by
  obtain hx | hx := h
  · obtain ⟨t, hop, hends⟩ := transitionOp_quiet f hquiet
    exact Host.Outcome.next.inj ((runOp_of_ok (wf_of_exec_next hx) hop).symm.trans hx) ▸ hends
  · obtain ⟨t, hop, hends⟩ := policyOp_quiet f hquiet
    exact Host.Outcome.next.inj ((runOp_of_ok (wf_of_exec_next hx) hop).symm.trans hx) ▸ hends

/-- Settles O32: the frame of the body, with the request noted, and what the completion changes. -/
theorem transitionFrame : Obligations.TransitionFrame := by
  intro s u f hquiet hx
  obtain ⟨hframe, -, hrequest, hres⟩ := RequestEnds.of_exec hquiet hx
  obtain ⟨hset, honly⟩ := hframe.completeCmd_ints _ _
  have hreplies := hframe.replies
  rw [hframe.regs] at hset honly hreplies ⊢
  refine ⟨rfl, rfl, rfl, rfl, rfl, rfl, rfl, rfl, rfl, rfl, rfl, rfl, rfl, rfl, rfl, rfl, hset, honly, hrequest,
    fun hne => ?_, hreplies⟩
  rw [hres hne]
  rfl

end Sys2Proof.Machine
end

section
/-! SUPPORT. A body does not see LAST_REQ (spec/10_state.md R29): two bodies from states that differ in it alone end
alike, so POLICY is the TRANSITION of its clamped request (spec/40_commands.md R123, R124); and a body to the level in
force (spec/41_transition_engine.md R152). -/

namespace Sys2Proof.Machine

/-! ### Two states that differ in LAST_REQ -/

/-- Nothing comes from outside, and the states differ in LAST_REQ at most, which is `f` in the second. -/
def SameButRequest (f : Word) (s t : State) : Prop := s.quiet ∧ t = s.setRequest f

/-- A state function that takes in no input, and neither reads nor writes LAST_REQ. -/
def IgnoresRequest (f : Word) (g : State → State) : Prop :=
  ∀ s, g (s.setRequest f) = (g s).setRequest f ∧ (g s).env.inputs = s.env.inputs

namespace SameButRequest

variable {α : Type} {f : Word}

/-- Reading the state, of an operation that asks nothing of LAST_REQ. -/
theorem read {k : State → Op α} (hk : ∀ s, k (s.setRequest f) = k s) (hop : ∀ s, Alike (SameButRequest f) (k s)) :
    Alike (SameButRequest f) (get >>= k) := by
  rintro s _ ⟨hquiet, rfl⟩
  show SameEnd _ (k s s) (k (s.setRequest f) (s.setRequest f))
  rw [hk]
  exact hop s _ _ ⟨hquiet, rfl⟩

theorem modify {g : State → State} (hg : IgnoresRequest f g) : Alike (SameButRequest f) (modify g : Op Unit) := by
  rintro s _ ⟨hquiet, rfl⟩
  exact .ok () ⟨(hg s).2.trans hquiet, (hg s).1⟩

theorem awaitTurn : Alike (SameButRequest f) awaitTurn := by
  rintro s _ ⟨hquiet, rfl⟩
  rw [awaitTurn_quiet hquiet, awaitTurn_quiet (s := s.setRequest f) hquiet]
  exact .ok () ⟨hquiet, rfl⟩

theorem act {g : State → State} (hg : IgnoresRequest f g) : Alike (SameButRequest f) (act g) :=
  awaitTurn.bind fun _ => modify hg

theorem goTo (x : SeqStep) : Alike (SameButRequest f) (goTo x) := modify fun _ => ⟨rfl, rfl⟩

theorem memWrite (w : Window) (off : Nat) (v : Word) : Alike (SameButRequest f) (memWrite w off v) :=
  act fun _ => ⟨rfl, rfl⟩

theorem memRead (w : Window) (off : Nat) : Alike (SameButRequest f) (memRead w off) := by
  refine awaitTurn.bind fun _ => ?_
  rintro s _ ⟨hquiet, rfl⟩
  have hread : (s.setRequest f).outRead w off = ((s.outRead w off).1, (s.outRead w off).2.setRequest f) := by
    have howed : (s.setRequest f).owedWord w off = s.owedWord w off := rfl
    unfold State.outRead
    rw [howed]
    cases s.owedWord w off <;> rfl
  show SameEnd _ (.ok (s.outRead w off).1 (s.outRead w off).2) (.ok ((s.setRequest f).outRead w off).1
    ((s.setRequest f).outRead w off).2)
  rw [hread]
  exact .ok _ ⟨(s.outRead_inputs w off).trans hquiet, rfl⟩

theorem pollSignal (sig : Signal) : Alike (SameButRequest f) (pollSignal sig) := by
  refine awaitTurn.bind fun _ => ?_
  rintro s _ ⟨hquiet, rfl⟩
  exact .ok (s.outPoll sig).1 ⟨(s.outPoll_inputs sig).trans hquiet, rfl⟩

/-! ### The bounded waits (R153) -/

theorem timedOut (sig : Signal) (crit : Bool) (arg : Byte) (snap : Word) :
    Alike (SameButRequest f) (timedOut sig crit arg snap) := by
  refine Alike.bind (modify fun _ => ⟨rfl, rfl⟩) fun _ => Alike.ite (fun _ _ h => .stop _ (.inl h)) ?_
  exact Alike.bind (modify fun _ => ⟨rfl, rfl⟩) fun _ => Alike.pure _

theorem pollLoop (sig : Signal) (n : Nat) : ∀ k, Alike (SameButRequest f) (pollLoop sig n k) := by
  induction n with
  | zero => exact fun _ => Alike.pure _
  | succ n ih =>
    exact fun k => Alike.bind (modify fun _ => ⟨rfl, rfl⟩) fun _ => (pollSignal sig).bind fun _ =>
      Alike.ite (Alike.pure _) (ih (k + 1))

theorem waitSig (sig : Signal) (crit : Bool) (arg : Byte) : Alike (SameButRequest f) (waitSig sig crit arg) :=
  read (fun _ => rfl) fun s => (pollLoop sig s.cfg.waitMax 1).bind fun _ =>
    Alike.ite (Alike.pure _) (timedOut sig crit arg 0)

theorem readLoop (w : Window) (off : Nat) (mask : Word) (n : Nat) :
    ∀ k, Alike (SameButRequest f) (readLoop w off mask n k) := by
  induction n with
  | zero => exact fun _ => Alike.pure _
  | succ n ih =>
    exact fun k => Alike.bind (modify fun _ => ⟨rfl, rfl⟩) fun _ => (memRead w off).bind fun _ =>
      Alike.bind (modify fun _ => ⟨rfl, rfl⟩) fun _ => Alike.ite (Alike.pure _) (ih (k + 1))

theorem waitReg (w : Window) (off : Nat) (mask : Word) (sig : Signal) (crit : Bool) (arg : Byte) :
    Alike (SameButRequest f) (waitReg w off mask sig crit arg) :=
  read (fun _ => rfl) fun s => (readLoop w off mask s.cfg.waitMax 1).bind fun _ =>
    Alike.ite (Alike.pure _) (read (fun _ => rfl) fun u => timedOut sig crit arg u.lastWord)

/-! ### The Transition Engine (R150 to R174) -/

theorem setVolt (v : Word) : Alike (SameButRequest f) (setVolt v) :=
  Alike.bind (act fun _ => ⟨rfl, rfl⟩) fun _ => (waitSig _ _ _).bind fun _ => Alike.pure _

theorem arefWrite : Alike (SameButRequest f) arefWrite := (goTo _).bind fun _ => act fun _ => ⟨rfl, rfl⟩

theorem dllCapture : Alike (SameButRequest f) dllCapture :=
  (goTo _).bind fun _ => read (fun _ => rfl) fun _ => (memRead _ _).bind fun _ =>
    Alike.bind (modify fun _ => ⟨rfl, rfl⟩) fun _ => act fun _ => ⟨rfl, rfl⟩

theorem writeWords (offs : List Nat) : ∀ vs, Alike (SameButRequest f) (writeWords offs vs) := by
  induction offs with
  | nil => exact fun _ => Alike.pure _
  | cons off offs ih =>
    intro vs
    cases vs with
    | nil => exact Alike.pure _
    | cons v vs => exact (memWrite _ _ _).bind fun _ => ih vs

theorem writeTiming (l : Level) : Alike (SameButRequest f) (writeTiming l) :=
  read (fun _ => rfl) fun _ => (memRead _ _).bind fun _ => (writeWords _ _).bind fun _ => memWrite _ _ _

theorem repoint (first : Bool) (t : Level) (m src : Byte) : Alike (SameButRequest f) (repoint first t m src) :=
  Alike.bind (act fun _ => ⟨rfl, rfl⟩) fun _ => read (fun _ => rfl) fun _ => (waitSig _ _ _).bind fun _ => Alike.pure _

theorem setDiv (first : Bool) (t : Level) : Alike (SameButRequest f) (setDiv first t) :=
  read (fun _ => rfl) fun _ => Alike.bind (act fun _ => ⟨rfl, rfl⟩) fun _ => (waitSig _ _ _).bind fun _ => Alike.pure _

theorem repointAll (t : Level) (plan : List (Byte × Byte)) :
    ∀ first, Alike (SameButRequest f) (repointAll first t plan) := by
  induction plan with
  | nil => exact fun _ => Alike.pure _
  | cons p rest ih => exact fun _ => (repoint _ _ _ _).bind fun _ => ih false

theorem clockChange (o t : Level) : Alike (SameButRequest f) (clockChange o t) := by
  refine read (fun _ => rfl) fun s => ?_
  cases s.cfg.switchOrder o t with
  | muxThenDiv => exact (repointAll _ _ _).bind fun _ => setDiv _ _
  | divThenMux => exact (setDiv _ _).bind fun _ => repointAll _ _ _

theorem simplePath (o t : Level) (u : Bool) : Alike (SameButRequest f) (simplePath o t u) := by
  cases u with
  | false => exact (goTo _).bind fun _ => (clockChange o t).bind fun _ => (goTo _).bind fun _ => writeTiming t
  | true =>
    exact ((goTo _).bind fun _ => writeTiming t).bind fun _ => (goTo _).bind fun _ =>
      (clockChange o t).bind fun _ => Alike.pure _

theorem pssWait (x : SeqStep) : Alike (SameButRequest f) (pssWait x) :=
  (goTo x).bind fun _ => (waitSig _ _ _).bind fun _ => Alike.pure _

theorem pllSafeSwitch (t : Level) : Alike (SameButRequest f) (pllSafeSwitch t) := by
  have hsafeMux : Alike (SameButRequest f) pssSafeMux := (goTo _).bind fun _ => act fun _ => ⟨rfl, rfl⟩
  have hsafeTiming : Alike (SameButRequest f) pssSafeTiming :=
    (goTo _).bind fun _ => read (fun _ => rfl) fun _ => writeTiming _
  have hreprogram : Alike (SameButRequest f) (pssReprogram t) := (goTo _).bind fun _ =>
    Alike.bind (act fun _ => ⟨rfl, rfl⟩) fun _ => (waitSig _ _ _).bind fun _ => Alike.pure _
  have htargetMux : Alike (SameButRequest f) (pssTargetMux t) := (goTo _).bind fun _ => act fun _ => ⟨rfl, rfl⟩
  exact hsafeMux.bind fun _ => hsafeTiming.bind fun _ => (pssWait _).bind fun _ => hreprogram.bind fun _ =>
    ((goTo _).bind fun _ => writeTiming t).bind fun _ => htargetMux.bind fun _ => pssWait _

theorem dllPost (t : Level) : Alike (SameButRequest f) (dllPost t) := by
  refine (goTo _).bind fun _ => read (fun _ => rfl) fun s => Alike.ite ?_ ?_
  · exact Alike.bind (act fun _ => ⟨rfl, rfl⟩) fun _ => (waitReg _ _ _ _ _ _).bind fun _ => modify fun _ => ⟨rfl, rfl⟩
  · exact act fun _ => ⟨rfl, rfl⟩

theorem voltageStep (x : SeqStep) (t : Level) : Alike (SameButRequest f) (voltageStep x t) :=
  (goTo x).bind fun _ => read (fun _ => rfl) fun _ => setVolt _

theorem changeLevel (o t : Level) : Alike (SameButRequest f) (changeLevel o t) := by
  have hclock : ∀ u, Alike (SameButRequest f) (clockPath o t u) := fun u =>
    read (fun _ => rfl) fun _ => Alike.ite (pllSafeSwitch t) (simplePath o t u)
  have hend : ∀ u : Bool, Alike (SameButRequest f) (do
      clockPath o t u; Machine.dllPost t; Machine.arefWrite; if !u then Machine.voltageStep .voltDown t) :=
    fun u => (hclock u).bind fun _ => (dllPost t).bind fun _ => arefWrite.bind fun _ =>
      Alike.ite (voltageStep _ _) (Alike.pure _)
  refine read (fun _ => rfl) fun s => ?_
  cases s.needsCapture t <;> cases goesUp s.cfg o t
  · exact hend false
  · exact (voltageStep _ _).bind fun _ => hend true
  · exact dllCapture.bind fun _ => hend false
  · exact dllCapture.bind fun _ => (voltageStep _ _).bind fun _ => hend true

theorem transitionBody (g : Word) (o : Origin) : Alike (SameButRequest f) (transitionBody g o) := by
  have hresolve : Alike (SameButRequest f) (resolveTarget g o) := (goTo _).bind fun _ => read (fun _ => rfl) fun _ =>
    Alike.bind (modify fun _ => ⟨rfl, rfl⟩) fun _ => Alike.pure _
  have hmove : ∀ t, Alike (SameButRequest f) (moveTo t) := fun t =>
    read (fun _ => rfl) fun _ => Alike.ite arefWrite (changeLevel _ t)
  exact hresolve.bind fun t => (hmove t).bind fun _ => read (fun _ => rfl) fun _ => Alike.pure _

theorem commandBody (g : Word) : Alike (SameButRequest f) (commandBody g) := by
  refine (transitionBody g .cmd).catchTimeout.bind fun r => ?_
  cases r <;> exact act fun _ => ⟨rfl, rfl⟩

end SameButRequest

/-! ### POLICY as a TRANSITION (R123, R124) -/

theorem exec_transition_known {s u : State} {f : Word} (hwf : s.cfg.wf = true) (h : ∃ p ∈ s.cfg.opps, p.freq = f)
    (hop : commandBody f (s.setRequest f) = .ok () u) : exec (.transition f) s = .next u :=
  runOp_of_ok hwf ((transitionOp_known (exactFreq_iff.2 h)).trans hop)

theorem exec_policy_known {s u : State} {f : Word} (hwf : s.cfg.wf = true) (h : ∃ p ∈ s.cfg.opps, p.freq = f)
    (hop : commandBody (s.cfg.freqAt (floorLevel s.cfg (s.clamp f))) (s.setRequest f) = .ok () u) :
    exec (.policy f) s = .next u :=
  runOp_of_ok hwf ((policyOp_known (exactFreq_iff.2 h)).trans hop)

/-- R9: the level found has an entry in the table. -/
theorem exists_freqAt_floorLevel {c : Config} (hwf : c.wf = true) (v : Word) :
    ∃ p ∈ c.opps, p.freq = c.freqAt (floorLevel c v) :=
  ⟨_, List.getElem_mem (floorLevel_lt hwf v), (Config.freqAt_eq_getElem (floorLevel_lt hwf v)).symm⟩

/-- Settles O28: both run the body of the clamped request, from states that differ in LAST_REQ alone. -/
theorem policyIsTheClampedTransition : Obligations.PolicyIsTheClampedTransition := by
  intro s f hwf hquiet hf
  generalize hg : s.cfg.freqAt (floorLevel s.cfg (s.clamp f)) = g
  obtain ⟨t, hop, -⟩ := commandBody_quiet g g hquiet
  have hsame := SameButRequest.commandBody (f := f) g (s.setRequest g) (s.setRequest f) ⟨hquiet, rfl⟩
  rw [hop] at hsame
  obtain ⟨u, hu, hend⟩ : ∃ u, commandBody g (s.setRequest f) = .ok () u ∧ SameButRequest f t u := by
    cases hx : commandBody g (s.setRequest f) with
    | ok _ u => rw [hx] at hsame; cases hsame; exact ⟨u, rfl, ‹_›⟩
    | error e u => rw [hx] at hsame; cases hsame
  obtain ⟨-, rfl⟩ := hend
  exact ⟨t, exec_transition_known hwf (hg ▸ exists_freqAt_floorLevel hwf _) hop,
    exec_policy_known hwf hf (hg ▸ hu)⟩

/-! ### The level in force (R152) -/

theorem arefWrite_quiet {s : State} (h : s.quiet) : arefWrite s = .ok () (s.setStep .arefWrite).writeAref :=
  run_modify (act_quiet (s := s.setStep .arefWrite) h _)

theorem moveTo_current {s : State} (h : s.quiet) :
    moveTo s.currentLevel s = .ok () (s.setStep .arefWrite).writeAref :=
  run_get ((congrFun (if_pos rfl) s).trans (arefWrite_quiet h))

/-- R152, R181: a body that resolves to the level in force writes the refresh word, and nothing else goes out. -/
theorem transitionBody_of_current {s : State} {f : Word} (hquiet : s.quiet) (h : s.resolve f = s.currentLevel)
    (o : Origin) : transitionBody f o s = .ok (s.cfg.freqAt s.currentLevel)
      (((s.setStep .resolve).beginBody s.currentLevel o).setStep .arefWrite).writeAref := by
  have hresolve : resolveTarget f o s = .ok s.currentLevel ((s.setStep .resolve).beginBody s.currentLevel o) := by
    have hstep : (s.setStep .resolve).resolve f = s.currentLevel := h
    rw [← hstep]
    rfl
  exact run_bind hresolve
    (run_bind (moveTo_current (s := (s.setStep .resolve).beginBody s.currentLevel o) hquiet) rfl)

/-- Settles O26: the body of the level in force, and its completion. -/
theorem transitionToTheCurrentLevel : Obligations.TransitionToTheCurrentLevel := fun s f hwf hquiet hf h =>
  exec_transition_known hwf hf
    (commandBody_of_ok (transitionBody_of_current (s := s.setRequest f) hquiet h .cmd) hquiet)

/-- Settles O27: as POLICY is its clamped TRANSITION (O28), which is to the level in force (O26). -/
theorem policyToTheCurrentLevel : Obligations.PolicyToTheCurrentLevel := by
  intro s f hwf hquiet hf h
  obtain ⟨t, htransition, hpolicy⟩ := policyIsTheClampedTransition s f hwf hquiet hf
  have hcurrent := transitionToTheCurrentLevel s _ hwf hquiet (exists_freqAt_floorLevel hwf _) h
  obtain rfl := Host.Outcome.next.inj (htransition.symm.trans hcurrent)
  exact hpolicy

end Sys2Proof.Machine
end

section
/-! SUPPORT. A level change under a script of answers that favours it (spec/41_transition_engine.md R150 to R175): every
wait sees its signal at the first attempt, so the body reaches its end, and the domain's registers are the target's. -/

namespace Sys2Proof.Machine

/-! ### Operations that end well -/

/-- From P the operation ends well, in a state with Q. -/
abbrev Leads {α : Type} (P : State → Prop) (op : Op α) (Q : State → Prop) : Prop :=
  Triple P op (fun _ => Q) fun _ _ => False

section

variable {α β : Type} {P Q R : State → Prop}

theorem Leads.bind {op : Op α} {k : α → Op β} (h : Leads P op Q) (hk : ∀ a, Leads Q (k a) R) : Leads P (op >>= k) R :=
  Triple.bind h hk

theorem Leads.pure (a : α) : Leads P (pure a : Op α) P := Triple.pure fun _ h => h

theorem Leads.get {k : State → Op α} (h : ∀ s, P s → Leads P (k s) R) : Leads P (get >>= k) R :=
  fun s hs => h s hs s hs

theorem Leads.run {op : Op α} (h : Leads P op Q) {s : State} (hs : P s) : ∃ a t, op s = .ok a t ∧ Q t := by
  have hend := h s hs
  cases hop : op s with
  | ok a t => rw [hop] at hend; exact ⟨a, t, rfl, hend⟩
  | error e t => rw [hop] at hend; exact hend.elim

end

/-! ### The registers and the script -/

/-- The registers of the domain that a level change sets (R22, R23, R25, R28). -/
structure DomainRegs where
  level : Level
  voltage : Word
  pll : Word
  forced : Bool
  locked : Bool

/-- Their values in a state. -/
def State.domainRegs (s : State) : DomainRegs where
  level := s.currentLevel
  voltage := s.currentVoltage
  pll := s.pllCur
  forced := s.dllForced
  locked := s.dllLocked

/-- R150: the registers of the domain after a level change from a state to `t`. -/
def State.targetRegs (s : State) (t : Level) : DomainRegs where
  level := t
  voltage := s.voltageFor t
  pll := if t = s.cfg.safeLevel then s.pllCur else s.cfg.pllAt t
  forced := decide (t ≠ s.cfg.dllFreeLevel)
  locked := decide (t = s.cfg.dllFreeLevel)

/-- The actions from `s` to `t` are a body's, drew no answer and set no interrupt bit. -/
structure Silent (s t : State) : Prop where
  regs : t = s.moved t
  inputs : t.env.inputs = s.env.inputs
  replies : t.env.replies = s.env.replies
  ints : t.intStatus = s.intStatus
  polls : t.env.pollAnswers = s.env.pollAnswers
  reads : t.env.readAnswers = s.env.readAnswers

/-- In a body from `s0`, with no wait missed so far: so many answers to polls and to reads are still scripted at least,
every one favourable, and the domain's registers are `d`. -/
structure OnScript (s0 : State) (polls reads : Nat) (d : DomainRegs) (s : State) : Prop where
  frame : BodyFrame s0 s
  ints : s.intStatus = s0.intStatus
  polls : polls ≤ s.env.pollAnswers.length
  pollsTrue : ∀ b ∈ s.env.pollAnswers, b = true
  reads : reads ≤ s.env.readAnswers.length
  readsLocked : ∀ w ∈ s.env.readAnswers, w &&& s0.cfg.dllLockMask = s0.cfg.dllLockMask
  regs : s.domainRegs = d

variable {s0 : State} {p r : Nat} {d : DomainRegs}

namespace OnScript

theorem step {s t : State} {d' : DomainRegs} (h : OnScript s0 p r d s) (hs : Silent s t) (hregs : t.domainRegs = d') :
    OnScript s0 p r d' t where
  frame := h.frame.trans hs.regs hs.inputs hs.replies hs.ints
  ints := hs.ints.trans h.ints
  polls := hs.polls ▸ h.polls
  pollsTrue := hs.polls ▸ h.pollsTrue
  reads := hs.reads ▸ h.reads
  readsLocked := hs.reads ▸ h.readsLocked
  regs := hregs

theorem mono {s : State} {p' r' : Nat} (h : OnScript s0 p r d s) (hp : p' ≤ p) (hr : r' ≤ r) : OnScript s0 p' r' d s :=
  { h with polls := hp.trans h.polls, reads := hr.trans h.reads }

/-- Fewer answers are enough where an operation needs fewer. -/
theorem weaken {α : Type} {op : Op α} {p' r' : Nat} {Q : State → Prop} (h : Leads (OnScript s0 p' r' d) op Q)
    (hp : p' ≤ p) (hr : r' ≤ r) : Leads (OnScript s0 p r d) op Q :=
  fun s hs => h s (hs.mono hp hr)

/-- R9: the target's voltage is the same throughout a body. -/
theorem voltageFor {s : State} (h : OnScript s0 p r d s) (t : Level) : s.voltageFor t = s0.voltageFor t := by
  rw [h.frame.regs]; rfl

/-! ### The sequencer's primitives -/

theorem turn : Turn (OnScript s0 p r d) fun _ _ => False := Turn.of_quiet fun _ h => h.frame.inputs

theorem goTo (x : SeqStep) : Leads (OnScript s0 p r d) (goTo x) (OnScript s0 p r d) :=
  Triple.modify fun s h => h.step (t := s.setStep x) ⟨rfl, rfl, rfl, rfl, rfl, rfl⟩ h.regs

theorem act {f : State → State} (d' : DomainRegs) (hs : ∀ s, Silent s (f s))
    (hregs : ∀ s, s.cfg = s0.cfg → s.domainRegs = d → (f s).domainRegs = d') :
    Leads (OnScript s0 p r d) (act f) (OnScript s0 p r d') :=
  Triple.act turn fun s h => h.step (hs s) (hregs s h.frame.cfg h.regs)

theorem memWrite (w : Window) (off : Nat) (v : Word) :
    Leads (OnScript s0 p r d) (memWrite w off v) (OnScript s0 p r d) :=
  act d (fun _ => ⟨rfl, rfl, rfl, rfl, rfl, rfl⟩) fun _ _ h => h

/-- R66: a read uses up one answer at most. -/
theorem outRead {s : State} (h : OnScript s0 p (r + 1) d s) (w : Window) (off : Nat) :
    OnScript s0 p r d (s.outRead w off).2 := by
  have hanswers : (s.outRead w off).2.env.pollAnswers = s.env.pollAnswers ∧
      ((s.outRead w off).2.env.readAnswers = s.env.readAnswers ∨
        (s.outRead w off).2.env.readAnswers = s.env.readAnswers.tail) := by
    unfold State.outRead
    split
    · exact ⟨rfl, .inl rfl⟩
    · cases hread : s.env.readAnswers <;> simp [Env.drawWord, hread]
  obtain ⟨hpolls, hreads⟩ := hanswers
  have hlength := h.reads
  exact {
    frame := h.frame.trans (by rw [s.outRead_state]; rfl) (by simp) (s.outRead_replies w off) (by simp)
    ints := (s.outRead_intStatus w off).trans h.ints
    polls := hpolls ▸ h.polls
    pollsTrue := hpolls ▸ h.pollsTrue
    reads := by
      obtain hreads | hreads := hreads <;> rw [hreads]
      · omega
      · rw [List.length_tail]; omega
    readsLocked := by
      obtain hreads | hreads := hreads <;> rw [hreads]
      · exact h.readsLocked
      · exact fun v hv => h.readsLocked v (List.mem_of_mem_tail hv)
    regs := Eq.trans (by simp [State.domainRegs]) h.regs }

/-- R66: a read that no word is owed to answers with the lock-detect bits set. -/
theorem outRead_locked {s : State} (h : OnScript s0 p (r + 1) d s) {w : Window} {off : Nat}
    (howed : s.owedWord w off = none) : (s.outRead w off).1 &&& s0.cfg.dllLockMask = s0.cfg.dllLockMask := by
  have hreads := h.reads
  rw [State.outRead_of_not_owed howed]
  cases hread : s.env.readAnswers with
  | nil => rw [hread] at hreads; cases hreads
  | cons v rest =>
    rw [Env.drawWord, hread]
    exact h.readsLocked v (hread ▸ List.mem_cons_self)

theorem memRead (w : Window) (off : Nat) :
    Leads (OnScript s0 p (r + 1) d) (memRead w off) (OnScript s0 p r d) :=
  Triple.memRead turn fun _ h => h.outRead w off

/-- R67: the next poll answers true. -/
theorem pollAnswer {s : State} (h : OnScript s0 (p + 1) r d s) : s.pollAnswer 0 = true := by
  have hpolls := h.polls
  unfold State.pollAnswer
  cases hpoll : s.env.pollAnswers with
  | nil => rw [hpoll] at hpolls; cases hpolls
  | cons b rest => exact h.pollsTrue b (hpoll ▸ List.mem_cons_self)

/-- R153: a signal wait is over at its first attempt. -/
theorem waitSig (hwf : s0.cfg.wf = true) (sig : Signal) (crit : Bool) (arg : Byte) :
    Leads (OnScript s0 (p + 1) r d) (waitSig sig crit arg) (OnScript s0 p r d) := by
  intro s h
  have hbudget : 0 < s.cfg.waitMax := h.frame.cfg ▸ (Config.wf_engine hwf).1
  rw [waitSig_seen h.frame.inputs hbudget h.pollAnswer (fun j hj => absurd hj (Nat.not_lt_zero j))]
  exact {
    frame := h.frame.trans (u := s.polled 1 [.poll sig true]) rfl rfl rfl rfl
    ints := h.ints
    polls := by
      have hpolls := h.polls
      show p ≤ (s.env.pollAnswers.drop 1).length
      rw [List.length_drop]
      omega
    pollsTrue := fun b hb => h.pollsTrue b (List.mem_of_mem_drop hb)
    reads := h.reads
    readsLocked := h.readsLocked
    regs := h.regs }

/-- R153, R172: so is the wait for the lock-detect bits, where the status word is not owed back. -/
theorem waitLocked (hwf : s0.cfg.wf = true) (hapart : s0.cfg.offDllStat ≠ s0.cfg.offDllCtrl) :
    Leads (OnScript s0 p (r + 1) d) (waitReg .phy s0.cfg.offDllStat s0.cfg.dllLockMask .dllLocked true 0)
      (OnScript s0 p r d) := by
  intro s h
  have hstart : OnScript s0 p (r + 1) d { s with attempt := 1 } := h.step ⟨rfl, rfl, rfl, rfl, rfl, rfl⟩ h.regs
  have howed : ({ s with attempt := 1 } : State).owedWord .phy s0.cfg.offDllStat = none := by
    simp [State.owedWord, h.frame.cfg, hapart]
  obtain ⟨v, u, hread, hu, hlocked⟩ : ∃ v u,
      Machine.memRead .phy s0.cfg.offDllStat { s with attempt := 1 } = .ok v u ∧ OnScript s0 p r d u ∧
        v &&& s0.cfg.dllLockMask = s0.cfg.dllLockMask :=
    ⟨_, _, run_bind (awaitTurn_quiet hstart.frame.inputs) rfl, hstart.outRead _ _, hstart.outRead_locked howed⟩
  have hloop : ∀ n, readLoop .phy s0.cfg.offDllStat s0.cfg.dllLockMask (n + 1) 1 s =
      .ok true { u with lastWord := v } := fun n =>
    run_modify (run_bind hread (run_modify (congrFun (if_pos hlocked) _)))
  obtain ⟨n, hn⟩ := Nat.exists_eq_add_of_le' (Config.wf_engine hwf).1
  have hwait : waitReg .phy s0.cfg.offDllStat s0.cfg.dllLockMask .dllLocked true 0 s = .ok true _ :=
    run_get (by rw [h.frame.cfg, hn]; exact run_bind (hloop n) rfl)
  rw [hwait]
  exact hu.step ⟨rfl, rfl, rfl, rfl, rfl, rfl⟩ hu.regs

/-! ### The Transition Engine (R150 to R174) -/

theorem setVolt (hwf : s0.cfg.wf = true) (v : Word) :
    Leads (OnScript s0 (p + 1) r d) (setVolt v) (OnScript s0 p r { d with voltage := v }) :=
  Leads.bind (act _ (fun _ => ⟨rfl, rfl, rfl, rfl, rfl, rfl⟩) fun _ _ h => h ▸ rfl) fun _ =>
    (waitSig hwf _ _ _).bind fun _ => Leads.pure _

theorem voltageStep (hwf : s0.cfg.wf = true) (x : SeqStep) (t : Level) :
    Leads (OnScript s0 (p + 1) r d) (voltageStep x t) (OnScript s0 p r { d with voltage := s0.voltageFor t }) :=
  (goTo x).bind fun _ => Leads.get fun _ h => h.voltageFor t ▸ setVolt hwf _

theorem arefWrite : Leads (OnScript s0 p r d) arefWrite (OnScript s0 p r d) :=
  (goTo _).bind fun _ => act d (fun _ => ⟨rfl, rfl, rfl, rfl, rfl, rfl⟩) fun _ _ h => h

theorem forceDll (v : State → Word) : Leads (OnScript s0 p r d) (Machine.act fun s => s.forceDll (v s))
    (OnScript s0 p r { d with forced := true, locked := false }) :=
  act _ (fun _ => ⟨rfl, rfl, rfl, rfl, rfl, rfl⟩) fun _ _ h => h ▸ rfl

theorem dllCapture : Leads (OnScript s0 p (r + 1) d) dllCapture
    (OnScript s0 p r { d with forced := true, locked := false }) :=
  (goTo _).bind fun _ => Leads.get fun _ _ => (memRead _ _).bind fun w =>
    Leads.bind (Q := OnScript s0 p r d)
      (Triple.modify fun s h => h.step (t := s.keepLock w) ⟨rfl, rfl, rfl, rfl, rfl, rfl⟩ h.regs)
      fun _ => forceDll _

theorem writeWords (offs : List Nat) : ∀ vs, Leads (OnScript s0 p r d) (writeWords offs vs) (OnScript s0 p r d) := by
  induction offs with
  | nil => exact fun _ => Leads.pure _
  | cons off offs ih =>
    intro vs
    cases vs with
    | nil => exact Leads.pure _
    | cons v vs => exact (memWrite _ _ _).bind fun _ => ih vs

theorem writeTiming (l : Level) : Leads (OnScript s0 p (r + 1) d) (writeTiming l) (OnScript s0 p r d) :=
  Leads.get fun _ _ => (memRead _ _).bind fun _ => (writeWords _ _).bind fun _ => memWrite _ _ _

/-- R164: a clock call; the first one commands the target level. -/
theorem clockCall (first : Bool) (t : Level) (q : Prim) : Leads (OnScript s0 p r d) (clockCall first t q)
    (OnScript s0 p r { d with level := if first then t else d.level }) :=
  act _ (fun _ => ⟨rfl, rfl, rfl, rfl, rfl, rfl⟩) fun _ _ h => h ▸ rfl

theorem repoint (hwf : s0.cfg.wf = true) (first : Bool) (t : Level) (m src : Byte) :
    Leads (OnScript s0 (p + 1) r d) (repoint first t m src)
      (OnScript s0 p r { d with level := if first then t else d.level }) :=
  (clockCall _ _ _).bind fun _ => Leads.get fun _ _ => (waitSig hwf _ _ _).bind fun _ => Leads.pure _

theorem setDiv (hwf : s0.cfg.wf = true) (first : Bool) (t : Level) : Leads (OnScript s0 (p + 1) r d) (setDiv first t)
    (OnScript s0 p r { d with level := if first then t else d.level }) :=
  Leads.get fun _ _ => (clockCall _ _ _).bind fun _ => (waitSig hwf _ _ _).bind fun _ => Leads.pure _

/-- R161: the calls after the first. -/
theorem repointAll (hwf : s0.cfg.wf = true) (t : Level) (plan : List (Byte × Byte)) :
    Leads (OnScript s0 (p + plan.length) r d) (repointAll false t plan) (OnScript s0 p r d) := by
  induction plan with
  | nil => exact Leads.pure _
  | cons q rest ih => exact (repoint hwf false t q.1 q.2).bind fun _ => ih

/-- R161: with the divider's call or the first of the plan, the level is the target. -/
theorem clockChange (hwf : s0.cfg.wf = true) (o t : Level) :
    Leads (OnScript s0 (p + 1 + (s0.cfg.opp t).planMux.length) r d) (clockChange o t)
      (OnScript s0 p r { d with level := t }) := by
  refine Leads.get fun s h => ?_
  rw [h.frame.cfg]
  cases s0.cfg.switchOrder o t with
  | divThenMux =>
    rw [Nat.add_right_comm]
    exact (setDiv hwf true t).bind fun _ => repointAll hwf t _
  | muxThenDiv =>
    cases (s0.cfg.opp t).planMux with
    | nil => exact (Leads.pure _).bind fun _ => setDiv hwf true t
    | cons q rest =>
      exact (Leads.bind (repoint hwf true t q.1 q.2) fun _ => repointAll hwf t rest).bind fun _ => setDiv hwf false t

theorem simplePath (hwf : s0.cfg.wf = true) (o t : Level) (u : Bool) :
    Leads (OnScript s0 (p + 1 + (s0.cfg.opp t).planMux.length) (r + 1) d) (simplePath o t u)
      (OnScript s0 p r { d with level := t }) := by
  cases u with
  | false =>
    exact (goTo _).bind fun _ => (clockChange hwf o t).bind fun _ => (goTo _).bind fun _ => writeTiming t
  | true =>
    exact ((goTo _).bind fun _ => writeTiming t).bind fun _ => (goTo _).bind fun _ =>
      (clockChange hwf o t).bind fun _ => Leads.pure _

theorem pssWait (hwf : s0.cfg.wf = true) (x : SeqStep) :
    Leads (OnScript s0 (p + 1) r d) (pssWait x) (OnScript s0 p r d) :=
  (goTo x).bind fun _ => (waitSig hwf _ _ _).bind fun _ => Leads.pure _

/-- R165 to R171: the level is the safe one in between, and the target in the end; the PLL is the target's. -/
theorem pllSafeSwitch (hwf : s0.cfg.wf = true) (t : Level) : Leads (OnScript s0 (p + 3) (r + 2) d) (pllSafeSwitch t)
    (OnScript s0 p r { d with level := t, pll := s0.cfg.pllAt t }) := by
  have hsafe : Leads (OnScript s0 (p + 3) (r + 2) d) pssSafeMux
      (OnScript s0 (p + 3) (r + 2) { d with level := s0.cfg.safeLevel }) :=
    (goTo _).bind fun _ => act _ (fun _ => ⟨rfl, rfl, rfl, rfl, rfl, rfl⟩) fun s hc h => by rw [← h, ← hc]; rfl
  have hpll : ∀ {d' : DomainRegs}, Leads (OnScript s0 (p + 2) (r + 1) d') (pssReprogram t)
      (OnScript s0 (p + 1) (r + 1) { d' with pll := s0.cfg.pllAt t }) := fun {d'} =>
    (goTo _).bind fun _ => Leads.bind
      (act { d' with pll := s0.cfg.pllAt t } (fun _ => ⟨rfl, rfl, rfl, rfl, rfl, rfl⟩)
        fun s hc h => by rw [← h, ← hc]; rfl)
      fun _ => (waitSig hwf _ _ _).bind fun _ => Leads.pure _
  have htarget : ∀ {d' : DomainRegs}, Leads (OnScript s0 (p + 1) r d') (pssTargetMux t)
      (OnScript s0 (p + 1) r { d' with level := t }) :=
    (goTo _).bind fun _ => act _ (fun _ => ⟨rfl, rfl, rfl, rfl, rfl, rfl⟩) fun _ _ h => h ▸ rfl
  exact hsafe.bind fun _ => Leads.bind ((goTo _).bind fun _ => Leads.get fun _ _ => writeTiming _) fun _ =>
    (pssWait hwf _).bind fun _ => hpll.bind fun _ => Leads.bind ((goTo _).bind fun _ => writeTiming t) fun _ =>
    htarget.bind fun _ => pssWait hwf _

/-- R157: by either path the PLL is left as the target needs it. -/
theorem clockPath (hwf : s0.cfg.wf = true) (o t : Level) (u : Bool) :
    Leads (OnScript s0 (p + 3 + (s0.cfg.opp t).planMux.length) (r + 2) d) (clockPath o t u)
      (OnScript s0 p r { d with level := t, pll := if t = s0.cfg.safeLevel then d.pll else s0.cfg.pllAt t }) := by
  refine Leads.get fun s h => ?_
  have hpll : s.pllCur = d.pll := h.regs ▸ rfl
  have hneeds : s.needsPll t = (t != s0.cfg.safeLevel && s0.cfg.pllAt t != d.pll) := by
    rw [State.needsPll, h.frame.cfg, hpll]
  cases hn : s.needsPll t with
  | true =>
    rw [hn, eq_comm, Bool.and_eq_true, bne_iff_ne] at hneeds
    rw [if_neg hneeds.1]
    exact weaken (pllSafeSwitch hwf t) (by omega) le_rfl
  | false =>
    have hsame : (if t = s0.cfg.safeLevel then d.pll else s0.cfg.pllAt t) = d.pll := by
      rw [hn] at hneeds
      split
      · rfl
      · next hne => simpa [hne] using hneeds
    rw [hsame]
    exact weaken (simplePath hwf o t u) (by omega) (by omega)

/-- R172: the DLL is in the mode the target needs. -/
theorem dllPost (hwf : s0.cfg.wf = true) (hapart : s0.cfg.offDllStat ≠ s0.cfg.offDllCtrl) (t : Level) :
    Leads (OnScript s0 p (r + 1) d) (dllPost t) (OnScript s0 p r { d with
      forced := decide (t ≠ s0.cfg.dllFreeLevel), locked := decide (t = s0.cfg.dllFreeLevel) }) := by
  refine (goTo _).bind fun _ => Leads.get fun s h => ?_
  rw [h.frame.cfg]
  split
  · next hfree =>
    rw [decide_eq_false (not_not_intro hfree), decide_eq_true hfree]
    refine Leads.bind (act { d with forced := false, locked := false } (fun _ => ⟨rfl, rfl, rfl, rfl, rfl, rfl⟩)
      fun _ _ h => h ▸ rfl) fun _ => (waitLocked hwf hapart).bind fun _ => Triple.modify fun s h => ?_
    exact h.step (t := s.markLocked) ⟨rfl, rfl, rfl, rfl, rfl, rfl⟩
      (congrArg (fun d' : DomainRegs => { d' with locked := true }) h.regs)
  · next hforced =>
    rw [decide_eq_true hforced, decide_eq_false hforced]
    exact weaken (forceDll _) le_rfl (Nat.le_succ r)

/-- R150: the rest of a level change, once the target's voltage is set on the way up. -/
theorem changeRest (hwf : s0.cfg.wf = true) (hapart : s0.cfg.offDllStat ≠ s0.cfg.offDllCtrl) (o t : Level) (u : Bool)
    (hp : (if u then 3 else 4) + (s0.cfg.opp t).planMux.length ≤ p) (hr : 3 ≤ r) :
    Leads (OnScript s0 p r d)
      (do Machine.clockPath o t u; Machine.dllPost t; Machine.arefWrite; if !u then Machine.voltageStep .voltDown t)
      (OnScript s0 0 0 {
        level := t
        voltage := if u then d.voltage else s0.voltageFor t
        pll := if t = s0.cfg.safeLevel then d.pll else s0.cfg.pllAt t
        forced := decide (t ≠ s0.cfg.dllFreeLevel)
        locked := decide (t = s0.cfg.dllFreeLevel) }) := by
  cases u with
  | true =>
    refine weaken (p' := 0 + 3 + _) (r' := 0 + 1 + 2) ?_ hp hr
    exact (clockPath hwf o t true).bind fun _ => (dllPost hwf hapart t).bind fun _ => arefWrite.bind fun _ =>
      Leads.pure _
  | false =>
    refine weaken (p' := 0 + 1 + 3 + _) (r' := 0 + 1 + 2) ?_ hp hr
    exact (clockPath hwf o t false).bind fun _ => (dllPost hwf hapart t).bind fun _ => arefWrite.bind fun _ =>
      voltageStep hwf .voltDown t

theorem changeLevel (hwf : s0.cfg.wf = true) (hapart : s0.cfg.offDllStat ≠ s0.cfg.offDllCtrl) (o t : Level) :
    Leads (OnScript s0 (4 + (s0.cfg.opp t).planMux.length) 4 s0.domainRegs) (changeLevel o t)
      (OnScript s0 0 0 (s0.targetRegs t)) := by
  refine Leads.get fun s h => ?_
  cases s.needsCapture t <;> cases goesUp s.cfg o t
  · exact changeRest hwf hapart o t false le_rfl (Nat.le_succ 3)
  · rw [show 4 + (s0.cfg.opp t).planMux.length = 3 + (s0.cfg.opp t).planMux.length + 1 by omega]
    exact (voltageStep hwf .voltUp t).bind fun _ => changeRest hwf hapart o t true le_rfl (Nat.le_succ 3)
  · exact dllCapture.bind fun _ => changeRest hwf hapart o t false le_rfl le_rfl
  · rw [show 4 + (s0.cfg.opp t).planMux.length = 3 + (s0.cfg.opp t).planMux.length + 1 by omega]
    exact dllCapture.bind fun _ => (voltageStep hwf .voltUp t).bind fun _ =>
      changeRest hwf hapart o t true le_rfl le_rfl

end OnScript

/-! ### A command to another level -/

/-- R151: the target, resolved with the transition's context set. -/
theorem resolveTarget_eq (s : State) (f : Word) (o : Origin) :
    resolveTarget f o s = .ok (s.resolve f) ((s.setStep .resolve).beginBody (s.resolve f) o) := rfl

/-- R150, R175: a body to another level reaches it, and answers its frequency. -/
theorem transitionBody_favourable {s : State} {f : Word} {t : Level} (hwf : s.cfg.wf = true) (ht : t = s.resolve f)
    (hne : t ≠ s.currentLevel) (h : Favourable s t) (o : Origin) :
    ∃ u, transitionBody f o s = .ok (s.cfg.freqAt t) u ∧ OnScript s 0 0 (s.targetRegs t) u := by
  have hstart : OnScript s (4 + (s.cfg.opp t).planMux.length) 4 s.domainRegs ((s.setStep .resolve).beginBody t o) :=
    { frame := (BodyFrame.refl h.quiet).trans (u := (s.setStep .resolve).beginBody t o) rfl rfl rfl rfl
      ints := rfl, polls := h.polls, pollsTrue := h.pollsTrue, reads := h.reads, readsLocked := h.readsLocked
      regs := rfl }
  obtain ⟨⟨⟩, u, hchange, hu⟩ := (OnScript.changeLevel hwf h.statusApart s.currentLevel t).run hstart
  have hmove : moveTo t ((s.setStep .resolve).beginBody t o) = .ok () u :=
    run_get ((congrFun (if_neg hne) _).trans hchange)
  refine ⟨u, run_bind (resolveTarget_eq s f o) (ht ▸ run_bind hmove (run_get ?_)), hu⟩
  rw [hu.frame.cfg]
  rfl

/-- Settles O29: the body of a favourable script, and its completion; and the multiplexer whose timeout is logged. -/
theorem transitionReachesItsTarget : Obligations.TransitionReachesItsTarget := by
  refine ⟨fun s f t hwf hf ht hne h => ?_, fun s first t m src hwf hquiet hm hfalse => ?_⟩
  · have h' : Favourable (s.setRequest f) t := ⟨h.quiet, h.polls, h.pollsTrue, h.reads, h.readsLocked, h.statusApart⟩
    obtain ⟨u, hbody, hu⟩ := transitionBody_favourable (s := s.setRequest f) hwf ht hne h' .cmd
    have hregs := hu.regs
    simp only [State.domainRegs, State.targetRegs, DomainRegs.mk.injEq] at hregs
    obtain ⟨hlevel, hvoltage, hpll, hforced, hlocked⟩ := hregs
    refine ⟨_, exec_transition_known hwf hf (commandBody_of_ok hbody hu.frame.inputs), rfl, rfl, hlevel, hvoltage, ?_,
      hforced, hlocked, hpll, ?_, ⟨rfl, rfl, rfl⟩⟩
    · rw [hu.frame.regs]
      rfl
    · rw [State.completeCmd_intStatus, hu.ints]
      rfl
  · have htrace : (s.issueClock first t (.setMuxParent m src)).env.trace ++ signalMissed s.cfg (.muxSettled m) =
        s.env.trace ++ .call (.setMuxParent m src) :: signalMissed s.cfg (.muxSettled m) :=
      List.append_assoc s.env.trace [_] _
    have hlength : (signalMissed s.cfg (.muxSettled m)).length = s.cfg.waitMax := List.length_replicate
    rw [repoint_unsettled first t src hwf hquiet hm hfalse, State.polled, htrace, hlength]
    rfl

/-- Settles O30: POLICY is its clamped TRANSITION (O28), which reaches its target (O29). -/
theorem policyReachesItsTarget : Obligations.PolicyReachesItsTarget := by
  intro s f t hwf hf ht hne h
  obtain ⟨u, htransition, hpolicy⟩ := policyIsTheClampedTransition s f hwf h.quiet hf
  obtain ⟨v, hv, herr, hresult, hlevel, hvoltage, -, hforced, hlocked, hpll, hints, hrest⟩ :=
    transitionReachesItsTarget.1 s _ t hwf (exists_freqAt_floorLevel hwf _) ht hne h
  obtain rfl := Host.Outcome.next.inj (htransition.symm.trans hv)
  exact ⟨_, hpolicy, herr, hresult, hlevel, hvoltage, rfl, hforced, hlocked, hpll, hints, hrest.step, hrest.owner,
    hrest.active⟩

end Sys2Proof.Machine
end

section
/-! SUPPORT. How a transition body is put together (spec/41_transition_engine.md R150, R151), for a property that the
voltage step may change; and the PLL invariant (R178), which holds at every action of the clock change. -/

namespace Sys2Proof.Machine

variable {α : Type} {c : Config} {X : Stop → State → Prop}

/-! ### A body from its parts -/

/-- After reading the state an operation may rest on what is known of it, and go on as if it had not. -/
theorem Triple.get_knowing {P : State → Prop} {Q : α → State → Prop} {k : State → Op α}
    (h : ∀ s, P s → Triple P (k s) Q X) : Triple P (get >>= k) Q X := fun s hs => h s hs s hs

/-- After reading the state an operation may rest on the state itself. -/
theorem Triple.get_self {P : State → Prop} {Q : α → State → Prop} {k : State → Op α}
    (h : ∀ s, P s → Triple (fun t => t = s) (k s) Q X) : Triple P (get >>= k) Q X := fun s hs => h s hs s rfl

/-- R150, R156, R174: `M false` holds before the voltage step and `M true` after it, which comes before the clock change
on the way up, and after everything else on the way down. -/
theorem Triple.changeLevel {M : Bool → State → Prop} {o t : Level} (hcfg : ∀ s, M false s → s.cfg = c)
    (hcapture : Keeps (M false) X dllCapture)
    (hvoltage : ∀ x, Triple (M false) (voltageStep x t) (fun _ => M true) X)
    (hclock : Keeps (M (goesUp c o t)) X (clockPath o t (goesUp c o t)))
    (hdll : Keeps (M (goesUp c o t)) X (dllPost t)) (haref : Keeps (M (goesUp c o t)) X arefWrite) :
    Triple (M false) (changeLevel o t) (fun _ => M true) X := by
  refine Triple.get_knowing fun s hs => ?_
  rw [hcfg s hs]
  cases hu : goesUp c o t with
  | true =>
    rw [hu] at hclock hdll haref
    have hrest := Triple.bind (hvoltage .voltUp) fun _ => Triple.seq hclock (Triple.seq hdll
      (Triple.seq haref (Keeps.pure ())))
    cases s.needsCapture t with
    | true => exact Triple.seq hcapture hrest
    | false => exact hrest
  | false =>
    rw [hu] at hclock hdll haref
    have hrest := Triple.seq hclock (Triple.seq hdll (Triple.seq haref (hvoltage .voltDown)))
    cases s.needsCapture t with
    | true => exact Triple.seq hcapture hrest
    | false => exact hrest

/-- What passes every outbound access passes those of Ev. -/
theorem PassesWaits.of_any {Ev : Event → Prop} {P : State → Prop} (h : PassesWaits c (fun _ => True) P X) :
    PassesWaits c Ev P X :=
  { h with
    read := fun s w off _ => h.read s w off fun _ => trivial
    write := fun s w off v _ => h.write s w off v trivial
    poll := fun s sig _ => h.poll s sig fun _ => trivial }

/-- R150, R151, R152: a property that the target's resolution, the refresh word and every level change keep. -/
theorem Keeps.transitionBody {P : State → Prop} (hstep : ∀ s x, P s → P (s.setStep x))
    (hbegin : ∀ s t o, P s → P (s.beginBody t o)) (haref : Keeps P X arefWrite)
    (hchange : ∀ o t, Keeps P X (changeLevel o t)) (f : Word) (origin : Origin) :
    Keeps P X (transitionBody f origin) := by
  have hresolve : Keeps P X (resolveTarget f origin) := (Keeps.modify fun s => hstep s .resolve).bind fun _ =>
    Keeps.get_bind fun s _ => (Keeps.modify fun s' => hbegin s' _ origin).bind fun _ => Keeps.pure _
  have hmove : ∀ t, Keeps P X (moveTo t) := fun t => Keeps.get_bind fun s _ =>
    Keeps.ite (fun _ => haref) fun _ => hchange _ _
  exact hresolve.bind fun t => (hmove t).bind fun _ => Keeps.get_bind fun s _ => Keeps.pure _

/-! ### The PLL while a body runs (R178) -/

/-- R178, of a level and a PLL setting. -/
def PllFits (c : Config) (l : Level) (q : Word) : Prop := l ≠ c.safeLevel → q = c.pllAt l

/-- A fact of the level and the PLL setting, under the configuration c. -/
structure LevelPll (c : Config) (D : Level → Word → Prop) (s : State) : Prop where
  cfg : s.cfg = c
  fact : D s.currentLevel s.pllCur

theorem LevelPll.matches {s : State} (h : LevelPll c (PllFits c) s) : PllMatches s := by
  obtain ⟨rfl, h⟩ := h
  exact h

theorem PllMatches.levelPll {s : State} (h : PllMatches s) : LevelPll s.cfg (PllFits s.cfg) s := ⟨rfl, h⟩

namespace LevelPll

variable {D : Level → Word → Prop}

theorem same {s t : State} (h : LevelPll c D s) (hcfg : t.cfg = s.cfg) (hlevel : t.currentLevel = s.currentLevel)
    (hpll : t.pllCur = s.pllCur) : LevelPll c D t :=
  ⟨hcfg.trans h.cfg, by rw [hlevel, hpll]; exact h.fact⟩

theorem mono {D' : Level → Word → Prop} (hD : ∀ l q, D l q → D' l q) {s : State} (h : LevelPll c D s) :
    LevelPll c D' s := ⟨h.cfg, hD _ _ h.fact⟩

/-- R320: the reset state has the boot level's setting. -/
theorem resetOf (c : Config) (e : Env) : LevelPll c (PllFits c) (State.resetOf c e) := ⟨rfl, fun _ => rfl⟩

theorem stable (hD : ∀ l q, D l q → PllFits c l q) : Stable (LevelPll c D) fun _ => LevelPll c (PllFits c) :=
  stable_of_frame (fun _ _ hf h => h.same hf.cfg hf.currentLevel hf.pllCur)
    (fun s _ h => h.cfg ▸ (resetOf s.cfg _).same rfl rfl rfl) fun _ _ h => h.mono hD

/-- The waits, the outbound accesses and the sequencer's steps change neither the level nor the PLL. -/
theorem passesWaits (hD : ∀ l q, D l q → PllFits c l q) :
    PassesWaits c (fun _ => True) (LevelPll c D) fun _ => LevelPll c (PllFits c) where
  cfg _ h := h.cfg
  turn := (stable hD).turn
  setStep s x h := h.same (t := s.setStep x) rfl rfl rfl
  attempt _ _ h := h.same rfl rfl rfl
  lastWord _ _ h := h.same rfl rfl rfl
  read s w off _ h := h.same (by simp) (by simp) (by simp)
  write s w off v _ h := h.same (t := s.outWrite w off v) rfl rfl rfl
  poll _ _ _ h := h.same rfl rfl rfl
  warned s sig arg snap h := h.same (t := (s.recordTimeout sig arg snap).raiseInt .warn) rfl rfl rfl
  timeout s sig arg snap h := (h.mono hD).same (t := s.recordTimeout sig arg snap) rfl rfl rfl

/-- Nor does anything else that makes no primitive call. -/
theorem passesCalls (hD : ∀ l q, D l q → PllFits c l q) :
    PassesCalls c (fun e => ∀ p, e ≠ .call p) (LevelPll c D) fun _ => LevelPll c (PllFits c) where
  toPassesWaits := (passesWaits hD).of_any
  voltage _ _ he := absurd rfl (he _)
  clock _ _ _ _ he := absurd rfl (he _)
  safeMux _ he := absurd rfl (he _)
  pll _ _ he := absurd rfl (he _)
  targetMux _ _ he := absurd rfl (he _)
  keepLock s w h := h.same (t := s.keepLock w) rfl rfl rfl
  forceDll s v _ h := h.same (t := s.forceDll v) rfl rfl rfl
  freeDll s _ h := h.same (t := s.freeDll) rfl rfl rfl
  markLocked s h := h.same (t := s.markLocked) rfl rfl rfl

/-- A property of the level and the PLL is kept at a stop as `PllFits`. -/
abbrev Held {α : Type} (c : Config) (D : Level → Word → Prop) (op : Op α) : Prop :=
  Keeps (LevelPll c D) (fun _ => LevelPll c (PllFits c)) op

section

variable (hD : ∀ l q, D l q → PllFits c l q)
include hD

theorem timing (l : Level) : Held c D (writeTiming l) :=
  (passesCalls hD).writeTiming (fun _ _ => nofun) (fun _ _ => nofun) fun _ _ _ _ => nofun

theorem wait (sig : Signal) (crit : Bool) (arg : Byte) : Held c D (waitSig sig crit arg) :=
  (passesCalls hD).waitSig fun _ _ => nofun

theorem setVolt (v : Word) : Held c D (setVolt v) :=
  Triple.seq (Triple.act (passesCalls hD).turn fun s h => h.same (t := s.issueVoltage v) rfl rfl rfl)
    ((wait hD _ _ _).bind fun _ => Keeps.pure _)

end

/-- R164: a clock call of the simple path, on which the target needs no PLL change (R157). -/
theorem clockCall {t : Level} (first : Bool) (p : Prim) :
    Held c (fun l q => PllFits c l q ∧ PllFits c t q) (clockCall first t p) :=
  Triple.act (stable fun _ _ h => h.1).turn fun s h => ⟨h.cfg, by
    cases first
    · exact h.fact
    · exact ⟨h.fact.2, h.fact.2⟩⟩

theorem clockChange {o t : Level} : Held c (fun l q => PllFits c l q ∧ PllFits c t q) (clockChange o t) := by
  have hwait := wait (D := fun l q => PllFits c l q ∧ PllFits c t q) (c := c) fun _ _ h => h.1
  have hmux : ∀ plan first, Held c (fun l q => PllFits c l q ∧ PllFits c t q) (repointAll first t plan) := fun plan => by
    induction plan with
    | nil => exact fun _ => Keeps.pure _
    | cons p rest ih => exact fun first => Keeps.bind ((clockCall first _).bind fun _ => Keeps.get_bind fun _ _ =>
        (hwait _ _ _).bind fun _ => Keeps.pure _) fun _ => ih false
  have hdiv : ∀ first, Held c (fun l q => PllFits c l q ∧ PllFits c t q) (setDiv first t) := fun first =>
    Keeps.get_bind fun _ _ => (clockCall first _).bind fun _ => (hwait _ _ _).bind fun _ => Keeps.pure _
  refine Keeps.get_bind fun s _ => ?_
  cases s.cfg.switchOrder o t with
  | muxThenDiv => exact (hmux _ _).bind fun _ => hdiv _
  | divThenMux => exact (hdiv _).bind fun _ => hmux _ _

/-- R160: the simple path. -/
theorem simplePath {o t : Level} (u : Bool) : Held c (fun l q => PllFits c l q ∧ PllFits c t q) (simplePath o t u) := by
  have h := passesCalls (D := fun l q => PllFits c l q ∧ PllFits c t q) (c := c) fun _ _ h => h.1
  have htiming := timing (D := fun l q => PllFits c l q ∧ PllFits c t q) (c := c) fun _ _ h => h.1
  cases u with
  | false => exact (h.goTo _).bind fun _ => clockChange.bind fun _ => (h.goTo _).bind fun _ => htiming t
  | true => exact ((h.goTo _).bind fun _ => htiming t).bind fun _ => (h.goTo _).bind fun _ =>
      clockChange.bind fun _ => Keeps.pure _

/-- R165 to R171: the level is the safe one from step 1 to step 6, and the PLL is the target's from step 4 on. -/
theorem pllSafeSwitch (t : Level) : Held c (PllFits c) (pllSafeSwitch t) := by
  have hsafe : ∀ l q, l = c.safeLevel → PllFits c l q := fun _ _ hl hne => absurd hl hne
  have hset : ∀ l q, l = c.safeLevel ∧ q = c.pllAt t → PllFits c l q := fun l q h => hsafe l q h.1
  have h0 := passesCalls (D := PllFits c) (c := c) fun _ _ h => h
  have h1 := passesCalls (c := c) hsafe
  have h2 := passesCalls (c := c) hset
  have step1 : Triple (LevelPll c (PllFits c)) pssSafeMux (fun _ => LevelPll c fun l _ => l = c.safeLevel)
      fun _ => LevelPll c (PllFits c) :=
    Triple.seq (h0.goTo _) (Triple.act h0.turn fun s h => ⟨h.cfg, by rw [← h.cfg]; rfl⟩)
  have step4 : Triple (LevelPll c fun l _ => l = c.safeLevel) (pssReprogram t)
      (fun _ => LevelPll c fun l q => l = c.safeLevel ∧ q = c.pllAt t) fun _ => LevelPll c (PllFits c) :=
    Triple.seq (h1.goTo _) (Triple.bind (Q := fun _ => LevelPll c fun l q => l = c.safeLevel ∧ q = c.pllAt t)
      (Triple.act h1.turn fun s h => ⟨h.cfg, h.fact, by rw [← h.cfg]; rfl⟩) fun _ =>
      (wait hset _ _ _).bind fun _ => Keeps.pure _)
  have step6 : Triple (LevelPll c fun l q => l = c.safeLevel ∧ q = c.pllAt t) (pssTargetMux t)
      (fun _ => LevelPll c (PllFits c)) fun _ => LevelPll c (PllFits c) :=
    Triple.seq (h2.goTo _) (Triple.act h2.turn fun s h => ⟨h.cfg, fun _ => h.fact.2⟩)
  exact step1.bind fun _ => Triple.seq ((h1.goTo _).bind fun _ => Keeps.get_bind fun _ _ => timing hsafe _) <|
    Triple.seq (h1.pssWait fun _ _ => nofun) <| step4.bind fun _ =>
    Triple.seq ((h2.goTo _).bind fun _ => timing hset t) <| step6.bind fun _ => h0.pssWait fun _ _ => nofun

/-- R157: the simple path is taken only where the PLL already fits the target. -/
theorem clockPath (o t : Level) (u : Bool) : Held c (PllFits c) (clockPath o t u) := by
  refine Triple.get_self fun s h => Triple.ite (fun _ => ?_) fun hn => ?_
  · exact (pllSafeSwitch t).conseq (fun _ he => he ▸ h) (fun _ _ h => h) fun _ _ h => h
  · have hfits : PllFits c t s.pllCur := fun hne => by
      simp only [State.needsPll, h.cfg, Bool.and_eq_true, bne_iff_ne, ne_eq, not_and, Decidable.not_not] at hn
      exact (hn hne).symm
    exact (simplePath u).conseq (fun _ he => he ▸ ⟨h.cfg, h.fact, hfits⟩) (fun _ _ h => h.mono fun _ _ h => h.1)
      fun _ _ h => h

theorem transitionBody (f : Word) (origin : Origin) : Held c (PllFits c) (transitionBody f origin) := by
  have h := passesCalls (D := PllFits c) (c := c) fun _ _ h => h
  have haref := h.arefWrite fun _ _ => nofun
  refine Keeps.transitionBody h.setStep (fun s t o hs => hs.same (t := s.beginBody t o) rfl rfl rfl) haref
    (fun o t => Triple.changeLevel (M := fun _ => LevelPll c (PllFits c)) h.cfg ?_ (fun x => ?_) (clockPath o t _) ?_
      haref) f origin
  · exact h.dllCapture (fun _ _ => nofun) fun _ _ => nofun
  · exact (h.goTo x).bind fun _ => Keeps.get_bind fun _ _ => setVolt (fun _ _ h => h) _
  · exact h.dllPost (fun _ _ => nofun) (fun _ _ => nofun) t

/-! ### A command, a tick, a step -/

theorem catchBody (f : Word) (origin : Origin) : Held c (PllFits c) (catchTimeout (Machine.transitionBody f origin)) :=
  Triple.catchTimeout (transitionBody f origin) (fun _ _ h => h) (fun _ h => h) fun _ _ _ h => h

theorem catchVoltage : Held c (PllFits c) (catchTimeout coldVoltage) := by
  have h := passesCalls (D := PllFits c) (c := c) fun _ _ h => h
  exact Triple.catchTimeout ((h.goTo _).bind fun _ => Keeps.get_bind fun _ _ =>
    (setVolt (fun _ _ h => h) _).bind fun _ => Keeps.pure _) (fun _ _ h => h) (fun _ h => h) fun _ _ _ h => h

theorem runsCommand (i : Instr) :
    RunsCommand i (LevelPll c (PllFits c)) (LevelPll c (PllFits c)) fun _ => LevelPll c (PllFits c) where
  turn := (stable fun _ _ h => h).turn
  store s h := h.same (t := storeOf i s) (by cases i <;> rfl) (by cases i <;> rfl) (by cases i <;> rfl)
  body f := catchBody f .cmd
  voltage := catchVoltage
  complete s code res _ _ h := h.same (t := s.completeCmd code res) rfl rfl rfl

theorem runsTick (th : Thermal) :
    RunsTick c th (LevelPll c (PllFits c)) (LevelPll c (PllFits c)) (LevelPll c (PllFits c)) (LevelPll c (PllFits c))
      (LevelPll c (PllFits c)) (LevelPll c (PllFits c)) fun _ => LevelPll c (PllFits c) :=
  have hpasses := (passesWaits (D := PllFits c) (c := c) fun _ _ h => h).toPasses
  have hreeval : PassesReeval c (LevelPll c (PllFits c)) fun _ => LevelPll c (PllFits c) :=
    { toPasses := hpasses
      body := fun f => catchBody f .tick
      recorded := fun s r h => by cases r <;> exact h.same rfl rfl rfl }
  { start := fun s h => h.same (t := (s.setStep .monSample).clearSamples th) rfl rfl rfl
    sampling :=
      { toPasses := hpasses
        sampled := fun s n second w h => h.same (t := s.setSample n second (codeField th w)) rfl rfl rfl }
    finishUnsampled := fun s h => h.same (t := s.finishTick th) rfl rfl rfl
    take := fun s h => h.same (t := s.takeSamples) rfl rfl rfl
    notices :=
      { toPasses := hpasses
        notified := fun s level n h => h.same (t := s.record (.notify level n)) rfl rfl rfl
        tlevel := fun s h => h.same (t := s.raiseInt .tlevel) rfl rfl rfl }
    move := fun s h _ => h.same (t := s.moveThermState th) rfl rfl rfl
    moveTripped := fun s h _ => h.same (t := s.moveThermState th) rfl rfl rfl
    reevals := hreeval
    finish := fun s h => h.same (t := s.finishTick th) rfl rfl rfl
    tripTurn := hpasses.turn
    shutDown := fun s h => h.same (t := s.shutDown) rfl rfl rfl
    reevalsTripped := hreeval
    release := fun s h => h.same (t := s.releaseLock) rfl rfl rfl }

end LevelPll

/-- R178: each of a step's effects keeps the invariant. -/
theorem levelPll_step {s t : State} (hs : LevelPll s.cfg (PllFits s.cfg) s) (hstep : step s = .next t) :
    LevelPll s.cfg (PllFits s.cfg) t := by
  have hstart : ∀ e, LevelPll s.cfg (PllFits s.cfg) (s.withEnv e) := fun e => hs.same rfl rfl rfl
  have hends : ∀ {u : State}, LevelPll s.cfg (PllFits s.cfg) u ∨ LevelPll s.cfg (PllFits s.cfg) u ∨
      LevelPll s.cfg (PllFits s.cfg) u → LevelPll s.cfg (PllFits s.cfg) u := by tauto
  cases stepEffect hstep with
  | idle e ht => exact ht ▸ hstart e
  | strobe e ht =>
    have hf := inputFrame_msTick s
    exact ht ▸ hs.same (t := s.msTick.withEnv e) hf.cfg hf.currentLevel hf.pllCur
  | access a s' e ha ht =>
    have hf := inputFrame_hostAccess ha
    exact ht ▸ hs.same (t := s'.withEnv e) hf.cfg hf.currentLevel hf.pllCur
  | reset e _ ht => exact ht ▸ LevelPll.resetOf s.cfg e
  | command e cmd i _ _ _ hx =>
    exact hends ((LevelPll.runsCommand i).exec ((hstart e).same (t := (s.withEnv e).takeCommand) rfl rfl rfl) hx)
  | illegal e _ hx =>
    have hop : LevelPll.Held s.cfg (PllFits s.cfg) (completeWith 4 none) :=
      Triple.act (LevelPll.stable fun _ _ h => h).turn fun u h => h.same (t := u.completeCmd 4 none) rfl rfl rfl
    exact hends (runOp_next hop ((hstart e).same (t := (s.withEnv e).takeCommand) rfl rfl rfl) hx)
  | tick e th _ _ _ hx =>
    exact hends (runOp_next (LevelPll.runsTick th).tick ((hstart e).same (t := (s.withEnv e).takeTick) rfl rfl rfl) hx)

/-- Settles O52: every step keeps the invariant from any state that has it, and the reset state has it. -/
theorem pllInvariant : Obligations.PllInvariant :=
  ⟨fun _ _ hs hstep => (levelPll_step hs.levelPll hstep).matches, fun c e => (LevelPll.resetOf c e).matches⟩

end Sys2Proof.Machine
end

section
/-! SUPPORT. Voltage safety (spec/41_transition_engine.md R180): what a level change has added to the trace, action by
action, before its voltage step and after it, whatever comes from outside. -/

namespace Sys2Proof.Machine

variable {c : Config} {tr : List Event} {v : Word} {t : Level}

/-! ### A body that changes the level (R150, R151) -/

theorem run_bind_congr {α β : Type} {op op' : Op α} {k : α → Op β} {s : State} (h : op s = op' s) :
    (op >>= k) s = (op' >>= k) s := by
  show EStateM.bind op k s = EStateM.bind op' k s
  rw [EStateM.bind, EStateM.bind, h]

/-- What a level change does, a body for another level does; it answers that level's frequency (R175). -/
theorem Triple.bodyOfChange {Q : State → Prop} {X : Stop → State → Prop} {s : State} {f : Word} {t : Level}
    {origin : Origin} (ht : t = s.resolve f) (hne : t ≠ s.currentLevel)
    (hcfg : ∀ u, Q u → u.cfg = s.cfg)
    (hchange : Triple (fun s' => s' = (s.setStep .resolve).beginBody t origin) (Machine.changeLevel s.currentLevel t)
      (fun _ => Q) X) :
    Triple (fun s' => s' = s) (Machine.transitionBody f origin) (fun r u => r = s.cfg.freqAt t ∧ Q u) X := by
  rintro s rfl
  subst ht
  have hmove : moveTo (s.resolve f) ((s.setStep .resolve).beginBody (s.resolve f) origin) =
      Machine.changeLevel s.currentLevel (s.resolve f) _ := run_get (congrFun (if_neg hne) _)
  have hend : Triple (fun s' => s' = (s.setStep .resolve).beginBody (s.resolve f) origin)
      (Machine.changeLevel s.currentLevel (s.resolve f) >>= fun _ => get >>= fun u =>
        Pure.pure (u.cfg.freqAt (s.resolve f)))
      (fun r u => r = s.cfg.freqAt (s.resolve f) ∧ Q u) X :=
    hchange.bind fun _ => Triple.get_knowing fun u hu => Triple.pure fun _ h => ⟨hcfg u hu ▸ rfl, h⟩
  have hbody : Machine.transitionBody f origin s = _ :=
    run_bind (resolveTarget_eq s f origin) (run_bind_congr hmove)
  rw [hbody]
  exact hend _ rfl

/-! ### How the orders of R180 grow with the trace -/

theorem snoc_eq_append_cons {evs pre post : List Event} {e e' : Event} (h : evs ++ [e'] = pre ++ e :: post) :
    (pre = evs ∧ e = e') ∨ ∃ post', post = post' ++ [e'] ∧ evs = pre ++ e :: post' := by
  obtain rfl | ⟨post', x, rfl⟩ := post.eq_nil_or_concat
  · obtain ⟨h1, h2⟩ := List.append_inj' h rfl
    exact .inl ⟨h1.symm, (List.cons.inj h2).1.symm⟩
  · rw [List.concat_eq_append, ← List.cons_append, ← List.append_assoc] at h
    obtain ⟨h1, h2⟩ := List.append_inj' h rfl
    exact .inr ⟨post', by rw [List.concat_eq_append, (List.cons.inj h2).1], h1⟩

/-- No event programs a clock. -/
def NoClockCall (evs : List Event) : Prop := ∀ e ∈ evs, e.isClockCall = false

/-- No event sets the voltage. -/
def NoVoltageCall (evs : List Event) : Prop := ∀ w, Event.call (.setVoltage w) ∉ evs

theorem NoClockCall.voltageFirst {evs : List Event} (h : NoClockCall evs) : VoltageFirst v evs :=
  fun pre e post hevs he => absurd ((h e (by simp [hevs])).symm.trans he) Bool.noConfusion

theorem NoVoltageCall.voltageLast {evs : List Event} (h : NoVoltageCall evs) : VoltageLast v evs :=
  fun pre w post hevs => absurd (by simp [hevs]) (h w)

/-- R180, the up case: once the voltage is called and seen, anything may follow. -/
theorem VoltageFirst.snoc {evs : List Event} (h : VoltageFirst v evs) (hcall : Event.call (.setVoltage v) ∈ evs)
    (hseen : Event.poll .voltDone true ∈ evs) (e : Event) : VoltageFirst v (evs ++ [e]) := by
  intro pre e' post hevs he
  obtain ⟨rfl, -⟩ | ⟨post', -, hevs'⟩ := snoc_eq_append_cons hevs
  · exact ⟨hcall, hseen⟩
  · exact h pre e' post' hevs' he

/-- R180, the down case: the voltage call may come after anything. -/
theorem NoVoltageCall.snoc_voltage {evs : List Event} (h : NoVoltageCall evs) :
    VoltageLast v (evs ++ [.call (.setVoltage v)]) := by
  intro pre w post hevs
  obtain ⟨rfl, hw⟩ | ⟨post', -, rfl⟩ := snoc_eq_append_cons hevs
  · cases hw
    exact ⟨rfl, fun e he => by simp_all⟩
  · exact absurd (by simp) (h w)

/-- R180, the down case: after it only what is no clock call. -/
theorem VoltageLast.snoc {evs : List Event} (h : VoltageLast v evs) {e : Event} (he : e.isClockCall = false)
    (hv : ∀ w, e ≠ .call (.setVoltage w)) : VoltageLast v (evs ++ [e]) := by
  intro pre w post hevs
  obtain ⟨-, hw⟩ | ⟨post', rfl, hevs'⟩ := snoc_eq_append_cons hevs
  · exact absurd hw.symm (hv w)
  · obtain ⟨hwv, hpost⟩ := h pre w post' hevs'
    exact ⟨hwv, List.forall_mem_append.2 ⟨hpost, List.forall_mem_singleton.2 he⟩⟩

/-! ### What a level change has added to the trace -/

/-- The trace is `tr` with events added that are as G says. -/
structure Added (c : Config) (tr : List Event) (G : List Event → Prop) (s : State) : Prop where
  cfg : s.cfg = c
  added : ∃ evs, s.env.trace = tr ++ evs ∧ G evs

/-- The same of an operation in progress, with the cold offset in force (R24). -/
structure AddedAt (c : Config) (k : Word) (tr : List Event) (G : List Event → Prop) (s : State) : Prop
    extends Added c tr G s where
  offset : s.thermalOffset = k

variable {k : Word} {Ev : Event → Prop} {G G' : List Event → Prop}

theorem Added.same {s t : State} (h : Added c tr G s) (hcfg : t.cfg = s.cfg) (htrace : t.env.trace = s.env.trace) :
    Added c tr G t := ⟨hcfg.trans h.cfg, htrace ▸ h.added⟩

theorem Added.mono {s : State} (h : Added c tr G s) (hG : ∀ evs, G evs → G' evs) : Added c tr G' s :=
  ⟨h.cfg, h.added.imp fun _ => And.imp_right (hG _)⟩

theorem Added.snoc {s t : State} {e : Event} (h : Added c tr G s) (hcfg : t.cfg = s.cfg)
    (htrace : t.env.trace = s.env.trace ++ [e]) (hG : ∀ evs, G evs → G' (evs ++ [e])) : Added c tr G' t := by
  obtain ⟨hc, evs, hevs, hg⟩ := h
  exact ⟨hcfg.trans hc, evs ++ [e], by rw [htrace, hevs, List.append_assoc], hG _ hg⟩

/-- What adds no event keeps it. -/
theorem traceProp_added (c : Config) (tr : List Event) (G : List Event → Prop) :
    TraceProp c (fun _ => False) (Added c tr G) where
  cfg _ h := h.cfg
  same _ _ hcfg htrace h := h.same hcfg htrace
  pass _ _ _ he := he.elim

namespace AddedAt

theorem same {s t : State} (h : AddedAt c k tr G s) (hcfg : t.cfg = s.cfg) (htrace : t.env.trace = s.env.trace)
    (hoffset : t.thermalOffset = s.thermalOffset) : AddedAt c k tr G t :=
  ⟨h.toAdded.same hcfg htrace, hoffset.trans h.offset⟩

theorem snoc {s t : State} {e : Event} (h : AddedAt c k tr G s) (hcfg : t.cfg = s.cfg)
    (htrace : t.env.trace = s.env.trace ++ [e]) (hoffset : t.thermalOffset = s.thermalOffset)
    (hG : ∀ evs, G evs → G' (evs ++ [e])) : AddedAt c k tr G' t :=
  ⟨h.toAdded.snoc hcfg htrace hG, hoffset.trans h.offset⟩

/-- The events of Ev keep G, and at a stop of any kind G' holds. -/
theorem passesCalls (hG : ∀ evs e, Ev e → G evs → G (evs ++ [e])) (hX : ∀ evs, G evs → G' evs) :
    PassesCalls c Ev (AddedAt c k tr G) fun _ => Added c tr G' where
  cfg _ h := h.cfg
  turn := Stable.turn <| stable_of_frame (fun _ _ hf h => h.same hf.cfg hf.trace hf.thermalOffset)
    (fun s l h => (h.mono hX).same (t := s.resetNow.withInputs l) rfl rfl) fun _ _ h => h.mono hX
  setStep s x h := h.same (t := s.setStep x) rfl rfl rfl
  attempt _ _ h := h.same rfl rfl rfl
  lastWord _ _ h := h.same rfl rfl rfl
  read s w off he h := h.snoc (by simp) (outRead_trace s w off) (by simp) fun _ => hG _ _ (he _)
  write s w off v he h := h.snoc (t := s.outWrite w off v) rfl rfl rfl fun _ => hG _ _ he
  poll s sig he h := h.snoc rfl (outPoll_trace s sig) rfl fun _ => hG _ _ (he _)
  warned s sig arg snap h := h.same (t := (s.recordTimeout sig arg snap).raiseInt .warn) rfl rfl rfl
  timeout s sig arg snap h := (h.mono hX).same (t := s.recordTimeout sig arg snap) rfl rfl
  voltage s v he h := h.snoc (t := s.issueVoltage v) rfl rfl rfl fun _ => hG _ _ he
  clock s first t p he h := h.snoc (t := s.issueClock first t p) rfl rfl rfl fun _ => hG _ _ he
  safeMux s he h := h.snoc (t := s.issueSafeMux) rfl rfl rfl fun _ => hG _ _ (h.cfg.symm ▸ he)
  pll s t he h := h.snoc (t := s.issuePll t) rfl rfl rfl fun _ => hG _ _ (h.cfg.symm ▸ he)
  targetMux s t he h := h.snoc (t := s.issueTargetMux t) rfl rfl rfl fun _ => hG _ _ (h.cfg.symm ▸ he)
  keepLock s w h := h.same (t := s.keepLock w) rfl rfl rfl
  forceDll s v he h := h.snoc (t := s.forceDll v) rfl rfl rfl fun _ => hG _ _ (h.cfg.symm ▸ he _)
  freeDll s he h := h.snoc (t := s.freeDll) rfl rfl rfl fun _ => hG _ _ (h.cfg.symm ▸ he _)
  markLocked s h := h.same (t := s.markLocked) rfl rfl rfl

end AddedAt

/-! ### The voltage step (R156, R174, R180) -/

theorem AddedAt.voltageFor {s : State} (h : AddedAt c k tr G s) (t : Level) :
    s.voltageFor t = saturate 32 ((c.voltAt t).toNat + k.toInt) := by
  rw [State.voltageFor, h.cfg, h.offset]

/-- The voltage is called and seen, and all is in the order of R180. -/
def VoltageSet (v : Word) (evs : List Event) : Prop :=
  VoltageFirst v evs ∧ Event.call (.setVoltage v) ∈ evs ∧ Event.poll .voltDone true ∈ evs

/-- The voltage is called, and no clock yet. -/
def VoltageCalled (v : Word) (evs : List Event) : Prop := NoClockCall evs ∧ Event.call (.setVoltage v) ∈ evs

theorem NoClockCall.snoc {evs : List Event} {e : Event} (he : e.isClockCall = false) (h : NoClockCall evs) :
    NoClockCall (evs ++ [e]) := List.forall_mem_append.2 ⟨h, List.forall_mem_singleton.2 he⟩

theorem VoltageCalled.snoc {evs : List Event} {e : Event} (he : e.isClockCall = false) (h : VoltageCalled v evs) :
    VoltageCalled v (evs ++ [e]) := ⟨h.1.snoc he, List.mem_append_left _ h.2⟩

theorem VoltageSet.snoc {evs : List Event} (h : VoltageSet v evs) (e : Event) : VoltageSet v (evs ++ [e]) :=
  ⟨h.1.snoc h.2.1 h.2.2 e, List.mem_append_left _ h.2.1, List.mem_append_left _ h.2.2⟩

/-- Before the voltage step of a level change up. -/
theorem AddedAt.passesNoClock (v : Word) : PassesCalls c (fun e => e.isClockCall = false)
    (AddedAt c k tr NoClockCall) fun _ => Added c tr (VoltageFirst v) :=
  passesCalls (fun _ _ he h => NoClockCall.snoc he h) fun _ h => h.voltageFirst

/-- Before the voltage step of a level change down. -/
theorem AddedAt.passesNoVoltage (v : Word) : PassesCalls c (fun e => ∀ w, e ≠ .call (.setVoltage w))
    (AddedAt c k tr NoVoltageCall) fun _ => Added c tr (VoltageLast v) :=
  passesCalls (fun _ _ he h w => by simp [h w, (he w).symm]) fun _ h => h.voltageLast

/-- R156: the wait ends well only once VOLT_DONE is seen. -/
theorem AddedAt.voltageUp (hv : v = saturate 32 ((c.voltAt t).toNat + k.toInt)) (x : SeqStep) :
    Triple (AddedAt c k tr NoClockCall) (voltageStep x t) (fun _ => AddedAt c k tr (VoltageSet v))
      fun _ => Added c tr (VoltageFirst v) := by
  have hbefore := passesNoClock (c := c) (k := k) (tr := tr) v
  have hcalled := passesCalls (c := c) (k := k) (tr := tr) (G := VoltageCalled v) (Ev := fun e => e.isClockCall = false)
    (fun _ _ he h => VoltageCalled.snoc he h) fun _ h => h.1.voltageFirst (v := v)
  have hpoll : PollStep .voltDone (AddedAt c k tr (VoltageCalled v)) (AddedAt c k tr (VoltageSet v)) := {
    attempt := hcalled.attempt
    seen := fun s h hseen => h.snoc rfl (outPoll_trace s _) rfl fun evs hg => by
      rw [hseen]
      exact ⟨(hg.1.snoc rfl).voltageFirst, by simp [hg.2], by simp⟩
    unseen := fun s h _ => hcalled.poll s _ (fun _ => rfl) h }
  refine Triple.seq (hbefore.goTo x) (Triple.get_knowing fun s hs => ?_)
  rw [hs.voltageFor, ← hv]
  refine Triple.bind (Q := fun _ => AddedAt c k tr (VoltageCalled v)) (Triple.act hbefore.turn fun s h => ?_) fun _ =>
    (Triple.waitSigCritical hcalled.turn hpoll fun s => hcalled.timeout s _ _ _).bind fun _ => Triple.pure fun _ h => h
  exact h.snoc (t := s.issueVoltage v) rfl rfl rfl fun evs hg => ⟨hg.snoc rfl, by simp⟩

/-- R174: the voltage step adds the call and polls only. -/
theorem AddedAt.voltageDown (hv : v = saturate 32 ((c.voltAt t).toNat + k.toInt)) (x : SeqStep) :
    Triple (AddedAt c k tr NoVoltageCall) (voltageStep x t) (fun _ => AddedAt c k tr (VoltageLast v))
      fun _ => Added c tr (VoltageLast v) := by
  have hbefore := passesNoVoltage (c := c) (k := k) (tr := tr) v
  have hafter := passesCalls (c := c) (k := k) (tr := tr) (G := VoltageLast v)
    (Ev := fun e => e.isClockCall = false ∧ ∀ w, e ≠ .call (.setVoltage w)) (fun _ _ he h => h.snoc he.1 he.2)
    fun _ h => h
  refine Triple.seq (hbefore.goTo x) (Triple.get_knowing fun s hs => ?_)
  rw [hs.voltageFor, ← hv]
  refine Triple.bind (Q := fun _ => AddedAt c k tr (VoltageLast v)) (Triple.act hbefore.turn fun s h => ?_) fun _ =>
    (hafter.waitSig fun _ => ⟨rfl, nofun⟩).bind fun _ => Keeps.pure _
  exact h.snoc (t := s.issueVoltage v) rfl rfl rfl fun evs hg => hg.snoc_voltage

/-! ### A level change (R150) -/

/-- R156: on the way up the capture programs no clock, and after the voltage step anything may come. -/
theorem AddedAt.changeLevel_up {o : Level} (hv : v = saturate 32 ((c.voltAt t).toNat + k.toInt))
    (hup : goesUp c o t = true) : Triple (AddedAt c k tr NoClockCall) (changeLevel o t)
      (fun _ => AddedAt c k tr (VoltageSet v)) fun _ => Added c tr (VoltageFirst v) := by
  have hbefore := passesNoClock (c := c) (k := k) (tr := tr) v
  have hafter := passesCalls (c := c) (k := k) (tr := tr) (Ev := fun _ => True)
    (G := VoltageSet v) (G' := VoltageFirst v) (fun _ e _ h => h.snoc e) fun _ h => h.1
  have he := anyBodyEvents c
  refine Triple.changeLevel (M := fun b => AddedAt c k tr (if b then VoltageSet v else NoClockCall)) hbefore.cfg
    (hbefore.dllCapture (fun _ => rfl) fun _ => rfl) (AddedAt.voltageUp hv) ?_ ?_ ?_ <;> rw [hup]
  · exact hafter.clockPath he.toClockEvents o t true
  · exact hafter.dllPost he.readStat he.writeCtrl t
  · exact hafter.arefWrite he.writeAref

/-- R174: on the way down nothing before the voltage step sets the voltage. -/
theorem AddedAt.changeLevel_down {o : Level} (hv : v = saturate 32 ((c.voltAt t).toNat + k.toInt))
    (hdown : goesUp c o t = false) : Triple (AddedAt c k tr NoVoltageCall) (changeLevel o t)
      (fun _ => AddedAt c k tr (VoltageLast v)) fun _ => Added c tr (VoltageLast v) := by
  have hbefore := passesNoVoltage (c := c) (k := k) (tr := tr) v
  have hclock : ClockEvents c fun e => ∀ w, e ≠ .call (.setVoltage w) := {
    clock := fun p hp w he => by cases he; cases hp
    poll := fun _ _ _ => nofun
    readSel := fun _ => nofun
    writeSel := fun _ => nofun
    writeSet := fun _ _ _ => nofun }
  refine Triple.changeLevel (M := fun b => AddedAt c k tr (if b then VoltageLast v else NoVoltageCall)) hbefore.cfg
    (hbefore.dllCapture (fun _ => nofun) fun _ => nofun) (AddedAt.voltageDown hv) ?_ ?_ ?_ <;> rw [hdown]
  · exact hbefore.clockPath hclock o t false
  · exact hbefore.dllPost (fun _ => nofun) (fun _ => nofun) t
  · exact hbefore.arefWrite fun _ => nofun

/-! ### A body and a command (R180) -/

/-- R180: on the way from the level `o` to the level `t`. -/
def VoltageOrder (c : Config) (o t : Level) (v : Word) (evs : List Event) : Prop :=
  (goesUp c o t = true → VoltageFirst v evs) ∧ (goesUp c o t = false → VoltageLast v evs)

theorem VoltageOrder.nil (o : Level) : VoltageOrder c o t v [] :=
  ⟨fun _ => NoClockCall.voltageFirst nofun, fun _ => NoVoltageCall.voltageLast fun _ => nofun⟩

/-- However a body for another level ends, its events so far are in the order of R180. -/
theorem transitionBody_voltageOrder {s : State} {f : Word} (ht : t = s.resolve f) (hne : t ≠ s.currentLevel)
    (origin : Origin) : Triple (fun s' => s' = s) (transitionBody f origin)
      (fun _ => Added s.cfg s.env.trace (VoltageOrder s.cfg s.currentLevel t (s.voltageFor t)))
      fun _ => Added s.cfg s.env.trace (VoltageOrder s.cfg s.currentLevel t (s.voltageFor t)) := by
  have hstart : ∀ {G : List Event → Prop}, G [] →
      AddedAt s.cfg s.thermalOffset s.env.trace G ((s.setStep .resolve).beginBody t origin) :=
    fun hG => ⟨⟨rfl, [], (List.append_nil _).symm, hG⟩, rfl⟩
  refine (Triple.bodyOfChange ht hne (fun _ h => h.cfg) ?_).conseq (fun _ h => h) (fun _ _ h => h.2) fun _ _ h => h
  cases hu : goesUp s.cfg s.currentLevel t with
  | true =>
    have hmono : ∀ evs, VoltageFirst (s.voltageFor t) evs →
        VoltageOrder s.cfg s.currentLevel t (s.voltageFor t) evs :=
      fun _ h => ⟨fun _ => h, fun hd => absurd (hu.symm.trans hd) Bool.noConfusion⟩
    exact (AddedAt.changeLevel_up rfl hu).conseq (fun _ he => he ▸ hstart nofun)
      (fun _ _ h => h.toAdded.mono fun _ h => hmono _ h.1) fun _ _ h => h.mono hmono
  | false =>
    have hmono : ∀ evs, VoltageLast (s.voltageFor t) evs →
        VoltageOrder s.cfg s.currentLevel t (s.voltageFor t) evs :=
      fun _ h => ⟨fun hd => absurd (hu.symm.trans hd) Bool.noConfusion, fun _ => h⟩
    exact (AddedAt.changeLevel_down rfl hu).conseq (fun _ he => he ▸ hstart fun _ => nofun)
      (fun _ _ h => h.toAdded.mono hmono) fun _ _ h => h.mono hmono

/-- R124: a TRANSITION adds the events of its body only. -/
theorem transitionOp_voltageOrder {s : State} {f : Word} (ht : t = s.resolve f) (hne : t ≠ s.currentLevel) :
    Triple (fun s' => s' = s) (transitionOp f)
      (fun _ => Added s.cfg s.env.trace (VoltageOrder s.cfg s.currentLevel t (s.voltageFor t)))
      fun _ => Added s.cfg s.env.trace (VoltageOrder s.cfg s.currentLevel t (s.voltageFor t)) := by
  have hprop := traceProp_added s.cfg s.env.trace (VoltageOrder s.cfg s.currentLevel t (s.voltageFor t))
  have hbody := transitionBody_voltageOrder (s := s.setRequest f) ht hne .cmd
  have hnone : Added s.cfg s.env.trace (VoltageOrder s.cfg s.currentLevel t (s.voltageFor t)) s :=
    ⟨rfl, [], (List.append_nil _).symm, .nil _⟩
  refine Triple.get_knowing fun _ _ => Triple.ite (fun _ => ?_) fun _ => ?_
  · refine Triple.bind (Triple.modify (Q := fun _ s' => s' = s.setRequest f) fun _ h => h ▸ rfl) fun _ =>
      Triple.bind (Triple.catchTimeout hbody (fun _ _ h => h) (fun _ h => h) fun _ _ _ h => h) fun r =>
      hprop.completeTransition r
  · exact (hprop.completeWith 1 none).conseq (fun _ h => h ▸ hnone) (fun _ _ h => h) fun _ _ h => h

/-- Settles O37: in every phase of a level change the events so far are in the order of R180. -/
theorem voltageSafety : Obligations.VoltageSafety := by
  intro s f t ht hne
  refine ⟨fun u hx => ?_, fun origin => ⟨fun r u hx => ?_, fun stop u hx => ?_⟩⟩
  · obtain h | h | h := runOp_next (transitionOp_voltageOrder ht hne) rfl hx <;> exact h.added
  · have h := transitionBody_voltageOrder ht hne origin s rfl
    rw [hx] at h
    exact h.added
  · have h := transitionBody_voltageOrder ht hne origin s rfl
    rw [hx] at h
    exact h.added

end Sys2Proof.Machine
end

section
/-! SUPPORT. The timing protocol (spec/41_transition_engine.md R158, R159) and the DLL's procedures (R155, R172) while
nothing comes from outside: what each is as an equation, and what it has added to the trace. -/

namespace Sys2Proof.Machine

/-! ### Outbound traffic -/

/-- From `s` to `t` only outbound accesses and polls were made, with the events `evs`. -/
structure Traffic (s t : State) (evs : List Event) : Prop where
  regs : t = { s with attempt := t.attempt, lastWord := t.lastWord, env := t.env }
  inputs : t.env.inputs = s.env.inputs
  replies : t.env.replies = s.env.replies
  trace : t.env.trace = s.env.trace ++ evs

namespace Traffic

variable {s t u : State} {evs more : List Event}

theorem trans (h : Traffic s t evs) (h' : Traffic t u more) : Traffic s u (evs ++ more) where
  regs := by rw [h'.regs, h.regs]
  inputs := h'.inputs.trans h.inputs
  replies := h'.replies.trans h.replies
  trace := by rw [h'.trace, h.trace, List.append_assoc]

/-- The numbering of attempts and the word kept are no traffic. -/
theorem attempt (h : Traffic { s with attempt := n } t evs) : Traffic s t evs :=
  ⟨h.regs, h.inputs, h.replies, h.trace⟩

theorem lastWord (h : Traffic s t evs) (v : Word) : Traffic s { t with lastWord := v } evs :=
  ⟨by rw [h.regs], h.inputs, h.replies, h.trace⟩

end Traffic

theorem traffic_outRead (s : State) (w : Window) (off : Nat) :
    Traffic s (s.outRead w off).2 [.rd w off (s.outRead w off).1] where
  regs := by rw [s.outRead_state]; rfl
  inputs := s.outRead_inputs w off
  replies := s.outRead_replies w off
  trace := outRead_trace s w off

theorem traffic_outWrite (s : State) (w : Window) (off : Nat) (v : Word) :
    Traffic s (s.outWrite w off v) [.wr w off v] := ⟨rfl, rfl, rfl, rfl⟩

theorem traffic_polled (s : State) (n : Nat) (polls : List Event) : Traffic s (s.polled n polls) polls :=
  ⟨rfl, rfl, rfl, rfl⟩

/-! ### The double-buffer protocol (R158, R159) -/

/-- Writes to the DREX window, in order. -/
def State.outWrites (s : State) (l : List (Nat × Word)) : State := l.foldl (fun u p => u.outWrite .drex p.1 p.2) s

theorem traffic_outWrites (l : List (Nat × Word)) :
    ∀ s : State, Traffic s (s.outWrites l) (l.map fun p => .wr .drex p.1 p.2) := by
  induction l with
  | nil => exact fun s => ⟨rfl, rfl, rfl, (List.append_nil _).symm⟩
  | cons p rest ih => exact fun s => (traffic_outWrite s .drex p.1 p.2).trans (ih _)

theorem State.outWrites_owned (l : List (Nat × Word)) : ∀ s : State, (s.outWrites l).env.owned = s.env.owned := by
  induction l with
  | nil => exact fun s => rfl
  | cons p rest ih => exact fun s => ih _

theorem writeWords_quiet (offs : List Nat) : ∀ (words : List Word) {s : State}, s.quiet →
    writeWords offs words s = .ok () (s.outWrites (offs.zip words)) := by
  induction offs with
  | nil => exact fun _ _ _ => rfl
  | cons off offs ih =>
    intro words s h
    cases words with
    | nil => rfl
    | cons v words => exact run_bind (act_quiet h _) (ih words (s := s.outWrite .drex off v) h)

/-- R158: the set that a select word does not name. -/
def inactiveSet (c : Config) (w : Word) : List Nat := c.timingSet (!w.getLsbD c.tselBit)

/-- R158: a select word with only its select bit inverted. -/
def flipSelect (c : Config) (w : Word) : Word := w ^^^ BitVec.ofNat 32 (2 ^ c.tselBit)

theorem getLsbD_flipSelect {c : Config} (h : c.tselBit ≤ 31) (w : Word) (i : Nat) :
    (flipSelect c w).getLsbD i = if i = c.tselBit then !w.getLsbD i else w.getLsbD i := by
  rw [flipSelect, BitVec.getLsbD_xor, BitVec.getLsbD_ofNat, Nat.testBit_two_pow]
  split
  · next he => simp [he, show c.tselBit < 32 by omega]
  · next he => simp [Ne.symm he]

/-- R159: flipped twice, a select word is as it was. -/
theorem flipSelect_flipSelect (c : Config) (w : Word) : flipSelect c (flipSelect c w) = w := by
  simp [flipSelect]

/-- R158: the word that `write_timing` reads. -/
def State.selectRead (s : State) : Word := (s.outRead .drex s.cfg.offTsel).1

/-- R158: the state after `write_timing(l)`. -/
def State.timingWritten (s : State) (l : Level) : State :=
  ((s.outRead .drex s.cfg.offTsel).2.outWrites ((inactiveSet s.cfg s.selectRead).zip (s.cfg.opp l).timing)).outWrite
    .drex s.cfg.offTsel (flipSelect s.cfg s.selectRead)

/-- R158: its events. -/
def timingEvents (c : Config) (l : Level) (w : Word) : List Event :=
  .rd .drex c.offTsel w ::
    (timingWrites (inactiveSet c w) (c.opp l).timing ++ [.wr .drex c.offTsel (flipSelect c w)])

theorem memRead_quiet {s : State} (h : s.quiet) (w : Window) (off : Nat) :
    memRead w off s = .ok (s.outRead w off).1 (s.outRead w off).2 := run_bind (awaitTurn_quiet h) rfl

theorem writeTiming_quiet {s : State} (h : s.quiet) (l : Level) : writeTiming l s = .ok () (s.timingWritten l) := by
  have hread := traffic_outRead s .drex s.cfg.offTsel
  have hwords := traffic_outWrites ((inactiveSet s.cfg s.selectRead).zip (s.cfg.opp l).timing)
    (s.outRead .drex s.cfg.offTsel).2
  refine run_get (run_bind (memRead_quiet h _ _) (run_bind (writeWords_quiet _ _ (hread.inputs.trans h)) ?_))
  exact act_quiet (hwords.inputs.trans (hread.inputs.trans h)) _

theorem traffic_timingWritten (s : State) (l : Level) :
    Traffic s (s.timingWritten l) (timingEvents s.cfg l s.selectRead) :=
  (traffic_outRead s _ _).trans ((traffic_outWrites _ _).trans (traffic_outWrite _ _ _ _))

/-- Settles O39: the equation of `write_timing`, its events and the flip of the select bit. -/
theorem timingGoesToTheInactiveSet : Obligations.TimingGoesToTheInactiveSet := by
  rintro s l _ hquiet rfl
  refine ⟨_, writeTiming_quiet hquiet l, ?_, fun hbit i _ => getLsbD_flipSelect hbit _ i⟩
  have hset : (if s.selectRead.getLsbD s.cfg.tselBit then s.cfg.offTset0 else s.cfg.offTset1) =
      inactiveSet s.cfg s.selectRead := by
    unfold inactiveSet Config.timingSet
    cases s.selectRead.getLsbD s.cfg.tselBit <;> rfl
  exact (traffic_timingWritten s l).trace.trans (by rw [← State.selectRead, hset]; rfl)

theorem State.outRead_owned (s : State) (w : Window) (off : Nat) : (s.outRead w off).2.env.owned = s.env.owned := by
  unfold State.outRead
  split
  · rfl
  · unfold Env.drawWord; cases s.env.readAnswers <;> rfl

/-- R40, R159: under the ownership obligation the next `write_timing` reads the word that the last one wrote. -/
theorem State.selectRead_timingWritten {s : State} (h : s.env.owned = true) (l : Level) :
    (s.timingWritten l).selectRead = flipSelect s.cfg s.selectRead := by
  have hcfg : (s.timingWritten l).cfg = s.cfg := by rw [(traffic_timingWritten s l).regs]
  have howned : (s.timingWritten l).env.owned = true :=
    (State.outWrites_owned _ _).trans ((s.outRead_owned _ _).trans h)
  have hword : (s.timingWritten l).env.selWord = some (flipSelect s.cfg s.selectRead) := by
    have : ∀ u v, u.cfg = s.cfg → (State.outWrite u .drex s.cfg.offTsel v).env.selWord = some v := fun u v hu =>
      if_pos ⟨rfl, hu ▸ rfl⟩
    refine this _ _ ?_
    rw [(traffic_outWrites _ _).regs, (traffic_outRead s _ _).regs]
  refine State.outRead_of_owed ?_
  rw [State.owedWord, if_pos howned, if_pos ⟨rfl, rfl⟩, hword]

/-- R159: two timing writes, one after the other, go to different sets. -/
theorem timingSets_alternate {s : State} (hquiet : s.quiet) (howned : s.env.owned = true) (hbit : s.cfg.tselBit ≤ 31)
    (l l' : Level) : ∃ (u u' : State) (w w' : Word) (b : Bool), writeTiming l s = .ok () u ∧ writeTiming l' u = .ok () u' ∧
      u.env.trace = s.env.trace ++ .rd .drex s.cfg.offTsel w ::
        (timingWrites (s.cfg.timingSet b) (s.cfg.opp l).timing ++ [.wr .drex s.cfg.offTsel w']) ∧
      u'.env.trace = u.env.trace ++ .rd .drex s.cfg.offTsel w' ::
        (timingWrites (s.cfg.timingSet (!b)) (s.cfg.opp l').timing ++ [.wr .drex s.cfg.offTsel w]) := by
  have hfirst := traffic_timingWritten s l
  have hsecond := traffic_timingWritten (s.timingWritten l) l'
  have hcfg : (s.timingWritten l).cfg = s.cfg := by rw [hfirst.regs]
  have hset : inactiveSet s.cfg (flipSelect s.cfg s.selectRead) =
      s.cfg.timingSet (!!s.selectRead.getLsbD s.cfg.tselBit) := by
    rw [inactiveSet, getLsbD_flipSelect hbit, if_pos rfl]
  refine ⟨_, _, s.selectRead, flipSelect s.cfg s.selectRead, !s.selectRead.getLsbD s.cfg.tselBit,
    writeTiming_quiet hquiet l, writeTiming_quiet (hfirst.inputs.trans hquiet) l', hfirst.trace, hsecond.trace.trans ?_⟩
  rw [hcfg, State.selectRead_timingWritten howned, timingEvents, hset, flipSelect_flipSelect]

/-! ### The DLL's procedures (R155, R172) -/

/-- R155: the state after `dll_capture()`. -/
def State.dllCaptured (s : State) : State :=
  let u := (s.outRead .phy s.cfg.offDllStat).2.setStep .dllCapture |>.keepLock (s.outRead .phy s.cfg.offDllStat).1
  u.forceDll u.pendingLock

theorem State.outRead_setStep (s : State) (x : SeqStep) (w : Window) (off : Nat) :
    (s.setStep x).outRead w off = ((s.outRead w off).1, (s.outRead w off).2.setStep x) := by
  unfold State.outRead
  rw [show (s.setStep x).owedWord w off = s.owedWord w off from rfl]
  split <;> rfl

theorem dllCapture_quiet {s : State} (h : s.quiet) : dllCapture s = .ok () s.dllCaptured := by
  have hread := memRead_quiet (s := s.setStep .dllCapture) h .phy s.cfg.offDllStat
  rw [State.outRead_setStep] at hread
  have hforce := act_quiet (s := ((s.outRead .phy s.cfg.offDllStat).2.setStep .dllCapture).keepLock
    (s.outRead .phy s.cfg.offDllStat).1)
    ((traffic_outRead s .phy s.cfg.offDllStat).inputs.trans h) fun u => u.forceDll u.pendingLock
  exact run_modify (run_get (run_bind hread (run_modify hforce)))

theorem dllCaptured_pendingLock (s : State) :
    s.dllCaptured.pendingLock = lockField s.cfg (s.outRead .phy s.cfg.offDllStat).1 :=
  congrArg (lockField · _) (s.outRead_cfg .phy s.cfg.offDllStat)

theorem dllCaptured_trace (s : State) : s.dllCaptured.env.trace = s.env.trace ++
    [.rd .phy s.cfg.offDllStat (s.outRead .phy s.cfg.offDllStat).1,
      .wr .phy s.cfg.offDllCtrl (s.cfg.dllCtrl.word true s.dllCaptured.pendingLock)] := by
  simp [State.dllCaptured]

theorem lockField_getLsbD (c : Config) (w : Word) {i : Nat} (hi : i < 32) :
    (lockField c w).getLsbD i = (decide (i < c.lockW) && w.getLsbD (c.lockShift + i)) := by
  rw [lockField, BitVec.getLsbD_ofNat, Nat.testBit_mod_two_pow, Nat.testBit_div_two_pow, decide_eq_true hi,
    Bool.true_and, Nat.add_comm]
  rfl

/-- Settles O41: the equation of `dll_capture`, and the bits of the lock field. -/
theorem dllCaptureKeepsTheLockField : Obligations.DllCaptureKeepsTheLockField := by
  rintro s _ hquiet - rfl
  exact ⟨_, dllCapture_quiet hquiet, rfl, rfl,
    fun i hi => dllCaptured_pendingLock s ▸ lockField_getLsbD s.cfg _ hi, dllCaptured_trace s⟩

/-! ### The wait for bits of a register (R153) -/

/-- R153: the reads of a register wait from `s`, and the last word kept. -/
structure RegisterRead (w : Window) (off : Nat) (ws : List Word) (s t : State) : Prop where
  traffic : Traffic s t (ws.map (.rd w off))
  kept : t.lastWord = ws.getLast?.getD s.lastWord

/-- One attempt: a read, and its word kept. -/
def State.readAttempt (s : State) (w : Window) (off k : Nat) : State :=
  let u := ({ s with attempt := k } : State).outRead w off
  { u.2 with lastWord := u.1 }

/-- The word it reads. -/
def State.attemptWord (s : State) (w : Window) (off k : Nat) : Word := (({ s with attempt := k } : State).outRead w off).1

theorem registerRead_attempt (s : State) (w : Window) (off k : Nat) :
    RegisterRead w off [s.attemptWord w off k] s (s.readAttempt w off k) :=
  ⟨((traffic_outRead { s with attempt := k } w off).attempt).lastWord _, rfl⟩

theorem RegisterRead.cons {w : Window} {off : Nat} {v : Word} {ws : List Word} {s t u : State}
    (h : RegisterRead w off [v] s t) (h' : RegisterRead w off ws t u) : RegisterRead w off (v :: ws) s u :=
  ⟨h.traffic.trans h'.traffic, by rw [h'.kept, h.kept]; simp [List.getLast?_cons]⟩

theorem RegisterRead.getLast? {w : Window} {off : Nat} {ws : List Word} {s t : State} (h : RegisterRead w off ws s t)
    (hne : ws ≠ []) : ws.getLast? = some t.lastWord := by
  rw [h.kept, List.getLast?_eq_some_getLast hne]
  rfl

theorem readLoop_succ {s : State} (h : s.quiet) (w : Window) (off : Nat) (mask : Word) (n k : Nat) :
    readLoop w off mask (n + 1) k s = if s.attemptWord w off k &&& mask = mask then .ok true (s.readAttempt w off k)
      else readLoop w off mask n (k + 1) (s.readAttempt w off k) := by
  have hread := memRead_quiet (s := { s with attempt := k }) h w off
  by_cases hmask : s.attemptWord w off k &&& mask = mask
  · rw [if_pos hmask]
    exact run_modify (run_bind hread (run_modify (congrFun (if_pos hmask) _)))
  · rw [if_neg hmask]
    exact run_modify (run_bind hread (run_modify (congrFun (if_neg hmask) _)))

/-- R153: either some read has every bit of the mask, and it is the last; or none of `n` has. -/
theorem readLoop_quiet (w : Window) (off : Nat) (mask : Word) (n : Nat) : ∀ {s : State} (k : Nat), s.quiet →
    ∃ ws t, (∀ x ∈ ws, x &&& mask ≠ mask) ∧
      ((∃ x, x &&& mask = mask ∧ ws.length < n ∧ readLoop w off mask n k s = .ok true t ∧
          RegisterRead w off (ws ++ [x]) s t) ∨
        ws.length = n ∧ readLoop w off mask n k s = .ok false t ∧ RegisterRead w off ws s t) := by
  induction n with
  | zero => exact fun k _ => ⟨[], _, nofun, .inr ⟨rfl, rfl, ⟨rfl, rfl, rfl, (List.append_nil _).symm⟩, rfl⟩⟩
  | succ n ih =>
    intro s k hquiet
    have hread := registerRead_attempt s w off k
    rw [readLoop_succ hquiet]
    split
    · next hmask => exact ⟨[], _, nofun, .inl ⟨_, hmask, Nat.succ_pos n, rfl, hread⟩⟩
    · next hmask =>
      obtain ⟨ws, t, hnone, hend⟩ := ih (k + 1) (hread.traffic.inputs.trans hquiet)
      refine ⟨_ :: ws, t, List.forall_mem_cons.2 ⟨hmask, hnone⟩, ?_⟩
      obtain ⟨x, hx, hlength, hloop, hreads⟩ | ⟨hlength, hloop, hreads⟩ := hend
      · exact .inl ⟨x, hx, Nat.succ_lt_succ hlength, hloop, hread.cons hreads⟩
      · exact .inr ⟨congrArg Nat.succ hlength, hloop, hread.cons hreads⟩

/-- R153, R172: the wait for the lock-detect bits: they are seen at the last read only, or at none of the budget. -/
theorem waitLocked_quiet {s : State} (h : s.quiet) : ∃ ws t, NoneLocked s.cfg ws ∧
    ((∃ x, x &&& s.cfg.dllLockMask = s.cfg.dllLockMask ∧ ws.length < s.cfg.waitMax ∧
        waitReg .phy s.cfg.offDllStat s.cfg.dllLockMask .dllLocked true 0 s = .ok true t ∧
        RegisterRead .phy s.cfg.offDllStat (ws ++ [x]) s t) ∨
      ws.length = s.cfg.waitMax ∧
        waitReg .phy s.cfg.offDllStat s.cfg.dllLockMask .dllLocked true 0 s =
          .error .timeout (t.recordTimeout .dllLocked 0 t.lastWord) ∧
        RegisterRead .phy s.cfg.offDllStat ws s t) := by
  obtain ⟨ws, t, hnone, hend⟩ := readLoop_quiet .phy s.cfg.offDllStat s.cfg.dllLockMask s.cfg.waitMax 1 h
  refine ⟨ws, t, hnone, ?_⟩
  obtain ⟨x, hx, hlength, hloop, hreads⟩ | ⟨hlength, hloop, hreads⟩ := hend
  · exact .inl ⟨x, hx, hlength, run_get (run_bind hloop rfl), hreads⟩
  · exact .inr ⟨hlength, run_get (run_bind hloop rfl), hreads⟩

/-- Settles O42: the saturation of R7 at the width of the lock value. -/
theorem forcedLockIsSaturated : Obligations.ForcedLockIsSaturated := fun s t hquiet hwidth hne =>
  ⟨_, s.forcedLock t, run_modify (run_get ((congrFun (if_neg hne) _).trans (act_quiet (s := s.setStep .dllPost) hquiet _))),
    rfl, rfl, rfl, saturate_toNat hwidth _⟩

/-- Settles O43: DLL_POST is the control word and the wait for the lock-detect bits. -/
theorem dllLockedOnlyIfSeen : Obligations.DllLockedOnlyIfSeen := by
  rintro s _ hquiet rfl
  have hfree := act_quiet (s := s.setStep .dllPost) hquiet State.freeDll
  obtain ⟨ws, u, hnone, hend⟩ := waitLocked_quiet (s := (s.setStep .dllPost).freeDll) hquiet
  have htrace : ∀ {l : List Word}, RegisterRead .phy s.cfg.offDllStat l (s.setStep .dllPost).freeDll u →
      u.env.trace = s.env.trace ++
        .wr .phy s.cfg.offDllCtrl (s.cfg.dllCtrl.word false s.pendingLock) :: statusReads s.cfg l :=
    fun hreads => hreads.traffic.trace.trans (List.append_assoc _ [_] _)
  obtain ⟨x, hx, hlength, hwait, hreads⟩ | ⟨hlength, hwait, hreads⟩ := hend
  · have hregs := hreads.traffic.regs
    refine .inl ⟨u.markLocked, ws, x,
      run_modify (run_get ((congrFun (if_pos rfl) _).trans (run_bind hfree (run_bind hwait rfl)))), ?_⟩
    refine ⟨by rw [hregs]; rfl, rfl, by rw [hregs]; rfl, hreads.kept.trans (by simp), hlength, hnone, hx, htrace hreads⟩
  · have hregs := hreads.traffic.regs
    refine .inr ⟨_, ws,
      run_modify (run_get ((congrFun (if_pos rfl) _).trans (run_bind hfree (run_bind_error hwait)))), ?_⟩
    refine ⟨by rw [hregs]; rfl, by rw [hregs]; rfl, by rw [hregs]; rfl, by rw [hregs]; rfl, rfl, rfl, rfl, hlength,
      hnone, fun hbudget => hreads.getLast? (List.ne_nil_of_length_pos (hlength ▸ hbudget)), htrace hreads⟩

end Sys2Proof.Machine
end

section
/-! SUPPORT. The select word in a list of events (spec/41_transition_engine.md R158, R159, spec/10_state.md R40), event by
event: what is last written and last seen, what a read must answer, and what a write must keep to. -/

namespace Sys2Proof.Machine

variable {c : Config} {known seen : Option Word}

/-- R40: the word last written at `OFF_TSEL` after one more event. -/
def selectAfter (c : Config) (known : Option Word) : Event → Option Word
  | .wr .drex off v => if off = c.offTsel then some v else known
  | _ => known

/-- The select word last read or written after one more event. -/
def seenAfter (c : Config) (seen : Option Word) : Event → Option Word
  | .wr .drex off v => if off = c.offTsel then some v else seen
  | .rd .drex off v => if off = c.offTsel then some v else seen
  | _ => seen

/-- R40: a read of the select word answers the word known. -/
def ReadsBackAt (c : Config) (known : Option Word) (e : Event) : Prop :=
  ∀ v, e = .rd .drex c.offTsel v → known = none ∨ known = some v

/-- R158: a select word is written flipped, and a timing word to the set that the word seen does not name. -/
def AlternatesAt (c : Config) (seen : Option Word) (e : Event) : Prop :=
  ∀ off v, e = .wr .drex off v →
    if off = c.offTsel then ∃ w, seen = some w ∧ v = flipSelect c w
    else off ∈ c.offTset0 ∨ off ∈ c.offTset1 → ∃ w, seen = some w ∧ off ∈ inactiveSet c w

theorem lastSelect_cons (e : Event) (evs : List Event) :
    lastSelect c known (e :: evs) = lastSelect c (selectAfter c known e) evs := by
  cases e with
  | wr w off v => cases w <;> rfl
  | _ => rfl

theorem selectReadsBack_cons (e : Event) (evs : List Event) : SelectReadsBack c known (e :: evs) ↔
    ReadsBackAt c known e ∧ SelectReadsBack c (selectAfter c known e) evs := by
  cases e with
  | wr w off v => cases w <;> exact (and_iff_right nofun).symm
  | rd w off v =>
    cases w with
    | drex => exact and_congr_left fun _ => ⟨fun h v' he => by cases he; exact h rfl, fun h ho => h v (ho ▸ rfl)⟩
    | phy => exact (and_iff_right nofun).symm
  | _ => exact (and_iff_right nofun).symm

theorem timingAlternates_cons (e : Event) (evs : List Event) : TimingAlternates c seen (e :: evs) ↔
    AlternatesAt c seen e ∧ TimingAlternates c (seenAfter c seen e) evs := by
  cases e with
  | wr w off v =>
    cases w with
    | drex =>
      have hat : AlternatesAt c seen (.wr .drex off v) ↔ if off = c.offTsel then ∃ w, seen = some w ∧ v = flipSelect c w
          else off ∈ c.offTset0 ∨ off ∈ c.offTset1 → ∃ w, seen = some w ∧ off ∈ inactiveSet c w :=
        ⟨fun h => h off v rfl, fun h off' v' he => by cases he; exact h⟩
      rw [hat, TimingAlternates, seenAfter]
      split <;> rfl
    | phy => exact (and_iff_right nofun).symm
  | rd w off v => cases w <;> exact (and_iff_right nofun).symm
  | _ => exact (and_iff_right nofun).symm

theorem lastSelect_eq_foldl (evs : List Event) : ∀ known, lastSelect c known evs = evs.foldl (selectAfter c) known := by
  induction evs with
  | nil => exact fun _ => rfl
  | cons e evs ih => exact fun known => (lastSelect_cons e evs).trans (ih _)

theorem lastSelect_snoc (evs : List Event) (e : Event) :
    lastSelect c known (evs ++ [e]) = selectAfter c (lastSelect c known evs) e := by
  simp [lastSelect_eq_foldl]

theorem selectReadsBack_snoc (evs : List Event) (e : Event) : ∀ known, SelectReadsBack c known (evs ++ [e]) ↔
    SelectReadsBack c known evs ∧ ReadsBackAt c (lastSelect c known evs) e := by
  induction evs with
  | nil => exact fun known => (selectReadsBack_cons e []).trans and_comm
  | cons e' evs ih =>
    intro known
    rw [List.cons_append, selectReadsBack_cons, selectReadsBack_cons, ih, lastSelect_cons, and_assoc]

/-- The select word last read or written after a list of events. -/
def lastSeen (c : Config) (seen : Option Word) (evs : List Event) : Option Word := evs.foldl (seenAfter c) seen

theorem lastSeen_snoc (evs : List Event) (e : Event) :
    lastSeen c seen (evs ++ [e]) = seenAfter c (lastSeen c seen evs) e := by simp [lastSeen]

theorem timingAlternates_snoc (evs : List Event) (e : Event) : ∀ seen, TimingAlternates c seen (evs ++ [e]) ↔
    TimingAlternates c seen evs ∧ AlternatesAt c (lastSeen c seen evs) e := by
  induction evs with
  | nil => exact fun seen => (timingAlternates_cons e []).trans and_comm
  | cons e' evs ih =>
    intro seen
    rw [List.cons_append, timingAlternates_cons, timingAlternates_cons, ih, and_assoc]
    rfl

/-- R40, R159: what the events since the word `known` was last written must be like. -/
structure SelectLog (c : Config) (known : Option Word) (evs : List Event) : Prop where
  readsBack : SelectReadsBack c known evs
  alternates : SelectApart c → TimingAlternates c known evs

/-- An event that writes neither the select word nor a timing word, where these have offsets of their own. -/
def Harmless (c : Config) (e : Event) : Prop :=
  SelectApart c → ∀ off v, e = .wr .drex off v → off ≠ c.offTsel ∧ off ∉ c.offTset0 ∧ off ∉ c.offTset1

theorem Harmless.alternatesAt {e : Event} (h : Harmless c e) (hapart : SelectApart c) : AlternatesAt c seen e := by
  intro off v he
  obtain ⟨hsel, hset0, hset1⟩ := h hapart off v he
  rw [if_neg hsel]
  exact fun hset => (hset.elim hset0 hset1).elim

theorem SelectLog.snoc {evs : List Event} {e : Event} (h : SelectLog c known evs)
    (hreads : ReadsBackAt c (lastSelect c known evs) e)
    (halternates : SelectApart c → AlternatesAt c (lastSeen c known evs) e) : SelectLog c known (evs ++ [e]) where
  readsBack := (selectReadsBack_snoc evs e known).2 ⟨h.readsBack, hreads⟩
  alternates hapart := (timingAlternates_snoc evs e known).2 ⟨h.alternates hapart, halternates hapart⟩

theorem State.outRead_selWord (s : State) (w : Window) (off : Nat) : (s.outRead w off).2.env.selWord = s.env.selWord := by
  unfold State.outRead
  split
  · rfl
  · unfold Env.drawWord; cases s.env.readAnswers <;> rfl

/-! ### The select word while an operation runs (R40, R159) -/

/-- Under the ownership obligation: the trace is `tr` with events added that are as `SelectLog` and F say, and the word
owed back is the last one written. -/
structure SelectTracked (c : Config) (known : Option Word) (tr : List Event) (F : List Event → Prop) (s : State) :
    Prop where
  cfg : s.cfg = c
  owned : s.env.owned = true
  added : ∃ evs, s.env.trace = tr ++ evs ∧ SelectLog c known evs ∧ s.env.selWord = lastSelect c known evs ∧ F evs

/-- So it is, with no reset to come. -/
def Tracking (c : Config) (known : Option Word) (tr : List Event) (F : List Event → Prop) (s : State) : Prop :=
  s.noReset ∧ SelectTracked c known tr F s

variable {tr : List Event} {F F' : List Event → Prop} {s t : State}

theorem SelectTracked.same (h : SelectTracked c known tr F s) (hcfg : t.cfg = s.cfg)
    (howned : t.env.owned = s.env.owned) (hsel : t.env.selWord = s.env.selWord)
    (htrace : t.env.trace = s.env.trace) : SelectTracked c known tr F t where
  cfg := hcfg.trans h.cfg
  owned := howned.trans h.owned
  added := by rw [htrace, hsel]; exact h.added

/-- With no more said of the events. -/
abbrev Tracked (c : Config) (known : Option Word) (tr : List Event) : State → Prop := Tracking c known tr fun _ => True

namespace Tracking

theorem mono (h : Tracking c known tr F s) (hF : ∀ evs, F evs → F' evs) : Tracking c known tr F' s := by
  obtain ⟨hnone, hc, ho, evs, hevs, hlog, hlast, hf⟩ := h
  exact ⟨hnone, hc, ho, evs, hevs, hlog, hlast, hF evs hf⟩

theorem turn : Turn (Tracking c known tr F) (StopsUnreset (Tracked c known tr)) := by
  have h : Turn (Tracking c known tr F) (StopsUnreset (Tracking c known tr F)) := Turn.of_noReset <|
    stable_of_frame (fun _ _ hf h => h.same hf.cfg hf.owned hf.selWord hf.trace) (fun _ _ _ => trivial)
      fun _ _ _ => trivial
  refine h.conseq (fun _ h => h) (fun _ _ h => h) fun e t h => ?_
  cases e with
  | timeout => exact h.mono fun _ _ => trivial
  | reset => exact h
  | fault f => trivial

/-- An update that leaves the model's own fields alone. -/
theorem same (h : Tracking c known tr F s) (hcfg : t.cfg = s.cfg) (henv : t.env = s.env) : Tracking c known tr F t :=
  ⟨by rw [State.noReset, henv]; exact h.1, h.2.same hcfg (by rw [henv]) (by rw [henv]) (by rw [henv])⟩

/-- One more event. -/
theorem snoc {e : Event} (h : Tracking c known tr F s) (hcfg : t.cfg = s.cfg)
    (hinputs : t.env.inputs = s.env.inputs) (howned : t.env.owned = s.env.owned)
    (hsel : t.env.selWord = selectAfter c s.env.selWord e) (htrace : t.env.trace = s.env.trace ++ [e])
    (hreads : ReadsBackAt c s.env.selWord e)
    (halternates : ∀ evs, F evs → SelectApart c → AlternatesAt c (lastSeen c known evs) e)
    (hF : ∀ evs, F evs → F' (evs ++ [e])) : Tracking c known tr F' t := by
  obtain ⟨hnone, hc, ho, evs, hevs, hlog, hlast, hf⟩ := h
  refine ⟨by rw [State.noReset, hinputs]; exact hnone, hcfg.trans hc, howned.trans ho, evs ++ [e],
    by rw [htrace, hevs, List.append_assoc], hlog.snoc (hlast ▸ hreads) (halternates evs hf), ?_, hF evs hf⟩
  rw [hsel, hlast, lastSelect_snoc]

/-- R40, R66: a read answers the select word that is owed. -/
theorem outRead (h : Tracking c known tr F s) (w : Window) (off : Nat)
    (hF : ∀ evs, F evs → F' (evs ++ [.rd w off (s.outRead w off).1])) :
    Tracking c known tr F' (s.outRead w off).2 := by
  refine h.snoc (e := .rd w off (s.outRead w off).1) (by simp) (by simp) (s.outRead_owned w off) (s.outRead_selWord w off)
    (outRead_trace s w off) (fun v he => ?_) (fun _ _ _ => nofun) hF
  cases hsel : s.env.selWord with
  | none => exact .inl rfl
  | some known =>
    obtain ⟨rfl, rfl, rfl⟩ := Event.rd.inj he
    refine .inr (congrArg some (State.outRead_of_owed ?_).symm)
    rw [State.owedWord, if_pos h.2.owned, if_pos ⟨rfl, h.2.cfg ▸ rfl⟩, hsel]

/-- R40, R66: a write of the select word is owed back. -/
theorem outWrite (h : Tracking c known tr F s) (w : Window) (off : Nat) (v : Word)
    (halternates : ∀ evs, F evs → SelectApart c → AlternatesAt c (lastSeen c known evs) (.wr w off v))
    (hF : ∀ evs, F evs → F' (evs ++ [.wr w off v])) : Tracking c known tr F' (s.outWrite w off v) := by
  refine h.snoc (t := s.outWrite w off v) rfl rfl rfl ?_ rfl nofun halternates hF
  have hword : (s.outWrite w off v).env.selWord = if w = .drex ∧ off = c.offTsel then some v else s.env.selWord :=
    h.2.cfg ▸ rfl
  rw [hword]
  cases w with
  | drex => simp [selectAfter]
  | phy => rfl

theorem outWrite_phy (h : Tracked c known tr s) (off : Nat) (v : Word) :
    Tracked c known tr (s.outWrite .phy off v) := h.outWrite .phy off v (fun _ _ _ _ _ => nofun) fun _ _ => trivial

/-- R67: a poll. -/
theorem outPoll (h : Tracked c known tr s) (sig : Signal) : Tracked c known tr (s.outPoll sig).2 := by
  have hdraw : s.env.drawBit.2.owned = s.env.owned ∧ s.env.drawBit.2.selWord = s.env.selWord := by
    unfold Env.drawBit; cases s.env.pollAnswers <;> exact ⟨rfl, rfl⟩
  exact h.snoc (e := .poll sig (s.outPoll sig).1) rfl (by simp) hdraw.1 hdraw.2 (outPoll_trace s sig) nofun
    (fun _ _ _ => nofun) fun _ _ => trivial

/-- An event that is neither a read nor a write. -/
theorem other {e : Event} (h : Tracked c known tr s) (hcfg : t.cfg = s.cfg) (henv : t.env = (s.record e).env)
    (hread : ∀ w off v, e ≠ .rd w off v) (hwrite : ∀ w off v, e ≠ .wr w off v) : Tracked c known tr t := by
  have hsel : selectAfter c s.env.selWord e = s.env.selWord := by
    cases e with
    | wr w off v => exact absurd rfl (hwrite w off v)
    | _ => rfl
  exact h.snoc (e := e) hcfg (by rw [henv]; rfl) (by rw [henv]; rfl) (by rw [henv, hsel]; rfl) (by rw [henv]; rfl)
    (fun _ he => absurd he (hread _ _ _)) (fun _ _ _ _ _ he => absurd he (hwrite _ _ _)) fun _ _ => trivial

theorem call (h : Tracked c known tr s) {p : Prim} (hcfg : t.cfg = s.cfg) (henv : t.env = (s.record (.call p)).env) :
    Tracked c known tr t := h.other hcfg henv (fun _ _ _ => nofun) fun _ _ _ => nofun

/-! ### The Transition Engine (R150 to R174) -/

/-- However it ends, the operation keeps the log. -/
abbrev Tracks {α : Type} (c : Config) (known : Option Word) (tr : List Event) (op : Op α) : Prop :=
  Keeps (Tracked c known tr) (StopsUnreset (Tracked c known tr)) op

/-- What is harmless keeps the log, as do all reads, polls and calls. -/
theorem passesCalls :
    PassesCalls c (Harmless c) (Tracked c known tr) (StopsUnreset (Tracked c known tr)) where
  cfg _ h := h.2.cfg
  turn := Tracking.turn
  setStep s x h := h.same (t := s.setStep x) rfl rfl
  attempt _ _ h := h.same rfl rfl
  lastWord _ _ h := h.same rfl rfl
  read _ w off _ h := h.outRead w off fun _ _ => trivial
  write _ w off v he h := h.outWrite w off v (fun _ _ => he.alternatesAt) fun _ _ => trivial
  poll _ sig _ h := h.outPoll sig
  warned s sig arg snap h := h.same (t := (s.recordTimeout sig arg snap).raiseInt .warn) rfl rfl
  timeout s sig arg snap h := h.same (t := s.recordTimeout sig arg snap) rfl rfl
  voltage s v _ h := h.call (t := s.issueVoltage v) rfl rfl
  clock s first t p _ h := h.call (t := s.issueClock first t p) rfl rfl
  safeMux s _ h := h.call (t := s.issueSafeMux) rfl rfl
  pll s t _ h := h.call (t := s.issuePll t) rfl rfl
  targetMux s t _ h := h.call (t := s.issueTargetMux t) rfl rfl
  keepLock s w h := h.same (t := s.keepLock w) rfl rfl
  forceDll s v _ h := (h.outWrite_phy _ _).same (t := s.forceDll v) rfl rfl
  freeDll s _ h := (h.outWrite_phy _ _).same (t := s.freeDll) rfl rfl
  markLocked s h := h.same (t := s.markLocked) rfl rfl

theorem inactiveSet_ne_offTsel {w : Word} {off : Nat} (hapart : SelectApart c) (h : off ∈ inactiveSet c w) :
    off ≠ c.offTsel := by
  rintro rfl
  obtain ⟨h0, h1⟩ := hapart.sets
  unfold inactiveSet Config.timingSet at h
  split at h
  · exact h1 h
  · exact h0 h

/-- R158: after its read, `write_timing` has seen the word `w`. -/
def HasSeen (c : Config) (known : Option Word) (w : Word) (evs : List Event) : Prop :=
  SelectApart c → lastSeen c known evs = some w

/-- R158: a timing word goes to the set that the word seen does not name, and is no select word. -/
theorem writeWords {w : Word} (offs : List Nat) : ∀ words, (∀ off ∈ offs, off ∈ inactiveSet c w) →
    Keeps (Tracking c known tr (HasSeen c known w)) (StopsUnreset (Tracked c known tr)) (writeWords offs words) := by
  induction offs with
  | nil => exact fun _ _ => Keeps.pure _
  | cons off offs ih =>
    intro words hset
    obtain ⟨hoff, hoffs⟩ := List.forall_mem_cons.1 hset
    cases words with
    | nil => exact Keeps.pure _
    | cons v words =>
      refine Keeps.bind (Triple.act turn fun s h => h.outWrite .drex off v ?_ ?_) fun _ => ih words hoffs
      · rintro evs hseen hapart _ _ ⟨⟩
        rw [if_neg (inactiveSet_ne_offTsel hapart hoff)]
        exact fun _ => ⟨w, hseen hapart, hoff⟩
      · intro evs hseen hapart
        rw [lastSeen_snoc, hseen hapart, seenAfter, if_neg (inactiveSet_ne_offTsel hapart hoff)]

/-- R158: then the select word is written flipped. -/
theorem writeTiming (l : Level) : Tracks c known tr (writeTiming l) := by
  refine Triple.get_knowing fun s hs => ?_
  rw [hs.2.cfg]
  refine Triple.bind (Q := fun w => Tracking c known tr (HasSeen c known w)) (Triple.memRead turn fun s h => ?_) fun w =>
    Triple.seq (writeWords _ _ fun _ h => h) (Triple.act turn fun s h => h.outWrite .drex c.offTsel _ ?_ fun _ _ => trivial)
  · refine h.outRead .drex c.offTsel fun evs _ _ => ?_
    rw [lastSeen_snoc, seenAfter, if_pos rfl]
  · rintro evs hseen hapart _ _ ⟨⟩
    rw [if_pos rfl]
    exact ⟨w, hseen hapart, rfl⟩

end Tracking

end Sys2Proof.Machine
end

section
/-! SUPPORT. The select word through a whole body, command, tick and step (spec/41_transition_engine.md R159): each is
made of `write_timing` and of what keeps the log without it. -/

namespace Sys2Proof.Machine

variable {c : Config} {known : Option Word} {tr : List Event} {th : Thermal}

/-! ### The events that keep the log by themselves -/

namespace Harmless

theorem read (w : Window) (off : Nat) (v : Word) : Harmless c (.rd w off v) := fun _ _ _ => nofun

theorem phy (off : Nat) (v : Word) : Harmless c (.wr .phy off v) := fun _ _ _ => nofun

theorem call (p : Prim) : Harmless c (.call p) := fun _ _ _ => nofun

theorem poll (sig : Signal) (b : Bool) : Harmless c (.poll sig b) := fun _ _ _ => nofun

theorem aref (v : Word) : Harmless c (.wr .drex c.offAref v) := by
  rintro hapart _ _ ⟨⟩
  exact hapart.aref

theorem mrr (hth : c.thermal = some th) (v : Word) : Harmless c (.wr .drex th.offMrrCmd v) := by
  rintro hapart _ _ ⟨⟩
  exact hapart.mrr th hth

end Harmless

namespace Tracking

/-! ### A body (R150 to R174) -/

theorem clockChange (o t : Level) : Tracks c known tr (clockChange o t) := by
  have h := passesCalls (c := c) (known := known) (tr := tr)
  have hmux := h.repointAll (fun _ _ => .call _) (fun _ => .poll _) t
  have hdiv : ∀ first, Tracks c known tr (setDiv first t) := fun first => h.setDiv (fun _ _ => .call _) (.poll _)
  refine Keeps.get_bind fun s _ => ?_
  cases s.cfg.switchOrder o t with
  | muxThenDiv => exact (hmux _ _).bind fun _ => hdiv _
  | divThenMux => exact (hdiv _).bind fun _ => hmux _ _

theorem simplePath (o t : Level) (u : Bool) : Tracks c known tr (simplePath o t u) := by
  have h := passesCalls (c := c) (known := known) (tr := tr)
  cases u with
  | false =>
    exact (h.goTo _).bind fun _ => (clockChange o t).bind fun _ => (h.goTo _).bind fun _ => writeTiming t
  | true =>
    exact ((h.goTo _).bind fun _ => writeTiming t).bind fun _ => (h.goTo _).bind fun _ =>
      (clockChange o t).bind fun _ => Keeps.pure _

theorem pllSafeSwitch (t : Level) : Tracks c known tr (pllSafeSwitch t) := by
  have h := passesCalls (c := c) (known := known) (tr := tr)
  have hwait : ∀ x, Tracks c known tr (pssWait x) := fun x => h.pssWait (.poll _)
  have hsafe : Tracks c known tr pssSafeMux := (h.goTo _).bind fun _ => h.act fun s => h.safeMux s (.call _)
  have hpll : Tracks c known tr (pssReprogram t) := (h.goTo _).bind fun _ =>
    (h.act fun s => h.pll s t (.call _)).bind fun _ => (h.waitSig (.poll _)).bind fun _ => Keeps.pure _
  have htarget : Tracks c known tr (pssTargetMux t) :=
    (h.goTo _).bind fun _ => h.act fun s => h.targetMux s t (.call _)
  exact hsafe.bind fun _ => Keeps.bind ((h.goTo _).bind fun _ => Keeps.get_bind fun _ _ => writeTiming _) fun _ =>
    (hwait _).bind fun _ => hpll.bind fun _ => Keeps.bind ((h.goTo _).bind fun _ => writeTiming t) fun _ =>
    htarget.bind fun _ => hwait _

theorem transitionBody (f : Word) (origin : Origin) : Tracks c known tr (transitionBody f origin) := by
  have h := passesCalls (c := c) (known := known) (tr := tr)
  have haref := h.arefWrite Harmless.aref
  have hclock : ∀ o t u, Tracks c known tr (clockPath o t u) := fun o t u => Keeps.get_bind fun _ _ =>
    Keeps.ite (fun _ => pllSafeSwitch t) fun _ => simplePath o t u
  exact Keeps.transitionBody h.setStep (fun s t o hs => hs.same (t := s.beginBody t o) rfl rfl) haref
    (fun o t => Triple.changeLevel (M := fun _ => Tracked c known tr) h.cfg (h.dllCapture (.read _ _) (.phy _))
      (fun _ => h.voltageStep (fun _ => .call _) (.poll _)) (hclock o t _) (h.dllPost (.read _ _) (.phy _) t) haref)
    f origin

theorem catchBody (f : Word) (origin : Origin) : Tracks c known tr (catchTimeout (Machine.transitionBody f origin)) :=
  Keeps.catchUnreset (transitionBody f origin)

/-! ### A command (R122 to R127) -/

theorem runsCommand (i : Instr) :
    RunsCommand i (Tracked c known tr) (Tracked c known tr) (StopsUnreset (Tracked c known tr)) where
  turn := turn
  store s h := h.same (t := storeOf i s) (by cases i <;> rfl) (by cases i <;> rfl)
  body f := catchBody f .cmd
  voltage := Keeps.catchUnreset <| (passesCalls.goTo _).bind fun _ => Keeps.get_bind fun _ _ =>
    (passesCalls.setVolt (.call _) (.poll _)).bind fun _ => Keeps.pure _
  complete s code res _ _ h := h.same (t := s.completeCmd code res) rfl rfl

/-! ### A tick (R225 to R236) -/

/-- An update that leaves the model's own fields alone. -/
theorem modify {f : State → State} (hcfg : ∀ s, (f s).cfg = s.cfg) (henv : ∀ s, (f s).env = s.env) :
    Tracks c known tr (modify f : Op Unit) := Keeps.modify fun s h => h.same (hcfg s) (henv s)

theorem sampleRank (hth : c.thermal = some th) (n : Nat) (second : Bool) (cmd : Word) :
    Tracks c known tr (sampleRank th n second cmd) := by
  have h := passesCalls (c := c) (known := known) (tr := tr)
  exact (h.memWrite (.mrr hth cmd)).bind fun _ => (h.waitReg (.read _ _)).bind fun _ => Keeps.ite
    (fun _ => (h.memRead (.read _ _)).bind fun _ => Keeps.bind (modify (fun _ => rfl) fun _ => rfl) fun _ => Keeps.pure _)
    fun _ => Keeps.pure _

theorem sampleAll (hth : c.thermal = some th) : Tracks c known tr (sampleAll th) := by
  have hfrom : ∀ cmds n, Tracks c known tr (sampleFrom th n cmds) := fun cmds => by
    induction cmds with
    | nil => exact fun _ => Keeps.pure _
    | cons p rest ih =>
      exact fun n => (sampleRank hth n false p.1).bind fun _ => Keeps.ite
        (fun _ => (sampleRank hth n true p.2).bind fun _ => Keeps.ite (fun _ => ih (n + 1)) fun _ => Keeps.pure _)
        fun _ => Keeps.pure _
  exact (passesCalls.goTo _).bind fun _ => Keeps.bind (modify (fun _ => rfl) fun _ => rfl) fun _ => hfrom _ _

theorem notifyChanges (prev : List Byte) : Tracks c known tr (notifyChanges prev) := by
  have hfrom : ∀ (news prevs : List Byte) n, Tracks c known tr (notifyFrom n news prevs) := fun news => by
    induction news with
    | nil => exact fun _ _ => Keeps.pure _
    | cons new news ih =>
      intro prevs n
      cases prevs with
      | nil => exact Keeps.pure _
      | cons prev prevs =>
        exact Keeps.ite (fun _ => ih _ _) fun _ => Keeps.bind (Triple.act turn fun s h =>
          h.other (t := s.record (.notify new n)) rfl rfl (fun _ _ _ => nofun) fun _ _ _ => nofun) fun _ =>
          (ih _ _).bind fun _ => Keeps.pure _
  exact Keeps.get_bind fun _ _ => (hfrom _ _ _).bind fun _ =>
    Keeps.ite (fun _ => modify (fun _ => rfl) fun _ => rfl) fun _ => Keeps.pure _

theorem reevalIfChanged (oldCeiling : Word) : Tracks c known tr (reevalIfChanged oldCeiling) := by
  have hreeval : Tracks c known tr reeval := (passesCalls.goTo _).bind fun _ => Keeps.get_bind fun _ _ => Keeps.ite
    (fun _ => (catchBody _ _).bind fun r => modify (fun _ => by cases r <;> rfl) fun _ => by cases r <;> rfl)
    fun _ => Keeps.pure _
  exact Keeps.get_bind fun _ _ => Keeps.ite (fun _ => hreeval) fun _ => Keeps.pure _

/-- An action that leaves the model's own fields alone. -/
theorem act {f : State → State} (hcfg : ∀ s, (f s).cfg = s.cfg) (henv : ∀ s, (f s).env = s.env) :
    Tracks c known tr (act f) := passesCalls.act fun s h => h.same (hcfg s) (henv s)

theorem updateTick (th : Thermal) : Tracks c known tr (updateTick th) := by
  have h := passesCalls (c := c) (known := known) (tr := tr)
  have htrip : ∀ v, Tracks c known tr (trip v) := fun v => Keeps.bind (h.act fun s hs =>
    hs.other (t := s.shutDown) rfl rfl (fun _ _ _ => nofun) fun _ _ _ => nofun) fun _ =>
    (reevalIfChanged v).bind fun _ => act (fun _ => rfl) fun _ => rfl
  have haref : Tracks c known tr monAref := (h.goTo _).bind fun _ => h.act fun s hs =>
    h.write s .drex _ _ (hs.2.cfg ▸ .aref _) hs
  exact (h.goTo _).bind fun _ => Keeps.get_bind fun _ _ => Keeps.bind (modify (fun _ => rfl) fun _ => rfl) fun _ =>
    (notifyChanges _).bind fun _ => Keeps.get_bind fun _ _ => Keeps.bind (modify (fun _ => rfl) fun _ => rfl) fun _ =>
    Keeps.get_bind fun _ _ => Keeps.ite (fun _ => htrip _) fun _ => haref.bind fun _ =>
    (reevalIfChanged _).bind fun _ => act (fun _ => rfl) fun _ => rfl

theorem tick (hth : c.thermal = some th) : Tracks c known tr (tick th) :=
  (sampleAll hth).bind fun _ => Keeps.ite (fun _ => updateTick th) fun _ => act (fun _ => rfl) fun _ => rfl

end Tracking

/-! ### A step -/

/-- The state with fewer inputs to come, and so many answers drawn. -/
def State.turned (s : State) (l : List Input) (n : Nat) : State := s.withEnv { s.env with inputs := l, draws := n }

/-- What a step that answers a next state did, and what it left of the model's own fields as it started: it took in an
input, or nothing, or ran what was ready. -/
inductive StepRun (s t : State) : Prop
  | input (u : State) (l : List Input) (n : Nat) (hl : l ⊆ s.env.inputs) (hf : InputFrame s u) (ht : t = u.turned l n)
  | reset (hi : Input.rst ∈ s.env.inputs)
  | command (l : List Input) (n : Nat) (hl : l ⊆ s.env.inputs) (i : Instr)
      (hx : exec i (s.turned l n).takeCommand = .next t)
  | illegal (l : List Input) (n : Nat) (hl : l ⊆ s.env.inputs) (hx : execIllegal (s.turned l n).takeCommand = .next t)
  | tick (l : List Input) (n : Nat) (hl : l ⊆ s.env.inputs) (th : Thermal) (hth : s.cfg.thermal = some th)
      (hx : runTick th (s.turned l n) = .next t)

theorem stepRun_startReady {s t : State} {l : List Input} {n : Nat} {p : Pick} (hl : l ⊆ s.env.inputs)
    (hx : startReady p (s.turned l n) = .next t) : StepRun s t := by
  have hnone : (Host.Outcome.next (s.turned l n) : Host.Outcome State Fault Refusal) = .next t → StepRun s t := fun h => by
    cases h
    exact .input s l n hl (.refl s) rfl
  have hslot : startSlot (s.turned l n) = .next t → StepRun s t := fun h => by
    unfold startSlot startCommand at h
    split at h
    · split at h
      · exact .command l n hl _ h
      · exact .illegal l n hl h
    · exact hnone h
  have htick : startTick (s.turned l n) = .next t → StepRun s t := fun h => by
    unfold startTick at h
    split at h
    · next th hth => exact .tick l n hl th hth h
    · exact hnone h
  unfold startReady at hx
  split at hx
  · cases p with
    | cmd => exact hslot hx
    | tick => exact htick hx
  · exact hslot hx
  · exact htick hx
  · exact hnone hx

theorem stepRun {s t : State} (hx : step s = .next t) : StepRun s t := by
  unfold step stepBlock at hx
  split at hx
  · unfold nextAction at hx
    split at hx
    · unfold arbitrate at hx
      split at hx
      · exact stepRun_startReady (l := s.env.inputs) (n := s.env.draws + 1) (List.Subset.refl _) hx
      · exact stepRun_startReady (l := s.env.inputs) (n := s.env.draws) (List.Subset.refl _) hx
    · next rest hi => exact stepRun_startReady (l := rest) (n := s.env.draws) (by simp [hi]) hx
    · next rest hi => cases hx; exact .input s.msTick rest _ (by simp [hi]) (inputFrame_msTick s) rfl
    · next hi => exact .reset (by simp [hi])
    · next rest hi =>
      split at hx
      · next u ha => cases hx; exact .input u rest _ (by simp [hi]) (inputFrame_hostAccess ha) rfl
      · cases hx
    · next rest hi =>
      split at hx
      · next u ha => cases hx; exact .input u rest _ (by simp [hi]) (inputFrame_hostTurn ha) rfl
      · cases hx
  · cases hx

/-- R40, R159: each of a step's runs keeps the log. -/
theorem tracked_step {s t : State} (hnone : s.noReset) (howned : s.env.owned = true) (hstep : step s = .next t) :
    Tracked s.cfg s.env.selWord s.env.trace t := by
  have hstart : ∀ {u : State} {l n}, l ⊆ s.env.inputs → InputFrame s u →
      Tracked s.cfg s.env.selWord s.env.trace (u.turned l n) := fun {u l n} hl hf =>
    ⟨fun hr => hnone (hl hr), hf.cfg, hf.owned.trans howned, [], hf.trace.trans (List.append_nil _).symm,
      ⟨trivial, fun _ => trivial⟩, hf.selWord, trivial⟩
  cases stepRun hstep with
  | input u l n hl hf ht => exact ht ▸ hstart hl hf
  | reset hi => exact absurd hi hnone
  | command l n hl i hx =>
    exact StopsUnreset.of_ends ((Tracking.runsCommand i).exec
      ((hstart hl (.refl s)).same (t := (s.turned l n).takeCommand) rfl rfl) hx)
  | illegal l n hl hx =>
    have hop : Tracking.Tracks s.cfg s.env.selWord s.env.trace (completeWith 4 none) :=
      Tracking.act (fun _ => rfl) fun _ => rfl
    exact StopsUnreset.of_ends (runOp_next hop
      ((hstart hl (.refl s)).same (t := (s.turned l n).takeCommand) rfl rfl) hx)
  | tick l n hl th hth hx =>
    exact StopsUnreset.of_ends (runOp_next (Tracking.tick hth)
      ((hstart hl (.refl s)).same (t := (s.turned l n).takeTick) rfl rfl) hx)

/-- Settles O40: two timing writes side by side, and the log of the select word through a step. -/
theorem timingSetsAlternate : Obligations.TimingSetsAlternate := by
  refine ⟨fun s l l' hquiet howned hbit => timingSets_alternate hquiet howned hbit l l', fun s t howned hnone hstep => ?_⟩
  obtain ⟨hnone', -, howned', evs, htrace, hlog, hsel, -⟩ := tracked_step hnone howned hstep
  exact ⟨howned', hnone', evs, htrace, hlog.readsBack, hsel, hlog.alternates⟩

end Sys2Proof.Machine
end

section
/-! SUPPORT. A body that changes the level while nothing comes from outside (spec/41_transition_engine.md R150 to R174):
what it has added to the trace, part by part, what it has set, and what a wait that fails leaves (R176, R271). -/

namespace Sys2Proof.Machine

/-! ### Events in order -/

theorem inOrder_append {ps qs : List (List Event → Prop)} : ∀ {evs : List Event},
    InOrder (ps ++ qs) evs ↔ ∃ a b, evs = a ++ b ∧ InOrder ps a ∧ InOrder qs b := by
  induction ps with
  | nil => exact fun {evs} => ⟨fun h => ⟨[], evs, rfl, rfl, h⟩, by rintro ⟨_, b, rfl, rfl, h⟩; exact h⟩
  | cons p ps ih =>
    intro evs
    constructor
    · rintro ⟨a, _, rfl, ha, hrest⟩
      obtain ⟨b, b', rfl, hb, hb'⟩ := ih.1 hrest
      exact ⟨a ++ b, b', (List.append_assoc a b b').symm, ⟨a, b, rfl, ha, hb⟩, hb'⟩
    · rintro ⟨_, b', rfl, ⟨a, b, rfl, ha, hb⟩, hb'⟩
      exact ⟨a, b ++ b', List.append_assoc a b b', ha, ih.2 ⟨b, b', rfl, hb, hb'⟩⟩

theorem inOrder_snoc {ps : List (List Event → Prop)} {p : List Event → Prop} {evs : List Event} :
    InOrder (ps ++ [p]) evs ↔ ∃ a b, evs = a ++ b ∧ InOrder ps a ∧ p b := by
  rw [inOrder_append]
  refine exists_congr fun a => exists_congr fun b => and_congr_right fun _ => and_congr_right fun _ => ?_
  constructor
  · rintro ⟨b, _, rfl, hb, rfl⟩
    rwa [List.append_nil]
  · exact fun hb => ⟨b, [], (List.append_nil b).symm, hb, rfl⟩

/-- Such a part ends with a command of the block, so a wait may follow it. -/
def EndsInCommand (p : List Event → Prop) : Prop :=
  ∀ evs, p evs → ∃ pre command, evs = pre ++ [command] ∧ command.isCommand = true

theorem EndsInCommand.just {e : Event} (h : e.isCommand = true) : EndsInCommand (Just [e]) := by
  rintro _ rfl
  exact ⟨[], e, rfl, h⟩

/-- R158: the protocol ends with the select word written. -/
theorem EndsInCommand.timing (c : Config) (l : Level) : EndsInCommand (TimingWritten c l) := by
  rintro _ ⟨w, rfl⟩
  exact ⟨_ :: _, _, rfl, rfl⟩

/-! ### What a body has done so far -/

/-- The registers that the parts of a level change set, and the step it is in. -/
structure BodyRegs where
  step : SeqStep
  level : Level
  voltage : Word
  pll : Word
  lock : Word

def State.bodyRegs (s : State) : BodyRegs where
  step := s.step
  level := s.currentLevel
  voltage := s.currentVoltage
  pll := s.pllCur
  lock := s.pendingLock

/-- What a timeout leaves for the host (R271, R275). -/
structure Report where
  step : Byte
  sig : Byte
  arg : Byte
  snap : Word
  ints : BitVec 6

def State.report (s : State) : Report where
  step := s.errStep
  sig := s.errSig
  arg := s.errArg
  snap := s.errSnap
  ints := s.intStatus

/-- R162, R275: the report of a body from `s`, where `m` is the last multiplexer that did not settle, if any. -/
def State.reportOf (s : State) : Option Byte → Report
  | none => s.report
  | some m => { step := 0x06, sig := 4, arg := m, snap := 0, ints := s.intStatus ||| 0b100000 }

/-- R162: once WARN is set, another timeout sets no more. -/
theorem State.reportOf_warned (s : State) (r : Option Byte) :
    (s.reportOf r).ints ||| 0b100000 = s.intStatus ||| 0b100000 := by
  cases r with
  | none => rfl
  | some m =>
    show s.intStatus ||| 0b100000 ||| 0b100000 = _
    rw [BitVec.or_assoc, BitVec.or_self]

/-- The actions from `s` to `u` are a body's, with the events `evs` and no timeout. -/
structure Acts (s u : State) (evs : List Event) : Prop where
  moved : u = s.moved u
  inputs : u.env.inputs = s.env.inputs
  report : u.report = s.report
  trace : u.env.trace = s.env.trace ++ evs

theorem Traffic.acts {s u : State} {evs : List Event} (h : Traffic s u evs) : Acts s u evs where
  moved := by rw [h.regs]; rfl
  inputs := h.inputs
  report := by rw [h.regs]; rfl
  trace := h.trace

theorem Traffic.bodyRegs {s u : State} {evs : List Event} (h : Traffic s u evs) : u.bodyRegs = s.bodyRegs := by
  rw [h.regs]; rfl

/-- In a body from `s0`: it has made the events of `parts` in order, the last multiplexer that did not settle is `r`, and
the registers are `d`. -/
structure InBody (s0 : State) (parts : List (List Event → Prop)) (r : Option Byte) (d : BodyRegs) (s : State) :
    Prop where
  moved : s = s0.moved s
  quiet : s.quiet
  regs : s.bodyRegs = d
  report : s.report = s0.reportOf r
  trace : ∃ evs, s.env.trace = s0.env.trace ++ evs ∧ InOrder parts evs

/-- R156, R174: the voltage while the clock is changed. -/
def State.clockVoltage (s : State) (t : Level) : Word :=
  if goesUp s.cfg s.currentLevel t then s.voltageFor t else s.currentVoltage

/-- R157, R168: the PLL setting after the clock is changed. -/
def State.pllAfter (s : State) (t : Level) : Word := if s.needsPll t then s.cfg.pllAt t else s.pllCur

/-- R176, R178: the waits that can end a level change of `s` to `t`, each with the step, and the level, voltage and PLL
setting that it leaves. -/
inductive FailingWait (s : State) (t : Level) : Signal → SeqStep → Level → Word → Word → Prop
  | voltUp (hup : goesUp s.cfg s.currentLevel t = true) :
      FailingWait s t .voltDone .voltUp s.currentLevel (s.voltageFor t) s.pllCur
  | safeMux : FailingWait s t .pauseDone .pss3Wait s.cfg.safeLevel (s.clockVoltage t) s.pllCur
  | pll : FailingWait s t .pllLocked .pss4Pll s.cfg.safeLevel (s.clockVoltage t) (s.cfg.pllAt t)
  | targetMux : FailingWait s t .pauseDone .pss7Wait t (s.clockVoltage t) (s.cfg.pllAt t)
  | primaryMux : FailingWait s t (.muxSettled s.cfg.primaryMux) .clkSimple t (s.clockVoltage t) s.pllCur
  | divider : FailingWait s t .divDone .clkSimple t (s.clockVoltage t) s.pllCur
  | dll : FailingWait s t .dllLocked .dllPost t (s.clockVoltage t) (s.pllAfter t)
  | voltDown (hdown : goesUp s.cfg s.currentLevel t = false) :
      FailingWait s t .voltDone .voltDown t (s.voltageFor t) (s.pllAfter t)

/-- R153, R271, R286: in a body from `s0` the wait for `sig` used up its budget after a command, with the registers `d`. -/
structure GaveUp (s0 : State) (sig : Signal) (d : BodyRegs) (u : State) : Prop where
  quiet : u.quiet
  regs : u.bodyRegs = d
  step : u.errStep = d.step.code
  signal : u.errSig = sig.code
  arg : u.errArg = criticalArg s0.cfg sig
  trace : ∃ pre command fails, u.env.trace = s0.env.trace ++ pre ++ command :: fails ∧ command.isCommand = true ∧
    Exhausted s0.cfg sig fails u.errSnap

/-- R176: how a level change of `s0` to `t` fails. -/
def Failed (s0 : State) (t : Level) (u : State) : Prop :=
  ∃ sig d, FailingWait s0 t sig d.step d.level d.voltage d.pll ∧ GaveUp s0 sig d u

namespace InBody

variable {s0 : State} {t : Level} {ps : List (List Event → Prop)} {p : List Event → Prop}
  {r : Option Byte} {d d' : BodyRegs} {X : Stop → State → Prop}

theorem cfg {s : State} (h : InBody s0 ps r d s) : s.cfg = s0.cfg := by rw [h.moved]; rfl

theorem thermState {s : State} (h : InBody s0 ps r d s) : s.thermState = s0.thermState := by rw [h.moved]; rfl

/-- R9: the target's voltage is the same throughout a body. -/
theorem voltageFor {s : State} (h : InBody s0 ps r d s) (l : Level) : s.voltageFor l = s0.voltageFor l := by
  rw [h.moved]; rfl

theorem moved_trans {s u : State} (h : InBody s0 ps r d s) (hu : u = s.moved u) : u = s0.moved u := by
  rw [hu, h.moved]; rfl

/-- One more part. -/
theorem snoc {s u : State} {evs : List Event} (h : InBody s0 ps r d s) (hacts : Acts s u evs) (hp : p evs)
    (hregs : u.bodyRegs = d') : InBody s0 (ps ++ [p]) r d' u := by
  obtain ⟨before, htrace, horder⟩ := h.trace
  exact {
    moved := h.moved_trans hacts.moved
    quiet := hacts.inputs.trans h.quiet
    regs := hregs
    report := hacts.report.trans h.report
    trace := ⟨before ++ evs, by rw [hacts.trace, htrace, List.append_assoc], inOrder_snoc.2 ⟨_, _, rfl, horder, hp⟩⟩ }

/-- The same parts, described otherwise. -/
theorem mono {s : State} {ps' : List (List Event → Prop)} (h : InBody s0 ps r d s)
    (hps : ∀ evs, InOrder ps evs → InOrder ps' evs) : InBody s0 ps' r d s :=
  { h with trace := h.trace.imp fun _ => And.imp_right (hps _) }

/-- R153: the events of a wait come after a command, and its budget is used up. -/
theorem gaveUp {s u : State} {sig : Signal} {arg : Byte} {snap : Word} {fails : List Event}
    (h : InBody s0 (ps ++ [p]) r d s)
    (hp : EndsInCommand p) (hu : Traffic s u fails) (hfails : Exhausted s0.cfg sig fails snap)
    (harg : arg = criticalArg s0.cfg sig) : GaveUp s0 sig d (u.recordTimeout sig arg snap) where
  quiet := hu.inputs.trans h.quiet
  regs := hu.bodyRegs.trans h.regs
  step := by
    rw [← h.regs, ← hu.bodyRegs]
    rfl
  signal := rfl
  arg := harg
  trace := by
    obtain ⟨evs, htrace, horder⟩ := h.trace
    obtain ⟨a, b, rfl, -, hb⟩ := inOrder_snoc.1 horder
    obtain ⟨pre, command, rfl, hcommand⟩ := hp b hb
    exact ⟨a ++ pre, command, fails, by rw [State.recordTimeout, hu.trace, htrace]; simp, hcommand, hfails⟩

/-! ### The sequencer's primitives -/

theorem turn : Turn (InBody s0 ps r d) X := Turn.of_quiet fun _ h => h.quiet

theorem goTo (x : SeqStep) :
    Triple (InBody s0 ps r d) (goTo x) (fun _ => InBody s0 ps r { d with step := x }) X := by
  refine Triple.modify fun s h => ?_
  obtain rfl := h.regs
  exact ⟨h.moved_trans (u := s.setStep x) rfl, h.quiet, rfl, h.report, h.trace⟩

theorem act {f : State → State} (e : Event) (hf : ∀ s, InBody s0 ps r d s → Acts s (f s) [e] ∧ (f s).bodyRegs = d') :
    Triple (InBody s0 ps r d) (act f) (fun _ => InBody s0 (ps ++ [Just [e]]) r d') X :=
  Triple.act turn fun s h => h.snoc (hf s h).1 rfl (hf s h).2

/-- R158: the protocol for a level. -/
theorem writeTiming (l : Level) : Triple (InBody s0 ps r d) (writeTiming l)
    (fun _ => InBody s0 (ps ++ [TimingWritten s0.cfg l]) r d) X := by
  intro s h
  have hwritten := traffic_timingWritten s l
  rw [writeTiming_quiet h.quiet]
  exact h.snoc hwritten.acts (h.cfg ▸ ⟨_, rfl⟩) (hwritten.bodyRegs.trans h.regs)

end InBody

/-! ### The waits (R153) -/

/-- R153: a signal wait sees its signal within its budget, or uses it up. -/
theorem waitSig_quiet {s : State} (hwf : s.cfg.wf = true) (hquiet : s.quiet) (sig : Signal) (crit : Bool) (arg : Byte) :
    (∃ n evs, SignalSeen s.cfg sig evs ∧ waitSig sig crit arg s = .ok true (s.polled n evs)) ∨
      waitSig sig crit arg s = timedOut sig crit arg 0 (s.polled s.cfg.waitMax (signalMissed s.cfg sig)) := by
  by_cases hseen : ∃ k, k < s.cfg.waitMax ∧ s.pollAnswer k = true
  · obtain ⟨hk, htrue⟩ := Nat.find_spec hseen
    have hbefore : ∀ j, j < Nat.find hseen → s.pollAnswer j = false := fun j hj =>
      Bool.eq_false_iff.2 fun h => Nat.find_min hseen hj ⟨hj.trans hk, h⟩
    exact .inl ⟨_, _, ⟨_, hk, rfl⟩, waitSig_seen hquiet hk htrue hbefore sig crit arg⟩
  · exact .inr (waitSig_missed hwf hquiet (fun j hj => Bool.eq_false_iff.2 fun h => hseen ⟨j, hj, h⟩) sig crit arg)

/-- R161, R162: the events of a multiplexer's wait. -/
def muxWait (c : Config) (m : Byte) (settled : Bool) : List Event → Prop :=
  if settled then SignalSeen c (.muxSettled m) else Just (signalMissed c (.muxSettled m))

namespace InBody

variable {s0 : State} {t : Level} {ps : List (List Event → Prop)} {p : List Event → Prop}
  {r : Option Byte} {d : BodyRegs}

/-- R153, R176: after a command a critical wait sees its signal, or the level change fails. -/
theorem waitSig (hwf : s0.cfg.wf = true) (sig : Signal) (hp : EndsInCommand p) (hsig : sig ≠ .dllLocked) {arg : Byte}
    (harg : arg = criticalArg s0.cfg sig) (hfail : FailingWait s0 t sig d.step d.level d.voltage d.pll) :
    Triple (InBody s0 (ps ++ [p]) r d) (waitSig sig true arg)
      (fun _ => InBody s0 (ps ++ [p, SignalSeen s0.cfg sig]) r d) (TimesOut (Failed s0 t)) := by
  intro s h
  obtain ⟨n, evs, hevs, hwait⟩ | hwait := waitSig_quiet (h.cfg ▸ hwf) h.quiet sig true arg
  · have hseen := h.snoc (traffic_polled s n evs).acts (h.cfg ▸ hevs) h.regs
    rw [List.append_assoc] at hseen
    rw [hwait]
    exact hseen
  · have hmissed : Exhausted s0.cfg sig (signalMissed s.cfg sig) 0 := by
      rw [Exhausted, if_neg hsig, h.cfg]
      exact ⟨rfl, rfl⟩
    rw [hwait]
    exact ⟨sig, d, hfail, h.gaveUp hp (traffic_polled s _ _) hmissed harg⟩

/-- R162, R275: after its call a multiplexer settles, or its timeout is logged where it is not the primary one. -/
theorem waitMux (hwf : s0.cfg.wf = true) (hp : EndsInCommand p) (m : Byte) (hstep : d.step = .clkSimple)
    (hfail : FailingWait s0 t (.muxSettled s0.cfg.primaryMux) .clkSimple d.level d.voltage d.pll) :
    Triple (InBody s0 (ps ++ [p]) r d) (Machine.waitSig (.muxSettled m) (m == s0.cfg.primaryMux) m)
      (fun _ s => ∃ b, (b = false → m ≠ s0.cfg.primaryMux) ∧
        InBody s0 (ps ++ [p, muxWait s0.cfg m b]) (if b then r else some m) d s) (TimesOut (Failed s0 t)) := by
  by_cases hm : m = s0.cfg.primaryMux
  · rw [beq_iff_eq.2 hm]
    exact (waitSig hwf (.muxSettled m) hp nofun hm (hm ▸ hstep.symm ▸ hfail)).conseq (fun _ h => h)
      (fun _ _ h => ⟨true, nofun, h⟩) fun _ _ h => h
  · intro s h
    rw [beq_eq_false_iff_ne.2 hm]
    obtain ⟨n, evs, hevs, hwait⟩ | hwait := waitSig_quiet (h.cfg ▸ hwf) h.quiet (.muxSettled m) false m
    · have hseen := h.snoc (p := muxWait s0.cfg m true) (traffic_polled s n evs).acts (h.cfg ▸ hevs) h.regs
      rw [List.append_assoc] at hseen
      rw [hwait]
      exact ⟨true, nofun, hseen⟩
    · have hmissed := h.snoc (p := muxWait s0.cfg m false) (traffic_polled s s.cfg.waitMax _).acts
        (congrArg (signalMissed · _) h.cfg) h.regs
      rw [List.append_assoc] at hmissed
      rw [hwait, timedOut_logged]
      refine ⟨false, fun _ => hm, hmissed.moved_trans rfl, hmissed.quiet, hmissed.regs, ?_, hmissed.trace⟩
      have hcode : s.step.code = 0x06 := by rw [show s.step = d.step from h.regs ▸ rfl, hstep]; rfl
      have hints : s.intStatus ||| 0b100000 = s0.intStatus ||| 0b100000 := by
        rw [show s.intStatus = (s0.reportOf r).ints from h.report ▸ rfl, s0.reportOf_warned]
      show Report.mk s.step.code 4 m 0 (s.intStatus ||| 0b100000) = _
      rw [hcode, hints]
      rfl

end InBody

end Sys2Proof.Machine
end

section
/-! SUPPORT. The procedures of a level change while nothing comes from outside, one by one
(spec/41_transition_engine.md R154 to R174): the parts that each adds to the trace and the registers it sets, or the wait of it that fails. -/

namespace Sys2Proof.Machine

variable {s0 : State} {t : Level} {ps : List (List Event → Prop)} {r : Option Byte} {d : BodyRegs}

/-- A fact that some value makes true may be used with that value. -/
theorem Triple.exists_pre {α ι : Type} {P : ι → State → Prop} {op : Op α} {Q : α → State → Prop}
    {X : Stop → State → Prop} (h : ∀ x, Triple (P x) op Q X) : Triple (fun s => ∃ x, P x s) op Q X := by
  rintro s ⟨x, hs⟩
  exact h x s hs

/-- R161, R162, R275: `settled` says of each multiplexer of the plan whether it settled; the primary one did. -/
structure Settles (c : Config) (plan : List (Byte × Byte)) (settled : List Bool) : Prop where
  length : settled.length = plan.length
  primary : ∀ p ∈ plan.zip settled, p.2 = false → p.1.1 ≠ c.primaryMux

theorem Settles.cons {c : Config} {q : Byte × Byte} {plan : List (Byte × Byte)} {b : Bool} {settled : List Bool}
    (hb : b = false → q.1 ≠ c.primaryMux) (h : Settles c plan settled) : Settles c (q :: plan) (b :: settled) where
  length := congrArg Nat.succ h.length
  primary := List.forall_mem_cons.2 ⟨hb, h.primary⟩

/-- R162: the last of a plan that did not settle, and of what came before it. -/
theorem lastUnsettled_cons_or (q : Byte × Byte) (plan : List (Byte × Byte)) (b : Bool) (settled : List Bool)
    (r : Option Byte) : (lastUnsettled (q :: plan) (b :: settled)).or r =
      (lastUnsettled plan settled).or (if b then r else some q.1) := by
  rw [lastUnsettled]
  cases lastUnsettled plan settled <;> cases b <;> rfl

/-- R172: the events of the wait for the lock-detect bits that sees them. -/
def LockSeen (c : Config) : List Event → Prop := fun evs => ∃ ws w, ws.length < c.waitMax ∧ NoneLocked c ws ∧
  w &&& c.dllLockMask = c.dllLockMask ∧ evs = statusReads c (ws ++ [w])

/-- R172: with the control word that frees the DLL before it, that is the DLL locked again. -/
theorem dllRelocked_of_inOrder {c : Config} {lock : Word} {evs : List Event}
    (h : InOrder (ps ++ [Just [.wr .phy c.offDllCtrl (c.dllCtrl.word false lock)], LockSeen c]) evs) :
    InOrder (ps ++ [DllRelocked c lock]) evs := by
  obtain ⟨before, _, rfl, hbefore, _, _, rfl, rfl, _, _, rfl, ⟨ws, w, hlength, hnone, hw, rfl⟩, rfl⟩ :=
    inOrder_append.1 h
  exact inOrder_snoc.2 ⟨before, _, rfl, hbefore, ws, w, hlength, hnone, hw, by simp⟩

namespace InBody

/-! ### The voltage and the DLL (R154, R155, R172) -/

theorem voltageStep (hwf : s0.cfg.wf = true) (x : SeqStep)
    (hfail : FailingWait s0 t .voltDone x d.level (s0.voltageFor t) d.pll) :
    Triple (InBody s0 ps r d) (voltageStep x t)
      (fun _ => InBody s0 (ps ++ voltageParts s0.cfg (s0.voltageFor t)) r
        { d with step := x, voltage := s0.voltageFor t })
      (TimesOut (Failed s0 t)) := by
  refine (goTo x).bind fun _ => Triple.get_knowing fun s h => ?_
  rw [h.voltageFor]
  refine Triple.bind (act (d' := { d with step := x, voltage := s0.voltageFor t })
    (.call (.setVoltage (s0.voltageFor t)))
    fun _ h => ⟨⟨rfl, rfl, rfl, rfl⟩, congrArg (fun d' : BodyRegs => { d' with voltage := s0.voltageFor t }) h.regs⟩)
    fun _ => (waitSig hwf .voltDone (.just rfl) nofun rfl hfail).bind fun _ => Triple.pure fun _ h => h

/-- R155: some lock value is captured. -/
theorem dllCapture {X : Stop → State → Prop} : Triple (InBody s0 ps r d) dllCapture
    (fun _ s => ∃ lock, InBody s0 (ps ++ [DllCaptured s0.cfg lock]) r
      { d with step := .dllCapture, lock := lock } s) X := by
  intro s h
  obtain rfl := h.regs
  have hacts : Acts s s.dllCaptured [.rd .phy s.cfg.offDllStat (s.outRead .phy s.cfg.offDllStat).1,
      .wr .phy s.cfg.offDllCtrl (s.cfg.dllCtrl.word true s.dllCaptured.pendingLock)] := by
    have hread := (traffic_outRead s .phy s.cfg.offDllStat).regs
    refine ⟨?_, (traffic_outRead s .phy s.cfg.offDllStat).inputs, ?_, dllCaptured_trace s⟩
    · rw [State.dllCaptured, hread]; rfl
    · rw [State.dllCaptured, hread]; rfl
  have hregs : s.dllCaptured.bodyRegs =
      { s.bodyRegs with step := .dllCapture, lock := s.dllCaptured.pendingLock } := by
    rw [State.dllCaptured, (traffic_outRead s .phy s.cfg.offDllStat).regs]; rfl
  rw [dllCapture_quiet h.quiet]
  exact ⟨_, h.snoc hacts ⟨_, h.cfg ▸ dllCaptured_pendingLock s, h.cfg ▸ rfl⟩ hregs⟩

/-- R172: after a command the lock-detect bits are seen, or the level change fails. -/
theorem waitLocked {p : List Event → Prop} (hwf : s0.cfg.wf = true) (hp : EndsInCommand p)
    (hfail : FailingWait s0 t .dllLocked d.step d.level d.voltage d.pll) :
    Triple (InBody s0 (ps ++ [p]) r d) (waitReg .phy s0.cfg.offDllStat s0.cfg.dllLockMask .dllLocked true 0)
      (fun _ => InBody s0 (ps ++ [p, LockSeen s0.cfg]) r d) (TimesOut (Failed s0 t)) := by
  intro s h
  obtain ⟨ws, u, hnone, hend⟩ := waitLocked_quiet h.quiet
  rw [h.cfg] at hnone hend
  obtain ⟨x, hx, hlength, hwait, hreads⟩ | ⟨hlength, hwait, hreads⟩ := hend
  · have hseen := h.snoc (p := LockSeen s0.cfg) hreads.traffic.acts ⟨ws, x, hlength, hnone, hx, rfl⟩
      (hreads.traffic.bodyRegs.trans h.regs)
    rw [List.append_assoc] at hseen
    rw [hwait]
    exact hseen
  · have hlast := hreads.getLast? (List.ne_nil_of_length_pos (hlength ▸ (Config.wf_engine hwf).1))
    rw [hwait]
    exact ⟨.dllLocked, d, hfail, h.gaveUp hp hreads.traffic ⟨ws, hlength, hnone, hlast, rfl⟩ rfl⟩

/-- R172: the DLL is left in the mode the target needs. -/
theorem dllPost (hwf : s0.cfg.wf = true) (hfail : FailingWait s0 t .dllLocked .dllPost d.level d.voltage d.pll) :
    Triple (InBody s0 ps r d) (dllPost t)
      (fun _ => InBody s0 (ps ++ dllParts s0.cfg t d.lock) r { d with step := .dllPost })
      (TimesOut (Failed s0 t)) := by
  refine (goTo .dllPost).bind fun _ => Triple.get_knowing fun s h => ?_
  rw [h.cfg, dllParts]
  refine Triple.ite (fun hfree => ?_) fun hforced => ?_
  · rw [if_pos hfree]
    refine Triple.bind (act (d' := { d with step := .dllPost })
      (.wr .phy s0.cfg.offDllCtrl (s0.cfg.dllCtrl.word false d.lock)) fun s h => ?_) fun _ =>
      (waitLocked hwf (.just rfl) hfail).bind fun _ => Triple.modify fun s h => ?_
    · have hlock : s.pendingLock = d.lock := congrArg BodyRegs.lock h.regs
      exact ⟨⟨rfl, rfl, rfl, by rw [← h.cfg, ← hlock]; rfl⟩, h.regs⟩
    · exact ⟨h.moved_trans (u := s.markLocked) rfl, h.quiet, h.regs, h.report,
        h.trace.imp fun _ => And.imp_right dllRelocked_of_inOrder⟩
  · rw [if_neg hforced]
    refine act _ fun s h => ?_
    have hlock : s.pendingLock = d.lock := congrArg BodyRegs.lock h.regs
    exact ⟨⟨rfl, rfl, rfl, by rw [← h.cfg, ← hlock]; rfl⟩, h.regs⟩

/-- R173: the refresh word of the level in force. -/
theorem arefWrite {X : Stop → State → Prop} : Triple (InBody s0 ps r d) arefWrite
    (fun _ => InBody s0 (ps ++ [Just [.wr .drex s0.cfg.offAref (s0.cfg.arefAt d.level s0.thermState)]]) r
      { d with step := .arefWrite }) X := by
  refine (goTo _).bind fun _ => act _ fun s h => ?_
  have hlevel : s.currentLevel = d.level := congrArg BodyRegs.level h.regs
  exact ⟨⟨rfl, rfl, rfl, by rw [← h.cfg, ← hlevel, ← h.thermState]; rfl⟩, h.regs⟩

/-! ### The simple path (R160 to R164) -/

/-- R164: a clock call after which the level commanded is the target. -/
theorem clockCall {X : Stop → State → Prop} {first : Bool} (q : Prim) (hlevel : first = true ∨ d.level = t) :
    Triple (InBody s0 ps r d) (clockCall first t q)
      (fun _ => InBody s0 (ps ++ [Just [.call q]]) r { d with level := t }) X := by
  refine act _ fun s h => ⟨⟨rfl, rfl, rfl, rfl⟩, ?_⟩
  have hif : (if first = true then t else s.currentLevel) = t := by
    obtain rfl | hlevel := hlevel
    · rfl
    · rw [show s.currentLevel = d.level from congrArg BodyRegs.level h.regs, hlevel, ite_self]
  obtain rfl := h.regs
  exact congrArg (fun l => { s.bodyRegs with level := l }) hif

/-- R163: the divider is set. -/
theorem setDiv (hwf : s0.cfg.wf = true) {first : Bool} (hlevel : first = true ∨ d.level = t)
    (hfail : FailingWait s0 t .divDone d.step t d.voltage d.pll) : Triple (InBody s0 ps r d) (setDiv first t)
      (fun _ => InBody s0 (ps ++ dividerParts s0.cfg t) r { d with level := t }) (TimesOut (Failed s0 t)) := by
  refine Triple.get_knowing fun s h => ?_
  rw [h.cfg]
  exact (clockCall _ hlevel).bind fun _ =>
    (waitSig (d := { d with level := t }) hwf .divDone (.just rfl) nofun rfl hfail).bind fun _ =>
      Triple.pure fun _ h => h

/-- R162: a multiplexer is put to its source. -/
theorem repoint (hwf : s0.cfg.wf = true) {first : Bool} (hlevel : first = true ∨ d.level = t)
    (hstep : d.step = .clkSimple)
    (hfail : FailingWait s0 t (.muxSettled s0.cfg.primaryMux) .clkSimple t d.voltage d.pll) (m src : Byte) :
    Triple (InBody s0 ps r d) (repoint first t m src)
      (fun _ s => ∃ b, (b = false → m ≠ s0.cfg.primaryMux) ∧
        InBody s0 (ps ++ [Just [.call (.setMuxParent m src)], muxWait s0.cfg m b]) (if b then r else some m)
          { d with level := t } s) (TimesOut (Failed s0 t)) := by
  refine (clockCall _ hlevel).bind fun _ => Triple.get_knowing fun s h => ?_
  rw [h.cfg]
  exact (waitMux (d := { d with level := t }) hwf (.just rfl) m hstep hfail).bind fun _ => Triple.pure fun _ h => h

/-- R161: the multiplexers of a plan are put to their sources; with the first the level commanded is the target. -/
theorem repointAll (hwf : s0.cfg.wf = true) (plan : List (Byte × Byte)) : ∀ {first : Bool}
    {ps : List (List Event → Prop)} {r : Option Byte} {d : BodyRegs}, first = true ∨ d.level = t → d.step = .clkSimple →
    FailingWait s0 t (.muxSettled s0.cfg.primaryMux) .clkSimple t d.voltage d.pll →
    Triple (InBody s0 ps r d) (repointAll first t plan)
      (fun _ s => ∃ settled, Settles s0.cfg plan settled ∧
        InBody s0 (ps ++ muxParts s0.cfg plan settled) ((lastUnsettled plan settled).or r)
          { d with level := if plan.isEmpty then d.level else t } s) (TimesOut (Failed s0 t)) := by
  induction plan with
  | nil =>
    exact fun {_ ps _ _} _ _ _ => Triple.pure fun s h => ⟨[], ⟨rfl, nofun⟩, (List.append_nil ps).symm ▸ h⟩
  | cons q plan ih =>
    intro first ps r d hlevel hstep hfail
    refine (repoint hwf hlevel hstep hfail q.1 q.2).bind fun _ => Triple.exists_pre fun b => Triple.of_pre fun hb => ?_
    refine (ih (first := false) (d := { d with level := t }) (.inr rfl) hstep hfail).conseq (fun _ h => h) ?_
      fun _ _ h => h
    rintro _ s ⟨settled, hsettled, h⟩
    refine ⟨b :: settled, hsettled.cons hb, ?_⟩
    rw [ite_self, List.append_assoc] at h
    rw [lastUnsettled_cons_or]
    exact h

/-- R161: the clock change, in the order of the two levels. -/
theorem clockChange (hwf : s0.cfg.wf = true) (o : Level) (hstep : d.step = .clkSimple)
    (hmux : FailingWait s0 t (.muxSettled s0.cfg.primaryMux) .clkSimple t d.voltage d.pll)
    (hdiv : FailingWait s0 t .divDone .clkSimple t d.voltage d.pll) :
    Triple (InBody s0 ps none d) (clockChange o t)
      (fun _ s => ∃ settled, Settles s0.cfg (s0.cfg.opp t).planMux settled ∧
        InBody s0 (ps ++ clockParts s0.cfg o t settled) (lastUnsettled (s0.cfg.opp t).planMux settled)
          { d with level := t } s) (TimesOut (Failed s0 t)) := by
  refine Triple.get_knowing fun s h => ?_
  rw [h.cfg]
  unfold clockParts
  cases s0.cfg.switchOrder o t with
  | muxThenDiv =>
    refine (repointAll hwf _ (.inl rfl) hstep hmux).bind fun _ => Triple.exists_pre fun settled =>
      Triple.of_pre fun hsettled => ?_
    refine (setDiv hwf ?_ (hstep ▸ hdiv)).conseq (fun _ h => h) (fun _ s h => ⟨settled, hsettled, ?_⟩) fun _ _ h => h
    · cases (s0.cfg.opp t).planMux with
      | nil => exact .inl rfl
      | cons => exact .inr rfl
    · rwa [Option.or_none, List.append_assoc] at h
  | divThenMux =>
    refine (setDiv hwf (.inl rfl) (hstep ▸ hdiv)).bind fun _ =>
      (repointAll (d := { d with level := t }) hwf _ (.inr rfl) hstep hmux).conseq (fun _ h => h) ?_ fun _ _ h => h
    rintro _ s ⟨settled, hsettled, h⟩
    rw [Option.or_none, List.append_assoc, ite_self] at h
    exact ⟨settled, hsettled, h⟩

/-- R160: the simple path, with the timing before the clock on the way up and after it on the way down. -/
theorem simplePath (hwf : s0.cfg.wf = true)
    (hmux : FailingWait s0 t (.muxSettled s0.cfg.primaryMux) .clkSimple t d.voltage d.pll)
    (hdiv : FailingWait s0 t .divDone .clkSimple t d.voltage d.pll) :
    Triple (InBody s0 ps none d) (simplePath s0.currentLevel t (goesUp s0.cfg s0.currentLevel t))
      (fun _ s => ∃ settled x, Settles s0.cfg (s0.cfg.opp t).planMux settled ∧
        InBody s0 (ps ++ simpleParts s0.cfg s0.currentLevel t settled) (lastUnsettled (s0.cfg.opp t).planMux settled)
          { d with step := x, level := t } s) (TimesOut (Failed s0 t)) := by
  have hclock := fun ps => clockChange (ps := ps) (d := { d with step := .clkSimple }) hwf s0.currentLevel rfl hmux hdiv
  unfold simpleParts
  cases goesUp s0.cfg s0.currentLevel t with
  | true =>
    refine ((goTo _).bind fun _ => writeTiming t).bind fun _ => (goTo _).bind fun _ => (hclock _).bind fun _ =>
      Triple.pure ?_
    rintro s ⟨settled, hsettled, h⟩
    rw [List.append_assoc] at h
    exact ⟨settled, _, hsettled, h⟩
  | false =>
    refine (goTo _).bind fun _ => (hclock _).bind fun _ => Triple.exists_pre fun settled =>
      Triple.of_pre fun hsettled => (goTo _).bind fun _ => (writeTiming t).conseq (fun _ h => h) ?_ fun _ _ h => h
    intro _ s h
    rw [List.append_assoc] at h
    exact ⟨settled, _, hsettled, h⟩

/-! ### The PLL-safe-switch (R165 to R171) -/

theorem pssWait {p : List Event → Prop} (hwf : s0.cfg.wf = true) (hp : EndsInCommand p) (x : SeqStep)
    (hfail : FailingWait s0 t .pauseDone x d.level d.voltage d.pll) :
    Triple (InBody s0 (ps ++ [p]) r d) (pssWait x)
      (fun _ => InBody s0 (ps ++ [p, SignalSeen s0.cfg .pauseDone]) r { d with step := x }) (TimesOut (Failed s0 t)) :=
  (goTo x).bind fun _ => (waitSig hwf .pauseDone hp nofun rfl hfail).bind fun _ => Triple.pure fun _ h => h

theorem pssSafeMux {X : Stop → State → Prop} : Triple (InBody s0 ps r d) pssSafeMux
    (fun _ => InBody s0 (ps ++ [Just [.call (.setMuxParent s0.cfg.primaryMux s0.cfg.safeSrc)]]) r
      { d with step := .pss1SafeMux, level := s0.cfg.safeLevel }) X := by
  refine (goTo _).bind fun _ => act _ fun s h => ⟨⟨rfl, rfl, rfl, h.cfg ▸ rfl⟩, ?_⟩
  rw [← h.cfg]
  exact congrArg (fun d' : BodyRegs => { d' with level := s.cfg.safeLevel }) h.regs

theorem pssReprogram (hwf : s0.cfg.wf = true)
    (hfail : FailingWait s0 t .pllLocked .pss4Pll d.level d.voltage (s0.cfg.pllAt t)) :
    Triple (InBody s0 ps r d) (pssReprogram t)
      (fun _ => InBody s0
        (ps ++ [Just [.call (.setPllRate s0.cfg.pllId (s0.cfg.pllAt t))], SignalSeen s0.cfg .pllLocked]) r
        { d with step := .pss4Pll, pll := s0.cfg.pllAt t }) (TimesOut (Failed s0 t)) := by
  refine (goTo _).bind fun _ => Triple.bind (act (d' := { d with step := .pss4Pll, pll := s0.cfg.pllAt t })
    (.call (.setPllRate s0.cfg.pllId (s0.cfg.pllAt t))) fun s h => ⟨⟨rfl, rfl, rfl, h.cfg ▸ rfl⟩, ?_⟩) fun _ =>
    (waitSig hwf .pllLocked (.just rfl) nofun rfl hfail).bind fun _ => Triple.pure fun _ h => h
  rw [← h.cfg]
  exact congrArg (fun d' : BodyRegs => { d' with pll := s.cfg.pllAt t }) h.regs

theorem pssTargetMux {X : Stop → State → Prop} : Triple (InBody s0 ps r d) (pssTargetMux t)
    (fun _ => InBody s0 (ps ++ [Just [.call (.setMuxParent s0.cfg.primaryMux s0.cfg.pllSrc)]]) r
      { d with step := .pss6TargetMux, level := t }) X :=
  (goTo _).bind fun _ => act _ fun _ h => ⟨⟨rfl, rfl, rfl, h.cfg ▸ rfl⟩,
    congrArg (fun d' : BodyRegs => { d' with level := t }) h.regs⟩

theorem pllSafeSwitch (hwf : s0.cfg.wf = true)
    (hsafe : FailingWait s0 t .pauseDone .pss3Wait s0.cfg.safeLevel d.voltage d.pll)
    (hpll : FailingWait s0 t .pllLocked .pss4Pll s0.cfg.safeLevel d.voltage (s0.cfg.pllAt t))
    (htarget : FailingWait s0 t .pauseDone .pss7Wait t d.voltage (s0.cfg.pllAt t)) :
    Triple (InBody s0 ps r d) (pllSafeSwitch t) (fun _ => InBody s0 (ps ++ pssParts s0.cfg t) r
      { d with step := .pss7Wait, level := t, pll := s0.cfg.pllAt t }) (TimesOut (Failed s0 t)) := by
  have hsafeTiming : ∀ {ps : List (List Event → Prop)} {d : BodyRegs}, Triple (InBody s0 ps r d) pssSafeTiming
      (fun _ => InBody s0 (ps ++ [TimingWritten s0.cfg s0.cfg.safeLevel]) r { d with step := .pss2SafeTiming })
      (TimesOut (Failed s0 t)) := (goTo _).bind fun _ => Triple.get_knowing fun s h => by
        rw [h.cfg]
        exact writeTiming _
  have htargetTiming : ∀ {ps : List (List Event → Prop)} {d : BodyRegs}, Triple (InBody s0 ps r d) (pssTargetTiming t)
      (fun _ => InBody s0 (ps ++ [TimingWritten s0.cfg t]) r { d with step := .pss5TargetTiming })
      (TimesOut (Failed s0 t)) := (goTo _).bind fun _ => writeTiming t
  refine pssSafeMux.bind fun _ => hsafeTiming.bind fun _ => (pssWait hwf (.timing _ _) _ hsafe).bind fun _ =>
    (pssReprogram hwf hpll).bind fun _ => htargetTiming.bind fun _ => pssTargetMux.bind fun _ =>
    (pssWait hwf (.just rfl) _ htarget).conseq (fun _ h => h) (fun _ s h => ?_) fun _ _ h => h
  simp only [List.append_assoc, List.cons_append, List.nil_append] at h
  exact h

end InBody

end Sys2Proof.Machine
end

section
/-! SUPPORT. A whole level change while nothing comes from outside, and the TRANSITION that runs it
(spec/41_transition_engine.md R150 to R177): its calls in order (O38), and how it fails (O31). -/

namespace Sys2Proof.Machine

variable {s0 : State} {t : Level} {ps : List (List Event → Prop)} {d : BodyRegs}

/-! ### A level change (R150) -/

/-- R162, R275: which multiplexer waits of the level change saw their signal; the PLL-safe-switch has none. -/
def Settled (s : State) (t : Level) (settled : List Bool) : Prop :=
  settled.length = (if s.needsPll t then 0 else (s.cfg.opp t).planMux.length) ∧
    ∀ p ∈ (s.cfg.opp t).planMux.zip settled, p.2 = false → p.1.1 ≠ s.cfg.primaryMux

/-- R150: the level change of `s0` to `t` has been made. -/
def Changed (s0 : State) (t : Level) (u : State) : Prop :=
  ∃ settled d, Settled s0 t settled ∧ (s0.needsCapture t = false → d.lock = s0.pendingLock) ∧
    InBody s0 (levelChangeParts s0 t d.lock settled) (lastUnsettled (s0.cfg.opp t).planMux settled) d u

namespace InBody

/-- R157: the clock is changed by the path that the target needs. -/
theorem clockPath (hwf : s0.cfg.wf = true) (hvoltage : d.voltage = s0.clockVoltage t) (hpll : d.pll = s0.pllCur) :
    Triple (InBody s0 ps none d) (clockPath s0.currentLevel t (goesUp s0.cfg s0.currentLevel t))
      (fun _ s => ∃ settled x, Settled s0 t settled ∧
        InBody s0 (ps ++ if s0.needsPll t then pssParts s0.cfg t else simpleParts s0.cfg s0.currentLevel t settled)
          (lastUnsettled (s0.cfg.opp t).planMux settled) { d with step := x, level := t, pll := s0.pllAfter t } s)
      (TimesOut (Failed s0 t)) := by
  refine Triple.get_knowing fun s h => ?_
  have hneeds : s.needsPll t = s0.needsPll t := by
    rw [State.needsPll, State.needsPll, h.cfg, show s.pllCur = d.pll from congrArg BodyRegs.pll h.regs, hpll]
  rw [hneeds]
  unfold Settled State.pllAfter
  cases s0.needsPll t with
  | true =>
    refine (pllSafeSwitch hwf (hvoltage ▸ hpll ▸ .safeMux) (hvoltage ▸ .pll) (hvoltage ▸ .targetMux)).conseq
      (fun _ h => h) (fun _ s h => ⟨[], .pss7Wait, ⟨rfl, by simp⟩, ?_⟩) fun _ _ h => h
    rw [show lastUnsettled (s0.cfg.opp t).planMux [] = none by cases (s0.cfg.opp t).planMux <;> rfl]
    exact h
  | false =>
    refine (simplePath hwf (hvoltage ▸ hpll ▸ .primaryMux) (hvoltage ▸ hpll ▸ .divider)).conseq (fun _ h => h) ?_
      fun _ _ h => h
    rintro _ s ⟨settled, x, hsettled, h⟩
    exact ⟨settled, x, ⟨hsettled.length, hsettled.primary⟩, hpll ▸ h⟩

/-- R150: the rest of a level change, once the target's voltage is set on the way up. -/
theorem changeRest (hwf : s0.cfg.wf = true) (hvoltage : d.voltage = s0.clockVoltage t) (hpll : d.pll = s0.pllCur)
    (hlock : s0.needsCapture t = false → d.lock = s0.pendingLock)
    (hps : ps = (if s0.needsCapture t then [DllCaptured s0.cfg d.lock] else []) ++
      if goesUp s0.cfg s0.currentLevel t then voltageParts s0.cfg (s0.voltageFor t) else []) :
    Triple (InBody s0 ps none d)
      (do
        Machine.clockPath s0.currentLevel t (goesUp s0.cfg s0.currentLevel t)
        Machine.dllPost t
        Machine.arefWrite
        if !goesUp s0.cfg s0.currentLevel t then Machine.voltageStep .voltDown t)
      (fun _ => Changed s0 t) (TimesOut (Failed s0 t)) := by
  refine (clockPath hwf hvoltage hpll).bind fun _ => Triple.exists_pre fun settled => Triple.exists_pre fun x =>
    Triple.of_pre fun hsettled => (dllPost hwf (hvoltage ▸ .dll)).bind fun _ => arefWrite.bind fun _ => ?_
  have hparts : levelChangeParts s0 t d.lock settled = ps ++
      (if s0.needsPll t then pssParts s0.cfg t else simpleParts s0.cfg s0.currentLevel t settled) ++
      dllParts s0.cfg t d.lock ++ [Just [.wr .drex s0.cfg.offAref (s0.cfg.arefAt t s0.thermState)]] ++
      if goesUp s0.cfg s0.currentLevel t then [] else voltageParts s0.cfg (s0.voltageFor t) := by rw [hps]; rfl
  cases hup : goesUp s0.cfg s0.currentLevel t with
  | true =>
    refine Triple.pure fun s h =>
      ⟨settled, { d with step := .arefWrite, level := t, pll := s0.pllAfter t }, hsettled, hlock, ?_⟩
    rw [hparts, hup, if_pos rfl, List.append_nil]
    exact h
  | false =>
    refine (voltageStep hwf .voltDown (.voltDown hup)).conseq (fun _ h => h) (fun _ s h => ⟨settled,
      { d with step := .voltDown, level := t, voltage := s0.voltageFor t, pll := s0.pllAfter t },
      hsettled, hlock, ?_⟩) fun _ _ h => h
    rw [hparts, hup, if_neg Bool.false_ne_true]
    exact h

/-- R150: the level change, by whether the DLL is captured and whether the voltage goes first. -/
theorem changeLevel (hwf : s0.cfg.wf = true) (hquiet : s0.quiet) (origin : Origin) :
    Triple (fun s => s = (s0.setStep .resolve).beginBody t origin) (changeLevel s0.currentLevel t)
      (fun _ => Changed s0 t) (TimesOut (Failed s0 t)) := by
  refine Triple.get_knowing fun s hs => ?_
  have hstart : ∀ s, s = (s0.setStep .resolve).beginBody t origin →
      InBody s0 [] none { s0.bodyRegs with step := .resolve } s := by
    rintro s rfl
    exact ⟨rfl, hquiet, rfl, rfl, [], (List.append_nil _).symm, rfl⟩
  refine Triple.conseq (P := InBody s0 [] none { s0.bodyRegs with step := .resolve }) ?_ hstart (fun _ _ h => h)
    fun _ _ h => h
  have hcfg : s.cfg = s0.cfg := hs ▸ rfl
  have hneeds : s.needsCapture t = s0.needsCapture t := hs ▸ rfl
  rw [hcfg, hneeds]
  have hrest := @changeRest s0 t
  unfold State.clockVoltage at hrest
  cases hcapture : s0.needsCapture t <;> cases hup : goesUp s0.cfg s0.currentLevel t <;> rw [hcapture, hup] at hrest
  · exact hrest hwf rfl rfl (fun _ => rfl) rfl
  · exact (voltageStep hwf .voltUp (.voltUp hup)).bind fun _ => hrest hwf rfl rfl (fun _ => rfl) rfl
  · exact dllCapture.bind fun _ => Triple.exists_pre fun lock => hrest hwf rfl rfl nofun rfl
  · exact dllCapture.bind fun _ => Triple.exists_pre fun lock => (voltageStep hwf .voltUp (.voltUp hup)).bind fun _ =>
      hrest hwf rfl rfl nofun rfl

end InBody

/-- R150, R176: a body for another level makes the change, or fails on the way. -/
theorem transitionBody_changes {s : State} {f : Word} (hwf : s.cfg.wf = true) (hquiet : s.quiet) (ht : t = s.resolve f)
    (hne : t ≠ s.currentLevel) (origin : Origin) :
    Triple (fun s' => s' = s) (transitionBody f origin) (fun r u => r = s.cfg.freqAt t ∧ Changed s t u)
      (TimesOut (Failed s t)) :=
  Triple.bodyOfChange ht hne (fun _ ⟨_, _, _, _, h⟩ => h.cfg) (InBody.changeLevel hwf hquiet origin)

/-- R124: so a TRANSITION to another level completes with code 0 after the change, or with code 2 after a failure. -/
theorem exec_transition_changes {s u : State} {f : Word} (hwf : s.cfg.wf = true) (hquiet : s.quiet)
    (hf : ∃ p ∈ s.cfg.opps, p.freq = f) (ht : t = s.resolve f) (hne : t ≠ s.currentLevel)
    (hx : exec (.transition f) s = .next u) :
    (∃ v r, Changed (s.setRequest f) t v ∧ u = v.completeCmd 0 (some r)) ∨
      ∃ v, Failed (s.setRequest f) t v ∧ u = v.completeCmd 2 none := by
  have hbody := transitionBody_changes (s := s.setRequest f) hwf hquiet ht hne .cmd _ rfl
  cases hrun : transitionBody f .cmd (s.setRequest f) with
  | ok r v =>
    rw [hrun] at hbody
    obtain ⟨-, hchanged⟩ := hbody
    have hv : v.quiet := hchanged.elim fun _ ⟨_, _, _, h⟩ => h.quiet
    exact .inl ⟨v, r, hchanged, Host.Outcome.next.inj (hx.symm.trans (exec_transition_known hwf hf
      (commandBody_of_ok hrun hv)))⟩
  | error e v =>
    rw [hrun] at hbody
    cases e with
    | timeout =>
      have hv : v.quiet := hbody.elim fun _ ⟨_, _, h⟩ => h.quiet
      exact .inr ⟨v, hbody, Host.Outcome.next.inj (hx.symm.trans (exec_transition_known hwf hf
        (commandBody_of_timeout hrun hv)))⟩
    | reset => exact hbody.elim
    | fault => exact hbody.elim

/-! ### The calls in order -/

/-- Every such list of events has these calls. -/
def CallsAre (p : List Event → Prop) (l : List Prim) : Prop := ∀ evs, p evs → callsOf evs = l

theorem callsOf_append (a b : List Event) : callsOf (a ++ b) = callsOf a ++ callsOf b := List.filterMap_append

theorem CallsAre.nil : CallsAre (InOrder []) [] := by
  rintro _ rfl
  rfl

theorem CallsAre.cons {p : List Event → Prop} {l m : List Prim} (hp : CallsAre p l) (hps : CallsAre (InOrder ps) m) :
    CallsAre (InOrder (p :: ps)) (l ++ m) := by
  rintro _ ⟨a, b, rfl, ha, hb⟩
  rw [callsOf_append, hp a ha, hps b hb]

theorem CallsAre.append {qs : List (List Event → Prop)} {l m : List Prim} (hps : CallsAre (InOrder ps) l)
    (hqs : CallsAre (InOrder qs) m) : CallsAre (InOrder (ps ++ qs)) (l ++ m) := by
  intro _ h
  obtain ⟨a, b, rfl, ha, hb⟩ := inOrder_append.1 h
  rw [callsOf_append, hps a ha, hqs b hb]

theorem CallsAre.just (evs : List Event) : CallsAre (Just evs) (callsOf evs) := fun _ h => congrArg callsOf h

theorem callsOf_polls (n : Nat) (sig : Signal) (b : Bool) : callsOf (List.replicate n (.poll sig b)) = [] :=
  List.filterMap_replicate_of_none rfl

theorem CallsAre.signalSeen (c : Config) (sig : Signal) : CallsAre (SignalSeen c sig) [] := by
  rintro _ ⟨k, -, rfl⟩
  rw [callsOf_append, callsOf_polls]
  rfl

theorem CallsAre.muxWait (c : Config) (m : Byte) (b : Bool) : CallsAre (Machine.muxWait c m b) [] := by
  cases b with
  | true => exact .signalSeen c _
  | false =>
    rintro _ rfl
    exact callsOf_polls _ _ _

theorem CallsAre.timingWritten (c : Config) (l : Level) : CallsAre (TimingWritten c l) [] := by
  rintro _ ⟨w, rfl⟩
  simp [callsOf, timingWrites, List.filterMap_map]

theorem CallsAre.voltage (c : Config) (v : Word) : CallsAre (InOrder (voltageParts c v)) [.setVoltage v] :=
  .cons (.just _) (.cons (.signalSeen c _) .nil)

theorem CallsAre.divider (c : Config) (t : Level) :
    CallsAre (InOrder (dividerParts c t)) [.setDivider c.primaryDiv (c.opp t).planDiv] :=
  .cons (.just _) (.cons (.signalSeen c _) .nil)

theorem CallsAre.mux (c : Config) (plan : List (Byte × Byte)) : ∀ settled, settled.length = plan.length →
    CallsAre (InOrder (muxParts c plan settled)) (plan.map fun p => .setMuxParent p.1 p.2) := by
  induction plan with
  | nil => exact fun _ _ => .nil
  | cons p plan ih =>
    intro settled hlength
    cases settled with
    | nil => cases hlength
    | cons b settled => exact .cons (.just _) (.cons (.muxWait c p.1 b) (ih settled (Nat.succ.inj hlength)))

theorem CallsAre.clock {c : Config} {settled : List Bool} (o : Level)
    (hlength : settled.length = (c.opp t).planMux.length) :
    CallsAre (InOrder (clockParts c o t settled)) (simpleCalls c o t) := by
  have hmux := CallsAre.mux c _ settled hlength
  unfold clockParts simpleCalls
  cases c.switchOrder o t with
  | muxThenDiv => exact hmux.append (.divider c t)
  | divThenMux => exact (CallsAre.divider c t).append hmux

theorem CallsAre.simple {c : Config} {settled : List Bool} (o : Level)
    (hlength : settled.length = (c.opp t).planMux.length) :
    CallsAre (InOrder (simpleParts c o t settled)) (simpleCalls c o t) := by
  have hclock := CallsAre.clock o hlength
  unfold simpleParts
  split
  · exact .cons (.timingWritten c t) hclock
  · have h := hclock.append (.cons (.timingWritten c t) .nil)
    rwa [List.append_nil, List.append_nil] at h

theorem CallsAre.pss (c : Config) (t : Level) : CallsAre (InOrder (pssParts c t)) (pssCalls c t) :=
  .cons (.just _) <| .cons (.timingWritten _ _) <| .cons (.signalSeen _ _) <| .cons (.just _) <|
    .cons (.signalSeen _ _) <| .cons (.timingWritten _ _) <| .cons (.just _) <| .cons (.signalSeen _ _) .nil

/-- R172: DLL_POST calls nothing. -/
theorem CallsAre.dll (c : Config) (t : Level) (lock : Word) : CallsAre (InOrder (dllParts c t lock)) [] := by
  unfold dllParts
  split
  · refine .cons (l := []) ?_ .nil
    rintro _ ⟨ws, w, -, -, -, rfl⟩
    simp [callsOf, statusReads, List.filterMap_map]
  · exact .cons (.just _) .nil

theorem CallsAre.ite {b : Bool} {qs : List (List Event → Prop)} {l m : List Prim}
    (hps : b = true → CallsAre (InOrder ps) l) (hqs : ¬ b = true → CallsAre (InOrder qs) m) :
    CallsAre (InOrder (if b then ps else qs)) (if b then l else m) := by
  split
  · next hb => exact hps hb
  · next hb => exact hqs hb

theorem CallsAre.levelChange {settled : List Bool} (lock : Word) (h : Settled s0 t settled) :
    CallsAre (InOrder (levelChangeParts s0 t lock settled))
      ((if goesUp s0.cfg s0.currentLevel t then [.setVoltage (s0.voltageFor t)] else []) ++
        (if s0.needsPll t then pssCalls s0.cfg t else simpleCalls s0.cfg s0.currentLevel t) ++
        if goesUp s0.cfg s0.currentLevel t then [] else [.setVoltage (s0.voltageFor t)]) := by
  obtain ⟨hlength, -⟩ := h
  have hcaptured : CallsAre (DllCaptured s0.cfg lock) [] := by
    rintro _ ⟨w, -, rfl⟩
    rfl
  have hcapture : CallsAre (InOrder (if s0.needsCapture t then [DllCaptured s0.cfg lock] else [])) [] :=
    ite_self (c := s0.needsCapture t = true) ([] : List Prim) ▸ .ite (fun _ => .cons hcaptured .nil) fun _ => .nil
  have hvoltage := CallsAre.voltage s0.cfg (s0.voltageFor t)
  have haref : CallsAre (InOrder [Just [.wr .drex s0.cfg.offAref (s0.cfg.arefAt t s0.thermState)]]) [] :=
    .cons (.just _) .nil
  have hall : CallsAre (InOrder (levelChangeParts s0 t lock settled)) _ :=
    ((((hcapture.append (.ite (fun _ => hvoltage) fun _ => .nil)).append
      (.ite (fun _ => .pss s0.cfg t) fun hn => .simple _ (hlength.trans (if_neg hn)))).append
      (.dll s0.cfg t lock)).append haref).append (.ite (fun _ => .nil) fun _ => hvoltage)
  rwa [List.nil_append, List.append_nil, List.append_nil] at hall

/-- R157: which path is taken. -/
theorem needsPll_iff {s : State} : s.needsPll t = true ↔ t ≠ s.cfg.safeLevel ∧ s.cfg.pllAt t ≠ s.pllCur := by
  rw [State.needsPll, Bool.and_eq_true, bne_iff_ne, bne_iff_ne]

/-- Settles O38: the parts of a level change in order, and the calls of each. -/
theorem callsOfALevelChange : Obligations.CallsOfALevelChange := by
  refine ⟨fun s u f t hwf hquiet hf ht hne hx herr => ?_, fun s u f r origin t hwf hquiet ht hne hbody => ?_⟩
  · obtain ⟨v, r, hchanged, rfl⟩ | ⟨v, -, rfl⟩ := exec_transition_changes hwf hquiet hf ht hne hx
    · obtain ⟨settled, d, hsettled, -, h⟩ := hchanged
      obtain ⟨evs, htrace, horder⟩ := h.trace
      refine ⟨evs, htrace, (CallsAre.levelChange d.lock hsettled evs horder).trans ?_⟩
      simp only [needsPll_iff]
      rfl
    · exact absurd herr (by simp)
  · have h := transitionBody_changes hwf hquiet ht hne origin s rfl
    rw [hbody] at h
    obtain ⟨hr, settled, d, ⟨hlength, hprimary⟩, hlock, h⟩ := h
    have hpending : u.pendingLock = d.lock := congrArg BodyRegs.lock h.regs
    obtain ⟨evs, htrace, horder⟩ := h.trace
    refine ⟨hr, by rw [h.moved]; rfl, fun hc => hpending.trans (hlock hc), settled, evs, htrace, hlength, hprimary,
      hpending ▸ horder, ?_⟩
    have hreport := h.report
    cases hr : lastUnsettled (s.cfg.opp t).planMux settled <;>
      exact Report.mk.inj (hreport.trans (congrArg s.reportOf hr))

/-! ### A failed TRANSITION (R176, R177, R271) -/

/-- R176, R177: the voltage is the target's from the voltage step on, and the old one before it. -/
theorem FailingWait.voltage {s : State} {sig : Signal} {x : SeqStep} {l : Level} {v p : Word}
    (h : FailingWait s t sig x l v p) : (goesUp s.cfg s.currentLevel t = true → v = s.voltageFor t) ∧
      (goesUp s.cfg s.currentLevel t = false → x ≠ .voltDown → v = s.currentVoltage) := by
  cases h with
  | voltUp hup => exact ⟨fun _ => rfl, fun hdown => absurd (hup.symm.trans hdown) Bool.noConfusion⟩
  | voltDown hdown => exact ⟨fun _ => rfl, fun _ hx => absurd rfl hx⟩
  | _ => exact ⟨fun hup => if_pos hup, fun hdown _ => if_neg (by simp [hdown])⟩

/-- R176, R178, R271: the wait that failed, by its step and its signal. -/
theorem FailingWait.outcome {s : State} {sig : Signal} {x : SeqStep} {l : Level} {v p : Word}
    (h : FailingWait s t sig x l v p) :
    x.code = 0x04 ∧ sig = .voltDone ∧ l = s.currentLevel ∧ v = s.voltageFor t ∧ p = s.pllCur ∨
      x.code = 0x13 ∧ sig = .pauseDone ∧ l = s.cfg.safeLevel ∧ p = s.pllCur ∨
      x.code = 0x14 ∧ sig = .pllLocked ∧ l = s.cfg.safeLevel ∧ p = s.cfg.pllAt t ∨
      x.code = 0x17 ∧ sig = .pauseDone ∧ l = t ∧ p = s.cfg.pllAt t ∨
      x.code = 0x06 ∧ (sig = .muxSettled s.cfg.primaryMux ∨ sig = .divDone) ∧ l = t ∧ p = s.pllCur ∨
      x.code = 0x08 ∧ sig = .dllLocked ∧ l = t ∧ p = s.pllAfter t ∨
      x.code = 0x0A ∧ sig = .voltDone ∧ l = t ∧ v = s.voltageFor t ∧ p = s.pllAfter t := by
  cases h <;> simp [SeqStep.code, State.pllAfter]

/-- Settles O31: the wait that failed, and what it left. -/
theorem failedTransitionKeepsWhatItIssued : Obligations.FailedTransitionKeepsWhatItIssued := by
  rintro s u f t _ hwf hquiet ht hx herr rfl
  by_cases hf : ∃ p ∈ s.cfg.opps, p.freq = f
  · by_cases hcurrent : t = s.currentLevel
    · obtain rfl := Host.Outcome.next.inj
        (hx.symm.trans (transitionToTheCurrentLevel s f hwf hquiet hf (ht.symm.trans hcurrent)))
      exact absurd herr (by simp)
    · obtain ⟨v, r, -, rfl⟩ | ⟨v, ⟨sig, d, hwait, hgave⟩, rfl⟩ :=
        exec_transition_changes hwf hquiet hf ht hcurrent hx
      · exact absurd herr (by simp)
      · obtain ⟨pre, command, fails, htrace, hcommand, hfails⟩ := hgave.trace
        have hstep := hgave.step
        obtain rfl := hgave.regs
        have hvoltage := hwait.voltage
        refine ⟨⟨sig, pre, command, fails, htrace, hcommand, hfails, hgave.signal, hgave.arg, ?_⟩, hvoltage.1,
          fun hdown hne => hvoltage.2 hdown fun hdown' => hne (hstep.trans (congrArg SeqStep.code hdown'))⟩
        exact hstep ▸ hwait.outcome
  · have hknown : ¬ exactFreq s.cfg f = true := fun h => hf (exactFreq_iff.1 h)
    obtain rfl := Host.Outcome.next.inj (hx.symm.trans (runOp_of_ok hwf (transitionOp_unknown hquiet hknown)))
    exact absurd herr (by simp)

end Sys2Proof.Machine
end

section
/-! SUPPORT. The countdown of the monitor (spec/42_thermal_monitor.md R222): what a pulse of the strobe does, and what any
number of pulses; and the monitor that has stopped (R221, R233), which only a reset starts again. -/

namespace Sys2Proof.Machine

/-! ### One pulse -/

/-- R222: the count stands still. -/
def State.notCounting (s : State) : Prop := s.monStopped = true ∨ s.tickPending = true ∨ s.lockOwner = .tick

/-- R222: the count is running. -/
structure State.Counting (s : State) : Prop where
  runs : s.monStopped = false
  noTick : s.tickPending = false
  owner : s.lockOwner ≠ .tick

theorem State.msTick_of_notCounting {s : State} (h : s.notCounting) : s.msTick = s :=
  if_pos (by simpa [State.notCounting, or_assoc] using h)

theorem State.msTick_of_counting {s : State} (h : s.Counting) : s.msTick = { s with
    tickRemaining := BitVec.ofNat 32 (s.tickRemaining.toNat - 1)
    tickPending := decide (s.tickRemaining.toNat ≤ 1) } :=
  if_neg (by simp [h.runs, h.noTick, h.owner])

/-- Settles O15: the step of a pulse does what `msTick` does, the count standing still or running. -/
theorem strobeCountsDown : Obligations.StrobeCountsDown := by
  intro s rest hwf hi
  rw [step_msTick hwf hi]
  refine ⟨fun hstill => by rw [State.msTick_of_notCounting hstill], fun hruns hnone howner hpos => ?_⟩
  have hcount : BitVec.ofNat 32 (s.tickRemaining.toNat - 1) = s.tickRemaining - 1 := by bv_omega
  have hdue : decide (s.tickRemaining.toNat ≤ 1) = (s.tickRemaining - 1 == 0) := by
    rw [Bool.eq_iff_iff, decide_eq_true_iff, beq_iff_eq]
    bv_omega
  rw [State.msTick_of_counting ⟨hruns, hnone, howner⟩, hcount, hdue]

/-! ### A stopped monitor (R221, R233) -/

/-- R41, R221: no reset is to come, and the block is tripped for good. -/
def StaysTripped (c : Config) (s : State) : Prop := s.noReset ∧ s.cfg = c ∧ TrippedForGood s

theorem TrippedForGood.same {s t : State} (h : TrippedForGood s) (hstate : t.thermState = s.thermState)
    (hstopped : t.monStopped = s.monStopped) (hpending : t.tickPending = s.tickPending) : TrippedForGood t :=
  ⟨hstate.trans h.state, hstopped.trans h.stopped, hpending.trans h.noTick⟩

theorem StaysTripped.same {c : Config} {s t : State} (h : StaysTripped c s) (hcfg : t.cfg = s.cfg)
    (hinputs : t.env.inputs = s.env.inputs) (hstate : t.thermState = s.thermState)
    (hstopped : t.monStopped = s.monStopped) (hpending : t.tickPending = s.tickPending) : StaysTripped c t := by
  obtain ⟨hnone, hc, htripped⟩ := h
  exact ⟨by rw [State.noReset, hinputs]; exact hnone, hcfg.trans hc, htripped.same hstate hstopped hpending⟩

/-- R222: a stopped monitor counts no pulse. -/
theorem TrippedForGood.msTick {s : State} (h : TrippedForGood s) : TrippedForGood s.msTick :=
  (State.msTick_of_notCounting (.inl h.stopped)).symm ▸ h

theorem TrippedForGood.hostAccess {s s' : State} {a : Access} (h : TrippedForGood s) (ha : s.hostAccess a = .ok s') :
    TrippedForGood s' :=
  h.same (inputFrame_hostAccess ha).thermState (inputFrame_hostAccess ha).monStopped (countdown_hostAccess ha).2

theorem StaysTripped.turn {c : Config} : Turn (StaysTripped c) (StopsUnreset (StaysTripped c)) :=
  Turn.of_noReset (P := fun s => s.cfg = c ∧ TrippedForGood s) {
    msTick := fun s h => ⟨(inputFrame_msTick s).cfg.trans h.1, h.2.msTick⟩
    access := fun _ _ _ h ha => ⟨(inputFrame_hostAccess ha).cfg.trans h.1, h.2.hostAccess ha⟩
    inputs := fun s l h => ⟨h.1, h.2.same (t := s.withInputs l) rfl rfl rfl⟩
    host := fun s x h => ⟨h.1, h.2.same (t := s.withHost x) rfl rfl rfl⟩
    reset := fun _ _ _ => trivial
    fault := fun _ _ _ _ _ => trivial }

/-- No action of a body moves the thermal state or the monitor. -/
theorem StaysTripped.passesCalls {c : Config} :
    PassesCalls c (fun _ => True) (StaysTripped c) (StopsUnreset (StaysTripped c)) where
  cfg _ h := h.2.1
  turn := StaysTripped.turn
  setStep s x h := h.same (t := s.setStep x) rfl rfl rfl rfl rfl
  attempt _ _ h := h.same rfl rfl rfl rfl rfl
  lastWord _ _ h := h.same rfl rfl rfl rfl rfl
  read s w off _ h := h.same (by simp) (by simp) (by simp) (by simp) (by simp)
  write s w off v _ h := h.same (t := s.outWrite w off v) rfl rfl rfl rfl rfl
  poll s sig _ h := h.same rfl (by simp) rfl rfl rfl
  warned s sig arg snap h := h.same (t := (s.recordTimeout sig arg snap).raiseInt .warn) rfl rfl rfl rfl rfl
  timeout s sig arg snap h := h.same (t := s.recordTimeout sig arg snap) rfl rfl rfl rfl rfl
  voltage s v _ h := h.same (t := s.issueVoltage v) rfl rfl rfl rfl rfl
  clock s first t p _ h := h.same (t := s.issueClock first t p) rfl rfl rfl rfl rfl
  safeMux s _ h := h.same (t := s.issueSafeMux) rfl rfl rfl rfl rfl
  pll s t _ h := h.same (t := s.issuePll t) rfl rfl rfl rfl rfl
  targetMux s t _ h := h.same (t := s.issueTargetMux t) rfl rfl rfl rfl rfl
  keepLock s w h := h.same (t := s.keepLock w) rfl rfl rfl rfl rfl
  forceDll s v _ h := h.same (t := s.forceDll v) rfl rfl rfl rfl rfl
  freeDll s _ h := h.same (t := s.freeDll) rfl rfl rfl rfl rfl
  markLocked s h := h.same (t := s.markLocked) rfl rfl rfl rfl rfl

/-- R233: nor does a command, which is still served after a trip. -/
theorem StaysTripped.runsCommand {c : Config} (i : Instr) :
    RunsCommand i (StaysTripped c) (StaysTripped c) (StopsUnreset (StaysTripped c)) where
  turn := StaysTripped.turn
  store s h := h.same (t := storeOf i s) (by cases i <;> rfl) (by cases i <;> rfl) (by cases i <;> rfl)
    (by cases i <;> rfl) (by cases i <;> rfl)
  body f := Keeps.catchUnreset <| StaysTripped.passesCalls.transitionBody (anyBodyEvents c)
    (fun s t o h => h.same (t := s.beginBody t o) rfl rfl rfl rfl rfl) f .cmd
  voltage := by
    have h := StaysTripped.passesCalls (c := c)
    exact Keeps.catchUnreset <| (h.goTo _).bind fun _ => h.get_bind fun _ _ _ =>
      (h.setVolt trivial fun _ => trivial).bind fun _ => Keeps.pure _
  complete s code res _ _ h := h.same (t := s.completeCmd code res) rfl rfl rfl rfl rfl

theorem StaysTripped.completeIllegal {c : Config} :
    Triple (StaysTripped c) (completeWith 4 none) (fun _ => StaysTripped c) (StopsUnreset (StaysTripped c)) :=
  Triple.act StaysTripped.turn fun s h => h.same (t := s.completeCmd 4 none) rfl rfl rfl rfl rfl

/-- R69: a step takes inputs from the front of those to come, so it brings no reset where none is to come. -/
theorem noReset_step {s t : State} (hnone : s.noReset) (hstep : step s = .next t) : t.noReset := by
  have hstart : ∀ (mask : OwnedRegs → OwnedRegs) {l : List Input} {n : Nat}, l ⊆ s.env.inputs →
      Unreset s.cfg mask s.ownedRegs (s.turned l n) := fun _ _ _ hl => ⟨fun hr => hnone (hl hr), rfl, rfl⟩
  cases stepRun hstep with
  | input u l n hl _ ht => exact ht ▸ fun hr => hnone (hl hr)
  | reset hr => exact absurd hr hnone
  | command l n hl i hx =>
    exact (StopsUnreset.of_ends ((Unreset.runsCommand i).exec
      ((hstart _ hl).same (t := (s.turned l n).takeCommand) rfl rfl rfl) hx)).1
  | illegal l n hl hx =>
    exact (StopsUnreset.of_ends (runOp_next Unreset.completeIllegal
      ((hstart _ hl).same (t := (s.turned l n).takeCommand) rfl rfl rfl) hx)).1
  | tick l n hl th _ hx =>
    exact (StopsUnreset.of_ends (runOp_next Unreset.runsTick.tick
      ((hstart _ hl).same (t := (s.turned l n).takeTick) rfl rfl rfl) hx)).1

/-- Settles O53: of a step's effects only a reset starts the monitor again, and no tick is there to run. -/
theorem trippedIsTerminal : Obligations.TrippedIsTerminal := by
  intro s t htripped hnone hstep
  refine ⟨?_, noReset_step hnone hstep⟩
  have hstart : ∀ {e : Env}, e.inputs ⊆ s.env.inputs → StaysTripped s.cfg (s.withEnv e) := fun he =>
    ⟨fun hr => hnone (he hr), rfl, htripped.same rfl rfl rfl⟩
  cases stepEffect hstep with
  | idle e ht => exact ht ▸ htripped.same rfl rfl rfl
  | strobe e ht => exact ht ▸ htripped.msTick.same (t := s.msTick.withEnv e) rfl rfl rfl
  | access a s' e ha ht => exact ht ▸ (htripped.hostAccess ha).same (t := s'.withEnv e) rfl rfl rfl
  | reset e hr _ => exact absurd hr hnone
  | command e cmd i he _ _ hx =>
    have hs := (hstart he).same (t := (s.withEnv e).takeCommand) rfl rfl rfl rfl rfl
    exact (StopsUnreset.of_ends ((StaysTripped.runsCommand i).exec hs hx)).2.2
  | illegal e he hx =>
    have hs := (hstart he).same (t := (s.withEnv e).takeCommand) rfl rfl rfl rfl rfl
    exact (StopsUnreset.of_ends (runOp_next StaysTripped.completeIllegal hs hx)).2.2
  | tick e th he hpending _ hx => exact absurd (htripped.noTick.symm.trans hpending) Bool.noConfusion

end Sys2Proof.Machine
end

section
/-! SUPPORT. The thermal states in their order (spec/42_thermal_monitor.md R231, R232, R237): the threshold map rises with
the code, and the next state is a maximum of a minimum, so it rises with the code and with the old state. -/

namespace Sys2Proof.Machine

/-! ### The threshold map and the next state -/

theorem rawState_code (th : Thermal) (x : Nat) : (rawState th x).code =
    if th.th4 ≤ x then 4 else if th.th3 ≤ x then 3 else if th.th2 ≤ x then 2 else if th.th1 ≤ x then 1 else 0 := by
  unfold rawState
  split_ifs <;> rfl

/-- R231: a code that is no smaller reaches no fewer thresholds. -/
theorem rawState_code_mono (th : Thermal) {x y : Nat} (h : x ≤ y) : (rawState th x).code ≤ (rawState th y).code := by
  rw [rawState_code, rawState_code]
  split_ifs <;> omega

theorem ThermState.code_injective : Function.Injective ThermState.code := by
  intro a b
  cases a <;> cases b <;> decide

theorem ThermState.code_lt_of_ne_tripped {st : ThermState} (h : st ≠ .tripped) : st.code < ThermState.tripped.code := by
  cases st with
  | tripped => exact absurd rfl h
  | _ => decide

/-- R232, in one formula: the state rises to the raw one at once, and falls only past the margin. -/
theorem nextThermState_code (th : Thermal) (cur : ThermState) (m : Nat) : (nextThermState th cur m).code =
    max (rawState th m).code (min cur.code (rawState th (m + th.hyst)).code) := by
  have hmargin := rawState_code_mono th (Nat.le_add_right m th.hyst)
  unfold nextThermState
  split_ifs <;> omega

/-- R232: without a margin the state is the raw one. -/
theorem nextThermState_of_no_margin {th : Thermal} (h : th.hyst = 0) (cur : ThermState) (m : Nat) :
    nextThermState th cur m = rawState th m := by
  refine ThermState.code_injective ?_
  rw [nextThermState_code, h, Nat.add_zero]
  exact max_eq_left (min_le_right _ _)

/-- Settles O44: each bound is read off the formula. -/
theorem hysteresisBounds : Obligations.HysteresisBounds := by
  intro th cur m _
  have hnext := nextThermState_code th cur m
  have hmargin := rawState_code_mono th (Nat.le_add_right m th.hyst)
  refine ⟨rawState_code th, fun x y h => rawState_code_mono th h, fun h => if_pos h,
    fun hfall => ⟨?_, ?_, ?_, fun hcur hnew => ?_⟩, fun h => nextThermState_of_no_margin h cur m⟩
  · omega
  · omega
  · omega
  · have hbelow := ThermState.code_lt_of_ne_tripped hcur
    rw [hnew] at hnext
    omega

/-! ### The ceiling (R237) -/

/-- R4.5: the ceilings do not rise with the state. -/
theorem ceilAt_antitone {c : Config} {th : Thermal} (h : c.wfCeilings th = true) {a b : ThermState}
    (hab : a.code ≤ b.code) : (c.ceilAt th b).toNat ≤ (c.ceilAt th a).toNat := by
  unfold Config.wfCeilings PerState.nonRising at h
  simp only [Bool.and_eq_true, decide_eq_true_eq] at h
  obtain ⟨⟨⟨hreduced, hhalf⟩, hquarter⟩, htripped⟩ := h
  cases a <;> cases b <;> simp only [ThermState.code, Config.ceilAt] at * <;> omega

/-- Settles O45: the second state is on the side of the first to which the maximum has moved. -/
theorem monotonicCeiling : Obligations.MonotonicCeiling := by
  rintro c th s0 m1 m2 - hceil s1 s2 hs1 hs2
  have hfirst : s1.code = _ := hs1 ▸ nextThermState_code th s0 m1
  have hsecond : s2.code = _ := hs2 ▸ nextThermState_code th s1 m2
  have hmargin := rawState_code_mono th (Nat.le_add_right m1 th.hyst)
  have hordered : (m1 < m2 → s1.code ≤ s2.code) ∧ (m2 < m1 → s2.code ≤ s1.code) := by
    refine ⟨fun hlt => ?_, fun hlt => ?_⟩
    · have hraw := rawState_code_mono th (Nat.add_le_add_right hlt.le th.hyst)
      omega
    · have hraw := rawState_code_mono th hlt.le
      omega
  exact ⟨fun hlt => ⟨hordered.1 hlt, ceilAt_antitone hceil (hordered.1 hlt)⟩,
    fun hlt => ⟨hordered.2 hlt, ceilAt_antitone hceil (hordered.2 hlt)⟩⟩

end Sys2Proof.Machine
end

section
/-! SUPPORT. What a tick leaves unchanged while nothing comes from outside (spec/42_thermal_monitor.md R235, R238), and that
every such tick ends (R224, R236). -/

namespace Sys2Proof.Machine

variable {th : Thermal}

/-- The command port's and the governor's registers, which no tick writes (R235). -/
structure PortRegs where
  slot : Option Cmd
  cmdActive : Bool
  arg0 : Word
  arg1 : Word
  result : Word
  qosMin : Word
  qosMax : Word
  lastRequested : Word
  thermalOffset : Word
  intEnable : BitVec 6
  safePllLevel : Level

/-- Their values in a state. -/
def State.portRegs (s : State) : PortRegs where
  slot := s.slot
  cmdActive := s.cmdActive
  arg0 := s.arg0
  arg1 := s.arg1
  result := s.result
  qosMin := s.qosMin
  qosMax := s.qosMax
  lastRequested := s.lastRequested
  thermalOffset := s.thermalOffset
  intEnable := s.intEnable
  safePllLevel := s.safePllLevel

/-- R235, R238: from `s0` the actions of a tick have led to `s`, with nothing from outside. -/
structure TickFrame (s0 s : State) : Prop where
  quiet : s.quiet
  cfg : s.cfg = s0.cfg
  port : s.portRegs = s0.portRegs
  noTick : s.tickPending = false
  done : s.intStatus.getLsbD 0 = s0.intStatus.getLsbD 0
  err : s.err = s0.err ∨ s.err = 0 ∨ s.err = 2

/-- R236: the tick has ended, in its frame. -/
structure TickEnded (s0 s : State) : Prop extends TickFrame s0 s where
  step : s.step = .idle
  owner : s.lockOwner = .none

namespace TickFrame

variable {s0 s t : State}

/-- R224: the tick is started. -/
theorem start (h : s.quiet) : TickFrame s s.takeTick := ⟨h, rfl, rfl, rfl, rfl, .inl rfl⟩

/-- One more action that writes neither STATUS.ERR nor INT_STATUS. -/
theorem same (h : TickFrame s0 s) (hinputs : t.env.inputs = s.env.inputs) (hcfg : t.cfg = s.cfg)
    (hport : t.portRegs = s.portRegs) (hnone : t.tickPending = s.tickPending) (hints : t.intStatus = s.intStatus)
    (herr : t.err = s.err) : TickFrame s0 t where
  quiet := hinputs.trans h.quiet
  cfg := hcfg.trans h.cfg
  port := hport.trans h.port
  noTick := hnone.trans h.noTick
  done := hints ▸ h.done
  err := herr ▸ h.err

/-- R279: an interrupt bit other than DONE may be set. -/
theorem setInts (h : TickFrame s0 s) {b : BitVec 6} (hb : b.getLsbD 0 = false) :
    TickFrame s0 { s with intStatus := s.intStatus ||| b } :=
  { h with done := by rw [BitVec.getLsbD_or, hb, Bool.or_false, h.done] }

theorem passes : Passes s0.cfg (fun _ => True) (TickFrame s0) fun _ _ => False where
  cfg _ h := h.cfg
  turn := Turn.of_quiet fun _ h => h.quiet
  setStep s x h := h.same (t := s.setStep x) rfl rfl rfl rfl rfl rfl
  attempt _ _ h := h.same rfl rfl rfl rfl rfl rfl
  lastWord _ _ h := h.same rfl rfl rfl rfl rfl rfl
  read s w off _ h := h.same (by simp) (by simp) (by simp [State.portRegs]) (by simp) (by simp) (by simp)
  write s w off v _ h := h.same (t := s.outWrite w off v) rfl rfl rfl rfl rfl rfl
  poll s sig _ h := h.same (by simp) rfl rfl rfl rfl rfl
  warned s sig arg snap h :=
    (h.same (t := s.recordTimeout sig arg snap) rfl rfl rfl rfl rfl rfl).setInts (b := IntBit.warn.mask) rfl

/-- R150, R162: a body writes none of these, and sets WARN at most. -/
theorem of_body (h : TickFrame s0 s) (hbody : BodyFrame s t) : TickFrame s0 t := by
  have hmoved : TickFrame s0 { s.moved t with intStatus := s.intStatus } :=
    h.same (hbody.inputs.trans h.quiet.symm) rfl rfl rfl rfl rfl
  rw [hbody.regs]
  obtain hints | hints := hbody.ints
  · exact hmoved.same rfl rfl rfl rfl hints rfl
  · exact (hmoved.setInts (b := IntBit.warn.mask) rfl).same rfl rfl rfl rfl hints rfl

theorem catchBody (f : Word) :
    Keeps (TickFrame s0) (fun _ _ => False) (catchTimeout (transitionBody f .tick)) := by
  intro s h
  obtain ⟨t, hframe, ⟨w, hbody⟩ | hbody⟩ := transitionBody_quiet h.quiet f .tick
  · rw [catchTimeout_of_ok hbody]
    exact h.of_body hframe
  · rw [catchTimeout_of_timeout hbody]
    exact h.of_body hframe

/-- R235: STATUS.ERR takes the code of the tick's transition, and INT_STATUS.ERR is set if it failed. -/
theorem passesReeval : PassesReeval s0.cfg (TickFrame s0) fun _ _ => False where
  toPasses := passes
  body := catchBody
  recorded s r h := by
    cases r with
    | some w => exact { h with err := .inr (.inl rfl) }
    | none => exact { h.setInts (b := IntBit.err.mask) rfl with err := .inr (.inr rfl) }

theorem runsTick : RunsTick s0.cfg th (TickFrame s0) (TickFrame s0) (TickFrame s0) (TickFrame s0) (TickFrame s0)
    (TickEnded s0) fun _ _ => False where
  start s h := h.same (t := (s.setStep .monSample).clearSamples th) rfl rfl rfl rfl rfl rfl
  sampling :=
    { toPasses := passes
      sampled := fun s n second w h => h.same (t := s.setSample n second (codeField th w)) rfl rfl rfl rfl rfl rfl }
  finishUnsampled s h := ⟨h.same (t := s.finishTick th) rfl rfl rfl rfl rfl rfl, rfl, rfl⟩
  take s h := h.same (t := s.takeSamples) rfl rfl rfl rfl rfl rfl
  notices :=
    { toPasses := passes
      notified := fun s level n h => h.same (t := s.record (.notify level n)) rfl rfl rfl rfl rfl rfl
      tlevel := fun _ h => h.setInts (b := IntBit.tlevel.mask) rfl }
  move s h _ := h.same (t := s.moveThermState th) rfl rfl rfl rfl rfl rfl
  moveTripped s h _ := h.same (t := s.moveThermState th) rfl rfl rfl rfl rfl rfl
  reevals := passesReeval
  finish s h := ⟨h.same (t := s.finishTick th) rfl rfl rfl rfl rfl rfl, rfl, rfl⟩
  tripTurn := passes.turn
  shutDown s h := (h.setInts (b := IntBit.trip.mask) rfl).same (t := s.shutDown) rfl rfl rfl rfl rfl rfl
  reevalsTripped := passesReeval
  release s h := ⟨h.same (t := s.releaseLock) rfl rfl rfl rfl rfl rfl, rfl, rfl⟩

end TickFrame

/-- R236: a tick that nothing disturbs ends, in its frame. -/
theorem tick_quiet {s : State} (th : Thermal) (h : s.quiet) : ∃ t, tick th s.takeTick = .ok () t ∧ TickEnded s t := by
  obtain ⟨⟨⟩, t, hop, hend⟩ := Leads.run TickFrame.runsTick.tick (TickFrame.start h)
  exact ⟨t, hop, hend⟩

/-- I14: a tick that answers a next state ran under a well-formed configuration. -/
theorem wf_of_runTick_next {s t : State} (h : runTick th s = .next t) : s.cfg.wf = true := by
  cases hwf : s.cfg.wf with
  | true => rfl
  | false => rw [runTick, runOp_of_wf_false (s := s.takeTick) hwf] at h; cases h

/-- Settles O49: the end of a quiet tick. -/
theorem everyTickEnds : Obligations.EveryTickEnds := by
  intro s th hwf _ hquiet
  obtain ⟨t, hop, hend⟩ := tick_quiet th hquiet
  exact ⟨t, runOp_of_ok (s := s.takeTick) hwf hop, hend.owner, hend.step, hend.noTick⟩

/-- Settles O50: the frame of a quiet tick. -/
theorem tickLeavesTheCommandPort : Obligations.TickLeavesTheCommandPort := by
  intro s t th hquiet hx
  obtain ⟨u, hop, hend⟩ := tick_quiet th hquiet
  obtain rfl := Host.Outcome.next.inj ((runOp_of_ok (s := s.takeTick) (wf_of_runTick_next hx) hop).symm.trans hx)
  have hport := hend.port
  simp only [State.portRegs, PortRegs.mk.injEq] at hport
  obtain ⟨hslot, hactive, harg0, harg1, hresult, hmin, hmax, hrequest, hoffset, henable, hsafe⟩ := hport
  exact ⟨hslot, hactive, hresult, hmin, hmax, hrequest, hoffset, harg0, harg1, henable, hend.done, hsafe, hend.err⟩

end Sys2Proof.Machine
end

section
/-! SUPPORT. The sampling of a tick while nothing comes from outside (spec/42_thermal_monitor.md R225 to R227): rank by rank
it reads every code, or ends at the first rank whose wait used up its budget. -/

namespace Sys2Proof.Machine

variable {c : Config} {th : Thermal}

/-! ### One rank (R226, R227) -/

/-- R153, R227: a register wait that only warns: the bits are seen at the last read only, or at none of the budget. -/
theorem waitReg_logged_quiet {s : State} (h : s.quiet) (w : Window) (off : Nat) (mask : Word) (sig : Signal) (arg : Byte) :
    ∃ ws t, (∀ x ∈ ws, x &&& mask ≠ mask) ∧
      ((∃ x, x &&& mask = mask ∧ ws.length < s.cfg.waitMax ∧ waitReg w off mask sig false arg s = .ok true t ∧
          RegisterRead w off (ws ++ [x]) s t) ∨
        ws.length = s.cfg.waitMax ∧
          waitReg w off mask sig false arg s = .ok false ((t.recordTimeout sig arg t.lastWord).raiseInt .warn) ∧
          RegisterRead w off ws s t) := by
  obtain ⟨ws, t, hnone, hend⟩ := readLoop_quiet w off mask s.cfg.waitMax 1 h
  refine ⟨ws, t, hnone, ?_⟩
  obtain ⟨x, hx, hlength, hloop, hreads⟩ | ⟨hlength, hloop, hreads⟩ := hend
  · exact .inl ⟨x, hx, hlength, run_get (run_bind hloop rfl), hreads⟩
  · exact .inr ⟨hlength, run_get (run_bind hloop rfl), hreads⟩

/-- R227: the events of a mode-register read whose wait used up its budget, the last word read being `snap`. -/
def RankMissed (c : Config) (th : Thermal) (cmd snap : Word) : List Event → Prop := fun evs =>
  ∃ ws : List Word, ws.length = c.waitMax ∧ (∀ x ∈ ws, x &&& th.mrrDoneMask ≠ th.mrrDoneMask) ∧
    ws.getLast? = some snap ∧ evs = .wr .drex th.offMrrCmd cmd :: ws.map (.rd .drex th.offMrrStat)

/-- R227, R275: what the timeout of rank number `k` leaves for the host. -/
def State.sampleMissed (s : State) (k : Nat) : State :=
  (s.recordTimeout .mrrDone (BitVec.ofNat 8 k) s.lastWord).raiseInt .warn

/-- R226, R227: how the sampling of one rank from `s` ends. -/
inductive RankEnds (th : Thermal) (n : Nat) (second : Bool) (cmd : Word) (s : State) :
    EStateM.Result Stop State Bool → Prop
  | sampled {data : Word} {evs : List Event} {u : State} (hevs : RankSampled s.cfg th cmd data evs)
      (hu : Traffic (s.setSample n second (codeField th data)) u evs) : RankEnds th n second cmd s (.ok true u)
  | missed {evs : List Event} {u : State} (hevs : RankMissed s.cfg th cmd u.lastWord evs) (hu : Traffic s u evs) :
      RankEnds th n second cmd s (.ok false (u.sampleMissed (2 * n + if second then 1 else 0)))

/-- R225: a code is stored in the table whatever traffic came before. -/
theorem Traffic.setSample {s t : State} {evs : List Event} (h : Traffic s t evs) (n : Nat) (second : Bool) (code : Byte) :
    Traffic (s.setSample n second code) (t.setSample n second code) evs :=
  ⟨by rw [h.regs]; rfl, h.inputs, h.replies, h.trace⟩

theorem sampleRank_quiet {s : State} (hwf : s.cfg.wf = true) (hquiet : s.quiet) (th : Thermal) (n : Nat) (second : Bool)
    (cmd : Word) : RankEnds th n second cmd s (sampleRank th n second cmd s) := by
  have hwrite := traffic_outWrite s .drex th.offMrrCmd cmd
  obtain ⟨ws, t, hnone, hend⟩ := waitReg_logged_quiet (s := s.outWrite .drex th.offMrrCmd cmd) hquiet .drex th.offMrrStat
    th.mrrDoneMask .mrrDone (BitVec.ofNat 8 (2 * n + if second then 1 else 0))
  obtain ⟨x, hx, hlength, hwait, hreads⟩ | ⟨hlength, hwait, hreads⟩ := hend
  · have hdata := traffic_outRead t .drex th.offMrrData
    have hrun : sampleRank th n second cmd s = .ok true _ := run_bind (act_quiet hquiet _) (run_bind hwait
      (run_bind (memRead_quiet (hreads.traffic.inputs.trans hquiet) .drex th.offMrrData) (run_modify rfl)))
    rw [hrun]
    exact .sampled ⟨ws, x, hlength, hnone, hx, rfl⟩ (((hwrite.trans hreads.traffic).trans hdata).setSample n second _)
  · have hrun : sampleRank th n second cmd s = .ok false _ := run_bind (act_quiet hquiet _) (run_bind hwait rfl)
    have hbudget : ws ≠ [] := List.ne_nil_of_length_pos (hlength ▸ (Config.wf_engine hwf).1)
    rw [hrun]
    exact .missed ⟨ws, hlength, hnone, hreads.getLast? hbudget, rfl⟩ (hwrite.trans hreads.traffic)

/-! ### The ranks in order (R225) -/

/-- The state with another table of samples. -/
def State.withSample (s : State) (table : List (Byte × Byte)) : State := { s with sample := table }

/-- R225: the commands of the channels' ranks, in order. -/
def rankCommands (cmds : List (Word × Word)) : List Word := cmds.flatMap fun p => [p.1, p.2]

/-- The command and the data word of each rank, in order. -/
def rankReads (cmds data : List (Word × Word)) : List (Word × Word) :=
  (cmds.zip data).flatMap fun p => [(p.1.1, p.2.1), (p.1.2, p.2.2)]

/-- R226: the events of mode-register reads, one after the other, each with its command and its data word. -/
def RanksSampled (c : Config) (th : Thermal) (reads : List (Word × Word)) : List Event → Prop :=
  InOrder (reads.map fun p => RankSampled c th p.1 p.2)

/-- R226: the codes of a channel, from its two data words. -/
def channelCodes (th : Thermal) (data : Word × Word) : Byte × Byte := (codeField th data.1, codeField th data.2)

/-- R225 to R227: how the sampling of `cmds` ends, from `s` and channel `n` on, with the codes `before` stored already. -/
inductive SamplingEnds (th : Thermal) (n : Nat) (cmds : List (Word × Word)) (before : List (Byte × Byte)) (s : State) :
    EStateM.Result Stop State Bool → Prop
  | sampled {data : List (Word × Word)} {evs : List Event} {u : State} (hlength : data.length = cmds.length)
      (hevs : RanksSampled s.cfg th (rankReads cmds data) evs)
      (hu : Traffic (s.withSample (before ++ data.map (channelCodes th))) u evs) :
      SamplingEnds th n cmds before s (.ok true u)
  | missed {reads : List (Word × Word)} {cmd : Word} {rest : List Word} {table : List (Byte × Byte)}
      {evs fails : List Event} {u : State} (hcmds : rankCommands cmds = reads.map Prod.fst ++ cmd :: rest)
      (hevs : RanksSampled s.cfg th reads evs) (hfails : RankMissed s.cfg th cmd u.lastWord fails)
      (hu : Traffic (s.withSample table) u (evs ++ fails)) :
      SamplingEnds th n cmds before s (.ok false (u.sampleMissed (2 * n + reads.length)))

theorem RanksSampled.cons {reads : List (Word × Word)} {cmd data : Word} {evs more : List Event}
    (h : RankSampled c th cmd data evs) (h' : RanksSampled c th reads more) :
    RanksSampled c th ((cmd, data) :: reads) (evs ++ more) := ⟨evs, more, rfl, h, h'⟩

theorem modify_append_cons {α : Type} (f : α → α) (before rows : List α) (row : α) :
    (before ++ row :: rows).modify before.length f = before ++ f row :: rows := by
  induction before with
  | nil => rfl
  | cons x before ih => exact congrArg (x :: ·) ih

/-- R225: the table once the ranks of channel `n` are stored in it. -/
theorem State.setSample_channel {s : State} {n : Nat} {before rows : List (Byte × Byte)} {row : Byte × Byte}
    (hn : before.length = n) (hs : s.sample = before ++ row :: rows) (first second : Byte) :
    (s.setSample n false first).setSample n true second = s.withSample (before ++ (first, second) :: rows) := by
  subst hn
  simp [State.setSample, State.withSample, hs, modify_append_cons]

theorem Traffic.withSample {s t : State} {evs : List Event} (h : Traffic s t evs) (table : List (Byte × Byte)) :
    Traffic (s.withSample table) (t.withSample table) evs :=
  ⟨by rw [h.regs]; rfl, h.inputs, h.replies, h.trace⟩

theorem sampleFrom_cons_of_missed {s u : State} {n : Nat} {p : Word × Word} {rest : List (Word × Word)}
    (h : sampleRank th n false p.1 s = .ok false u) : sampleFrom th n (p :: rest) s = .ok false u := run_bind h rfl

theorem sampleFrom_cons_of_half {s t u : State} {n : Nat} {p : Word × Word} {rest : List (Word × Word)}
    (h : sampleRank th n false p.1 s = .ok true t) (h' : sampleRank th n true p.2 t = .ok false u) :
    sampleFrom th n (p :: rest) s = .ok false u := run_bind h (run_bind h' rfl)

theorem sampleFrom_cons {s t u : State} {n : Nat} {p : Word × Word} {rest : List (Word × Word)}
    (h : sampleRank th n false p.1 s = .ok true t) (h' : sampleRank th n true p.2 t = .ok true u) :
    sampleFrom th n (p :: rest) s = sampleFrom th (n + 1) rest u := run_bind h (run_bind h' rfl)

/-- R225: the channel `n` sampled, the ends of the sampling from there are ends of the whole. -/
theorem SamplingEnds.cons {n : Nat} {p data : Word × Word} {rest : List (Word × Word)} {before : List (Byte × Byte)}
    {table : List (Byte × Byte)} {s t : State} {evs more : List Event} {r : EStateM.Result Stop State Bool}
    (hevs : RankSampled s.cfg th p.1 data.1 evs) (hmore : RankSampled s.cfg th p.2 data.2 more)
    (ht : Traffic (s.withSample table) t (evs ++ more))
    (h : SamplingEnds th (n + 1) rest (before ++ [channelCodes th data]) t r) :
    SamplingEnds th n (p :: rest) before s r := by
  have hcfg : t.cfg = s.cfg := by rw [ht.regs]; rfl
  have hreads : ∀ {reads : List (Word × Word)} {l : List Event}, RanksSampled s.cfg th reads l →
      RanksSampled s.cfg th ((p.1, data.1) :: (p.2, data.2) :: reads) ((evs ++ more) ++ l) := fun hl => by
    rw [List.append_assoc]
    exact RanksSampled.cons hevs (RanksSampled.cons hmore hl)
  cases h with
  | @sampled datas l u hlength hl hu =>
    refine .sampled (data := data :: datas) (congrArg Nat.succ hlength) (hreads (hcfg ▸ hl)) ?_
    rw [List.append_assoc] at hu
    exact (ht.withSample _).trans hu
  | @missed reads cmd left table' l fails u hcmds hl hfails hu =>
    have hwhole := (ht.withSample table').trans hu
    rw [← List.append_assoc] at hwhole
    have hend := SamplingEnds.missed (n := n) (before := before) (reads := (p.1, data.1) :: (p.2, data.2) :: reads)
      (cmds := p :: rest) (congrArg (fun l => p.1 :: p.2 :: l) hcmds) (hreads (hcfg ▸ hl)) (hcfg ▸ hfails) hwhole
    rwa [show 2 * n + _ = 2 * (n + 1) + reads.length by simp only [List.length_cons]; omega] at hend

theorem sampleFrom_quiet (cmds : List (Word × Word)) : ∀ {n : Nat} {before rows : List (Byte × Byte)} {s : State},
    s.cfg.wf = true → s.quiet → before.length = n → s.sample = before ++ rows → rows.length = cmds.length →
    SamplingEnds th n cmds before s (sampleFrom th n cmds s) := by
  induction cmds with
  | nil =>
    intro n before rows s _ _ _ hs hrows
    obtain rfl := List.eq_nil_of_length_eq_zero hrows
    refine .sampled (data := []) rfl rfl (?_ : Traffic (s.withSample (before ++ [])) s [])
    rw [← hs]
    exact ⟨rfl, rfl, rfl, (List.append_nil _).symm⟩
  | cons p rest ih =>
    intro n before rows s hwf hquiet hn hs hrows
    obtain ⟨row, rows, rfl⟩ := List.exists_cons_of_length_eq_add_one hrows
    have hfirst := sampleRank_quiet hwf hquiet th n false p.1
    generalize hrun : sampleRank th n false p.1 s = r at hfirst
    cases hfirst with
    | missed hevs hu =>
      rw [sampleFrom_cons_of_missed hrun]
      exact .missed (reads := []) (table := s.sample) rfl rfl hevs hu
    | @sampled data evs t hevs ht =>
      have hcfg : t.cfg = s.cfg := by rw [ht.regs]; rfl
      have hsecond := sampleRank_quiet (hcfg ▸ hwf) (ht.inputs.trans hquiet) th n true p.2
      generalize hrun' : sampleRank th n true p.2 t = r' at hsecond
      cases hsecond with
      | @missed more u hmore hu =>
        rw [sampleFrom_cons_of_half hrun hrun']
        exact .missed (reads := [(p.1, data)]) (cmd := p.2) (rest := rankCommands rest) rfl
          ⟨evs, [], (List.append_nil _).symm, hevs, rfl⟩ (hcfg ▸ hmore) (ht.trans hu)
      | @sampled data' more u hmore hu =>
        rw [sampleFrom_cons hrun hrun']
        have hboth := (ht.setSample n true (codeField th data')).trans hu
        rw [State.setSample_channel hn hs] at hboth
        refine SamplingEnds.cons (data := (data, data')) hevs (hcfg ▸ hmore) hboth (ih ?_ (hboth.inputs.trans hquiet) ?_ ?_
          (Nat.succ.inj hrows))
        · rw [hboth.regs]
          exact hwf
        · simp [hn]
        · rw [hboth.regs]
          exact (List.append_cons _ _ _)

/-! ### The sampling of a tick (R225, R226) -/

theorem State.outRead_host (s : State) (w : Window) (off : Nat) : (s.outRead w off).2.env.host = s.env.host := by
  unfold State.outRead
  split
  · rfl
  · unfold Env.drawWord; cases s.env.readAnswers <;> rfl

theorem State.outPoll_host (s : State) (sig : Signal) : (s.outPoll sig).2.env.host = s.env.host := by
  unfold State.outPoll Env.drawBit; cases s.env.pollAnswers <;> rfl

/-- R104: with nothing from outside, no host line starts while the ranks are sampled. -/
def HostSide.KeptBy (x : HostSide) (c : Config) (s : State) : Prop := s.quiet ∧ s.cfg = c ∧ s.env.host = x

theorem HostSide.passesSampling (x : HostSide) (c : Config) (th : Thermal) :
    PassesSampling c th (x.KeptBy c) fun _ _ => False where
  cfg _ h := h.2.1
  turn := Turn.of_quiet fun _ h => h.1
  setStep _ _ h := h
  attempt _ _ h := h
  lastWord _ _ h := h
  read s w off _ h :=
    ⟨(s.outRead_inputs w off).trans h.1, (s.outRead_cfg w off).trans h.2.1, (s.outRead_host w off).trans h.2.2⟩
  write _ _ _ _ _ h := h
  poll s sig _ h := ⟨(s.outPoll_inputs sig).trans h.1, h.2.1, (s.outPoll_host sig).trans h.2.2⟩
  warned _ _ _ _ h := h
  sampled _ _ _ _ h := h

/-- R225: the samples start from a fresh table. -/
theorem sampleAll_takeTick (th : Thermal) (s : State) : sampleAll th s.takeTick =
    sampleFrom th 0 th.mrrCmd (s.takeTick.withSample (List.replicate th.channels (0, 0))) := rfl

theorem sampleAll_quiet {s : State} (th : Thermal) (hwf : s.cfg.wf = true) (hquiet : s.quiet) :
    SamplingEnds th 0 th.mrrCmd [] (s.takeTick.withSample (List.replicate th.channels (0, 0))) (sampleAll th s.takeTick) :=
  sampleFrom_quiet th.mrrCmd (s := s.takeTick.withSample (List.replicate th.channels (0, 0))) hwf hquiet rfl rfl
    (List.length_replicate ..)

theorem sampleAll_keptBy {s u : State} {b : Bool} (hquiet : s.quiet) (h : sampleAll th s.takeTick = .ok b u) :
    s.env.host.KeptBy s.cfg u := by
  have hkept := (HostSide.passesSampling s.env.host s.cfg th).sampleFrom th.mrrCmd 0
    (s.takeTick.withSample (List.replicate th.channels (0, 0))) ⟨hquiet, rfl, rfl⟩
  rwa [← sampleAll_takeTick, h] at hkept

/-- R225, R226, R228: a sampling that read every rank left their codes and its events, and nothing else. -/
theorem sampled_of_sampleAll {s u : State} (hwf : s.cfg.wf = true) (hquiet : s.quiet)
    (h : sampleAll th s.takeTick = .ok true u) : Sampled th s u := by
  have hend := sampleAll_quiet th hwf hquiet
  rw [h] at hend
  cases hend with
  | @sampled data evs _ hlength hevs hu =>
    obtain ⟨-, -, hhost⟩ := sampleAll_keptBy hquiet h
    refine ⟨data, evs, u.attempt, u.lastWord, u.env, hlength, ?_, hu.trace, hu.replies, hhost, hu.regs⟩
    rwa [RanksSampled, rankReads, List.map_flatMap] at hevs

/-! ### A sampling that timed out (R227) -/

/-- R226: an access to the mode registers. -/
def ReadsModeRegisters (th : Thermal) (e : Event) : Prop :=
  (∃ v, e = .wr .drex th.offMrrCmd v) ∨ (∃ v, e = .rd .drex th.offMrrStat v) ∨ ∃ v, e = .rd .drex th.offMrrData v

theorem readsModeRegisters_stat (th : Thermal) (ws : List Word) :
    ∀ e ∈ ws.map (Event.rd .drex th.offMrrStat), ReadsModeRegisters th e := by
  intro e he
  obtain ⟨v, -, rfl⟩ := List.mem_map.1 he
  exact .inr (.inl ⟨v, rfl⟩)

theorem RankSampled.readsModeRegisters {cmd data : Word} {evs : List Event} (h : RankSampled c th cmd data evs) :
    ∀ e ∈ evs, ReadsModeRegisters th e := by
  obtain ⟨ws, w, -, -, -, rfl⟩ := h
  rw [List.cons_append, List.forall_mem_cons, List.forall_mem_append, List.forall_mem_singleton]
  exact ⟨.inl ⟨cmd, rfl⟩, readsModeRegisters_stat th _, .inr (.inr ⟨data, rfl⟩)⟩

theorem RankMissed.readsModeRegisters {cmd snap : Word} {evs : List Event} (h : RankMissed c th cmd snap evs) :
    ∀ e ∈ evs, ReadsModeRegisters th e := by
  obtain ⟨ws, -, -, -, rfl⟩ := h
  exact List.forall_mem_cons.2 ⟨.inl ⟨cmd, rfl⟩, readsModeRegisters_stat th _⟩

theorem RanksSampled.readsModeRegisters {reads : List (Word × Word)} : ∀ {evs : List Event},
    RanksSampled c th reads evs → ∀ e ∈ evs, ReadsModeRegisters th e := by
  induction reads with
  | nil => rintro _ rfl; exact nofun
  | cons p reads ih =>
    rintro _ ⟨evs, more, rfl, hevs, hmore⟩
    exact List.forall_mem_append.2 ⟨RankSampled.readsModeRegisters hevs, ih hmore⟩

theorem writesOf_append (evs more : List Event) : writesOf (evs ++ more) = writesOf evs ++ writesOf more :=
  List.filterMap_append

theorem writesOf_reads (w : Window) (off : Nat) (ws : List Word) : writesOf (ws.map (.rd w off)) = [] := by
  simp [writesOf]

theorem RankSampled.writesOf {cmd data : Word} {evs : List Event} (h : RankSampled c th cmd data evs) :
    writesOf evs = [(th.offMrrCmd, cmd)] := by
  obtain ⟨ws, w, -, -, -, rfl⟩ := h
  rw [writesOf_append]
  exact congrArg (fun l => (th.offMrrCmd, cmd) :: l ++ []) (writesOf_reads .drex th.offMrrStat _)

theorem RankMissed.writesOf {cmd snap : Word} {evs : List Event} (h : RankMissed c th cmd snap evs) :
    writesOf evs = [(th.offMrrCmd, cmd)] := by
  obtain ⟨ws, -, -, -, rfl⟩ := h
  exact congrArg ((th.offMrrCmd, cmd) :: ·) (writesOf_reads .drex th.offMrrStat _)

theorem RanksSampled.writesOf {reads : List (Word × Word)} : ∀ {evs : List Event}, RanksSampled c th reads evs →
    writesOf evs = reads.map fun p => (th.offMrrCmd, p.1) := by
  induction reads with
  | nil => rintro _ rfl; rfl
  | cons p reads ih =>
    rintro _ ⟨evs, more, rfl, hevs, hmore⟩
    rw [writesOf_append, RankSampled.writesOf hevs, ih hmore]
    rfl

theorem length_mrrCommands (th : Thermal) : (mrrCommands th).length = 2 * th.channels := by
  simp [mrrCommands, Thermal.channels, List.length_flatMap, Nat.mul_comm]

/-- R225, R236: a tick that did not sample every rank ends. -/
theorem tick_of_missed {s u : State} (h : sampleAll th s = .ok false u) (hquiet : u.quiet) :
    tick th s = .ok () (u.finishTick th) := run_bind h (act_quiet hquiet fun v => v.finishTick th)

/-- Settles O46: the rank that failed, what was written and read, and what the tick leaves. -/
theorem mrrTimeoutIsNoChange : Obligations.MrrTimeoutIsNoChange := by
  intro s u th hwf _ hquiet h
  have hend := sampleAll_quiet th hwf hquiet
  rw [h] at hend
  generalize hr : (EStateM.Result.ok false u : EStateM.Result Stop State Bool) = r at hend
  cases hend with
  | sampled => cases hr
  | @missed reads cmd rest table evs fails v hcmds hevs hfails hv =>
    obtain rfl : u = v.sampleMissed (2 * 0 + reads.length) := by cases hr; rfl
    have hrun := tick_of_missed h (hv.inputs.trans hquiet)
    have hwrites : writesOf (evs ++ fails) = ((mrrCommands th).take (reads.length + 1)).map fun v => (th.offMrrCmd, v) := by
      have htake : (mrrCommands th).take (reads.length + 1) = reads.map Prod.fst ++ [cmd] := by
        rw [show mrrCommands th = reads.map Prod.fst ++ cmd :: rest from hcmds]
        simpa using List.take_length_add_append (l₁ := reads.map Prod.fst) (l₂ := cmd :: rest) 1
      simp [writesOf_append, RanksSampled.writesOf hevs, RankMissed.writesOf hfails, htake]
    have hk : reads.length < 2 * th.channels := by
      have hlength := congrArg List.length hcmds
      rw [show rankCommands th.mrrCmd = mrrCommands th from rfl, length_mrrCommands] at hlength
      simp only [List.length_append, List.length_map, List.length_cons] at hlength
      omega
    have hmrr := List.forall_mem_append.2 ⟨RanksSampled.readsModeRegisters hevs, RankMissed.readsModeRegisters hfails⟩
    obtain ⟨ws, hbudget, hnone, hlast, hws⟩ := hfails
    have htrace := hv.trace
    obtain ⟨attempt, last, e, rfl⟩ : ∃ attempt last e, v =
      { s.takeTick.withSample table with attempt := attempt, lastWord := last, env := e } := ⟨_, _, _, hv.regs⟩
    exact ⟨_, runOp_of_ok (s := s.takeTick) hwf hrun, rfl, rfl, rfl, rfl, rfl, rfl, rfl, rfl, rfl, rfl, rfl, rfl, rfl, rfl,
      evs ++ fails, htrace, hmrr, reads.length, evs, cmd, ws, hk, congrArg (BitVec.ofNat 8) (by simp), hwrites, by rw [hws],
      hbudget, hnone, hlast⟩

end Sys2Proof.Machine
end

section
/-! SUPPORT. A tick that sampled every rank, while nothing comes from outside (spec/42_thermal_monitor.md R228 to R236): what
it notifies, how it settles its new state, and how the re-evaluation of the ceiling ends. -/

namespace Sys2Proof.Machine

variable {c : Config} {th : Thermal}

/-! ### The notifications (R230) -/

/-- R230: the channels from `n` on that are notified are those whose level changed. -/
theorem mem_notifications {e : Event} (news : List Byte) : ∀ {n : Nat} {olds : List Byte}, e ∈ notifications n news olds ↔
    ∃ i new old, news[i]? = some new ∧ olds[i]? = some old ∧ new ≠ old ∧ e = .notify new (n + i) := by
  induction news with
  | nil => simp [notifications]
  | cons new news ih =>
    intro n olds
    cases olds with
    | nil => simp [notifications]
    | cons old olds =>
      rw [notifications, List.mem_append, ih]
      constructor
      · rintro (h | ⟨i, a, b, ha, hb, hne, rfl⟩)
        · split at h
          · cases h
          · next hne => exact ⟨0, new, old, rfl, rfl, hne, List.mem_singleton.1 h⟩
        · exact ⟨i + 1, a, b, ha, hb, hne, by rw [Nat.add_assoc, Nat.add_comm 1]⟩
      · rintro ⟨i, a, b, ha, hb, hne, rfl⟩
        cases i with
        | zero =>
          cases ha
          cases hb
          exact .inl (by rw [if_neg hne]; exact List.mem_singleton_self _)
        | succ i => exact .inr ⟨i, a, b, ha, hb, hne, by rw [Nat.add_assoc, Nat.add_comm 1]⟩

/-- The state with more events in the trace. -/
def State.recordAll (s : State) (evs : List Event) : State := s.withEnv { s.env with trace := s.env.trace ++ evs }

theorem State.recordAll_record (s : State) (e : Event) (evs : List Event) :
    (s.record e).recordAll evs = s.recordAll (e :: evs) := by
  simp [State.recordAll, State.record, State.withEnv]

theorem State.recordAll_nil (s : State) : s.recordAll [] = s := by
  simp [State.recordAll, State.withEnv]

theorem notifyFrom_quiet (news : List Byte) : ∀ {n : Nat} {olds : List Byte} {s : State}, s.quiet →
    notifyFrom n news olds s =
      .ok (decide (notifications n news olds ≠ [])) (s.recordAll (notifications n news olds)) := by
  induction news with
  | nil => exact fun {_ _ s} _ => congrArg (EStateM.Result.ok false) s.recordAll_nil.symm
  | cons new news ih =>
    intro n olds s hquiet
    cases olds with
    | nil => exact congrArg (EStateM.Result.ok false) s.recordAll_nil.symm
    | cons old olds =>
      rw [notifyFrom, notifications]
      split
      · exact ih hquiet
      · rw [List.singleton_append, ← s.recordAll_record]
        exact run_bind (act_quiet hquiet _) (run_bind (ih (s := s.record (.notify new n)) hquiet) rfl)

/-! ### The new levels and the new state (R228 to R234) -/

/-- R230: TLEVEL is set where a notification went out. -/
def State.noticed (s : State) (notified : List Event) : State :=
  { s.recordAll notified with intStatus := if notified = [] then s.intStatus else s.intStatus ||| 0b001000 }

theorem notifyChanges_quiet {s : State} (hquiet : s.quiet) (olds : List Byte) : notifyChanges olds s =
    .ok () (s.noticed (notifications 0 (s.rankLevel.map chLevel) olds)) := by
  refine run_get (run_bind (notifyFrom_quiet _ hquiet) ?_)
  generalize notifications 0 (s.rankLevel.map chLevel) olds = notified
  cases notified <;> rfl

/-- R228, R230, R232: the samples taken as levels, the changes notified, the state moved. -/
def State.updated (u : State) (st : ThermState) (notified : List Event) : State :=
  { ((u.setStep .monUpdate).takeSamples).noticed notified with thermState := st }

/-- R233, R234: what follows, before the ceiling is re-evaluated. -/
def State.settled (u : State) (st : ThermState) (notified : List Event) : State :=
  if st = .tripped then (u.updated st notified).shutDown else (u.updated st notified).writeAref

theorem State.settled_reeval (u : State) (st : ThermState) (notified : List Event) :
    (u.settled st notified).setStep .monReeval = reevalState u st notified := by
  unfold State.settled reevalState
  split <;> rfl

/-! ### The re-evaluation (R235) -/

/-- R235: the frequency that the body runs for, from the state in which the ceiling is re-evaluated. -/
def State.reevalFreq (v : State) : Word := v.cfg.freqAt (floorLevel v.cfg (v.clamp v.lastRequested))

/-- R235: how the re-evaluation ends, from its state `v`, the ceiling having been `old`. -/
inductive ReevalEnds (old : Word) (v : State) : State → Prop
  | same (x : SeqStep) (hceil : v.thermalCeiling = old) : ReevalEnds old v (v.setStep x)
  | inForce (hceil : v.thermalCeiling ≠ old) (hforce : v.clamp v.lastRequested = v.cfg.freqAt v.currentLevel) :
      ReevalEnds old v v
  | moved {r : Word} {w : State} (hceil : v.thermalCeiling ≠ old)
      (hforce : v.clamp v.lastRequested ≠ v.cfg.freqAt v.currentLevel)
      (hbody : transitionBody v.reevalFreq .tick v = .ok r w) (hframe : BodyFrame v w) :
      ReevalEnds old v { w with err := 0 }
  | failed {w : State} (hceil : v.thermalCeiling ≠ old)
      (hforce : v.clamp v.lastRequested ≠ v.cfg.freqAt v.currentLevel)
      (hbody : transitionBody v.reevalFreq .tick v = .error .timeout w) (hframe : BodyFrame v w) :
      ReevalEnds old v { w with err := 2, intStatus := w.intStatus ||| IntBit.err.mask }

theorem reevalIfChanged_quiet {s : State} (hquiet : s.quiet) (old : Word) :
    ∃ x, reevalIfChanged old s = .ok () x ∧ ReevalEnds old (s.setStep .monReeval) x := by
  have hrun : reevalIfChanged old s = if s.thermalCeiling ≠ old then reeval s else .ok () s :=
    run_get (by split <;> rfl)
  have hreeval : reeval s = (if (s.setStep .monReeval).clamp s.lastRequested ≠ s.cfg.freqAt s.currentLevel then do
      let r ← catchTimeout (transitionBody (s.setStep .monReeval).reevalFreq .tick)
      modify fun t : State => t.recordTickResult r
    else pure ()) (s.setStep .monReeval) := rfl
  rw [hrun, hreeval]
  by_cases hceil : s.thermalCeiling = old
  · exact ⟨s, if_neg (not_not.2 hceil), .same s.step hceil⟩
  rw [if_pos hceil]
  by_cases hforce : (s.setStep .monReeval).clamp s.lastRequested = s.cfg.freqAt s.currentLevel
  · exact ⟨_, congrFun (if_neg (not_not.2 hforce)) _, .inForce hceil hforce⟩
  rw [if_pos hforce]
  obtain ⟨w, hframe, ⟨r, hbody⟩ | hbody⟩ := transitionBody_quiet (s := s.setStep .monReeval) hquiet
    (s.setStep .monReeval).reevalFreq .tick
  · exact ⟨_, run_bind (catchTimeout_of_ok hbody) rfl, .moved hceil hforce hbody hframe⟩
  · exact ⟨_, run_bind (catchTimeout_of_timeout hbody) rfl, .failed hceil hforce hbody hframe⟩

/-- R235: beside the frame of a body, the re-evaluation writes STATUS.ERR and may set INT_STATUS.ERR. -/
theorem ReevalEnds.frame {old : Word} {v x : State} (h : ReevalEnds old v x) (hquiet : v.quiet) :
    ∃ w err ints, BodyFrame v w ∧ x = { w with err := err, intStatus := ints } ∧
      (ints = w.intStatus ∨ ints = w.intStatus ||| IntBit.err.mask) := by
  cases h with
  | same y hceil => exact ⟨v.setStep y, _, _, ⟨rfl, hquiet, rfl, .inl rfl⟩, rfl, .inl rfl⟩
  | inForce hceil hforce => exact ⟨v, _, _, .refl hquiet, rfl, .inl rfl⟩
  | @moved r w hceil hforce hbody hframe => exact ⟨w, _, _, hframe, rfl, .inl rfl⟩
  | @failed w hceil hforce hbody hframe => exact ⟨w, _, _, hframe, rfl, .inr rfl⟩

theorem ReevalEnds.quiet {old : Word} {v x : State} (h : ReevalEnds old v x) (hquiet : v.quiet) : x.quiet := by
  obtain ⟨w, err, ints, hframe, rfl, -⟩ := h.frame hquiet
  exact hframe.inputs

theorem ReevalEnds.thermState {old : Word} {v x : State} (h : ReevalEnds old v x) (hquiet : v.quiet) :
    x.thermState = v.thermState := by
  obtain ⟨w, err, ints, hframe, rfl, -⟩ := h.frame hquiet
  rw [hframe.regs]
  rfl

theorem finishTick_eq_endTick {x : State} {st : ThermState} (h : st ≠ .tripped) (hst : x.thermState = st) :
    x.finishTick th = endTick th st x := by
  rw [endTick, if_neg h, State.finishTick, hst]

/-! ### A tick that sampled every rank (R225) -/

/-- R225, R233, R236: from the state `u` that the sampling left, the tick settles, re-evaluates the ceiling and ends. -/
theorem updateTick_quiet {u : State} {st : ThermState} {notified : List Event} (hquiet : u.quiet)
    (hst : st = nextThermState th u.thermState (maxOfLevels u.sample))
    (hnotified : notified = notifications 0 (u.sample.map chLevel) (u.rankLevel.map chLevel)) :
    ∃ x, updateTick th u = .ok () (endTick th st x) ∧ ReevalEnds u.thermalCeiling (reevalState u st notified) x := by
  subst hst hnotified
  generalize hst : nextThermState th u.thermState (maxOfLevels u.sample) = st
  generalize hnotified : notifications 0 (u.sample.map chLevel) (u.rankLevel.map chLevel) = notified
  have hmoved : updateTick th u = (if st = .tripped then trip u.thermalCeiling else do
      monAref
      reevalIfChanged u.thermalCeiling
      finishTick th) (u.updated st notified) := by
    subst hst hnotified
    exact run_modify (run_get (run_modify
      (run_bind (notifyChanges_quiet (s := (u.setStep .monUpdate).takeSamples) hquiet _) rfl)))
  have hupdated : (u.updated st notified).quiet := hquiet
  rw [hmoved, ← u.settled_reeval]
  by_cases htrip : st = .tripped
  · subst htrip
    obtain ⟨x, hx, hend⟩ := reevalIfChanged_quiet (s := (u.updated .tripped notified).shutDown) hquiet u.thermalCeiling
    exact ⟨x, run_bind (act_quiet hupdated _) (run_bind hx (act_quiet (hend.quiet hquiet) State.releaseLock)), hend⟩
  · obtain ⟨x, hx, hend⟩ := reevalIfChanged_quiet (s := ((u.updated st notified).setStep .monAref).writeAref) hquiet
      u.thermalCeiling
    have hst : x.thermState = st := hend.thermState hquiet
    refine ⟨x, ?_, ?_⟩
    · rw [if_neg htrip, ← finishTick_eq_endTick htrip hst]
      exact run_bind (run_modify (act_quiet (s := (u.updated st notified).setStep .monAref) hquiet _)) (run_bind hx
        (act_quiet (hend.quiet hquiet) fun v => v.finishTick th))
    · rw [State.settled, if_neg htrip]
      exact hend

/-- R225: what the sampling leaves of the fields that the rest of the tick starts from. -/
theorem Sampled.regs {s u : State} (h : Sampled th s u) : u =
    { s.takeTick with sample := u.sample, attempt := u.attempt, lastWord := u.lastWord, env := u.env } := by
  obtain ⟨_, _, _, _, _, -, -, -, -, -, hu⟩ := h
  rw [hu]

/-- R225, R233 to R236: a whole tick, once it has sampled every rank. -/
theorem runTick_of_sampled {s u : State} {st : ThermState} {notified : List Event} (hwf : s.cfg.wf = true)
    (hquiet : s.quiet) (h : sampleAll th s.takeTick = .ok true u)
    (hst : st = nextThermState th s.thermState (maxOfLevels u.sample))
    (hnotified : notified = notifications 0 (u.sample.map chLevel) (s.rankLevel.map chLevel)) :
    ∃ x, runTick th s = .next (endTick th st x) ∧ ReevalEnds s.thermalCeiling (reevalState u st notified) x := by
  have hregs := (sampled_of_sampleAll hwf hquiet h).regs
  obtain ⟨x, hx, hend⟩ := updateTick_quiet (th := th) (u := u) (st := st) (notified := notified)
    (sampleAll_keptBy hquiet h).1 (by rw [hregs]; exact hst) (by rw [hregs]; exact hnotified)
  refine ⟨x, runOp_of_ok (s := s.takeTick) hwf (run_bind h hx), ?_⟩
  rwa [show u.thermalCeiling = s.thermalCeiling by rw [hregs]; rfl] at hend

/-- R235: the ceiling, from the thermal parameters and the state. -/
theorem State.thermalCeiling_of {s : State} (h : s.cfg.thermal = some th) :
    s.thermalCeiling = s.cfg.ceilAt th s.thermState := by
  rw [State.thermalCeiling, h]

theorem reevalState_of_ne_tripped {u : State} {st : ThermState} (h : st ≠ .tripped) (notified : List Event) :
    reevalState u st notified = (u.updated st notified).writeAref.setStep .monReeval := by
  rw [← u.settled_reeval, State.settled, if_neg h]

theorem reevalState_tripped (u : State) (notified : List Event) :
    reevalState u .tripped notified = (u.updated .tripped notified).shutDown.setStep .monReeval := rfl

/-- R233, R234: settling the state writes no configuration, level, bound or request. -/
theorem reevalState_kept (u : State) (st : ThermState) (notified : List Event) :
    (reevalState u st notified).cfg = u.cfg ∧ (reevalState u st notified).thermState = st ∧
      (reevalState u st notified).currentLevel = u.currentLevel ∧
      (reevalState u st notified).lastRequested = u.lastRequested := by
  rw [← u.settled_reeval, State.settled]
  split <;> exact ⟨rfl, rfl, rfl, rfl⟩

theorem ReevalEnds.of_same {old : Word} {v x : State} (h : ReevalEnds old v x) (hceil : v.thermalCeiling = old) :
    ∃ y, x = v.setStep y := by
  cases h with
  | same y _ => exact ⟨y, rfl⟩
  | inForce hne _ => exact absurd hceil hne
  | moved hne _ _ _ => exact absurd hceil hne
  | failed hne _ _ _ => exact absurd hceil hne

/-- Where the ceiling stays as it was, a tick ends as it settled. -/
theorem runTick_of_sameCeiling {s u : State} {st : ThermState} {notified : List Event} (hwf : s.cfg.wf = true)
    (hth : s.cfg.thermal = some th) (hquiet : s.quiet) (h : sampleAll th s.takeTick = .ok true u)
    (hst : st = nextThermState th s.thermState (maxOfLevels u.sample))
    (hnotified : notified = notifications 0 (u.sample.map chLevel) (s.rankLevel.map chLevel))
    (hceil : s.cfg.ceilAt th st = s.cfg.ceilAt th s.thermState) :
    runTick th s = .next (endTick th st (reevalState u st notified)) := by
  obtain ⟨x, hx, hend⟩ := runTick_of_sampled hwf hquiet h hst hnotified
  obtain ⟨hcfg, hstate, -⟩ := reevalState_kept u st notified
  have hc : u.cfg = s.cfg := by rw [(sampled_of_sampleAll hwf hquiet h).regs]; rfl
  obtain ⟨y, rfl⟩ := hend.of_same <| by
    rw [State.thermalCeiling_of hth, State.thermalCeiling_of (hcfg ▸ hc ▸ hth), hcfg, hc, hstate, hceil]
  exact hx

/-- Settles O47: a tick that settles a state below Tripped, and nothing more. -/
theorem steadyTick : Obligations.SteadyTick := by
  intro s u th st hwf hth hquiet h hst hbelow hceil
  have hsampled := sampled_of_sampleAll hwf hquiet h
  have hrun := runTick_of_sameCeiling hwf hth hquiet h hst rfl hceil
  have hmem := fun {e : Event} => mem_notifications (e := e) (u.sample.map chLevel) (n := 0) (olds := s.rankLevel.map chLevel)
  generalize hnotified : notifications 0 (u.sample.map chLevel) (s.rankLevel.map chLevel) = notified at hrun hmem
  rw [reevalState_of_ne_tripped hbelow] at hrun
  have hregs := hsampled.regs
  generalize u.sample = sample, u.attempt = attempt, u.lastWord = last, u.env = e at hregs hmem ⊢
  subst hregs
  refine ⟨hsampled, _, hrun, rfl, rfl, rfl, if_neg hbelow, rfl, rfl, rfl, rfl, rfl, rfl, notified, rfl, rfl, ?_, ?_⟩
  · intro e he
    obtain ⟨i, new, old, hnew, hold, hne, rfl⟩ := hmem.1 he
    exact ⟨new, i, old, by rw [Nat.zero_add], hnew, hold, hne⟩
  · intro new i old hnew hold hne
    exact hmem.2 ⟨i, new, old, hnew, hold, hne, by rw [Nat.zero_add]⟩

/-- Settles O60: each end of the re-evaluation with another ceiling. -/
theorem ceilingChangeIsReevaluated : Obligations.CeilingChangeIsReevaluated := by
  rintro s u v th st asked f hwf hth hquiet h hst hceil hv rfl rfl
  have hsampled := sampled_of_sampleAll hwf hquiet h
  obtain ⟨x, hx, hend⟩ := runTick_of_sampled hwf hquiet h hst rfl
  obtain ⟨hcfg, hstate, hlevel, hrequest⟩ := hv ▸ reevalState_kept u st _
  rw [← hv] at hend
  have hkept : u.cfg = s.cfg ∧ u.currentLevel = s.currentLevel ∧ u.lastRequested = s.lastRequested := by
    rw [hsampled.regs]
    exact ⟨rfl, rfl, rfl⟩
  obtain ⟨hc, hl, hr⟩ := hkept
  have hceiling : v.thermalCeiling = s.cfg.ceilAt th st := by
    rw [State.thermalCeiling_of (hcfg ▸ hc ▸ hth), hcfg, hc, hstate]
  refine ⟨hsampled, hceiling, hlevel.trans hl, ?_⟩
  have hchanged : v.thermalCeiling ≠ s.thermalCeiling := by rwa [hceiling, State.thermalCeiling_of hth]
  rw [← hc, ← hcfg, ← hr, ← hrequest, ← hl, ← hlevel]
  cases hend with
  | same y hsame => exact absurd hsame hchanged
  | inForce _ hforce => exact ⟨fun _ => hx, fun hne => absurd hforce hne⟩
  | moved _ hforce hbody _ => exact ⟨fun heq => absurd heq hforce, fun _ => .inl ⟨_, _, hbody, hx⟩⟩
  | failed _ hforce hbody _ => exact ⟨fun heq => absurd heq hforce, fun _ => .inr ⟨_, hbody, hx⟩⟩

/-! ### A tick that trips (R233) -/

/-- R231, R232: the highest threshold leads to Tripped from any state. -/
theorem nextThermState_of_th4 {m : Nat} (h : th.th4 ≤ m) (cur : ThermState) : nextThermState th cur m = .tripped := by
  have hraw : rawState th m = .tripped := if_pos h
  rw [nextThermState, hraw, if_pos (by cases cur <;> decide)]

/-- R230, R233: neither a notification nor the shutdown request. -/
def Event.IsTraffic (e : Event) : Prop := e ≠ .shutdown ∧ ∀ l c, e ≠ .notify l c

theorem isTraffic_bodyEvents (c : Config) : BodyEvents c Event.IsTraffic where
  clock _ _ := ⟨nofun, nofun⟩
  poll _ _ _ := ⟨nofun, nofun⟩
  readSel _ := ⟨nofun, nofun⟩
  writeSel _ := ⟨nofun, nofun⟩
  writeSet _ _ _ := ⟨nofun, nofun⟩
  voltage _ := ⟨nofun, nofun⟩
  pollVolt _ := ⟨nofun, nofun⟩
  readStat _ := ⟨nofun, nofun⟩
  writeCtrl _ := ⟨nofun, nofun⟩
  writeAref _ := ⟨nofun, nofun⟩

/-- R235: the re-evaluation adds the events of a body at most. -/
theorem ReevalEnds.traffic {old : Word} {v x : State} (h : ReevalEnds old v x) :
    ∃ evs, x.env.trace = v.env.trace ++ evs ∧ ∀ e ∈ evs, e.IsTraffic := by
  have hbody := (traceProp_extendsTrace v.cfg Event.IsTraffic v.env.trace).catchBody (isTraffic_bodyEvents v.cfg)
    v.reevalFreq .tick v (.refl _ v)
  cases h with
  | same _ _ => exact ⟨[], (List.append_nil _).symm, nofun⟩
  | inForce _ _ => exact ⟨[], (List.append_nil _).symm, nofun⟩
  | moved _ _ hrun _ =>
    rw [catchTimeout_of_ok hrun] at hbody
    exact hbody.added
  | failed _ _ hrun _ =>
    rw [catchTimeout_of_timeout hrun] at hbody
    exact hbody.added

/-- R235: TRIP and TLEVEL are as the tick left them before the re-evaluation. -/
theorem ReevalEnds.getLsbD {old : Word} {v x : State} (h : ReevalEnds old v x) (hquiet : v.quiet) :
    x.intStatus.getLsbD 2 = v.intStatus.getLsbD 2 ∧ x.intStatus.getLsbD 3 = v.intStatus.getLsbD 3 := by
  obtain ⟨w, err, ints, hframe, rfl, hints⟩ := h.frame hquiet
  have hone : ∀ {b : BitVec 6} {m : BitVec 6}, m.getLsbD 2 = false → m.getLsbD 3 = false →
      (b ||| m).getLsbD 2 = b.getLsbD 2 ∧ (b ||| m).getLsbD 3 = b.getLsbD 3 := fun h2 h3 => by
    rw [BitVec.getLsbD_or, BitVec.getLsbD_or, h2, h3, Bool.or_false, Bool.or_false]
    exact ⟨rfl, rfl⟩
  have hw : w.intStatus.getLsbD 2 = v.intStatus.getLsbD 2 ∧ w.intStatus.getLsbD 3 = v.intStatus.getLsbD 3 := by
    obtain hsame | hwarn := hframe.ints
    · rw [hsame]; exact ⟨rfl, rfl⟩
    · rw [hwarn]; exact hone rfl rfl
  obtain rfl | rfl := hints
  · exact hw
  · obtain ⟨h2, h3⟩ := hone (b := w.intStatus) (m := IntBit.err.mask) rfl rfl
    exact ⟨h2.trans hw.1, h3.trans hw.2⟩

/-- R230, R233: the interrupt bits of a trip, before the re-evaluation. -/
theorem reevalState_tripped_ints (u : State) (notified : List Event) :
    (reevalState u .tripped notified).intStatus =
      u.intStatus ||| (if notified = [] then 0b000100 else 0b001100) := by
  show (if notified = [] then u.intStatus else u.intStatus ||| 0b001000) ||| 0b000100 = _
  split
  · rfl
  · rw [BitVec.or_assoc]
    rfl

theorem reevalState_tripped_getLsbD (u : State) (notified : List Event) :
    (reevalState u .tripped notified).intStatus.getLsbD 2 = true ∧
      (reevalState u .tripped notified).intStatus.getLsbD 3 = (u.intStatus.getLsbD 3 || decide (notified ≠ [])) := by
  rw [reevalState_tripped_ints, BitVec.getLsbD_or, BitVec.getLsbD_or]
  by_cases hnone : notified = []
  · rw [if_pos hnone, decide_eq_false (not_not.2 hnone)]
    exact ⟨Bool.or_true _, rfl⟩
  · rw [if_neg hnone, decide_eq_true hnone]
    exact ⟨Bool.or_true _, rfl⟩

/-- R233: what a trip leaves in the monitor's own registers, whatever the re-evaluation did. -/
structure Tripped (s u x : State) : Prop where
  cfg : x.cfg = s.cfg
  forGood : TrippedForGood x
  rankLevel : x.rankLevel = u.sample
  sampled : x.sampled = true
  tickRemaining : x.tickRemaining = s.tickRemaining

theorem ReevalEnds.tripped {s u x : State} {old : Word} {notified : List Event} (hsampled : Sampled th s u)
    (hquiet : u.quiet) (h : ReevalEnds old (reevalState u .tripped notified) x) : Tripped s u x := by
  obtain ⟨w, err, ints, hframe, rfl, -⟩ := h.frame hquiet
  rw [hframe.regs, hsampled.regs]
  exact ⟨rfl, ⟨rfl, rfl, rfl⟩, rfl, rfl, rfl⟩

/-- Settles O48: a tick that trips, its re-evaluation being that of another ceiling or none. -/
theorem tripIsForGood : Obligations.TripIsForGood := by
  intro s u th notified hwf hth hquiet h hth4 hnotified
  have hsampled := sampled_of_sampleAll hwf hquiet h
  have hst := (nextThermState_of_th4 hth4 s.thermState).symm
  obtain ⟨x, hx, hend⟩ := runTick_of_sampled hwf hquiet h hst hnotified
  have hsame := fun hceil => Host.Outcome.next.inj
    (hx.symm.trans (runTick_of_sameCeiling hwf hth hquiet h hst hnotified hceil))
  have huquiet : u.quiet := (sampleAll_keptBy hquiet h).1
  obtain ⟨hcfg, hgood, hlevels, htaken, hcount⟩ := hend.tripped hsampled huquiet
  obtain ⟨h2, h3⟩ := hend.getLsbD huquiet
  obtain ⟨htrip, htlevel⟩ := reevalState_tripped_getLsbD u notified
  obtain ⟨evs, htrace, htraffic⟩ := hend.traffic
  have hkept : u.intStatus = s.intStatus ∧ u.err = s.err ∧ u.currentLevel = s.currentLevel ∧
      u.currentVoltage = s.currentVoltage := by
    rw [hsampled.regs]
    exact ⟨rfl, rfl, rfl, rfl⟩
  obtain ⟨hints, herr, hlevel, hvoltage⟩ := hkept
  refine ⟨hsampled, _, evs, hx, ⟨hgood.state, hgood.stopped, hgood.noTick⟩, ?_, hlevels, htaken, hcount, h2.trans htrip,
    h3.trans (hints ▸ htlevel), rfl, rfl, htrace.trans (List.append_cons _ _ _).symm, htraffic, fun hceil => ?_⟩
  · show x.thermalCeiling = _
    rw [State.thermalCeiling_of (hcfg ▸ hth), hcfg, hgood.state]
  · have hend := hsame hceil
    refine ⟨?_, hend, ?_, ?_, ?_, ?_⟩
    · exact List.self_eq_append_right.1 ((congrArg (fun t => t.env.trace) hend).symm.trans htrace)
    all_goals rw [hend]
    · exact herr
    · exact hints ▸ reevalState_tripped_ints u notified
    · exact hlevel
    · exact hvoltage

end Sys2Proof.Machine
end

section
/-! SUPPORT. The pace of an operation (spec/60_exceptions.md R283, R284, log 5): every operation is made of actions that add
one event each, and asks nothing of the inputs to come, the countdown and the interrupt bits. So what falls upon it after any
number of its actions leaves the rest of it as it is. -/

namespace Sys2Proof.Machine

/-! ### What falls upon an operation -/

/-- What inputs that fall at a turn leave: the inputs still to come, the countdown, and interrupt bits that they set. -/
structure Overlay where
  inputs : List Input
  count : Word
  pending : Bool
  ints : BitVec 6

def State.overlaid (s : State) (o : Overlay) : State :=
  { s with tickRemaining := o.count, tickPending := o.pending, intStatus := s.intStatus ||| o.ints
           env := { s.env with inputs := o.inputs } }

/-- The overlay that changes nothing but the inputs to come. -/
def State.asOverlay (s : State) (l : List Input) : Overlay := ⟨l, s.tickRemaining, s.tickPending, 0⟩

theorem State.overlaid_asOverlay (s : State) (l : List Input) : s.overlaid (s.asOverlay l) = s.withInputs l :=
  congrArg (fun x => { s.withInputs l with intStatus := x }) BitVec.or_zero

theorem State.overlaid_drawWord (s : State) (o : Overlay) :
    (s.overlaid o).env.drawWord = (s.env.drawWord.1, { s.env.drawWord.2 with inputs := o.inputs }) := by
  show ({ s.env with inputs := o.inputs } : Env).drawWord = _
  cases h : s.env.readAnswers <;> simp only [Env.drawWord, h]

theorem State.overlaid_drawBit (s : State) (o : Overlay) :
    (s.overlaid o).env.drawBit = (s.env.drawBit.1, { s.env.drawBit.2 with inputs := o.inputs }) := by
  show ({ s.env with inputs := o.inputs } : Env).drawBit = _
  cases h : s.env.pollAnswers <;> simp only [Env.drawBit, h]

/-- What decides what an input does to a running operation (R222, R283). During a tick it does not matter whether the monitor
has stopped. -/
structure OpRegs where
  cfg : Config
  lockOwner : LockOwner
  slot : Option Cmd
  cmdActive : Bool
  count : Word
  pending : Bool
  stopped : Bool
  inputs : List Input

def State.opRegs (s : State) (duringTick : Bool) : OpRegs where
  cfg := s.cfg
  lockOwner := s.lockOwner
  slot := s.slot
  cmdActive := s.cmdActive
  count := s.tickRemaining
  pending := s.tickPending
  stopped := duringTick || s.monStopped
  inputs := s.env.inputs

/-! ### Operations made of actions -/

/-- A state function that neither sees nor writes what may fall upon an operation. -/
structure Uniform {α : Type} (b : Bool) (g : State → α × State) : Prop where
  overlaid : ∀ s o, g (s.overlaid o) = ((g s).1, (g s).2.overlaid o)
  kept : ∀ s, (g s).2.opRegs b = s.opRegs b

/-- An operation, or a part of one, made of actions that add one event each; `b` says whether it is a part of a tick. -/
inductive Paced (b : Bool) : {α : Type} → Op α → Prop
  | pure {α : Type} (a : α) : Paced b (pure a : Op α)
  | raise {α : Type} : Paced b (throw .timeout : Op α)
  | silent {α : Type} {g : State → α × State} (h : Uniform b g) (htrace : ∀ s, (g s).2.env.trace = s.env.trace) :
      Paced b (modifyGet g)
  | action {α : Type} {g : State → α × State} (h : Uniform b g)
      (htrace : ∀ s, ∃ e, (g s).2.env.trace = s.env.trace ++ [e]) : Paced b (do awaitTurn; modifyGet g)
  | read {α : Type} {k : State → Op α} (h : ∀ s, Paced b (k s)) (hk : ∀ s o, k (s.overlaid o) = k s := by intros; rfl) :
      Paced b (get >>= k)
  | bind {α β : Type} {op : Op α} {k : α → Op β} (h : Paced b op) (hk : ∀ a, Paced b (k a)) : Paced b (op >>= k)
  | catchTimeout {op : Op Word} (h : Paced b op) : Paced b (catchTimeout op)

theorem ints_or_comm (i x y : BitVec 6) : i ||| x ||| y = i ||| y ||| x := by
  rw [BitVec.or_assoc, BitVec.or_comm x, BitVec.or_assoc]

namespace Paced

variable {α : Type} {b : Bool}

theorem ite {c : Prop} [Decidable c] {op op' : Op α} (h : Paced b op) (h' : Paced b op') :
    Paced b (if c then op else op') := by
  split
  · exact h
  · exact h'

theorem update {f : State → State} (hf : ∀ s o, f (s.overlaid o) = (f s).overlaid o := by intros; rfl)
    (hkept : ∀ s, (f s).opRegs b = s.opRegs b := by intros; rfl)
    (htrace : ∀ s, (f s).env.trace = s.env.trace := by intros; rfl) : Paced b (modify f : Op Unit) :=
  silent (g := fun s => ((), f s)) ⟨fun s o => congrArg (Prod.mk ()) (hf s o), hkept⟩ htrace

theorem act {f : State → State} (hf : ∀ s o, f (s.overlaid o) = (f s).overlaid o := by intros; rfl)
    (hkept : ∀ s, (f s).opRegs b = s.opRegs b := by intros; rfl)
    (htrace : ∀ s, ∃ e, (f s).env.trace = s.env.trace ++ [e] := by intros; exact ⟨_, rfl⟩) : Paced b (act f) :=
  action (g := fun s => ((), f s)) ⟨fun s o => congrArg (Prod.mk ()) (hf s o), hkept⟩ htrace

/-! ### The sequencer's primitives -/

theorem goTo (x : SeqStep) : Paced b (goTo x) := update

theorem raiseInt (i : IntBit) : Paced b (modify fun s : State => s.raiseInt i : Op Unit) :=
  update (fun s o => congrArg (fun x => { s.overlaid o with intStatus := x }) (ints_or_comm _ _ _))

theorem memWrite (w : Window) (off : Nat) (v : Word) : Paced b (memWrite w off v) := act

theorem uniform_outRead (w : Window) (off : Nat) : Uniform b fun s => s.outRead w off where
  overlaid s o := by
    have howed : (s.overlaid o).owedWord w off = s.owedWord w off := rfl
    unfold State.outRead
    rw [howed, s.overlaid_drawWord]
    cases s.owedWord w off <;> rfl
  kept s := by
    rw [State.opRegs, s.outRead_inputs, s.outRead_state]
    rfl

theorem memRead (w : Window) (off : Nat) : Paced b (memRead w off) :=
  action (uniform_outRead w off) fun s => ⟨_, outRead_trace s w off⟩

theorem uniform_outPoll (sig : Signal) : Uniform b fun s => s.outPoll sig where
  overlaid s o := by
    unfold State.outPoll
    rw [s.overlaid_drawBit]
    rfl
  kept s := by
    rw [State.opRegs, s.outPoll_inputs]
    rfl

theorem pollSignal (sig : Signal) : Paced b (pollSignal sig) :=
  action (uniform_outPoll sig) fun s => ⟨_, outPoll_trace s sig⟩

/-! ### The bounded waits (R153) -/

theorem timedOut (sig : Signal) (crit : Bool) (arg : Byte) (snap : Word) : Paced b (timedOut sig crit arg snap) :=
  bind update fun _ => ite raise (bind (raiseInt .warn) fun _ => pure _)

theorem pollLoop (sig : Signal) (n : Nat) : ∀ k, Paced b (pollLoop sig n k) := by
  induction n with
  | zero => exact fun _ => pure _
  | succ n ih =>
    exact fun k => bind update fun _ => (pollSignal sig).bind fun _ =>
      ite (pure _) (ih (k + 1))

theorem waitSig (sig : Signal) (crit : Bool) (arg : Byte) : Paced b (waitSig sig crit arg) :=
  read fun s => (pollLoop sig s.cfg.waitMax 1).bind fun _ => ite (pure _) (timedOut sig crit arg 0)

theorem readLoop (w : Window) (off : Nat) (mask : Word) (n : Nat) : ∀ k, Paced b (readLoop w off mask n k) := by
  induction n with
  | zero => exact fun _ => pure _
  | succ n ih =>
    exact fun k => bind update fun _ => (memRead w off).bind fun _ =>
      bind update fun _ => ite (pure _) (ih (k + 1))

theorem waitReg (w : Window) (off : Nat) (mask : Word) (sig : Signal) (crit : Bool) (arg : Byte) :
    Paced b (waitReg w off mask sig crit arg) :=
  read fun s => (readLoop w off mask s.cfg.waitMax 1).bind fun _ =>
    ite (pure _) (read fun u => timedOut sig crit arg u.lastWord)

/-! ### The Transition Engine (R150 to R174) -/

theorem setVolt (v : Word) : Paced b (setVolt v) := bind act fun _ => (waitSig _ _ _).bind fun _ => pure _

theorem arefWrite : Paced b arefWrite := (goTo _).bind fun _ => act

theorem dllCapture : Paced b dllCapture :=
  (goTo _).bind fun _ => read fun _ => (memRead _ _).bind fun _ => bind update fun _ => act

theorem writeWords (offs : List Nat) : ∀ vs, Paced b (writeWords offs vs) := by
  induction offs with
  | nil => exact fun _ => pure _
  | cons off offs ih =>
    intro vs
    cases vs with
    | nil => exact pure _
    | cons v vs => exact (memWrite _ _ _).bind fun _ => ih vs

theorem writeTiming (l : Level) : Paced b (writeTiming l) :=
  read fun _ => (memRead _ _).bind fun _ => (writeWords _ _).bind fun _ => memWrite _ _ _

theorem repoint (first : Bool) (t : Level) (m src : Byte) : Paced b (repoint first t m src) :=
  bind act fun _ => read fun _ => (waitSig _ _ _).bind fun _ => pure _

theorem setDiv (first : Bool) (t : Level) : Paced b (setDiv first t) :=
  read fun _ => bind act fun _ => (waitSig _ _ _).bind fun _ => pure _

theorem repointAll (t : Level) (plan : List (Byte × Byte)) : ∀ first, Paced b (repointAll first t plan) := by
  induction plan with
  | nil => exact fun _ => pure _
  | cons p rest ih => exact fun _ => (repoint _ _ _ _).bind fun _ => ih false

theorem clockChange (o t : Level) : Paced b (clockChange o t) := by
  refine read fun s => ?_
  cases s.cfg.switchOrder o t with
  | muxThenDiv => exact (repointAll _ _ _).bind fun _ => setDiv _ _
  | divThenMux => exact (setDiv _ _).bind fun _ => repointAll _ _ _

theorem simplePath (o t : Level) (u : Bool) : Paced b (simplePath o t u) := by
  cases u with
  | false => exact (goTo _).bind fun _ => (clockChange o t).bind fun _ => (goTo _).bind fun _ => writeTiming t
  | true =>
    exact ((goTo _).bind fun _ => writeTiming t).bind fun _ => (goTo _).bind fun _ =>
      (clockChange o t).bind fun _ => pure _

theorem pssWait (x : SeqStep) : Paced b (pssWait x) := (goTo x).bind fun _ => (waitSig _ _ _).bind fun _ => pure _

theorem pllSafeSwitch (t : Level) : Paced b (pllSafeSwitch t) := by
  have hsafeMux : Paced b pssSafeMux := (goTo _).bind fun _ => act
  have hsafeTiming : Paced b pssSafeTiming := (goTo _).bind fun _ => read fun _ => writeTiming _
  have hreprogram : Paced b (pssReprogram t) :=
    (goTo _).bind fun _ => bind act fun _ => (waitSig _ _ _).bind fun _ => pure _
  have htargetTiming : Paced b (pssTargetTiming t) := (goTo _).bind fun _ => writeTiming t
  have htargetMux : Paced b (pssTargetMux t) := (goTo _).bind fun _ => act
  exact hsafeMux.bind fun _ => hsafeTiming.bind fun _ => (pssWait _).bind fun _ => hreprogram.bind fun _ =>
    htargetTiming.bind fun _ => htargetMux.bind fun _ => pssWait _

theorem clockPath (o t : Level) (u : Bool) : Paced b (clockPath o t u) :=
  read fun _ => ite (pllSafeSwitch t) (simplePath o t u)

theorem dllPost (t : Level) : Paced b (dllPost t) :=
  (goTo _).bind fun _ => read fun _ => ite (bind act fun _ => (waitReg _ _ _ _ _ _).bind fun _ => update) act

theorem voltageStep (x : SeqStep) (t : Level) : Paced b (voltageStep x t) := (goTo x).bind fun _ => read fun _ => setVolt _

theorem changeLevel (o t : Level) : Paced b (changeLevel o t) := by
  have hend : ∀ u : Bool, Paced b (do
      Machine.clockPath o t u; Machine.dllPost t; Machine.arefWrite; if !u then Machine.voltageStep .voltDown t) :=
    fun u => (clockPath o t u).bind fun _ => (dllPost t).bind fun _ => arefWrite.bind fun _ =>
      ite (voltageStep _ _) (pure _)
  refine read fun s => ?_
  cases s.needsCapture t <;> cases goesUp s.cfg o t
  · exact hend false
  · exact (voltageStep _ _).bind fun _ => hend true
  · exact dllCapture.bind fun _ => hend false
  · exact dllCapture.bind fun _ => (voltageStep _ _).bind fun _ => hend true

theorem transitionBody (f : Word) (o : Origin) : Paced b (transitionBody f o) := by
  have hresolve : Paced b (resolveTarget f o) := (goTo _).bind fun _ => read fun _ => bind update fun _ => pure _
  have hmove : ∀ t, Paced b (moveTo t) := fun t => read fun _ => ite arefWrite (changeLevel _ t)
  exact hresolve.bind fun t => (hmove t).bind fun _ => read fun _ => pure _

/-! ### The tick up to its last action (R225 to R236) -/

theorem sampleRank (th : Thermal) (n : Nat) (second : Bool) (cmd : Word) : Paced b (sampleRank th n second cmd) :=
  (memWrite _ _ _).bind fun _ => (waitReg _ _ _ _ _ _).bind fun _ =>
    ite ((memRead _ _).bind fun _ => bind update fun _ => pure _) (pure _)

theorem sampleFrom (th : Thermal) (cmds : List (Word × Word)) : ∀ n, Paced b (sampleFrom th n cmds) := by
  induction cmds with
  | nil => exact fun _ => pure _
  | cons p rest ih =>
    exact fun n => (sampleRank th n false p.1).bind fun _ =>
      ite ((sampleRank th n true p.2).bind fun _ => ite (ih (n + 1)) (pure _)) (pure _)

theorem sampleAll (th : Thermal) : Paced b (sampleAll th) :=
  (goTo _).bind fun _ => bind update fun _ => sampleFrom th _ _

theorem notifyFrom (news : List Byte) : ∀ prevs n, Paced b (notifyFrom n news prevs) := by
  induction news with
  | nil => exact fun _ _ => pure _
  | cons new news ih =>
    intro prevs n
    cases prevs with
    | nil => exact pure _
    | cons prev prevs => exact ite (ih _ _) (bind act fun _ => (ih _ _).bind fun _ => pure _)

theorem notifyChanges (prev : List Byte) : Paced b (notifyChanges prev) :=
  read fun _ => (notifyFrom _ _ _).bind fun _ => ite (raiseInt .tlevel) (pure _)

theorem reeval : Paced b reeval := by
  refine (goTo _).bind fun _ => read fun _ => ite ((transitionBody _ _).catchTimeout.bind fun r => ?_) (pure _)
  cases r with
  | some w => exact update
  | none => exact update (fun s o => congrArg (fun x => { s.overlaid o with err := 2, intStatus := x }) (ints_or_comm _ _ _))

theorem reevalIfChanged (old : Word) : Paced b (reevalIfChanged old) := read fun _ => ite reeval (pure _)

theorem monAref : Paced b monAref := (goTo _).bind fun _ => act

/-- R233: only a tick stops the monitor. -/
theorem shutDown : Paced true (Machine.act State.shutDown) :=
  act fun s o => congrArg (fun x => { s.shutDown.overlaid o with intStatus := x }) (ints_or_comm _ _ _)

end Paced

end Sys2Proof.Machine
end

section
/-! SUPPORT. An operation upon which inputs fall after some number of its actions (spec/60_exceptions.md R283, R284, log 5):
where they leave an overlay, the operation goes on under it as without them. -/

namespace Sys2Proof.Machine

/-! ### The fall -/

/-- What falls upon an operation: `late` inputs, at the turn after which the trace has `place` events, or later where no turn
is left; they leave the overlay `effect`. The operation is at work under the registers `regs`. -/
structure Fall where
  duringTick : Bool
  regs : OpRegs
  late : List Input
  effect : Overlay
  place : Nat

/-- Nothing else falls upon the operation, and the overlay is what the late inputs leave wherever it is at work. -/
structure Fall.Leaves (F : Fall) : Prop where
  quiet : F.regs.inputs = []
  rest : F.effect.inputs = []
  absorbed : ∀ (u : State) (l : List Input), u.opRegs F.duringTick = F.regs →
    absorb F.late (u.withInputs l) = .ok () (u.overlaid F.effect)

/-- The state `u` with `m` turns to come before the late inputs. -/
def State.awaiting (u : State) (F : Fall) (m : Nat) : State :=
  u.withInputs (List.replicate m (.turn .cmd) ++ F.late)

/-- The operation is in `u` without the fall, and in `v` with it: the late inputs are still to come, or have left their
overlay. -/
structure Delayed (F : Fall) (u v : State) : Prop where
  regs : u.opRegs F.duringTick = F.regs
  stands : (∃ m, u.env.trace.length + m = F.place ∧ v = u.awaiting F m) ∨
    F.place ≤ u.env.trace.length ∧ v = u.overlaid F.effect

/-- Where `u` without the fall is at its turn, this is the state with it once the turn has come. -/
def State.atTurn (u : State) (F : Fall) : State :=
  if F.place ≤ u.env.trace.length then u.overlaid F.effect else u.awaiting F (F.place - (u.env.trace.length + 1))

namespace Delayed

variable {F : Fall} {u v : State}

theorem quiet (h : Delayed F u v) (hF : F.Leaves) : u.quiet := (congrArg OpRegs.inputs h.regs).trans hF.quiet

theorem exists_overlaid (h : Delayed F u v) : ∃ o, v = u.overlaid o := by
  obtain ⟨m, -, rfl⟩ | ⟨-, rfl⟩ := h.stands
  · exact ⟨_, (u.overlaid_asOverlay _).symm⟩
  · exact ⟨_, rfl⟩

/-- The turn without the fall, and with it. -/
theorem awaitTurn (h : Delayed F u v) (hF : F.Leaves) :
    Machine.awaitTurn u = .ok () u ∧ Machine.awaitTurn v = .ok () (u.atTurn F) := by
  refine ⟨awaitTurn_quiet (h.quiet hF), ?_⟩
  unfold State.atTurn
  obtain ⟨m, hm, rfl⟩ | ⟨hplace, rfl⟩ := h.stands
  · cases m with
    | zero =>
      rw [if_pos (by omega)]
      exact hF.absorbed u F.late h.regs
    | succ m =>
      rw [if_neg (by omega), show F.place - (u.env.trace.length + 1) = m by omega]
      rfl
  · rw [if_pos hplace]
    exact awaitTurn_quiet hF.rest

end Delayed

/-! ### Under the fall, the parts of an operation -/

section

variable {α : Type} {F : Fall} {g : State → α × State} {u v : State}

/-- The inputs to come are seen and written no more than the rest of what may fall upon an operation. -/
theorem Uniform.withInputs {b : Bool} (h : Uniform b g) (s : State) (l : List Input) :
    g (s.withInputs l) = ((g s).1, (g s).2.withInputs l) := by
  have hkept := h.kept s
  have hsame : (g s).2.asOverlay l = s.asOverlay l := by
    rw [State.asOverlay, show (g s).2.tickRemaining = _ from congrArg OpRegs.count hkept,
      show (g s).2.tickPending = _ from congrArg OpRegs.pending hkept]
    rfl
  rw [← s.overlaid_asOverlay, h.overlaid, ← hsame, State.overlaid_asOverlay]

/-- A function that adds no event leaves the fall where it is. -/
theorem Delayed.silent (h : Delayed F u v) (hg : Uniform F.duringTick g) (htrace : (g u).2.env.trace = u.env.trace) :
    ∃ t, g v = ((g u).1, t) ∧ Delayed F (g u).2 t := by
  obtain ⟨m, hm, rfl⟩ | ⟨hplace, rfl⟩ := h.stands
  · exact ⟨_, hg.withInputs u _, (hg.kept u).trans h.regs, .inl ⟨m, htrace ▸ hm, rfl⟩⟩
  · exact ⟨_, hg.overlaid u _, (hg.kept u).trans h.regs, .inr ⟨htrace ▸ hplace, rfl⟩⟩

/-- A function that adds one event, after the turn. -/
theorem Delayed.action (h : Delayed F u v) (hg : Uniform F.duringTick g)
    (htrace : ∃ e, (g u).2.env.trace = u.env.trace ++ [e]) :
    ∃ t, g (u.atTurn F) = ((g u).1, t) ∧ Delayed F (g u).2 t := by
  obtain ⟨e, he⟩ := htrace
  have hlength : (g u).2.env.trace.length = u.env.trace.length + 1 := by rw [he, List.length_append]; rfl
  unfold State.atTurn
  split
  · next hplace => exact ⟨_, hg.overlaid u _, (hg.kept u).trans h.regs, .inr ⟨by omega, rfl⟩⟩
  · next hplace => exact ⟨_, hg.withInputs u _, (hg.kept u).trans h.regs, .inl ⟨_, by omega, rfl⟩⟩

/-- With the fall and without it, a part of an operation ends alike. -/
theorem Paced.delayed {op : Op α} (h : Paced F.duringTick op) (hF : F.Leaves) : Alike (Delayed F) op := by
  induction h with
  | pure a => exact Alike.pure a
  | raise => exact fun _ _ h => .stop _ (.inl h)
  | @silent α g hg htrace =>
    intro u v h
    obtain ⟨t, hv, ht⟩ := h.silent hg (htrace u)
    show SameEnd _ (.ok (g u).1 (g u).2) (.ok (g v).1 (g v).2)
    rw [hv]
    exact .ok _ ht
  | @action α g hg htrace =>
    intro u v h
    obtain ⟨hu, hv⟩ := h.awaitTurn hF
    obtain ⟨t, hturn, ht⟩ := h.action hg (htrace u)
    have hrun : (do awaitTurn; modifyGet g : Op α) v = .ok (g (u.atTurn F)).1 (g (u.atTurn F)).2 := run_bind hv rfl
    have hrun' : (do awaitTurn; modifyGet g : Op α) u = .ok (g u).1 (g u).2 := run_bind hu rfl
    rw [hrun, hrun', hturn]
    exact .ok _ ht
  | @read α k _ hk ih =>
    intro u v h
    obtain ⟨o, rfl⟩ := h.exists_overlaid
    show SameEnd _ (k u u) (k (u.overlaid o) (u.overlaid o))
    rw [hk]
    exact ih u _ _ h
  | bind _ _ ih ihk => exact ih.bind ihk
  | catchTimeout _ ih => exact ih.catchTimeout

end

/-! ### Under the fall, a whole operation -/

/-- R122, R236: an operation whose last action is one of `fin`, which adds no event. -/
inductive EndsBy (b : Bool) (fin : (State → State) → Prop) : Op Unit → Prop
  | last {g : State → State} (hg : fin g) (htrace : ∀ s, (g s).env.trace = s.env.trace) : EndsBy b fin (act g)
  | read {k : State → Op Unit} (h : ∀ s, EndsBy b fin (k s)) (hk : ∀ s o, k (s.overlaid o) = k s := by intros; rfl) :
      EndsBy b fin (get >>= k)
  | bind {α : Type} {op : Op α} {k : α → Op Unit} (h : Paced b op) (hk : ∀ a, EndsBy b fin (k a)) : EndsBy b fin (op >>= k)

theorem EndsBy.ite {b : Bool} {fin : (State → State) → Prop} {c : Prop} [Decidable c] {op op' : Op Unit}
    (h : EndsBy b fin op) (h' : EndsBy b fin op') : EndsBy b fin (if c then op else op') := by
  split
  · exact h
  · exact h'

/-- An operation that ends well without the fall ends by the same last action with it. -/
theorem EndsBy.delayed {F : Fall} {fin : (State → State) → Prop} {op : Op Unit} (h : EndsBy F.duringTick fin op)
    (hF : F.Leaves) : ∀ {u v t : State}, Delayed F u v → op u = .ok () t →
      ∃ g w, fin g ∧ t = g w ∧ w.opRegs F.duringTick = F.regs ∧ t.env.trace = w.env.trace ∧
        op v = .ok () (g (w.atTurn F)) := by
  induction h with
  | @last g hg htrace =>
    intro u v t h hop
    obtain ⟨hu, hv⟩ := h.awaitTurn hF
    obtain rfl : t = g u := by
      have hrun : act g u = .ok () (g u) := run_bind hu rfl
      rw [hrun] at hop
      cases hop
      rfl
    exact ⟨g, u, hg, rfl, h.regs, htrace u, run_bind hv rfl⟩
  | @read k _ hk ih =>
    intro u v t h hop
    obtain ⟨o, rfl⟩ := h.exists_overlaid
    obtain ⟨g, w, hg, ht, hregs, htrace, hrun⟩ := ih u h hop
    exact ⟨g, w, hg, ht, hregs, htrace, run_get ((congrFun (hk u o) _).trans hrun)⟩
  | @bind α op k hpaced _ ih =>
    intro u v t h hop
    have hend := hpaced.delayed hF u v h
    generalize hr : op u = r, hr' : op v = r' at hend
    cases hend with
    | ok a h =>
      rw [run_bind hr rfl] at hop
      obtain ⟨g, w, hg, ht, hregs, htrace, hrun⟩ := ih a h hop
      exact ⟨g, w, hg, ht, hregs, htrace, run_bind hr' hrun⟩
    | stop e _ =>
      rw [run_bind_error hr] at hop
      cases hop

end Sys2Proof.Machine
end

section
/-! SUPPORT. Any number of pulses of the strobe (spec/42_thermal_monitor.md R222, R223; spec/60_exceptions.md R284): on an idle
block, during a command, and during a tick. -/

namespace Sys2Proof.Machine

/-! ### Any number of pulses -/

/-- R222: the state after `k` pulses that count. -/
def State.pulsed (s : State) (k : Nat) : State :=
  { s with tickRemaining := s.tickRemaining - BitVec.ofNat 32 k, tickPending := decide (k = s.tickRemaining.toNat) }

/-- R222: one more pulse, before the tick is pending. -/
theorem State.Counting.msTick_pulsed {s : State} (h : s.Counting) {k : Nat} (hk : k < s.tickRemaining.toNat) :
    (s.pulsed k).msTick = s.pulsed (k + 1) := by
  have hcounting : (s.pulsed k).Counting := ⟨h.runs, decide_eq_false hk.ne, h.owner⟩
  have hleft : (s.pulsed k).tickRemaining.toNat = s.tickRemaining.toNat - k := by
    show (s.tickRemaining - BitVec.ofNat 32 k).toNat = _
    bv_omega
  have hcount : BitVec.ofNat 32 (s.tickRemaining.toNat - k - 1) = s.tickRemaining - BitVec.ofNat 32 (k + 1) := by bv_omega
  have hdue : decide (s.tickRemaining.toNat - k ≤ 1) = decide (k + 1 = s.tickRemaining.toNat) :=
    decide_eq_decide.2 (by omega)
  rw [State.msTick_of_counting hcounting, hleft, hcount, hdue]
  rfl

theorem State.Counting.iterate_msTick {s : State} (h : s.Counting) (hpos : 1 ≤ s.tickRemaining.toNat) (k : Nat)
    (hk : k ≤ s.tickRemaining.toNat) : State.msTick^[k] s = s.pulsed k := by
  induction k with
  | zero =>
    have hnone : decide (0 = s.tickRemaining.toNat) = s.tickPending := by
      rw [h.noTick, decide_eq_false (by omega)]
    rw [State.pulsed, hnone, BitVec.sub_zero]
    rfl
  | succ k ih => rw [Function.iterate_succ_apply', ih (by omega), h.msTick_pulsed (by omega)]

theorem State.iterate_msTick_of_notCounting {s : State} (h : s.notCounting) (k : Nat) : State.msTick^[k] s = s :=
  Function.iterate_fixed (State.msTick_of_notCounting h) k

theorem State.toNat_pulsed {s : State} {k : Nat} (hk : k ≤ s.tickRemaining.toNat) :
    (s.pulsed k).tickRemaining.toNat = s.tickRemaining.toNat - k := by
  show (s.tickRemaining - BitVec.ofNat 32 k).toNat = _
  bv_omega

theorem State.withInputs_of_quiet {s : State} (h : s.quiet) : s.withInputs [] = s := by
  rw [← h]
  rfl

/-- R222: the strobe does not see the inputs to come. -/
theorem State.iterate_msTick_withInputs (s : State) (k : Nat) (l : List Input) :
    State.msTick^[k] (s.withInputs l) = (State.msTick^[k] s).withInputs l := by
  have hcommute : Function.Commute State.msTick fun s => s.withInputs l := fun s =>
    (internal_msTick s l s.env.host).1.trans (congrArg (s.msTick.facing l) (internal_msTick.env s).2.symm)
  exact hcommute.iterate_left k s

/-- R222, R223: on an idle block each pulse is a step. -/
theorem run_pulses (k : Nat) : ∀ {s : State}, s.cfg.wf = true → s.env.inputs = List.replicate k .msTick →
    core.run k s = .next ((State.msTick^[k] s).withInputs []) := by
  induction k with
  | zero => exact fun {s} _ hi => congrArg Host.Outcome.next (s.withInputs_of_quiet hi).symm
  | succ k ih =>
    intro s hwf hi
    have hcfg : (s.msTick.withInputs (List.replicate k .msTick)).cfg = s.cfg := (inputFrame_msTick s).cfg
    rw [run_of_step (step_msTick hwf hi), ih (hcfg ▸ hwf) rfl, State.iterate_msTick_withInputs]
    rfl

/-- R284: at a turn of an operation they fall together. -/
theorem absorb_pulses (k : Nat) : ∀ s : State,
    absorb (List.replicate k .msTick) s = .ok () ((State.msTick^[k] s).withInputs []) := by
  induction k with
  | zero => exact fun _ => rfl
  | succ k ih => exact fun s => ih s.msTick

/-! ### Pulses that fall upon an operation (R222, R284) -/

theorem opRegs_asOverlay {b : Bool} {s w : State} (h : w.opRegs b = s.opRegs b) : w.asOverlay [] = s.asOverlay [] :=
  congrArg₂ (fun c p => (⟨[], c, p, 0⟩ : Overlay)) (congrArg OpRegs.count h) (congrArg OpRegs.pending h)

/-- What the pulses do is the same wherever the operation `regs` describes is at work. -/
def pulsesFall (b : Bool) (s : State) (k place : Nat) (effect : Overlay) : Fall :=
  ⟨b, s.opRegs b, List.replicate k .msTick, effect, place⟩

/-- Where the count stands still during the operation, the pulses change nothing. -/
theorem pulsesFall_still {b : Bool} {s : State} (hquiet : s.quiet)
    (hstill : ∀ u : State, u.opRegs b = s.opRegs b → u.notCounting) (k place : Nat) :
    (pulsesFall b s k place (s.asOverlay [])).Leaves where
  quiet := hquiet
  rest := rfl
  absorbed u l h := by
    have hsame : s.asOverlay [] = u.asOverlay [] := (opRegs_asOverlay h).symm
    show absorb (List.replicate k .msTick) _ = .ok () (u.overlaid (s.asOverlay []))
    rw [absorb_pulses, State.iterate_msTick_withInputs, State.iterate_msTick_of_notCounting (hstill u h), hsame,
      State.overlaid_asOverlay]
    rfl

/-- Where it runs, they count down. -/
theorem pulsesFall_counting {s : State} (hquiet : s.quiet) (h : s.Counting) (hpos : 1 ≤ s.tickRemaining.toNat) {k : Nat}
    (hk : k ≤ s.tickRemaining.toNat) (place : Nat) :
    (pulsesFall false s k place ((s.pulsed k).asOverlay [])).Leaves where
  quiet := hquiet
  rest := rfl
  absorbed u l hregs := by
    have hcount : u.tickRemaining = s.tickRemaining := congrArg OpRegs.count hregs
    have howner : u.lockOwner = s.lockOwner := congrArg OpRegs.lockOwner hregs
    have hcounting : u.Counting :=
      ⟨(congrArg OpRegs.stopped hregs).trans h.runs, (congrArg OpRegs.pending hregs).trans h.noTick, howner ▸ h.owner⟩
    have hsame : (s.pulsed k).asOverlay [] = (u.pulsed k).asOverlay [] := by
      rw [State.asOverlay, State.asOverlay, State.pulsed, State.pulsed, hcount]
    show absorb (List.replicate k .msTick) _ = .ok () (u.overlaid ((s.pulsed k).asOverlay []))
    rw [absorb_pulses, State.iterate_msTick_withInputs, hcounting.iterate_msTick (hcount ▸ hpos) k (hcount ▸ hk), hsame]
    exact congrArg (EStateM.Result.ok ()) ((u.pulsed k).overlaid_asOverlay []).symm

/-! ### Commands and ticks under a fall -/

/-- R122: the last action of a command. -/
def IsCompletion (g : State → State) : Prop := ∃ code res, g = fun s => s.completeCmd code res

theorem endsBy_completeWith (code : BitVec 4) (res : Option Word) : EndsBy false IsCompletion (completeWith code res) :=
  .last ⟨code, res, rfl⟩ fun _ => rfl

theorem endsBy_completeTransition (r : Option Word) : EndsBy false IsCompletion (completeTransition r) := by
  cases r with
  | some f => exact endsBy_completeWith 0 (some f)
  | none => exact endsBy_completeWith 2 none

theorem endsBy_policyOp (f : Word) : EndsBy false IsCompletion (policyOp f) := by
  refine .read fun s => .ite ?_ (endsBy_completeWith 1 none)
  exact .bind .update fun _ => .read fun _ => .bind (Paced.transitionBody _ .cmd).catchTimeout endsBy_completeTransition

theorem endsBy_transitionOp (f : Word) : EndsBy false IsCompletion (transitionOp f) := by
  refine .read fun s => .ite ?_ (endsBy_completeWith 1 none)
  exact .bind .update fun _ => .bind (Paced.transitionBody f .cmd).catchTimeout endsBy_completeTransition

theorem endsBy_setBoundsOp (lo hi : Word) : EndsBy false IsCompletion (setBoundsOp lo hi) :=
  .bind .update fun _ => endsBy_completeWith 0 none

theorem endsBy_coldOp (asserted : Bool) : EndsBy false IsCompletion (coldOp asserted) := by
  have hvoltage : Paced false coldVoltage :=
    (Paced.goTo _).bind fun _ => .read fun _ => (Paced.setVolt _).bind fun _ => .pure _
  exact .bind .update fun _ => .bind hvoltage.catchTimeout fun _ => endsBy_completeWith _ none

/-- R122, R127: a command, or an illegal word, is an operation that ends by its completion, and it ends well where nothing
comes from outside. -/
theorem exists_op_of_command {run : State → Host.Outcome State Fault Refusal}
    (h : (∃ i, run = exec i) ∨ run = execIllegal) : ∃ op, run = runOp op ∧ EndsBy false IsCompletion op ∧
      ∀ s : State, s.cfg.wf = true → s.quiet → ∃ t, op s = .ok () t := by
  obtain ⟨i, rfl⟩ | rfl := h
  · cases i with
    | policy f => exact ⟨_, rfl, endsBy_policyOp f, fun s _ hq => (policyOp_quiet f hq).imp fun _ => And.left⟩
    | transition f => exact ⟨_, rfl, endsBy_transitionOp f, fun s _ hq => (transitionOp_quiet f hq).imp fun _ => And.left⟩
    | setBounds lo hi =>
      exact ⟨_, rfl, endsBy_setBoundsOp lo hi, fun s _ hq =>
        ⟨_, run_modify (completeWith_quiet (s := s.setBounds lo hi) hq 0 none)⟩⟩
    | cold b =>
      refine ⟨_, rfl, endsBy_coldOp b, fun s hwf hq => ?_⟩
      obtain ⟨n, polls, code, info1, info2, info3, snap, -, -, hop⟩ := coldOp_quiet b hwf hq
      exact ⟨_, hop⟩
  · exact ⟨_, rfl, endsBy_completeWith 4 none, fun s _ hq => ⟨_, completeWith_quiet hq 4 none⟩⟩

theorem completeCmd_overlaid (s : State) (code : BitVec 4) (res : Option Word) (o : Overlay) :
    (s.overlaid o).completeCmd code res = (s.completeCmd code res).overlaid o :=
  congrArg (fun x => { (s.completeCmd code res).overlaid o with intStatus := x }) (ints_or_comm _ _ _)

theorem completeCmd_atTurn (s : State) (code : BitVec 4) (res : Option Word) (F : Fall) :
    (s.atTurn F).completeCmd code res = (s.completeCmd code res).atTurn F := by
  unfold State.atTurn
  show (if F.place ≤ s.env.trace.length then _ else _ : State).completeCmd code res =
    if F.place ≤ s.env.trace.length then _ else _
  split
  · exact completeCmd_overlaid s code res F.effect
  · rfl

/-- R283, R284: a command upon which inputs fall ends as without them, under what they leave; those that come after its last
action are still to come. -/
theorem command_delayed {run : State → Host.Outcome State Fault Refusal} (h : (∃ i, run = exec i) ∨ run = execIllegal)
    {s : State} (hwf : s.cfg.wf = true) (hquiet : s.quiet) : ∃ t, run s = .next t ∧
      ∀ (F : Fall) (n : Nat), F.Leaves → F.duringTick = false → F.regs = s.opRegs false →
        F.place = s.env.trace.length + n →
        t.quiet ∧ t.asOverlay [] = s.asOverlay [] ∧ run (s.awaiting F n) = .next (t.atTurn F) := by
  obtain ⟨op, rfl, hends, hrun⟩ := exists_op_of_command h
  obtain ⟨t, hop⟩ := hrun s hwf hquiet
  refine ⟨t, runOp_of_ok hwf hop, fun F n hF hb hregs hplace => ?_⟩
  have hdelayed : Delayed F s (s.awaiting F n) := ⟨by rw [hb, hregs], .inl ⟨n, hplace.symm, rfl⟩⟩
  obtain ⟨_, w, ⟨code, res, rfl⟩, rfl, hw, -, hfall⟩ := (hb ▸ hends : EndsBy F.duringTick _ op).delayed hF hdelayed hop
  rw [hb, hregs] at hw
  refine ⟨(congrArg OpRegs.inputs hw).trans hquiet, opRegs_asOverlay (w := w) hw, ?_⟩
  rw [← completeCmd_atTurn]
  exact runOp_of_ok (s := s.awaiting F n) hwf hfall

theorem State.atTurn_of_fallen {t : State} {F : Fall} (h : F.place ≤ t.env.trace.length) :
    t.atTurn F = t.overlaid F.effect := if_pos h

/-- Where the late inputs leave what a quiet state holds, nothing has changed. -/
theorem State.atTurn_of_unchanged {t : State} {F : Fall} (h : F.place ≤ t.env.trace.length) (hquiet : t.quiet)
    (hsame : t.asOverlay [] = F.effect) : t.atTurn F = t := by
  rw [State.atTurn_of_fallen h, ← hsame, State.overlaid_asOverlay, State.withInputs_of_quiet hquiet]

theorem endsBy_tick (th : Thermal) : EndsBy true (fun _ => True) (tick th) := by
  have hfinish : EndsBy true (fun _ => True) (finishTick th) := .last trivial fun _ => rfl
  have htrip : ∀ old, EndsBy true (fun _ => True) (trip old) := fun old =>
    .bind Paced.shutDown fun _ => .bind (Paced.reevalIfChanged old) fun _ => .last trivial fun _ => rfl
  have hsettle : ∀ old, EndsBy true (fun _ => True) (do monAref; reevalIfChanged old; finishTick th) := fun old =>
    .bind Paced.monAref fun _ => .bind (Paced.reevalIfChanged old) fun _ => hfinish
  have hupdate : EndsBy true (fun _ => True) (updateTick th) :=
    .bind (Paced.goTo _) fun _ => .read fun _ => .bind .update fun _ => .bind (Paced.notifyChanges _) fun _ =>
      .read fun _ => .bind .update fun _ => .read fun _ => .ite (htrip _) (hsettle _)
  exact .bind (Paced.sampleAll th) fun _ => .ite hupdate hfinish

/-- R284: a tick upon which pulses fall before its last action ends as without them. -/
theorem tick_delayed {s : State} (th : Thermal) (hwf : s.cfg.wf = true) (hquiet : s.quiet) : ∃ t, runTick th s = .next t ∧
    ∀ n k, s.env.trace.length + n ≤ t.env.trace.length →
      runTick th (s.withInputs (List.replicate n (.turn .cmd) ++ List.replicate k .msTick)) = .next t := by
  obtain ⟨t, hop, -⟩ := tick_quiet th hquiet
  refine ⟨t, runOp_of_ok (s := s.takeTick) hwf hop, fun n k hn => ?_⟩
  have hF := pulsesFall_still (b := true) (s := s.takeTick) hquiet (fun u hu => .inr (.inr (congrArg OpRegs.lockOwner hu))) k
    (s.env.trace.length + n)
  have hdelayed : Delayed (pulsesFall true s.takeTick k (s.env.trace.length + n) (s.takeTick.asOverlay [])) s.takeTick
      (s.takeTick.awaiting _ n) := ⟨rfl, .inl ⟨n, rfl, rfl⟩⟩
  obtain ⟨g, w, -, rfl, hw, htrace, hrun⟩ := EndsBy.delayed (endsBy_tick th) hF hdelayed hop
  have hsame : w.atTurn (pulsesFall true s.takeTick k (s.env.trace.length + n) (s.takeTick.asOverlay [])) = w :=
    State.atTurn_of_unchanged (htrace ▸ hn) ((congrArg OpRegs.inputs hw).trans hquiet) (opRegs_asOverlay hw)
  rw [hsame] at hrun
  exact runOp_of_ok (s := s.takeTick.awaiting _ n) hwf hrun

/-! ### The countdown (R222, R223, R284) -/

/-- Settles O16: pulses on an idle block, during a command, and during a tick. -/
theorem tickFallsDueAfterItsInterval : Obligations.TickFallsDueAfterItsInterval := by
  refine ⟨fun s k hinv hruns hnone hk hi => ?_, fun s run n k hwf hquiet howner hrun => ?_, fun s th n k hwf _ hquiet => ?_⟩
  · have howner : s.lockOwner ≠ .tick := by rw [hinv.rest.owner]; exact nofun
    have hpos := hinv.coherent.counting hruns hnone howner
    refine ⟨_, run_pulses k hinv.coherent.cfgWf hi, ?_⟩
    rw [State.Counting.iterate_msTick ⟨hruns, hnone, howner⟩ hpos k hk]
    exact ⟨State.toNat_pulsed hk, rfl, rfl⟩
  · obtain ⟨t, ht, hdelayed⟩ := command_delayed hrun hwf hquiet
    refine ⟨t, ht, fun hn => ⟨fun hstill => ?_, fun hruns hnone hpos hk => ?_⟩⟩
    · have hF := pulsesFall_still (b := false) hquiet (fun u hu => hstill.imp
        (congrArg OpRegs.stopped hu).trans fun h => .inl ((congrArg OpRegs.pending hu).trans h)) k (s.env.trace.length + n)
      obtain ⟨htquiet, hsame, hfall⟩ := hdelayed _ n hF rfl rfl rfl
      exact hfall.trans (congrArg Host.Outcome.next (State.atTurn_of_unchanged hn htquiet hsame))
    · have hF := pulsesFall_counting hquiet ⟨hruns, hnone, howner⟩ hpos hk (s.env.trace.length + n)
      obtain ⟨htquiet, -, hfall⟩ := hdelayed _ n hF rfl rfl rfl
      refine hfall.trans (congrArg Host.Outcome.next ((State.atTurn_of_fallen hn).trans ?_))
      exact congrArg₂ (fun (u : State) ints => { u with
        tickRemaining := s.tickRemaining - BitVec.ofNat 32 k, tickPending := decide (k = s.tickRemaining.toNat)
        intStatus := ints }) (State.withInputs_of_quiet htquiet) BitVec.or_zero
  · obtain ⟨t, ht, hfall⟩ := tick_delayed th hwf hquiet
    exact ⟨t, ht, hfall n k⟩

end Sys2Proof.Machine
end

section
/-! SUPPORT. Faults of the host's window and interrupts (spec/60_exceptions.md R278, R280), and the two ways a command
completes without any other action: an illegal word (R276), and a frequency of no level (R272). -/

namespace Sys2Proof.Machine

/-! ### Bus errors (R61, R278) -/

/-- R61, R278: an access inside the window that is not 4 bytes, or not at an aligned offset, is a bus error. -/
theorem hostAccess_busError (s : State) {off bytes : Nat} (d : Direction) (ho : off < 256)
    (h : bytes ≠ 4 ∨ off % 4 ≠ 0) : s.hostAccess ⟨s.cfg.mmioBase + off, bytes, d⟩ = .error (.busError off bytes) := by
  have hwindow : Access.inWindow ⟨s.cfg.mmioBase + off, bytes, d⟩ s.cfg = true := by simp [Access.inWindow, ho]
  have hperf : Access.performed ⟨s.cfg.mmioBase + off, bytes, d⟩ s.cfg = false := by
    simp only [Access.performed, Nat.add_sub_cancel_left, decide_eq_false_iff_not]
    tauto
  simp [State.hostAccess, hwindow, hperf]

/-- Settles O9: an access that is not performed faults, and a read and a write that are performed answer a next state. -/
theorem busErrorExactlyWhenMisaligned : Obligations.BusErrorExactlyWhenMisaligned := by
  intro s off bytes dir rest hwf hoff hi
  refine ⟨fun hbad => by rw [step_access hwf hi, hostAccess_busError s dir hoff hbad], ?_⟩
  rintro rfl halign
  cases dir with
  | read => exact ⟨_, step_read hwf hoff halign hi⟩
  | write v => exact ⟨_, step_write hwf hoff halign hi⟩

/-! ### Interrupts (R39, R280) -/

/-- R39: `irq` is the OR, over the bits, of pending and enabled. -/
theorem State.irq_iff (s : State) :
    s.irq = true ↔ ∃ i, i < 6 ∧ s.intStatus.getLsbD i = true ∧ s.intEnable.getLsbD i = true := by
  have hzero : s.intStatus &&& s.intEnable = 0 ↔
      ∀ i, i < 6 → (s.intStatus.getLsbD i && s.intEnable.getLsbD i) = false := by
    simp [BitVec.eq_of_getLsbD_eq_iff]
  rw [State.irq, bne_iff_ne, ne_eq, hzero]
  simp

/-- Settles O10: the writes of INT_STATUS and INT_ENABLE, bit by bit. -/
theorem interruptEnablePendingClear : Obligations.InterruptEnablePendingClear := by
  intro s m rest hwf
  refine ⟨s.irq_iff, fun hi => ⟨_, step_write hwf (by decide) rfl hi, fun i hlt => ?_⟩,
    fun hi => ⟨_, step_write hwf (by decide) rfl hi, fun i hlt => ?_⟩⟩
  · simp [hlt]
  · simp [hlt]

/-! ### Completions that make no outbound operation (R272, R276) -/

/-- R127, R276: an illegal word completes with code 4, where nothing comes from outside. -/
theorem execIllegal_quiet {s : State} (hwf : s.cfg.wf = true) (hquiet : s.quiet) :
    execIllegal s = .next (s.completeCmd 4 none) := runOp_of_ok hwf (completeWith_quiet hquiet 4 none)

/-- Settles O22: the step starts the slot's word, and it completes as illegal. -/
theorem illegalWordCompletesWithCodeFour : Obligations.IllegalWordCompletesWithCodeFour := by
  intro s c e hwf hidle hslot htick hquiet hdecode
  have harbitrate : arbitrate s = startReady .cmd s := if_neg (by simp [htick])
  rw [step_quiet hwf hquiet, harbitrate, startReady_of_slot hidle hslot (.inl htick), startCommand_error hdecode]
  exact execIllegal_quiet (s := s.takeCommand) hwf hquiet

/-- Settles O23: neither command goes beyond its lookup of the frequency. -/
theorem unknownFrequencyChangesNothingElse : Obligations.UnknownFrequencyChangesNothingElse := by
  intro s f hwf hquiet hnone
  have hunknown : ¬ exactFreq s.cfg f = true := fun h => by
    obtain ⟨p, hp, hf⟩ := exactFreq_iff.1 h
    exact hnone p hp hf
  exact ⟨runOp_of_ok hwf (policyOp_unknown hquiet hunknown), runOp_of_ok hwf (transitionOp_unknown hquiet hunknown)⟩

end Sys2Proof.Machine
end

section
/-! SUPPORT. A CMD write that falls upon a running command (spec/60_exceptions.md R277, R283, log 5): wherever it falls, the
port is busy, so it leaves DROP set and nothing else. -/

namespace Sys2Proof.Machine

/-- R120, R277: the write of CMD while a command runs. -/
theorem hostAccess_cmdWrite_of_active {s : State} (h : s.cmdActive = true) (w : Word) :
    s.hostAccess ⟨s.cfg.mmioBase, 4, .write w⟩ = .ok (s.raiseInt .drop) := by
  have hbusy : s.busy = true := by simp [State.busy, h]
  exact (hostAccess_at s 0 (.write w) (by decide) rfl).trans (congrArg Except.ok (State.writeCmd_of_busy hbusy w))

/-- What a CMD write leaves of the command in progress: the bit DROP. -/
def cmdWriteFall (s : State) (w : Word) (place : Nat) : Fall :=
  ⟨false, s.opRegs false, [.access ⟨s.cfg.mmioBase, 4, .write w⟩],
    { s.asOverlay [] with ints := IntBit.drop.mask }, place⟩

theorem cmdWriteFall_leaves {s : State} (hactive : s.cmdActive = true) (hquiet : s.quiet) (w : Word) (place : Nat) :
    (cmdWriteFall s w place).Leaves where
  quiet := hquiet
  rest := rfl
  absorbed u l hregs := by
    have hcfg : u.cfg = s.cfg := congrArg OpRegs.cfg hregs
    have hsame : u.asOverlay [] = s.asOverlay [] := opRegs_asOverlay hregs
    have hrunning : (u.withInputs l).cmdActive = true := (congrArg OpRegs.cmdActive hregs).trans hactive
    have haccess : (u.withInputs l).hostAccess ⟨s.cfg.mmioBase, 4, .write w⟩ = .ok ((u.withInputs l).raiseInt .drop) :=
      hcfg ▸ hostAccess_cmdWrite_of_active hrunning w
    show absorb [.access ⟨s.cfg.mmioBase, 4, .write w⟩] (u.withInputs l) =
      .ok () (u.overlaid { s.asOverlay [] with ints := IntBit.drop.mask })
    rw [absorb, haccess, ← hsame]
    rfl

/-- Settles O58: the write as a fall upon the command, still to come at its end or not. -/
theorem cmdWriteDuringACommandIsDropped : Obligations.CmdWriteDuringACommandIsDropped := by
  intro s run n w hwf hactive hquiet hrun
  obtain ⟨t, ht, hdelayed⟩ := command_delayed hrun hwf hquiet
  obtain ⟨htquiet, hsame, hfall⟩ := hdelayed (cmdWriteFall s w (s.env.trace.length + n)) n
    (cmdWriteFall_leaves hactive hquiet w _) rfl rfl rfl
  have hdrop : t.overlaid { s.asOverlay [] with ints := IntBit.drop.mask } =
      { t with intStatus := t.intStatus ||| 0b010000 } := by
    rw [← hsame]
    exact congrArg (fun u : State => { u with intStatus := t.intStatus ||| 0b010000 })
      (State.withInputs_of_quiet htquiet)
  refine ⟨t, ht, hfall.trans (congrArg Host.Outcome.next ?_)⟩
  exact congrArg (fun u => if s.env.trace.length + n ≤ t.env.trace.length then u else _) hdrop

end Sys2Proof.Machine
end

section
/-! SUPPORT. What waits while an operation runs (spec/60_exceptions.md R274): a captured command stays in the slot and a due
tick stays pending until the operation that takes it, and each operation ends with the lock free. -/

namespace Sys2Proof.Machine

variable {th : Thermal}

/-! ### Inputs and what waits -/

/-- R120: a host write leaves a captured command where it is. -/
theorem slot_of_writeReg {s : State} {cmd : Cmd} (hslot : s.slot = some cmd) (off : Nat) (v : Word) :
    (s.writeReg off v).slot = some cmd := by
  obtain hw | ⟨-, hw⟩ | ⟨hfree, -⟩ | hw | hw | hw | hw := writeReg_cases s off v
  case inr.inr.inl => simp [State.busy, hslot] at hfree
  all_goals rw [hw]; exact hslot

theorem slot_of_hostAccess {s s' : State} {a : Access} {cmd : Cmd} (h : s.hostAccess a = .ok s')
    (hslot : s.slot = some cmd) : s'.slot = some cmd := by
  obtain rfl | ⟨w, rfl⟩ | ⟨off, v, rfl⟩ := hostAccess_cases h
  · exact hslot
  · exact hslot
  · exact slot_of_writeReg hslot off v

theorem State.msTick_slot (s : State) : s.msTick.slot = s.slot := by
  unfold State.msTick
  split <;> rfl

/-- The command and the tick that wait in `w` wait in `s` as well. -/
structure StillWaits (w s : State) : Prop where
  cfg : s.cfg = w.cfg
  slot : ∀ cmd, w.slot = some cmd → s.slot = some cmd
  pending : w.tickPending = true → s.tickPending = true

theorem StillWaits.same {w s t : State} (h : StillWaits w s) (hcfg : t.cfg = s.cfg) (hslot : t.slot = s.slot)
    (hpending : t.tickPending = s.tickPending) : StillWaits w t :=
  ⟨hcfg.trans h.cfg, fun cmd hw => hslot.trans (h.slot cmd hw), fun hw => hpending.trans (h.pending hw)⟩

theorem StillWaits.stable (w : State) : Stable (StillWaits w) fun _ _ => True where
  msTick s h := ⟨(inputFrame_msTick s).cfg.trans h.cfg, fun cmd hw => s.msTick_slot.trans (h.slot cmd hw), fun hw =>
    (State.msTick_of_notCounting (.inr (.inl (h.pending hw)))).symm ▸ h.pending hw⟩
  access _ _ _ h ha := ⟨(inputFrame_hostAccess ha).cfg.trans h.cfg, fun cmd hw => slot_of_hostAccess ha (h.slot cmd hw),
    fun hw => (countdown_hostAccess ha).2.trans (h.pending hw)⟩
  inputs _ _ h := h.same rfl rfl rfl
  host _ _ h := h.same rfl rfl rfl
  reset _ _ _ := trivial
  fault _ _ _ _ _ := trivial

/-! ### Operations that no reset ends, and that no timeout leaves -/

/-- How a whole operation may stop that no reset ends: at a bus error only. -/
def StopsFaulted : Stop → State → Prop
  | .timeout, _ => False
  | .reset, _ => False
  | .fault _, _ => True

theorem StopsFaulted.of_stopsUnreset {P : State → Prop} {e : Stop} {s : State} (hne : e ≠ .timeout)
    (h : StopsUnreset P e s) : StopsFaulted e s := by
  cases e with
  | timeout => exact hne rfl
  | reset => exact h
  | fault f => trivial

theorem StopsFaulted.of_ends {Q : State → Prop} {t : State} (h : Q t ∨ StopsFaulted .timeout t ∨ StopsFaulted .reset t) :
    Q t := by
  obtain h | h | h := h
  · exact h
  · exact h.elim
  · exact h.elim

/-- No timeout comes of waiting for the turn. -/
theorem Turn.stopsFaulted {P : State → Prop} (h : Turn P (StopsUnreset P)) : Turn P StopsFaulted := by
  intro s hs
  have hturn := h s hs
  have hinputs := absorb_inputs s.env.inputs s
  cases ha : awaitTurn s with
  | ok _ t => rwa [ha] at hturn
  | error e t =>
    rw [ha] at hturn
    rw [show absorb s.env.inputs s = .error e t from ha] at hinputs
    refine StopsFaulted.of_stopsUnreset ?_ hturn
    obtain ⟨rfl, -⟩ | ⟨f, rfl⟩ := hinputs <;> exact nofun

/-! ### A whole operation -/

/-- While an operation runs that no reset will end, what waited in `w` still waits. -/
def Waiting (w s : State) : Prop := s.noReset ∧ StillWaits w s

/-- An operation has ended, and what waited in `w` still waits. -/
def Released (w s : State) : Prop := StillWaits w s ∧ s.step = .idle

namespace Waiting

variable {w : State} {X : Stop → State → Prop}

theorem refl {s : State} (h : s.noReset) : Waiting s s := ⟨h, rfl, fun _ h => h, fun h => h⟩

/-- An action that keeps the registers by which inputs are judged keeps what waits. -/
theorem same {s t : State} (h : Waiting w s) (hregs : t.opRegs true = s.opRegs true) : Waiting w t := by
  obtain ⟨hnone, hwait⟩ := h
  refine ⟨?_, hwait.same (congrArg OpRegs.cfg hregs) (congrArg OpRegs.slot hregs) (congrArg OpRegs.pending hregs)⟩
  rw [State.noReset, show t.env.inputs = s.env.inputs from congrArg OpRegs.inputs hregs]
  exact hnone

theorem turn (w : State) : Turn (Waiting w) (StopsUnreset (Waiting w)) := Turn.of_noReset (StillWaits.stable w)

theorem passes (hturn : Turn (Waiting w) X) : Passes w.cfg (fun _ => True) (Waiting w) X where
  cfg _ h := h.2.cfg
  turn := hturn
  setStep s x h := h.same (t := s.setStep x) rfl
  attempt _ _ h := h.same rfl
  lastWord _ _ h := h.same rfl
  read s win off _ h := h.same ((Paced.uniform_outRead win off).kept s)
  write s win off v _ h := h.same (t := s.outWrite win off v) rfl
  poll s sig _ h := h.same ((Paced.uniform_outPoll sig).kept s)
  warned s sig arg snap h := h.same (t := (s.recordTimeout sig arg snap).raiseInt .warn) rfl

theorem passesCalls (w : State) : PassesCalls w.cfg (fun _ => True) (Waiting w) (StopsUnreset (Waiting w)) where
  toPasses := passes (turn w)
  timeout s sig arg snap h := h.same (t := s.recordTimeout sig arg snap) rfl
  voltage s v _ h := h.same (t := s.issueVoltage v) rfl
  clock s first t p _ h := h.same (t := s.issueClock first t p) rfl
  safeMux s _ h := h.same (t := s.issueSafeMux) rfl
  pll s t _ h := h.same (t := s.issuePll t) rfl
  targetMux s t _ h := h.same (t := s.issueTargetMux t) rfl
  keepLock s v h := h.same (t := s.keepLock v) rfl
  forceDll s v _ h := h.same (t := s.forceDll v) rfl
  freeDll s _ h := h.same (t := s.freeDll) rfl
  markLocked s h := h.same (t := s.markLocked) rfl

/-- R122, R235: a timeout of a body is caught. -/
theorem caught {op : Op Word} (h : Keeps (Waiting w) (StopsUnreset (Waiting w)) op) :
    Keeps (Waiting w) StopsFaulted (catchTimeout op) :=
  Triple.catchTimeout h (fun _ _ hs => hs) (fun _ hs => hs) fun _ _ => StopsFaulted.of_stopsUnreset

theorem catchBody (f : Word) (o : Origin) : Keeps (Waiting w) StopsFaulted (catchTimeout (transitionBody f o)) :=
  caught ((passesCalls w).transitionBody (anyBodyEvents w.cfg) (fun s t o h => h.same (t := s.beginBody t o) rfl) f o)

/-- R122, R127: the last action of a command. -/
theorem completeCmd {s : State} (h : Waiting w s) (code : BitVec 4) (res : Option Word) :
    Released w (s.completeCmd code res) := ⟨h.2.same rfl rfl rfl, rfl⟩

/-- R236: the last action of a tick that does not trip. -/
theorem finishTick {s : State} (h : Waiting w s) (th : Thermal) : Released w (s.finishTick th) :=
  ⟨h.2.same rfl rfl rfl, rfl⟩

/-- R233: the last action of one that does. -/
theorem releaseLock {s : State} (h : Waiting w s) : Released w s.releaseLock := ⟨h.2.same rfl rfl rfl, rfl⟩

theorem runsCommand (i : Instr) : RunsCommand i (Waiting w) (Released w) StopsFaulted where
  turn := (turn w).stopsFaulted
  store s h := h.same (t := storeOf i s) (by cases i <;> rfl)
  body f := catchBody f .cmd
  voltage := caught <| ((passesCalls w).goTo _).bind fun _ => (passesCalls w).get_bind fun _ _ _ =>
    ((passesCalls w).setVolt trivial fun _ => trivial).bind fun _ => Keeps.pure _
  complete _ code res _ _ h := h.completeCmd code res

theorem runsTick (th : Thermal) :
    RunsTick w.cfg th (Waiting w) (Waiting w) (Waiting w) (Waiting w) (Waiting w) (Released w) StopsFaulted :=
  have hpasses := passes (turn w).stopsFaulted
  have hreeval : PassesReeval w.cfg (Waiting w) StopsFaulted :=
    { toPasses := hpasses
      body := fun f => catchBody f .tick
      recorded := fun s r h => by cases r <;> exact h.same rfl }
  { start := fun s h => h.same (t := (s.setStep .monSample).clearSamples th) rfl
    sampling :=
      { toPasses := hpasses
        sampled := fun s n second v h => h.same (t := s.setSample n second (codeField th v)) rfl }
    finishUnsampled := fun _ h => h.finishTick th
    take := fun s h => h.same (t := s.takeSamples) rfl
    notices :=
      { toPasses := hpasses
        notified := fun s level n h => h.same (t := s.record (.notify level n)) rfl
        tlevel := fun s h => h.same (t := s.raiseInt .tlevel) rfl }
    move := fun s h _ => h.same (t := s.moveThermState th) rfl
    moveTripped := fun s h _ => h.same (t := s.moveThermState th) rfl
    reevals := hreeval
    finish := fun _ h => h.finishTick th
    tripTurn := hpasses.turn
    shutDown := fun s h => h.same (t := s.shutDown) rfl
    reevalsTripped := hreeval
    release := fun _ h => h.releaseLock }

end Waiting

/-- R121, R127: a command, legal or not, that answers a next state with no reset to come. -/
theorem released_of_startCommand {s t : State} {cmd : Cmd} (hnone : s.noReset) (hx : startCommand cmd s = .next t) :
    Released s.takeCommand t := by
  have hstart : Waiting s.takeCommand s.takeCommand := Waiting.refl hnone
  cases hdecode : decodeCmd cmd with
  | ok i =>
    rw [startCommand_ok hdecode] at hx
    exact StopsFaulted.of_ends ((Waiting.runsCommand i).exec hstart hx)
  | error e =>
    rw [startCommand_error hdecode] at hx
    exact StopsFaulted.of_ends (runOp_next (Q := fun _ => Released s.takeCommand)
      (Triple.act (Waiting.turn _).stopsFaulted fun _ h => h.completeCmd 4 none) hstart hx)

/-- R224: a tick likewise. -/
theorem released_of_runTick {s t : State} (hnone : s.noReset) (hx : runTick th s = .next t) : Released s.takeTick t :=
  StopsFaulted.of_ends (runOp_next (Waiting.runsTick th).tick (Waiting.refl hnone) hx)

/-! ### The arbiter's choice (R274) -/

theorem State.tickReady_iff {s : State} :
    s.tickReady = true ↔ s.step = .idle ∧ s.tickPending = true ∧ s.cfg.hasThermal = true := by
  simp [State.tickReady, and_assoc]

theorem State.cmdReady_iff {s : State} : s.cmdReady = true ↔ s.step = .idle ∧ s.slot.isSome = true := by
  simp [State.cmdReady]

/-- R224, R274: a ready tick that is picked is started. -/
theorem startReady_tick {s : State} (hidle : s.step = .idle) (hpending : s.tickPending = true)
    (hth : s.cfg.thermal = some th) : startReady .tick s = runTick th s := by
  have htick : s.tickReady = true := State.tickReady_iff.2 ⟨hidle, hpending, by simp [Config.hasThermal, hth]⟩
  have hstart : startTick s = runTick th s := by rw [startTick, hth]
  unfold startReady
  rw [htick]
  cases s.cmdReady <;> exact hstart

/-- Settles O13: the picked one is started, and what waits while it runs is ready when it releases the lock. -/
theorem eitherReadyOperationMayStart : Obligations.EitherReadyOperationMayStart := by
  intro s c th rest hwf hidle hslot hpending hth
  refine ⟨fun hi => ?_, fun hi => ?_⟩
  · have hstart : step s = startCommand c (s.withInputs rest) :=
      (step_turn hwf hi).trans (startReady_of_slot hidle hslot (.inr rfl))
    refine ⟨hstart, hpending, fun t ht hnone => ?_⟩
    obtain ⟨hwaits, hstep⟩ := released_of_startCommand (s := s.withInputs rest) hnone (hstart ▸ ht)
    have hcfg : t.cfg = s.cfg := hwaits.cfg
    exact State.tickReady_iff.2 ⟨hstep, hwaits.pending hpending, by simp [Config.hasThermal, hcfg, hth]⟩
  · have hstart : step s = runTick th (s.withInputs rest) :=
      (step_turn hwf hi).trans (startReady_tick hidle hpending hth)
    refine ⟨hstart, hslot, fun t ht hnone => ?_⟩
    obtain ⟨hwaits, hstep⟩ := released_of_runTick (s := s.withInputs rest) hnone (hstart ▸ ht)
    have hslot' : t.slot = some c := hwaits.slot c hslot
    exact ⟨hslot', State.cmdReady_iff.2 ⟨hstep, by rw [hslot']; rfl⟩⟩

end Sys2Proof.Machine
end

section
/-! SUPPORT. Reset (spec/70_reset_and_hazards.md R320, R323, R324): the values it leaves, and what holds of the block and its
domain after it. -/

namespace Sys2Proof.Machine

/-- Settles O17: the step of a pulse leaves `State.resetOf` of the configuration, whose fields are the values asked for. -/
theorem resetValues : Obligations.ResetValues := by
  intro s rest hwf hi
  have hforced : (s.cfg.bootLevel != s.cfg.dllFreeLevel) = decide (s.cfg.bootLevel ≠ s.cfg.dllFreeLevel) :=
    Bool.eq_iff_iff.2 (bne_iff_ne.trans decide_eq_true_iff.symm)
  have hstopped : (!s.cfg.hasThermal) = decide (s.cfg.thermal = none) := by
    unfold Config.hasThermal
    cases s.cfg.thermal <;> rfl
  have hirq : ((0 : BitVec 6) &&& 0 != 0) = false := rfl
  exact ⟨_, step_rst hwf hi, rfl, rfl, rfl, rfl, rfl, rfl, hforced, beq_eq_decide _ _, rfl, rfl, rfl, rfl, rfl, rfl, rfl,
    List.length_replicate, fun p hp => List.eq_of_mem_replicate hp, rfl, rfl, rfl, hstopped, rfl, rfl, rfl, rfl, rfl, rfl,
    rfl, rfl, rfl, rfl, rfl, rfl, hirq, rfl, rfl, rfl⟩

/-- R320: no operation holds the lock after reset, and the registers are coherent. -/
theorem Inv.resetOf {c : Config} (h : c.wf = true) (e : Env) : Inv (State.resetOf c e) :=
  ⟨⟨rfl, rfl, rfl⟩, Coherent.resetOf h e⟩

/-- R323, R324: each register takes the value that a launch premise gives the domain; the DLL's by its mode at boot. -/
theorem agreesWith_resetOf {c : Config} {e : Env} {d : Domain} (h : BootPrecondition c e d) :
    AgreesWith (State.resetOf c e) d where
  freq := h.clock.freq
  pll := h.clock.pll
  rail := h.voltage.rail
  cold _ := rfl
  forced := by
    show d.dllForced = (c.bootLevel != c.dllFreeLevel)
    by_cases hfree : c.bootLevel = c.dllFreeLevel
    · rw [(h.dll.free hfree).1, hfree, bne_self_eq_false]
    · rw [(h.dll.forced hfree).1, bne_iff_ne.2 hfree]
  locked hlocked := (h.dll.free (beq_iff_eq.1 hlocked)).2
  lockValue hforced := (h.dll.forced (bne_iff_ne.1 hforced)).2
  timing := h.timing.live

/-- Settles O19: a reset pulse is a reset of the configuration it finds. -/
theorem invariantAtReset : Obligations.InvariantAtReset :=
  ⟨fun _ e hwf => Inv.resetOf hwf e, fun _ _ _ h => agreesWith_resetOf h, fun _ _ h => agreesWith_resetOf h⟩

end Sys2Proof.Machine
end

section
/-! SUPPORT. A reset pulse at the first turn of an operation (spec/70_reset_and_hazards.md R320, R321): what an operation does
before its first action it does to the block's registers alone, and those the pulse resets. -/

namespace Sys2Proof.Machine

/-- R122, R320: a reset is no timeout. -/
theorem catchTimeout_of_reset {op : Op Word} {s t : State} (h : op s = .error .reset t) :
    catchTimeout op s = .error .reset t := by rw [catchTimeout, h]

/-- The operation ends in the reset state where a pulse comes before anything else. -/
def ResetFirst {α : Type} (op : Op α) : Prop :=
  ∀ s rest, s.env.inputs = .rst :: rest → op s = .error .reset (s.resetNow.withInputs rest)

namespace ResetFirst

variable {α β : Type} {op op' : Op α}

/-! ### How operations are put together -/

theorem awaitTurn : ResetFirst awaitTurn := by
  intro s rest hi
  rw [Machine.awaitTurn, hi]
  rfl

theorem bind {k : α → Op β} (h : ResetFirst op) : ResetFirst (op >>= k) := fun s rest hi => run_bind_error (h s rest hi)

/-- An update of the block's registers, before the first action. -/
theorem update {f : State → State} {k : Unit → Op β} (h : ResetFirst (k ()))
    (hcfg : ∀ s, (f s).cfg = s.cfg := by intros; rfl) (henv : ∀ s, (f s).env = s.env := by intros; rfl) :
    ResetFirst ((modify f : Op Unit) >>= k) := by
  intro s rest hi
  have hreset : (f s).resetNow = s.resetNow := by rw [State.resetNow, State.resetNow, hcfg, henv]
  rw [← hreset]
  exact h (f s) rest ((congrArg Env.inputs (henv s)).trans hi)

theorem read {k : State → Op β} (h : ∀ s, ResetFirst (k s)) : ResetFirst (get >>= k) := fun s rest hi => h s s rest hi

theorem ite {c : Prop} [Decidable c] (h : ResetFirst op) (h' : ResetFirst op') : ResetFirst (if c then op else op') := by
  split
  · exact h
  · exact h'

theorem catchTimeout {op : Op Word} (h : ResetFirst op) : ResetFirst (catchTimeout op) := fun s rest hi =>
  catchTimeout_of_reset (h s rest hi)

theorem act (f : State → State) : ResetFirst (act f) := awaitTurn.bind

/-! ### The Transition Engine (R150 to R174) -/

theorem arefWrite : ResetFirst arefWrite := update (act _)

theorem voltageStep (x : SeqStep) (t : Level) : ResetFirst (voltageStep x t) := update (read fun _ => (act _).bind)

theorem writeTiming (l : Level) : ResetFirst (writeTiming l) := read fun _ => (bind awaitTurn : ResetFirst (memRead _ _)).bind

theorem setDiv (first : Bool) (t : Level) : ResetFirst (setDiv first t) := read fun _ => (act _).bind

/-- R161: a plan without multiplexers begins with the divider. -/
theorem clockChange (o t : Level) : ResetFirst (clockChange o t) := by
  refine read fun s => ?_
  cases s.cfg.switchOrder o t with
  | divThenMux => exact (setDiv _ _).bind
  | muxThenDiv =>
    cases (s.cfg.opp t).planMux with
    | nil => exact setDiv _ _
    | cons p rest => exact (act _).bind.bind.bind

theorem simplePath (o t : Level) (u : Bool) : ResetFirst (simplePath o t u) := by
  cases u with
  | false => exact update (clockChange o t).bind
  | true => exact (update (writeTiming t) : ResetFirst (do goTo .timingPre; Machine.writeTiming t)).bind

theorem clockPath (o t : Level) (u : Bool) : ResetFirst (clockPath o t u) :=
  read fun _ => ite (update (act _)).bind (simplePath o t u)

theorem changeLevel (o t : Level) : ResetFirst (changeLevel o t) := by
  have hcapture : ResetFirst dllCapture := update (read fun _ => (bind awaitTurn : ResetFirst (memRead _ _)).bind)
  refine read fun s => ?_
  cases s.needsCapture t <;> cases goesUp s.cfg o t
  · exact (clockPath o t false).bind
  · exact (voltageStep _ t).bind
  · exact hcapture.bind
  · exact hcapture.bind

theorem transitionBody (f : Word) (o : Origin) : ResetFirst (transitionBody f o) := by
  have hmove : ∀ t, ResetFirst (moveTo t) := fun t => read fun _ => ite arefWrite (changeLevel _ t)
  intro s rest hi
  exact (hmove (s.resolve f)).bind ((s.setStep .resolve).beginBody (s.resolve f) o) rest hi

/-! ### Whole operations -/

theorem completeWith (code : BitVec 4) (res : Option Word) : ResetFirst (completeWith code res) := act _

theorem policyOp (f : Word) : ResetFirst (policyOp f) :=
  read fun _ => ite (update (read fun _ => (transitionBody _ _).catchTimeout.bind)) (completeWith _ _)

theorem transitionOp (f : Word) : ResetFirst (transitionOp f) :=
  read fun _ => ite (update (transitionBody _ _).catchTimeout.bind) (completeWith _ _)

theorem setBoundsOp (lo hi : Word) : ResetFirst (setBoundsOp lo hi) := update (completeWith _ _)

theorem coldOp (b : Bool) : ResetFirst (coldOp b) :=
  update (bind (catchTimeout (update (read fun _ => (act _).bind.bind))))

/-- R225: a tick begins with its first mode-register command. -/
theorem tick {th : Thermal} (hranks : th.mrrCmd ≠ []) : ResetFirst (tick th) := by
  obtain ⟨p, more, hcmd⟩ := List.exists_cons_of_ne_nil hranks
  have hfrom : ResetFirst (sampleFrom th 0 th.mrrCmd) := by
    rw [hcmd]
    exact (act _).bind.bind
  exact bind (update (update hfrom))

/-- R320: the outcome of a whole operation is the reset state. -/
theorem runOp {op : Op Unit} (h : ResetFirst op) {s : State} {rest : List Input} (hwf : s.cfg.wf = true)
    (hi : s.env.inputs = .rst :: rest) : runOp op s = .next (s.resetNow.withInputs rest) := by
  rw [Machine.runOp, if_pos hwf, h s rest hi, outcomeOf]

theorem exec {s : State} {rest : List Input} (hwf : s.cfg.wf = true) (hi : s.env.inputs = .rst :: rest) (i : Instr) :
    exec i s = .next (s.resetNow.withInputs rest) := by
  cases i with
  | policy f => exact (policyOp f).runOp hwf hi
  | transition f => exact (transitionOp f).runOp hwf hi
  | setBounds lo hi' => exact (setBoundsOp lo hi').runOp hwf hi
  | cold b => exact (coldOp b).runOp hwf hi

end ResetFirst

/-- R4.5: the monitor has a channel. -/
theorem Config.mrrCmd_ne_nil {c : Config} {th : Thermal} (hwf : c.wf = true) (hth : c.thermal = some th) : th.mrrCmd ≠ [] := by
  obtain ⟨hwidths, -⟩ := Config.wf_monitor hwf hth
  intro hnone
  simp [Thermal.wfWidths, Thermal.channels, hnone] at hwidths

end Sys2Proof.Machine
end

section
/-! SUPPORT. A reset pulse after some number of an operation's actions (spec/70_reset_and_hazards.md R320, R321, log 5): until
the pulse the operation goes as without it, and there it ends. -/

namespace Sys2Proof.Machine

/-! ### What an undisturbed operation has done so far -/

/-- Nothing is to come, and the trace begins with `tr`. -/
def Past (tr : List Event) (s : State) : Prop := s.quiet ∧ tr <+: s.env.trace

/-- An action adds to the trace, and no part of an operation takes from it. -/
theorem Paced.keepsPast {α : Type} {b : Bool} {op : Op α} (h : Paced b op) (tr : List Event) :
    Keeps (Past tr) (fun _ => Past tr) op := by
  induction h with
  | pure a => exact Keeps.pure a
  | raise => exact Triple.throw fun _ hs => hs
  | silent hg htrace =>
    exact Triple.modifyGet fun s hs =>
      ⟨(congrArg OpRegs.inputs (hg.kept s)).trans hs.1, (htrace s).symm ▸ hs.2⟩
  | action hg htrace =>
    refine Triple.bind (Turn.of_quiet fun _ hs => hs.1) fun _ => Triple.modifyGet fun s hs => ?_
    obtain ⟨e, he⟩ := htrace s
    exact ⟨(congrArg OpRegs.inputs (hg.kept s)).trans hs.1, he.symm ▸ hs.2.trans (List.prefix_append _ _)⟩
  | read _ _ ih => exact Triple.read ih
  | bind _ _ ih ihk => exact ih.bind ihk
  | catchTimeout _ ih => exact Triple.catchTimeout ih (fun _ _ hs => hs) (fun _ hs => hs) fun _ _ _ hs => hs

/-- The last action of an operation adds nothing, whatever inputs are still to come. -/
theorem EndsBy.keepsPast {b : Bool} {fin : (State → State) → Prop} {op : Op Unit} (h : EndsBy b fin op) (tr : List Event) :
    Triple (Past tr) op (fun _ t => tr <+: t.env.trace) (fun _ => Past tr) := by
  induction h with
  | last _ htrace => exact Triple.act (Turn.of_quiet fun _ hs => hs.1) fun s hs => (htrace s).symm ▸ hs.2
  | read _ _ ih => exact Triple.read ih
  | bind hop _ ih => exact Triple.bind (hop.keepsPast tr) ih

/-! ### The pulse -/

/-- An operation is at work in `u` under the configuration `c`, undisturbed, and has made no more than `place` events. -/
structure Early (c : Config) (place : Nat) (u : State) : Prop where
  cfg : u.cfg = c
  quiet : u.quiet
  early : u.env.trace.length ≤ place

/-- The state `u` with the pulse to come at the turn after which the trace has `place` events, and `rest` after it. -/
def State.facingReset (u : State) (place : Nat) (rest : List Input) : State :=
  u.withInputs (List.replicate (place - u.env.trace.length) (.turn .cmd) ++ .rst :: rest)

/-- The pulse ends the operation from `u` in `w`, which the operation passes through without it. -/
structure CutAt {α : Type} (c : Config) (place : Nat) (op : Op α) (u w : State) : Prop where
  early : Early c place w
  last : w.env.trace.length = place
  run : ∀ rest, op (u.facingReset place rest) = .error .reset (w.resetNow.withInputs rest)

/-- A part of an operation beside the same with the pulse to come: it ends before the pulse, or is cut
short by it. Nothing else stops it than a timeout. -/
inductive CutOrWhole {α : Type} (c : Config) (place : Nat) (op : Op α) (u : State) : Prop
  | ok (a : α) {t : State} (h : Early c place t) (hop : op u = .ok a t)
      (hrun : ∀ rest, op (u.facingReset place rest) = .ok a (t.facingReset place rest))
  | timeout {t : State} (h : Early c place t) (hop : op u = .error .timeout t)
      (hrun : ∀ rest, op (u.facingReset place rest) = .error .timeout (t.facingReset place rest))
  | cut {w : State} (h : CutAt c place op u w)
      (hpast : Triple (fun s => s = u) op (fun _ => Past w.env.trace) (fun _ => Past w.env.trace))

section

variable {α β : Type} {c : Config} {place : Nat} {b : Bool} {u w : State}

/-- The turn of an operation that faces the pulse: the pulse comes there, or later. -/
theorem Early.awaitTurn (h : Early c place u) :
    CutAt c place awaitTurn u u ∨ u.env.trace.length < place ∧ ∀ rest, awaitTurn (u.facingReset place rest) =
      .ok () (u.withInputs (List.replicate (place - (u.env.trace.length + 1)) (.turn .cmd) ++ .rst :: rest)) := by
  obtain hlast | hlt := h.early.eq_or_lt
  · refine .inl ⟨h, hlast, fun rest => ?_⟩
    rw [State.facingReset, hlast, Nat.sub_self]
    rfl
  · refine .inr ⟨hlt, fun rest => ?_⟩
    rw [State.facingReset, show place - u.env.trace.length = place - (u.env.trace.length + 1) + 1 by omega]
    rfl

theorem CutAt.bind {op : Op α} (h : CutAt c place op u w) (k : α → Op β) : CutAt c place (op >>= k) u w :=
  ⟨h.early, h.last, fun rest => run_bind_error (h.run rest)⟩

/-- Where the first part ends before the pulse, the second one decides. -/
theorem CutAt.of_ok {op : Op α} {k : α → Op β} {a : α} {t : State}
    (hrun : ∀ rest, op (u.facingReset place rest) = .ok a (t.facingReset place rest)) (h : CutAt c place (k a) t w) :
    CutAt c place (op >>= k) u w :=
  ⟨h.early, h.last, fun rest => run_bind (hrun rest) (h.run rest)⟩

/-- What the operation reads of the state is not the inputs to come. -/
theorem run_read_facingReset {k : State → Op α} (hk : ∀ s o, k (s.overlaid o) = k s) (u : State) (place : Nat)
    (rest : List Input) : (get >>= k) (u.facingReset place rest) = k u (u.facingReset place rest) := by
  have hread : k (u.facingReset place rest) = k u := by rw [State.facingReset, ← u.overlaid_asOverlay, hk]
  exact run_get (congrFun hread _)

/-- With the pulse to come, a part of an operation goes as without it until the pulse. -/
theorem Paced.cutOrWhole {op : Op α} (h : Paced b op) : ∀ {u : State}, Early c place u → CutOrWhole c place op u := by
  induction h with
  | pure a => exact fun h => .ok a h rfl fun _ => rfl
  | raise => exact fun h => .timeout h rfl fun _ => rfl
  | @silent _ g hg htrace =>
    intro u h
    have hregs := hg.kept u
    refine .ok (g u).1 (t := (g u).2) ⟨(congrArg OpRegs.cfg hregs).trans h.cfg, (congrArg OpRegs.inputs hregs).trans h.quiet,
      htrace u ▸ h.early⟩ rfl fun rest => ?_
    show EStateM.Result.ok (g (u.facingReset place rest)).1 (g (u.facingReset place rest)).2 = _
    rw [State.facingReset, hg.withInputs, State.facingReset, htrace]
  | @action _ g hg htrace =>
    intro u h
    have hregs := hg.kept u
    have hop : (do awaitTurn; modifyGet g : Op _) u = .ok (g u).1 (g u).2 := run_bind (awaitTurn_quiet h.quiet) rfl
    obtain ⟨e, he⟩ := htrace u
    obtain hcut | ⟨hlt, hturn⟩ := h.awaitTurn
    · refine .cut (hcut.bind _) fun s hs => ?_
      rw [hs, hop]
      exact ⟨(congrArg OpRegs.inputs hregs).trans h.quiet, he.symm ▸ List.prefix_append _ _⟩
    · have hlength : (g u).2.env.trace.length = u.env.trace.length + 1 := by rw [he, List.length_append]; rfl
      refine .ok _ ⟨(congrArg OpRegs.cfg hregs).trans h.cfg, (congrArg OpRegs.inputs hregs).trans h.quiet, by omega⟩ hop
        fun rest => run_bind (hturn rest) ?_
      show EStateM.Result.ok (g (u.withInputs _)).1 (g (u.withInputs _)).2 = _
      rw [hg.withInputs, State.facingReset, hlength]
  | @read _ k _ hk ih =>
    intro u h
    have hrun := run_read_facingReset hk u place
    cases ih u h with
    | ok a h hop hk => exact .ok a h hop fun rest => (hrun rest).trans (hk rest)
    | timeout h hop hk => exact .timeout h hop fun rest => (hrun rest).trans (hk rest)
    | cut h hpast =>
      exact .cut ⟨h.early, h.last, fun rest => (hrun rest).trans (h.run rest)⟩ fun s hs => by
        subst hs
        exact hpast s rfl
  | @bind _ _ op k _ hk ih ihk =>
    intro u h
    cases ih h with
    | ok a h hop hrun =>
      cases ihk a h with
      | ok a' h hop' hrun' => exact .ok a' h (run_bind hop hop') fun rest => run_bind (hrun rest) (hrun' rest)
      | timeout h hop' hrun' => exact .timeout h (run_bind hop hop') fun rest => run_bind (hrun rest) (hrun' rest)
      | @cut w h hpast =>
        refine .cut (.of_ok hrun h) fun s hs => ?_
        rw [hs, run_bind hop rfl]
        exact hpast _ rfl
    | timeout h hop hrun => exact .timeout h (run_bind_error hop) fun rest => run_bind_error (hrun rest)
    | cut h hpast => exact .cut (h.bind k) (Triple.bind hpast fun a => (hk a).keepsPast _)
  | @catchTimeout op _ ih =>
    intro u h
    cases ih h with
    | ok a h hop hrun => exact .ok _ h (catchTimeout_of_ok hop) fun rest => catchTimeout_of_ok (hrun rest)
    | timeout h hop hrun =>
      exact .ok _ h (catchTimeout_of_timeout hop) fun rest => catchTimeout_of_timeout (hrun rest)
    | cut h hpast =>
      exact .cut ⟨h.early, h.last, fun rest => catchTimeout_of_reset (h.run rest)⟩
        (Triple.catchTimeout hpast (fun _ _ hs => hs) (fun _ hs => hs) fun _ _ _ hs => hs)

/-- A whole operation that ends well without the pulse is cut short where the pulse comes among its actions, or before its
last. -/
theorem EndsBy.cut {fin : (State → State) → Prop} {op : Op Unit} (h : EndsBy b fin op) :
    ∀ {u t : State}, Early c place u → op u = .ok () t → place ≤ t.env.trace.length →
      ∃ w, CutAt c place op u w ∧ w.env.trace <+: t.env.trace := by
  induction h with
  | @last g _ htrace =>
    intro u t h hop hplace
    obtain rfl : g u = t := by
      rw [act_quiet h.quiet] at hop
      cases hop
      rfl
    rw [htrace] at hplace
    obtain hcut | ⟨hlt, -⟩ := h.awaitTurn
    · exact ⟨u, hcut.bind _, (htrace u).symm ▸ List.prefix_rfl⟩
    · omega
  | @read k _ hk ih =>
    intro u t h hop hplace
    obtain ⟨w, hcut, hprefix⟩ := ih u h hop hplace
    exact ⟨w, ⟨hcut.early, hcut.last, fun rest => (run_read_facingReset hk u place rest).trans (hcut.run rest)⟩, hprefix⟩
  | @bind _ op k hop' hk ih =>
    intro u t h hop hplace
    cases hop'.cutOrWhole h with
    | ok a h hopu hrun =>
      rw [run_bind hopu rfl] at hop
      obtain ⟨w, hcut, hprefix⟩ := ih a h hop hplace
      exact ⟨w, .of_ok hrun hcut, hprefix⟩
    | timeout _ hopu _ =>
      rw [run_bind_error hopu] at hop
      cases hop
    | @cut w hcut hpast =>
      have hend := Triple.bind hpast (fun a => (hk a).keepsPast w.env.trace) u rfl
      rw [hop] at hend
      exact ⟨w, hcut.bind k, hend⟩

end

end Sys2Proof.Machine
end

section
/-! SUPPORT. The words answered to the host up to a reset pulse (spec/70_reset_and_hazards.md R321): where only the sequencer's
turns and pulses of the reset come, none is. -/

namespace Sys2Proof.Machine

variable {replies : List Word}

/-- Only turns and pulses of the reset are to come, and the host has been answered `replies`. -/
def HostAbsent (replies : List Word) (s : State) : Prop :=
  s.env.replies = replies ∧ ∀ i ∈ s.env.inputs, i = .rst ∨ ∃ p, i = .turn p

/-- The turn and the pulse answer nothing. -/
theorem HostAbsent.turn : Turn (HostAbsent replies) fun _ => HostAbsent replies := by
  intro s hs
  obtain ⟨hreplies, hinputs⟩ := hs
  unfold awaitTurn
  cases hi : s.env.inputs with
  | nil => exact ⟨hreplies, fun _ h => nomatch h⟩
  | cons i rest =>
    rw [hi] at hinputs
    have hrest : ∀ j ∈ rest, j = .rst ∨ ∃ p, j = .turn p := fun j hj => hinputs j (List.mem_cons_of_mem i hj)
    obtain rfl | ⟨p, rfl⟩ := hinputs i List.mem_cons_self
    · exact ⟨hreplies, hrest⟩
    · exact ⟨hreplies, hrest⟩

/-- A run beside itself. -/
theorem HostAbsent.blind : Blind fun s t => t = s ∧ HostAbsent replies s where
  facing s t h := ⟨s.env.inputs, s.env.host, h.1⟩
  turn s t h := by
    obtain ⟨rfl, hs⟩ := h
    have hturn := HostAbsent.turn t hs
    cases hop : awaitTurn t with
    | ok a u => rw [hop] at hturn; exact .ok a ⟨rfl, hturn⟩
    | error e u => rw [hop] at hturn; exact .stop e (.inl ⟨rfl, hturn⟩)
  update f hf s t h := by
    obtain ⟨rfl, hreplies, hinputs⟩ := h
    exact ⟨rfl, (hf t [] t.env.host).2.2.trans hreplies, (hf.env t).1.symm ▸ hinputs⟩

theorem HostAbsent.runOp {op : Op Unit} (h : Alike (fun s t => t = s ∧ HostAbsent replies s) op) {s t : State}
    (hs : HostAbsent replies s) (hx : runOp op s = .next t) : t.env.replies = replies := by
  have hop : Triple (HostAbsent replies) op (fun _ => HostAbsent replies)
      (fun e t => HostAbsent replies t ∨ ∃ f, e = .fault f) := fun s hs => by
    have hend := h s s ⟨rfl, hs⟩
    generalize op s = r at hend ⊢
    cases hend with
    | ok a h => exact h.2
    | stop e h => exact h.imp_left And.right
  obtain h | (h | ⟨f, hf⟩) | (h | ⟨f, hf⟩) := runOp_next hop hs hx
  · exact h.1
  · exact h.1
  · cases hf
  · exact h.1
  · cases hf

theorem HostAbsent.command {run : State → Host.Outcome State Fault Refusal} (h : (∃ i, run = exec i) ∨ run = execIllegal)
    {s t : State} (hs : HostAbsent replies s) (hx : run s = .next t) : t.env.replies = replies := by
  obtain ⟨i, rfl⟩ | rfl := h
  · cases i with
    | policy f => exact runOp (blind.policyOp f) hs hx
    | transition f => exact runOp (blind.transitionOp f) hs hx
    | setBounds lo hi => exact runOp (blind.setBoundsOp lo hi) hs hx
    | cold b => exact runOp (blind.coldOp b) hs hx
  · exact runOp (blind.completeWith 4 none) hs hx

end Sys2Proof.Machine
end

section
/-! SUPPORT. A reset during an operation (spec/70_reset_and_hazards.md R320, R321). -/

namespace Sys2Proof.Machine

/-- The turns before a pulse that comes after `n` actions, and the pulse. -/
abbrev pulseAfter (n : Nat) (rest : List Input) : List Input := List.replicate n (.turn .cmd) ++ .rst :: rest

theorem hostAbsent_pulseAfter (s : State) (n : Nat) : HostAbsent s.env.replies (s.withInputs (pulseAfter n [])) := by
  refine ⟨rfl, fun i hi => ?_⟩
  obtain hturn | hrst := List.mem_append.1 hi
  · exact .inr ⟨_, List.eq_of_mem_replicate hturn⟩
  · exact .inl (List.mem_singleton.1 hrst)

/-- The pulse cuts the operation short in some state that it passes through without it, and what the pulse leaves of that
state is what R320 asks for. -/
theorem EndsBy.resetAfter {b : Bool} {fin : (State → State) → Prop} {op : Op Unit} (h : EndsBy b fin op) {s t : State}
    (hwf : s.cfg.wf = true) (hquiet : s.quiet) (hop : op s = .ok () t) {n : Nat}
    (hn : s.env.trace.length + n ≤ t.env.trace.length)
    (hreplies : ∀ v, runOp op (s.withInputs (pulseAfter n [])) = .next v → v.env.replies = s.env.replies)
    (rest : List Input) : ResetAfter s t n rest (runOp op (s.withInputs (pulseAfter n rest))) := by
  obtain ⟨w, hcut, hprefix⟩ := h.cut ⟨rfl, hquiet, Nat.le_add_right _ n⟩ hop hn
  have hrun : ∀ rest, runOp op (s.withInputs (pulseAfter n rest)) = .next (w.resetNow.withInputs rest) := fun rest => by
    have hcutrun := hcut.run rest
    rw [State.facingReset, Nat.add_sub_cancel_left] at hcutrun
    rw [runOp, if_pos (show (s.withInputs (pulseAfter n rest)).cfg.wf = true from hwf), hcutrun, outcomeOf]
  refine ⟨(w.resetNow.withInputs rest).env, ?_, rfl, ?_, hreplies (w.resetNow.withInputs []) (hrun []), rfl, rfl, rfl⟩
  · rw [hrun, ← hcut.early.cfg]
    rfl
  · rw [← hcut.last]
    exact List.prefix_iff_eq_take.1 hprefix

/-- Settles O18: at the first turn, and after any number of a command's or a tick's actions. -/
theorem resetEndsAnOperation : Obligations.ResetEndsAnOperation := by
  refine ⟨fun s rest hwf hi => ⟨ResetFirst.exec hwf hi, fun th hth => ?_, step_rst hwf hi⟩,
    fun s t run n rest hwf hquiet hrun ht hn => ?_⟩
  · exact (ResetFirst.tick (Config.mrrCmd_ne_nil hwf hth)).runOp (s := s.takeTick) hwf hi
  have habsent := hostAbsent_pulseAfter s n
  rw [← or_assoc] at hrun
  obtain hcommand | ⟨th, -, rfl⟩ := hrun
  · have hreplies := fun v => HostAbsent.command hcommand habsent (t := v)
    obtain ⟨op, rfl, hends, hends'⟩ := exists_op_of_command hcommand
    obtain ⟨u, hop⟩ := hends' s hwf hquiet
    obtain rfl : u = t := Host.Outcome.next.inj ((runOp_of_ok hwf hop).symm.trans ht)
    exact hends.resetAfter hwf hquiet hop hn hreplies rest
  · obtain ⟨u, hop, -⟩ := tick_quiet th hquiet
    obtain rfl : u = t := Host.Outcome.next.inj ((runOp_of_ok (s := s.takeTick) hwf hop).symm.trans ht)
    exact (endsBy_tick th).resetAfter (s := s.takeTick) hwf hquiet hop hn
      (fun v => HostAbsent.runOp (HostAbsent.blind.tick th) (s := s.takeTick.withInputs _) habsent) rest

end Sys2Proof.Machine
end

section
/-! SUPPORT. How many events an operation adds to the trace (spec/70_reset_and_hazards.md R341), whatever comes from outside:
each part of it is given a bound, and in sequence the bounds add up. -/

namespace Sys2Proof.Machine

variable {α β : Type} {c : Config}

/-! ### The sizes a bound is made of (R5, R341) -/

theorem length_planMux_le (c : Config) (t : Level) : (c.opp t).planMux.length ≤ longestPlan c := by
  unfold Config.opp longestPlan
  generalize c.opps = opps
  generalize t.toNat = i
  induction opps generalizing i with
  | nil => exact Nat.zero_le _
  | cons p rest ih =>
    cases i with
    | zero => exact Nat.le_max_left _ _
    | succ i => exact (ih i).trans (Nat.le_max_right _ _)

theorem length_timingSet {c : Config} (h : c.wf = true) (one : Bool) : (c.timingSet one).length = c.tpw := by
  obtain ⟨-, hset0, hset1⟩ := Config.wf_shape h
  cases one with
  | false => exact hset0
  | true => exact hset1

/-- R341: a bound on the events of the clock change, by the path that makes more of them. -/
def clockBound (c : Config) : Nat :=
  max ((c.tpw + 2) + (longestPlan c + 1) * (1 + c.waitMax)) (2 * c.tpw + 7 + 3 * c.waitMax)

/-- R341: the capture, one of the two voltage steps, the clock change, the DLL after it, and the refresh word. -/
theorem bodyBound_eq (c : Config) :
    bodyBound c = 2 + (1 + c.waitMax) + clockBound c + (1 + c.waitMax) + 1 := rfl

/-! ### Bounds, and how they add up -/

/-- A property of the trace, under the configuration `c`. -/
def TraceHas (c : Config) (F : List Event → Prop) (s : State) : Prop := s.cfg = c ∧ F s.env.trace

theorem traceProp_traceHas (c : Config) (F : List Event → Prop) : TraceProp c (fun _ => False) (TraceHas c F) where
  cfg _ h := h.1
  same _ _ hcfg htrace h := ⟨hcfg.trans h.1, htrace.symm ▸ h.2⟩
  pass _ _ _ h := h.elim

/-- The trace has at most `n` events. -/
def Within (c : Config) (n : Nat) : State → Prop := TraceHas c fun tr => tr.length ≤ n

theorem Within.mono {n m : Nat} {s : State} (h : Within c n s) (hle : n ≤ m) : Within c m s := ⟨h.1, h.2.trans hle⟩

/-- The operation adds at most `k` events, however it ends. -/
def Adds (c : Config) (k : Nat) (op : Op α) : Prop :=
  ∀ n, Triple (Within c n) op (fun _ => Within c (n + k)) fun _ => Within c (n + k)

namespace Adds

variable {k l : Nat} {op : Op α}

theorem mono (h : Adds c k op) (hle : k ≤ l) : Adds c l op := fun n =>
  (h n).conseq (fun _ hs => hs) (fun _ _ hs => hs.mono (Nat.add_le_add_left hle n))
    fun _ _ hs => hs.mono (Nat.add_le_add_left hle n)

/-- What adds nothing. -/
theorem of_keeps (h : ∀ n, Keeps (Within c n) (fun _ => Within c n) op) : Adds c 0 op := h

theorem pure (a : α) : Adds c 0 (pure a : Op α) := of_keeps fun _ => Keeps.pure a

theorem bind {f : α → Op β} (h : Adds c k op) (hf : ∀ a, Adds c l (f a)) : Adds c (k + l) (op >>= f) := fun n =>
  Triple.bind ((h n).conseq (fun _ hs => hs) (fun _ _ hs => hs) fun _ _ hs => hs.mono (by omega)) fun a =>
    (hf a (n + k)).conseq (fun _ hs => hs) (fun _ _ hs => hs.mono (by omega)) fun _ _ hs => hs.mono (by omega)

theorem read {f : State → Op β} (h : ∀ s, s.cfg = c → Adds c l (f s)) : Adds c l (get >>= f) := fun n s hs =>
  h s hs.1 n s hs

theorem ite {p : Prop} [Decidable p] {op' : Op α} (h : Adds c k op) (h' : Adds c l op') :
    Adds c (max k l) (if p then op else op') := by
  split
  · exact h.mono (Nat.le_max_left k l)
  · exact h'.mono (Nat.le_max_right k l)

theorem catchTimeout {op : Op Word} (h : Adds c k op) : Adds c k (catchTimeout op) := fun n =>
  Triple.catchTimeout (h n) (fun _ _ hs => hs) (fun _ hs => hs) fun _ _ _ hs => hs

/-! ### The sequencer's primitives -/

theorem update {f : State → State} (hcfg : ∀ s, (f s).cfg = s.cfg := by intros; rfl)
    (htrace : ∀ s, (f s).env.trace = s.env.trace := by intros; rfl) : Adds c 0 (modify f : Op Unit) :=
  of_keeps fun _ => (traceProp_traceHas c _).modify hcfg htrace

theorem goTo (x : SeqStep) : Adds c 0 (goTo x) := update

/-- An action without an event. -/
theorem silentAct {f : State → State} (hcfg : ∀ s, (f s).cfg = s.cfg := by intros; rfl)
    (htrace : ∀ s, (f s).env.trace = s.env.trace := by intros; rfl) : Adds c 0 (act f) :=
  of_keeps fun _ => (traceProp_traceHas c _).act hcfg htrace

theorem turn (n : Nat) : Turn (Within c n) fun _ => Within c (n + 1) :=
  (traceProp_traceHas c _).stable.turn.conseq (fun _ hs => hs) (fun _ _ hs => hs) fun _ _ hs =>
    Within.mono (n := n) hs (Nat.le_succ n)

/-- One event, after the turn. -/
theorem action {g : State → α × State} (hcfg : ∀ s, (g s).2.cfg = s.cfg)
    (htrace : ∀ s, ∃ e, (g s).2.env.trace = s.env.trace ++ [e]) : Adds c 1 (do awaitTurn; modifyGet g) := fun n =>
  Triple.bind (turn n) fun _ => Triple.modifyGet fun s hs => by
    obtain ⟨e, he⟩ := htrace s
    have hlength : (g s).2.env.trace.length = s.env.trace.length + 1 := by rw [he, List.length_append]; rfl
    exact ⟨(hcfg s).trans hs.1, hlength.le.trans (Nat.add_le_add_right hs.2 1)⟩

theorem act {f : State → State} (hcfg : ∀ s, (f s).cfg = s.cfg := by intros; rfl)
    (htrace : ∀ s, ∃ e, (f s).env.trace = s.env.trace ++ [e] := by intros; exact ⟨_, rfl⟩) : Adds c 1 (act f) :=
  action (g := fun s => ((), f s)) hcfg htrace

theorem memRead (w : Window) (off : Nat) : Adds c 1 (memRead w off) :=
  action (fun s => s.outRead_cfg w off) fun s => ⟨_, outRead_trace s w off⟩

theorem pollSignal (sig : Signal) : Adds c 1 (pollSignal sig) :=
  action (fun s => s.outPoll_cfg sig) fun s => ⟨_, outPoll_trace s sig⟩

theorem memWrite (w : Window) (off : Nat) (v : Word) : Adds c 1 (memWrite w off v) := act

/-! ### The bounded waits (R153) -/

theorem timedOut (sig : Signal) (crit : Bool) (arg : Byte) (snap : Word) : Adds c 0 (timedOut sig crit arg snap) :=
  bind update fun _ => ite (of_keeps fun _ => Triple.throw fun _ hs => hs) (bind update fun _ => pure _)

theorem pollLoop (sig : Signal) (n : Nat) : ∀ k, Adds c n (pollLoop sig n k) := by
  induction n with
  | zero => exact fun _ => pure _
  | succ n ih =>
    exact fun k => (bind update fun _ => (pollSignal sig).bind fun _ => ite (pure _) (ih (k + 1))).mono (by omega)

theorem waitSig (sig : Signal) (crit : Bool) (arg : Byte) : Adds c c.waitMax (waitSig sig crit arg) :=
  read fun _ hs => hs ▸ (pollLoop sig _ 1).bind fun _ => ite (pure _) (timedOut sig crit arg 0)

theorem readLoop (w : Window) (off : Nat) (mask : Word) (n : Nat) : ∀ k, Adds c n (readLoop w off mask n k) := by
  induction n with
  | zero => exact fun _ => pure _
  | succ n ih =>
    exact fun k => (bind update fun _ => (memRead w off).bind fun _ => bind update fun _ =>
      ite (pure _) (ih (k + 1))).mono (by omega)

theorem waitReg (w : Window) (off : Nat) (mask : Word) (sig : Signal) (crit : Bool) (arg : Byte) :
    Adds c c.waitMax (waitReg w off mask sig crit arg) :=
  read fun _ hs => hs ▸ (readLoop w off mask _ 1).bind fun _ =>
    ite (pure _) (read fun u _ => timedOut sig crit arg u.lastWord)

/-! ### The Transition Engine (R150 to R174) -/

theorem setVolt (v : Word) : Adds c (1 + c.waitMax) (setVolt v) := bind act fun _ => (waitSig _ _ _).bind fun _ => pure _

theorem arefWrite : Adds c 1 arefWrite := (goTo _).bind fun _ => act

theorem dllCapture : Adds c 2 dllCapture :=
  (goTo _).bind fun _ => read fun _ _ => (memRead _ _).bind fun _ => bind update fun _ => act

/-- R158: a word for each offset. -/
theorem writeWords (offs : List Nat) : ∀ vs, Adds c offs.length (writeWords offs vs) := by
  induction offs with
  | nil => exact fun _ => pure _
  | cons off offs ih =>
    intro vs
    cases vs with
    | nil => exact (pure _).mono (Nat.zero_le _)
    | cons v vs => exact ((memWrite _ _ _).bind fun _ => ih vs).mono (Nat.add_comm _ _).le

theorem repoint (first : Bool) (t : Level) (m src : Byte) : Adds c (1 + c.waitMax) (repoint first t m src) :=
  bind act fun _ => read fun _ _ => (waitSig _ _ _).bind fun _ => pure _

theorem setDiv (first : Bool) (t : Level) : Adds c (1 + c.waitMax) (setDiv first t) :=
  read fun _ _ => bind act fun _ => (waitSig _ _ _).bind fun _ => pure _

theorem repointAll (t : Level) (plan : List (Byte × Byte)) :
    ∀ first, Adds c (plan.length * (1 + c.waitMax)) (repointAll first t plan) := by
  induction plan with
  | nil => exact fun _ => (pure _).mono (Nat.zero_le _)
  | cons p rest ih =>
    intro first
    refine ((repoint _ _ _ _).bind fun _ => ih false).mono ?_
    rw [List.length_cons, Nat.succ_mul, Nat.add_comm]

theorem clockChange (o t : Level) : Adds c ((longestPlan c + 1) * (1 + c.waitMax)) (clockChange o t) := by
  refine read fun s hs => ?_
  subst hs
  have hplan := Nat.mul_le_mul_right (1 + s.cfg.waitMax) (length_planMux_le s.cfg t)
  rw [Nat.succ_mul]
  cases s.cfg.switchOrder o t with
  | muxThenDiv => exact ((repointAll _ _ _).bind fun _ => setDiv _ _).mono (by omega)
  | divThenMux => exact ((setDiv _ _).bind fun _ => repointAll _ _ _).mono (by omega)

theorem pssWait (x : SeqStep) : Adds c c.waitMax (pssWait x) :=
  ((goTo x).bind fun _ => (waitSig _ _ _).bind fun _ => pure _).mono (by omega)

theorem voltageStep (x : SeqStep) (t : Level) : Adds c (1 + c.waitMax) (voltageStep x t) :=
  ((goTo x).bind fun _ => read fun _ _ => setVolt _).mono (by omega)

theorem dllPost (t : Level) : Adds c (1 + c.waitMax) (dllPost t) :=
  ((goTo _).bind fun _ => read fun _ _ => ite (bind act fun _ => (waitReg _ _ _ _ _ _).bind fun _ => update) act).mono
    (by omega)

/-! ### The commands (R122 to R127) -/

theorem completeWith (code : BitVec 4) (res : Option Word) : Adds c 0 (completeWith code res) := silentAct

theorem completeTransition (r : Option Word) : Adds c 0 (completeTransition r) := by
  cases r with
  | some f => exact completeWith 0 (some f)
  | none => exact completeWith 2 none

theorem coldOp (b : Bool) : Adds c (1 + c.waitMax) (coldOp b) := by
  have hvoltage : Adds c (1 + c.waitMax) coldVoltage :=
    ((goTo _).bind fun _ => read fun _ _ => (setVolt _).bind fun _ => pure _).mono (by omega)
  exact (bind update fun _ => hvoltage.catchTimeout.bind fun _ => completeWith _ _).mono (by omega)

/-- What an operation adds to the trace where it answers a next state. -/
theorem runOp {k : Nat} {op : Op Unit} (h : Adds c k op) {s t : State} (hcfg : s.cfg = c) (hx : runOp op s = .next t) :
    t.env.trace.length ≤ s.env.trace.length + k := by
  obtain h | h | h := runOp_next (h s.env.trace.length) ⟨hcfg, le_rfl⟩ hx
  · exact h.2
  · exact h.2
  · exact h.2

/-! ### A tick up to its notifications (R225 to R230) -/

/-- R226: the command, the status reads and the data read. -/
theorem sampleRank (th : Thermal) (n : Nat) (second : Bool) (cmd : Word) :
    Adds c (c.waitMax + 2) (sampleRank th n second cmd) :=
  ((memWrite _ _ _).bind fun _ => (waitReg _ _ _ _ _ _).bind fun _ =>
    ite ((memRead _ _).bind fun _ => bind update fun _ => pure _) (pure _)).mono (by omega)

theorem sampleFrom (th : Thermal) (cmds : List (Word × Word)) :
    ∀ n, Adds c (2 * cmds.length * (c.waitMax + 2)) (sampleFrom th n cmds) := by
  induction cmds with
  | nil => exact fun _ => (pure _).mono (Nat.zero_le _)
  | cons p rest ih =>
    intro n
    refine ((sampleRank th n false p.1).bind fun _ => ite ((sampleRank th n true p.2).bind fun _ =>
      ite (ih (n + 1)) (pure _)) (pure _)).mono ?_
    have hsum : 2 * (rest.length + 1) * (c.waitMax + 2) = 2 * rest.length * (c.waitMax + 2) + 2 * (c.waitMax + 2) := by ring
    rw [List.length_cons]
    omega

theorem sampleAll (th : Thermal) : Adds c (2 * th.channels * (c.waitMax + 2)) (sampleAll th) :=
  ((goTo _).bind fun _ => bind update fun _ => sampleFrom th _ _).mono (by rw [Thermal.channels]; omega)

/-- R230: a notification for each channel at most. -/
theorem notifyFrom (news : List Byte) : ∀ prevs n, Adds c news.length (notifyFrom n news prevs) := by
  induction news with
  | nil => exact fun _ _ => pure _
  | cons new news ih =>
    intro prevs n
    cases prevs with
    | nil => exact (pure _).mono (Nat.zero_le _)
    | cons prev prevs =>
      exact (ite (ih _ _) (bind act fun _ => (ih prevs (n + 1)).bind fun _ => pure _)).mono
        (by rw [List.length_cons]; omega)

section

variable (hwf : c.wf = true)
include hwf

/-! ### The Transition Engine (R158 to R174) -/

/-- R158: the select word is read and written back. -/
theorem writeTiming (l : Level) : Adds c (c.tpw + 2) (writeTiming l) := by
  refine read fun s hs => ?_
  subst hs
  refine ((memRead _ _).bind fun w => ?_ : Adds s.cfg (1 + (s.cfg.tpw + 1)) _).mono (by omega)
  exact ((writeWords _ _).mono (length_timingSet hwf _).le).bind fun _ => memWrite _ _ _

theorem simplePath (o t : Level) (u : Bool) :
    Adds c ((c.tpw + 2) + (longestPlan c + 1) * (1 + c.waitMax)) (simplePath o t u) := by
  cases u with
  | false =>
    exact ((goTo _).bind fun _ => (clockChange o t).bind fun _ => (goTo _).bind fun _ => writeTiming hwf t).mono (by omega)
  | true =>
    exact (((goTo _).bind fun _ => writeTiming hwf t).bind fun _ => (goTo _).bind fun _ =>
      (clockChange o t).bind fun _ => pure _).mono (by omega)

/-- R165 to R171: three calls, two timing profiles and three waits. -/
theorem pllSafeSwitch (t : Level) : Adds c (2 * c.tpw + 7 + 3 * c.waitMax) (pllSafeSwitch t) := by
  have hsafeMux : Adds c 1 pssSafeMux := (goTo _).bind fun _ => act
  have hsafeTiming : Adds c (c.tpw + 2) pssSafeTiming :=
    ((goTo _).bind fun _ => read fun _ _ => writeTiming hwf _).mono (by omega)
  have hreprogram : Adds c (1 + c.waitMax) (pssReprogram t) :=
    ((goTo _).bind fun _ => bind act fun _ => (waitSig _ _ _).bind fun _ => pure _).mono (by omega)
  have htargetTiming : Adds c (c.tpw + 2) (pssTargetTiming t) := ((goTo _).bind fun _ => writeTiming hwf t).mono (by omega)
  have htargetMux : Adds c 1 (pssTargetMux t) := (goTo _).bind fun _ => act
  exact (hsafeMux.bind fun _ => hsafeTiming.bind fun _ => (pssWait _).bind fun _ => hreprogram.bind fun _ =>
    htargetTiming.bind fun _ => htargetMux.bind fun _ => pssWait _).mono (by omega)

theorem clockPath (o t : Level) (u : Bool) : Adds c (clockBound c) (clockPath o t u) :=
  read fun _ _ => (ite (pllSafeSwitch hwf t) (simplePath hwf o t u)).mono (Nat.max_comm _ _).le

/-- R174: only one of the two voltage steps is taken. -/
theorem changeLevel (o t : Level) : Adds c (bodyBound c) (changeLevel o t) := by
  rw [bodyBound_eq]
  have hend : ∀ (u : Bool) (k : Nat), Adds c k (if !u then Machine.voltageStep .voltDown t else Pure.pure ()) →
      Adds c (clockBound c + (1 + c.waitMax) + 1 + k) (do
        Machine.clockPath o t u; Machine.dllPost t; Machine.arefWrite; if !u then Machine.voltageStep .voltDown t) :=
    fun u k hlast => ((clockPath hwf o t u).bind fun _ => (dllPost t).bind fun _ => arefWrite.bind fun _ => hlast).mono
      (by omega)
  have hup := hend true 0 (pure _)
  have hdown := hend false (1 + c.waitMax) (voltageStep _ t)
  refine read fun s _ => ?_
  cases s.needsCapture t <;> cases goesUp s.cfg o t
  · exact hdown.mono (by omega)
  · exact ((voltageStep _ _).bind fun _ => hup).mono (by omega)
  · exact (dllCapture.bind fun _ => hdown).mono (by omega)
  · exact (dllCapture.bind fun _ => (voltageStep _ _).bind fun _ => hup).mono (by omega)

theorem transitionBody (f : Word) (o : Origin) : Adds c (bodyBound c) (transitionBody f o) := by
  have hresolve : Adds c 0 (resolveTarget f o) := (goTo _).bind fun _ => read fun _ _ => bind update fun _ => pure _
  have hmove : ∀ t, Adds c (bodyBound c) (moveTo t) := fun t => read fun s _ =>
    (ite arefWrite (changeLevel hwf _ t)).mono (by rw [bodyBound_eq]; omega)
  exact (hresolve.bind fun t => (hmove t).bind fun _ => read fun _ _ => pure _).mono (by omega)

/-! ### POLICY and TRANSITION (R123, R124) -/

theorem policyOp (f : Word) : Adds c (bodyBound c) (policyOp f) :=
  (read fun _ _ => ite (bind update fun _ => read fun _ _ =>
    (transitionBody hwf _ _).catchTimeout.bind completeTransition) (completeWith _ _)).mono (by omega)

theorem transitionOp (f : Word) : Adds c (bodyBound c) (transitionOp f) :=
  (read fun _ _ => ite (bind update fun _ =>
    (transitionBody hwf _ _).catchTimeout.bind completeTransition) (completeWith _ _)).mono (by omega)

/-! ### A tick after its notifications (R233 to R236) -/

theorem reevalIfChanged (old : Word) : Adds c (bodyBound c) (reevalIfChanged old) := by
  have hreeval : Adds c (bodyBound c) reeval := ((goTo _).bind fun _ => read fun _ _ =>
    ite ((transitionBody hwf _ _).catchTimeout.bind fun r => update (fun _ => by cases r <;> rfl) fun _ => by cases r <;> rfl)
      (pure _)).mono (by omega)
  exact (read fun _ _ => ite hreeval (pure _)).mono (by omega)

/-- R233: the shutdown request and the body. -/
theorem trip (old : Word) : Adds c (1 + bodyBound c) (trip old) :=
  bind act fun _ => (reevalIfChanged hwf old).bind fun _ => silentAct

/-- R234 to R236: the refresh word and the body. -/
theorem settle (th : Thermal) (old : Word) :
    Adds c (1 + bodyBound c) (do monAref; Machine.reevalIfChanged old; finishTick th) := by
  have haref : Adds c 1 monAref := (goTo _).bind fun _ => act
  exact haref.bind fun _ => (reevalIfChanged hwf old).bind fun _ => silentAct

end

end Adds

end Sys2Proof.Machine
end

section
/-! SUPPORT. The bound of a whole tick (spec/70_reset_and_hazards.md R341): the samples it takes are a row for each channel, so
there are no more notifications than channels. -/

namespace Sys2Proof.Machine

variable {c : Config} {th : Thermal}

/-- The table of samples has a row for each channel (R225). -/
def FullTable (c : Config) (th : Thermal) (s : State) : Prop := s.cfg = c ∧ s.sample.length = th.channels

theorem passesSampling_fullTable (c : Config) (th : Thermal) : PassesSampling c th (FullTable c th) fun _ _ => True where
  cfg _ h := h.1
  turn := (stable_of_frame (fun _ _ hf h => ⟨hf.cfg.trans h.1, hf.sample.symm ▸ h.2⟩) (fun _ _ _ => trivial)
    fun _ _ _ => trivial).turn
  setStep _ _ h := h
  attempt _ _ h := h
  lastWord _ _ h := h
  read s w off _ h := by
    rw [s.outRead_state]
    exact h
  write _ _ _ _ _ h := h
  poll _ _ _ h := h
  warned _ _ _ _ h := h
  sampled s n second w h := ⟨h.1, (List.length_modify ..).trans h.2⟩

/-- R225: the sampling starts from a fresh table. -/
theorem sampleAll_fullTable (c : Config) (th : Thermal) :
    Triple (fun s => s.cfg = c) (sampleAll th) (fun _ => FullTable c th) fun _ _ => True :=
  Triple.bind (Q := fun _ s => s.cfg = c) (Triple.goTo fun _ hs => hs) fun _ =>
    Triple.bind (Q := fun _ => FullTable c th) (Triple.modify fun _ hs => ⟨hs, List.length_replicate⟩) fun _ =>
      (passesSampling_fullTable c th).sampleFrom _ _

/-- Two things an operation does, it does together. -/
theorem Triple.and {α : Type} {P P' : State → Prop} {op : Op α} {Q Q' : α → State → Prop} {X X' : Stop → State → Prop}
    (h : Triple P op Q X) (h' : Triple P' op Q' X') :
    Triple (fun s => P s ∧ P' s) op (fun a s => Q a s ∧ Q' a s) fun e s => X e s ∧ X' e s := by
  intro s hs
  have hop := h s hs.1
  have hop' := h' s hs.2
  cases hr : op s with
  | ok a t => rw [hr] at hop hop'; exact ⟨hop, hop'⟩
  | error e t => rw [hr] at hop hop'; exact ⟨hop, hop'⟩

/-- R230: a notification for each channel at most. -/
theorem notifyChanges_within (n k : Nat) (prev : List Byte) :
    Triple (fun s => Within c n s ∧ s.rankLevel.length = k) (notifyChanges prev) (fun _ => Within c (n + k))
      fun _ => Within c (n + k) := by
  intro s hs
  obtain ⟨hs, hk⟩ := hs
  have hadds : Adds c k (do
      let any ← notifyFrom 0 (s.rankLevel.map chLevel) prev
      if any then modify fun s => s.raiseInt .tlevel) :=
    ((Adds.notifyFrom _ _ _).bind fun _ => .ite .update (.pure _)).mono (by rw [List.length_map]; omega)
  exact hadds n s hs

/-- R225: the tick from the end of its sampling. -/
theorem updateTick_within (hwf : c.wf = true) (n : Nat) :
    Triple (fun s => Within c n s ∧ s.sample.length = th.channels) (updateTick th)
      (fun _ => Within c (n + th.channels + (1 + bodyBound c))) fun _ => Within c (n + th.channels + (1 + bodyBound c)) := by
  have hmoved : ∀ old, Adds c (1 + bodyBound c) (do
      modify fun s => s.moveThermState th
      let s ← get
      if s.thermState = .tripped then trip old else do monAref; reevalIfChanged old; finishTick th) := fun old =>
    (Adds.bind .update fun _ => .read fun _ _ => .ite (.trip hwf old) (.settle hwf th old)).mono (by omega)
  refine Triple.bind (Q := fun _ s => Within c n s ∧ s.sample.length = th.channels) (Triple.goTo fun _ hs => hs) fun _ =>
    Triple.read fun s => ?_
  refine Triple.bind (Q := fun _ s => Within c n s ∧ s.rankLevel.length = th.channels) (Triple.modify fun _ hs => hs)
    fun _ => Triple.bind ((notifyChanges_within n th.channels _).conseq (fun _ hs => hs) (fun _ _ hs => hs)
      fun _ _ hs => hs.mono (Nat.le_add_right _ _)) fun _ => ?_
  exact Triple.read fun u => hmoved u.thermalCeiling _

/-- R225, R341: a tick's samples, and what follows them where every read succeeded. -/
theorem Adds.tick (hwf : c.wf = true) (hth : c.thermal = some th) : Adds c (tickBound c) (tick th) := by
  have hchannels : c.channels = th.channels := by rw [Config.channels, hth]
  have hbound : tickBound c = 2 * th.channels * (c.waitMax + 2) + th.channels + 1 + 1 + bodyBound c := by
    rw [tickBound, hchannels]
  intro n
  have hsampled : Triple (Within c n) (Machine.sampleAll th)
      (fun _ s => Within c (n + 2 * th.channels * (c.waitMax + 2)) s ∧ s.sample.length = th.channels)
      fun _ => Within c (n + tickBound c) :=
    ((Adds.sampleAll th n).and (sampleAll_fullTable c th)).conseq (fun _ hs => ⟨hs, hs.1⟩)
      (fun _ _ hs => ⟨hs.1, hs.2.2⟩) fun _ _ hs => hs.1.mono (by omega)
  refine hsampled.bind fun _ => Triple.ite (fun _ => ?_) fun _ => ?_
  · exact (updateTick_within hwf _).conseq (fun _ hs => hs) (fun _ _ hs => hs.mono (by omega))
      fun _ _ hs => hs.mono (by omega)
  · exact ((Adds.silentAct : Adds c 0 (finishTick th)) _).conseq (fun _ hs => hs.1) (fun _ _ hs => hs.mono (by omega))
      fun _ _ hs => hs.mono (by omega)

/-- What an operation that makes no event leaves of the trace. -/
theorem trace_of_runOp {op : Op Unit} (h : ∀ c F, Keeps (TraceHas c F) (fun _ => TraceHas c F) op) {s t : State}
    (hx : runOp op s = .next t) : t.env.trace = s.env.trace := by
  obtain h | h | h := runOp_next (h s.cfg fun tr => tr = s.env.trace) ⟨rfl, rfl⟩ hx
  · exact h.2
  · exact h.2
  · exact h.2

/-- Settles O56: the bounds of the operations' parts, added up. -/
theorem operationsAreBounded : Obligations.OperationsAreBounded := by
  intro s t hwf
  refine ⟨fun f hx => ?_, fun b hx => (Adds.coldOp b).runOp rfl hx,
    fun lo hi hx => trace_of_runOp (fun c F => (traceProp_traceHas c F).setBoundsOp lo hi) hx,
    fun hx => trace_of_runOp (fun c F => (traceProp_traceHas c F).completeWith 4 none) hx,
    fun th hth hx => (Adds.tick hwf hth).runOp (s := s.takeTick) rfl hx⟩
  obtain hx | hx := hx
  · exact (Adds.policyOp hwf f).runOp rfl hx
  · exact (Adds.transitionOp hwf f).runOp rfl hx

end Sys2Proof.Machine
end
